-- ==== Sys2Proof/Word.lean ====
section
/-! DEFINITION. The word types of the GIME timing state machine: one byte per transfer
(`20_memory.md` R84), sixteen-bit CPU addresses (R80), six-bit colour values (`10_state.md` R36).
Physical addresses and ticks are plain naturals (R20, R57): a tick never wraps, and the physical
width `PHYS_W` is a parameter. -/

namespace Sys2Proof

/-- One byte: the only width of a bus transfer (`20_memory.md` R84). -/
abbrev Byte := BitVec 8

/-- A CPU logical address, sixteen bits (`20_memory.md` R80 (a)). -/
abbrev Addr := BitVec 16

/-- A colour value, six bits (`10_state.md` R36, R50). -/
abbrev Colour := BitVec 6

/-- An interrupt mask, one bit per source (`10_state.md` R27, R39). -/
abbrev IrqMask := BitVec 6

end Sys2Proof
end

