-- ==== Sys2Proof/Syntax.lean ====
section
/-! DEFINITION. The operations of the block (`30_encoding.md` R120), one constructor for each
mnemonic of the operation table, and the form in which an operation reaches the block
(`Request`: the formats BUS17, EVT, CALL and PROC of R121, R124, R125, R120).
A mnemonic whose table has several match/mask blocks (`BUS.UPPER`, `BUS.IO`, `REG_RD.x`) is one
operation whose operand holds the address, so it is one constructor. -/

namespace Sys2Proof

/-- The closed set of scheduler events (`30_encoding.md` R124). -/
inductive EventId where
  | hsFall | hsRise | hBord | timer
deriving DecidableEq, Repr

/-- The burst selector 0..2: none, normal, phase-shifted (`30_encoding.md` R151). -/
inductive BurstSel where
  | none | normal | shifted
deriving DecidableEq, Repr

/-- One operand of an interface call or an internal procedure (`30_encoding.md` R125). Reals are
given as rationals (assumption 4). -/
inductive Operand where
  | nat (n : Nat)
  | rat (q : Rat)
  | bytes (l : List Byte)
deriving DecidableEq, Repr

/-- An operation in one of the four formats. Bus cycles and interface calls are issued from outside;
queue entries and internal procedures are the block's own (`30_encoding.md` R120). -/
inductive Request where
  /-- A bus cycle: the BUS17 word `{RnW, A}` and the data byte, which is an operand and not part of
  the encoding (`30_encoding.md` R121). -/
  | bus (word : BitVec 17) (data : Byte)
  /-- A queue entry `(tick, ev, seq)` with the code of `ev` (`30_encoding.md` R124). -/
  | event (code : BitVec 2) (tick seq : Nat)
  /-- An interface call with its operands (`30_encoding.md` R125). -/
  | call (code : Byte) (operands : List Operand)
  /-- An internal procedure by its identity code, with its operands: never invoked from outside
  (`30_encoding.md` R120; assumption 3). -/
  | proc (code : Byte) (operands : List Operand)
deriving DecidableEq, Repr

/-- Is the operation the block's own, which nothing outside issues (`30_encoding.md` R120,
`40_scheduler.md` R172)? -/
def Request.internal : Request → Bool
  | .bus _ _ | .call _ _ => false
  | .event _ _ _ | .proc _ _ => true

/-- The operations. `rnw` is 1 for a read, `a` the CPU address, `d` the data byte of a write. The
entry a window operation acts on is a sub-field of its address (`30_encoding.md` R122). -/
inductive Instr where
  -- format BUS17: cycles that select an external device (`41_bus_decode.md` R196 to R200)
  | busRamLo (rnw : Bool) (a : Addr) (d : Byte)
  | busUpper (rnw : Bool) (a : Addr) (d : Byte)
  | busFexx (rnw : Bool) (a : Addr) (d : Byte)
  | busIo (rnw : Bool) (a : Addr) (d : Byte)
  | busVec (rnw : Bool) (a : Addr) (d : Byte)
  -- the snooped write (`41_bus_decode.md` R205)
  | snoopWr (a : Addr) (d : Byte)
  -- writes of the register window (`42_registers.md` R222 to R237); an address that is not given is
  -- the register's under the default window map (`20_memory.md` R88)
  | regWr0 (d : Byte) (a : Addr := 0xFF90)
  | regWr1 (d : Byte) (a : Addr := 0xFF91)
  | regWr2 (d : Byte) (a : Addr := 0xFF92)
  | regWr3 (d : Byte) (a : Addr := 0xFF93)
  | regWr4 (d : Byte) (a : Addr := 0xFF94)
  | regWr5 (d : Byte) (a : Addr := 0xFF95)
  | regWr6 (d : Byte) (a : Addr := 0xFF96)
  | regWr7 (d : Byte) (a : Addr := 0xFF97)
  | regWr8 (d : Byte) (a : Addr := 0xFF98)
  | regWr9 (d : Byte) (a : Addr := 0xFF99)
  | regWr10 (d : Byte) (a : Addr := 0xFF9A)
  | regWr11 (d : Byte) (a : Addr := 0xFF9B)
  | regWr12 (d : Byte) (a : Addr := 0xFF9C)
  | regWr13 (d : Byte) (a : Addr := 0xFF9D)
  | regWr14 (d : Byte) (a : Addr := 0xFF9E)
  | regWr15 (d : Byte) (a : Addr := 0xFF9F)
  -- reads of the register window (`42_registers.md` R240 to R242)
  | regRd2 (a : Addr := 0xFF92)
  | regRd3 (a : Addr := 0xFF93)
  | regRdX (a : Addr)
  -- the bank, palette and SAM windows (`43_mmu_palette_sam.md`)
  | mmuWr (a : Addr) (d : Byte)
  | mmuRd (a : Addr)
  | palWr (a : Addr) (d : Byte)
  | palRd (a : Addr)
  | samClr (a : Addr) (d : Byte)
  | samSet (a : Addr) (d : Byte)
  | samRd (a : Addr)
  -- format EVT: the event handlers, with the entry's tick and stamp
  | evHsFall (tick seq : Nat)
  | evHsRise (tick seq : Nat)
  | evHBord (tick seq : Nat)
  | evTimer (tick seq : Nat)
  -- format CALL
  | schedule (ev : EventId) (tick : Nat)
  | cancel (ev : EventId)
  | advanceTo (target : Nat)
  | memoryCycle (rnw : Bool) (a : Addr) (d : Byte)
  | reset
  | setRegister (index : Nat) (value : Byte)
  | getRegister (index : Nat)
  | setMmuBank (index page : Nat)
  | setPaletteEntry (index : Nat) (y pb pr : Rat)
  | setBurst (index : Nat) (offset : Rat)
  | setHue (degrees : Rat)
  | renderPalette (sel : BurstSel) (n : Nat) (buf : List Byte)
  | renderArt2 (sel : BurstSel) (n : Nat) (buf : List Byte)
  | renderArt5 (sel : BurstSel) (n : Nat) (buf : List Byte)
  | renderSim (sel : BurstSel) (n : Nat) (buf : List Byte)
  | voRenderRow (sel : BurstSel) (n : Nat) (buf : List Byte)
  -- format PROC
  | recompute
  | regWrite (n : BitVec 4) (d : Byte)
  | flush
  | renderTo (p : Nat)
  | cell
  | raise (m : IrqMask)
  | updateLevels
  | timerLoad
  | timerClock
  | timerExpire
  | finishLine
  | rowAdvance
  | verticalStep
  | lineCounters
  | scheduleLine (tick : Nat)
deriving DecidableEq, Repr

end Sys2Proof
end

