-- ==== Sys2Proof/Config.lean ====
section
/-! DEFINITION. The configuration parameters of the block (`00_scope.md` R8), as one record of
plain data that `State` carries and no operation writes, so that a statement about every state is
a statement about every value of the parameters (assumption 5); and the free values, constants
without a body, which stand for what the spec leaves open (`93_implementation_defined.md` part 1).
The default values are in `Machine/Defaults.lean`. `none` stands for `INF` (R9). -/

namespace Sys2Proof

/-- A pair of values chosen by the horizontal timing `wide` (`44_raster.md` R281). -/
structure PerWidth where
  narrow : Nat
  wide : Nat
deriving DecidableEq, Repr

/-- The window addresses (`20_memory.md` R88; D5, D6, D9, D10). They are naturals, so that a window
at the top can be removed with 0x10000 (D9). -/
structure WindowMap where
  /-- `A_ROM_LO` -/
  romLo : Nat
  /-- `A_FEXX` -/
  fexx : Nat
  /-- `A_IO` -/
  io : Nat
  /-- `A_SNOOP_LO`, `A_SNOOP_HI` -/
  snoopLo : Nat
  snoopHi : Nat
  /-- `A_REG` -/
  reg : Nat
  /-- `A_MMU` -/
  mmu : Nat
  /-- `A_PAL` -/
  pal : Nat
  /-- `A_SAM` -/
  sam : Nat
  /-- `A_VEC` -/
  vec : Nat
deriving DecidableEq, Repr

/-- What the `VFetch` port is connected to (`46_pixel_generation.md` R354): nothing; the RAM array
that the CPU's cycles reach (`20_memory.md` R80 (c)); or an oracle, which may answer any byte
(`00_scope.md` R18; assumption 10). -/
inductive VideoPort where
  | absent | ram | oracle
deriving DecidableEq, Repr

/-- Legacy palette slots and border colours (`46_pixel_generation.md` R367 to R371,
`42_registers.md` R221; D27, D34). -/
structure LegacySlots where
  textFg0 : BitVec 4
  textBg0 : BitVec 4
  textFg1 : BitVec 4
  textBg1 : BitVec 4
  sgFg : Vector (BitVec 4) 8
  sgBg : BitVec 4
  cgBase0 : BitVec 4
  cgBase1 : BitVec 4
  rgBase0 : BitVec 4
  rgBase1 : BitVec 4
  borderText : Colour
  borderG0 : Colour
  borderG1 : Colour
deriving DecidableEq, Repr

/-- One row of a glyph, bit 7 the leftmost pixel (`46_pixel_generation.md` R372). -/
structure GlyphRow where
  code : Nat
  row : BitVec 4
  bits : Byte
deriving DecidableEq, Repr

/-- An output pixel, components 0..255 (`47_composite.md` R390). -/
structure Rgb where
  red : Byte
  green : Byte
  blue : Byte
deriving DecidableEq, Repr, Inhabited

/-- One entry of an artifact table: burst index, phase index and neighbourhood key
(`47_composite.md` R411, R412). -/
structure ArtEntry where
  sel : BurstSel
  phase : Nat
  key : Nat
  pixel : Rgb
deriving DecidableEq, Repr

/-- One row of the decode matrix: a weighted sum of `y`, `u`, `v` (`47_composite.md` R422). -/
structure DecodeRow where
  y : Rat
  u : Rat
  v : Rat
deriving DecidableEq, Repr

/-- The decode matrix `M_RGB` (`47_composite.md` R422). -/
structure DecodeMatrix where
  red : DecodeRow
  green : DecodeRow
  blue : DecodeRow
deriving DecidableEq, Repr

/-- A linear, shift-invariant row filter by its impulse response: the output at `x` is the sum of
`taps[k] * f[x + advance - k]` (`47_composite.md` R421; assumption 22). -/
structure RowFilter where
  taps : List Rat
  advance : Nat
deriving DecidableEq, Repr

/-- The gamma curve (`47_composite.md` R391, R423): the identity, or another monotone curve by the
values at which the quantised output rises by one, in any order (assumption 21). -/
inductive GammaCurve where
  | identity
  | levels (rises : List Rat)
deriving DecidableEq, Repr

/-- The output pixel format: 32 bits `0x00RRGGBB`, or another one by name, whose packing is a free
function (`48_vo_render.md` R441; assumption 21). -/
inductive PixelFormat where
  | xrgb8888
  | other (id : Nat)
deriving DecidableEq, Repr

/-- Which `render_line` variant `vo_render` uses (`47_composite.md` R390). -/
inductive Variant where
  | palette | art2 | art5 | sim
deriving DecidableEq, Repr

/-- The parameters (`00_scope.md` R8). -/
structure Params where
  /-- `TICKS_PER_PIXEL` (D1) -/
  ticksPerPixel : Nat
  /-- `SLOW_TICKS`, `FAST_TICKS` (D4) -/
  slowTicks : Nat
  fastTicks : Nat
  /-- The window addresses (D5, D6, D9, D10) -/
  win : WindowMap
  /-- `PHYS_W`, `BANK_W`, `DIRECT_BASE` (D7) -/
  physW : Nat
  bankW : Nat
  directBase : Nat
  /-- `IRQ_DISABLE_CLEARS_PENDING` (D14) -/
  irqDisableClearsPending : Bool
  /-- `TIMER_FAST_PERIOD`, `TIMER_OFFSET` (D16) -/
  timerFastPeriod : Nat
  timerOffset : Nat
  /-- `T_SL`, `T_WHS`, `P_VIS`, `N_VIS`, `LB`, `AAW`, `RB` (D17) -/
  tSl : Nat
  tWhs : Nat
  pVis : Nat
  nVis : Nat
  lb : PerWidth
  aaw : PerWidth
  rb : PerWidth
  /-- `N_VSYNC`, `N_VBLANK`, `TB`, `AA` (D18) -/
  nVsync : Nat
  nVblank : Nat
  tb : Vector Nat 4
  aa : Vector (Option Nat) 4
  /-- `FRAMESKIP` (D20) -/
  frameskip : Nat
  /-- `PAL_EXTRA_TB`, `PAL_SUPPRESS` (D21) -/
  palExtraTb : Nat
  palSuppress : Nat
  /-- `P_HBORD`, `VBORD_LINE_OFFSET` (D23) -/
  pHbord : PerWidth
  vbordLineOffset : Nat
  /-- `LPR_TABLE`, `ROWMASK` (D24) -/
  lprTable : Vector (Option Nat) 8
  rowmask : Vector (BitVec 4) 8
  /-- `GFX_BPR`, `TEXT_COLS` (D25) -/
  gfxBpr : Vector Nat 8
  textCols : Vector Nat 8
  /-- `LEGACY_LPR`, `SG_SPLIT`, the legacy slots and border values (D27, D34) -/
  legacyLpr : Vector Nat 8
  sgSplit : Nat
  legacy : LegacySlots
  /-- `FONT_HI`, `FONT_LEGACY` (D29): the rows given here; a row not given is a free value. -/
  fontHi : List GlyphRow
  fontLegacy : List GlyphRow
  /-- `RB_HEADROOM` (D32) -/
  rbHeadroom : Nat
  /-- `TMAX`, `NCYC`, `T0`, `MOD_PHASE` (radians, in units of pi; assumption 23), `PHASE0` (degrees),
  `K_U`, `K_V`, `SAT`, `M_RGB`, `GAMMA`, `N_BURST` (D35) -/
  tmax : Nat
  ncyc : Nat
  t0 : Nat
  modPhase : Rat
  phase0 : Rat
  kU : Rat
  kV : Rat
  sat : Rat
  mRgb : DecodeMatrix
  gamma : GammaCurve
  nBurst : Nat
  /-- `LP_Y`, `LP_C` (D36) -/
  lpY : RowFilter
  lpC : RowFilter
  /-- `VARIANT`, `CIDX_BLACK`, `CIDX_WHITE`, `ART2_LUT`, `ART5_LUT` (D38): the table entries given
  here; an entry not given is a free value. -/
  variant : Variant
  cidxBlack : Byte
  cidxWhite : Byte
  art2 : List ArtEntry
  art5 : List ArtEntry
  /-- `VP_X`, `VP_Y`, `VP_W`, `VP_H`, `PITCH`, `PF` (D56) -/
  vpX : Nat
  vpY : Nat
  vpW : Nat
  vpH : Nat
  pitch : Nat
  pf : PixelFormat
  /-- The `VFetch` port (`46_pixel_generation.md` R354, `00_scope.md` R18) -/
  vfetch : VideoPort
  /-- Is `RenderRow` connected to `vo_render.row` (`48_vo_render.md` R442)? -/
  voConnected : Bool
  /-- Is the `nlpr` of an underline the one sampled at the horizontal-sync fall
  (`70_reset_and_hazards.md` R503), or the one of the mode record when the cell is painted
  (`46_pixel_generation.md` R352)? Assumption 39. -/
  nlprPerLine : Bool
  /-- Is the `LPF` of the VBORD comparison the one sampled at the horizontal-sync fall
  (`42_registers.md` R231, `70_reset_and_hazards.md` R503), or the one of the registers at the border
  point (`44_raster.md` R290, R306, `10_state.md` R44)? Its value in the reset state is a free value
  (`Config.lpfSampled`, assumption 42). -/
  lpfPerLine : Bool
deriving DecidableEq, Repr

/-- Is the `VFetch` port connected (`46_pixel_generation.md` R354)? -/
def Params.vfetchConnected (c : Params) : Bool := c.vfetch != .absent

/-! Free values: nothing constrains them (assumption 33 for the counters they are applied to). -/

/-- The byte on the bus in a read that the block does not drive (U4; assumption 8). -/
opaque Config.undrivenByte : Nat → Byte

/-- The byte an external ROM or peripheral answers with (U24; assumption 9). -/
opaque Config.externalByte : Nat → Byte

/-- What a reset leaves in bank entry `i` (U5; assumption 7): applied to the draw and the index. -/
opaque Config.bankDraw : Nat → Nat → Nat

/-- What a reset leaves in palette entry `i` (U5; assumption 7). -/
opaque Config.palDraw : Nat → Nat → Colour

/-- The render buffer at power-on (U6; assumption 17), by position. -/
opaque Config.powerOnPixel : Nat → Byte

/-- Which of the values a video byte held the fetch returns (U7; assumption 11). -/
opaque Config.fetchMoment : Nat → Nat

/-- Whether a video byte written after its cell was painted is shown on this line (U7;
assumption 12). -/
opaque Config.lateWriteShown : Nat → Bool

/-- A row of a glyph the configuration does not give (U13; assumption 19): code, row. -/
opaque Config.glyphHi : Nat → BitVec 4 → Byte

/-- A row of a legacy glyph the configuration does not give (U13; assumption 19). -/
opaque Config.glyphLegacy : Nat → BitVec 4 → Byte

/-- An entry of the two-sample artifact table that is not given (U18; assumption 20). -/
opaque Config.art2Pixel : BurstSel → Nat → Nat → Rgb

/-- An entry of the three-sample artifact table that is not given (U18; assumption 20). -/
opaque Config.art5Pixel : BurstSel → Nat → Nat → Rgb

/-- A pixel packing other than `0x00RRGGBB` (U21; assumption 21). -/
opaque Config.packOther : Nat → Rgb → Nat

/-- A byte that the video port answers as an oracle (`00_scope.md` R18; assumption 10): applied to
the fetch and the address. -/
opaque Config.videoByte : Nat → Nat → Byte

/-- Which of the two moments that the rules give the hardware takes the `LPF` of the VBORD comparison
from, where a write came between them (assumption 42). -/
opaque Config.lpfSampled : Bool

/-- The outcome of a comparison that no precision tried decides, which the bound of assumption 4
excludes: applied to the angles and coefficients compared with 0. -/
opaque Config.undecided : List (Rat × Rat) → Bool

end Sys2Proof
end

