-- ==== Sys2Proof/Machine/Windows.lean ====
section
/-! DEFINITION. The windows of the CPU address space (`20_memory.md` R88) and the sub-fields of an
address (`30_encoding.md` R122). -/

namespace Sys2Proof

/-- The windows, in address order (`20_memory.md` R88). -/
inductive Window where
  | ramLo | upper | fexx | io | reg | mmu | pal | sam | vec
deriving DecidableEq, Repr

/-- The window an address belongs to, the one (`20_memory.md` R88, `41_bus_decode.md` R190). -/
def windowOf (m : WindowMap) (a : Addr) : Window :=
  if a.toNat < m.romLo then .ramLo
  else if a.toNat < m.fexx then .upper
  else if a.toNat < m.io then .fexx
  else if a.toNat < m.reg then .io
  else if a.toNat < m.mmu then .reg
  else if a.toNat < m.pal then .mmu
  else if a.toNat < m.sam then .pal
  else if a.toNat < m.vec then .sam
  else .vec

/-- The default addresses (`20_memory.md` R88). -/
def defaultWindows : WindowMap where
  romLo := 0x8000
  fexx := 0xFE00
  io := 0xFF00
  snoopLo := 0xFF22
  snoopHi := 0xFF23
  reg := 0xFF90
  mmu := 0xFFA0
  pal := 0xFFB0
  sam := 0xFFC0
  vec := 0xFFE0

/-- `A[3:0]`, the index of the register, MMU and palette windows (`30_encoding.md` R122). -/
def indexOf (a : Addr) : BitVec 4 := a.extractLsb' 0 4

/-- `A[4:1]`, the bit number of the SAM window (R122). -/
def samBitOf (a : Addr) : BitVec 4 := a.extractLsb' 1 4

/-- `A[0]`, the value a write of the SAM window gives its bit (`30_encoding.md` R145). -/
def samValueOf (a : Addr) : Bool := a.getLsbD 0

/-- The snooped latch of an address, `A - A_SNOOP_LO` (`41_bus_decode.md` R205). -/
def snoopIndexOf (m : WindowMap) (a : Addr) : Nat := a.toNat - m.snoopLo

/-- Is the cycle a write of a snooped address (`41_bus_decode.md` R205, `30_encoding.md` R123)? -/
def snoopedWrite (m : WindowMap) (rnw : Bool) (a : Addr) : Bool :=
  !rnw && decide (m.snoopLo ≤ a.toNat) && decide (a.toNat ≤ m.snoopHi)

end Sys2Proof
end

