-- ==== Sys2Proof/WellFormed.lean ====
section
/-! DEFINITION. Which terms of `Instr` stand for an operation of the table, under a window map: the
address of a cycle lies in its window and its sub-fields are those of the operation
(`30_encoding.md` R122, R123), a read carries no data byte of the CPU's, and a row has the length it
claims (R125). An index out of range is NOT ill formed: it is the contract violation of
`60_exceptions.md` R450, which the operation itself answers. -/

namespace Sys2Proof

/-- A read cycle takes no data byte from the CPU (`41_bus_decode.md` R195). -/
def dataFits (rnw : Bool) (d : Byte) : Bool := !rnw || d == 0

/-- A cycle at `a` lies in window `w`. -/
def inWindow (m : WindowMap) (w : Window) (a : Addr) : Bool := windowOf m a == w

/-- The write of register `n` at address `a`. -/
def isRegister (m : WindowMap) (n : BitVec 4) (a : Addr) : Bool :=
  inWindow m .reg a && indexOf a == n

/-- Well-formedness of an operation under the window map `m`. -/
def Instr.wellFormed (m : WindowMap) : Instr → Bool
  | .busRamLo rnw a d => inWindow m .ramLo a && dataFits rnw d
  | .busUpper rnw a d => inWindow m .upper a && dataFits rnw d
  | .busFexx rnw a d => inWindow m .fexx a && dataFits rnw d
  | .busIo rnw a d => inWindow m .io a && !snoopedWrite m rnw a && dataFits rnw d
  | .busVec rnw a d => inWindow m .vec a && dataFits rnw d
  | .snoopWr a _ => inWindow m .io a && snoopedWrite m false a
  | .regWr0 _ a => isRegister m 0 a
  | .regWr1 _ a => isRegister m 1 a
  | .regWr2 _ a => isRegister m 2 a
  | .regWr3 _ a => isRegister m 3 a
  | .regWr4 _ a => isRegister m 4 a
  | .regWr5 _ a => isRegister m 5 a
  | .regWr6 _ a => isRegister m 6 a
  | .regWr7 _ a => isRegister m 7 a
  | .regWr8 _ a => isRegister m 8 a
  | .regWr9 _ a => isRegister m 9 a
  | .regWr10 _ a => isRegister m 10 a
  | .regWr11 _ a => isRegister m 11 a
  | .regWr12 _ a => isRegister m 12 a
  | .regWr13 _ a => isRegister m 13 a
  | .regWr14 _ a => isRegister m 14 a
  | .regWr15 _ a => isRegister m 15 a
  | .regRd2 a => isRegister m 2 a
  | .regRd3 a => isRegister m 3 a
  | .regRdX a => inWindow m .reg a && indexOf a != 2 && indexOf a != 3
  | .mmuWr a _ => inWindow m .mmu a
  | .mmuRd a => inWindow m .mmu a
  | .palWr a _ => inWindow m .pal a
  | .palRd a => inWindow m .pal a
  | .samClr a _ => inWindow m .sam a && !samValueOf a
  | .samSet a _ => inWindow m .sam a && samValueOf a
  | .samRd a => inWindow m .sam a
  | .memoryCycle rnw _ d => dataFits rnw d
  | .renderPalette _ n buf => n == buf.length
  | .renderArt2 _ n buf => n == buf.length
  | .renderArt5 _ n buf => n == buf.length
  | .renderSim _ n buf => n == buf.length
  | .voRenderRow _ n buf => n == buf.length
  | .evHsFall _ _ | .evHsRise _ _ | .evHBord _ _ | .evTimer _ _ | .schedule _ _ | .cancel _
  | .advanceTo _ | .reset | .setRegister _ _ | .getRegister _ | .setMmuBank _ _
  | .setPaletteEntry _ _ _ _ | .setBurst _ _ | .setHue _ | .recompute | .regWrite _ _ | .flush
  | .renderTo _ | .cell | .raise _ | .updateLevels | .timerLoad | .timerClock | .timerExpire
  | .finishLine | .rowAdvance | .verticalStep | .lineCounters | .scheduleLine _ => true

end Sys2Proof
end

