-- ==== Sys2Proof/Decode.lean ====
section
/-! DEFINITION. How an operation is recognised (`30_encoding.md` R120 to R125): `decode` is total
on any request from outside and rejects by name, `readInternal` names the block's own operations,
which nothing decodes (R120); `encode` writes the request of an operation from the same
tables; `decodeTableWord` numbers the bits as `opcode_table.json` does. The windows stand where the
window map of the configuration puts them (`20_memory.md` R88). -/

namespace Sys2Proof

/-- Why a request stands for no operation. -/
inductive DecodeError where
  /-- No operation has this call code (`30_encoding.md` R125 assigns the others). -/
  | noSuchCode (code : Byte)
  /-- The operands are not those of the operation with this code (R125). -/
  | wrongOperands (code : Byte)
  /-- A queue entry or an internal procedure, which nothing outside issues (R120, `40_scheduler.md`
  R172). -/
  | internalOnly
  /-- A bus cycle or an interface call, which is no operation of the block's own. -/
  | outsideOnly
deriving DecidableEq, Repr

/-- The write of a register at `a` (`30_encoding.md` R123). -/
def decodeRegWrite (a : Addr) (d : Byte) : Instr :=
  match (indexOf a).toNat with
  | 0 => .regWr0 d a | 1 => .regWr1 d a | 2 => .regWr2 d a | 3 => .regWr3 d a
  | 4 => .regWr4 d a | 5 => .regWr5 d a | 6 => .regWr6 d a | 7 => .regWr7 d a
  | 8 => .regWr8 d a | 9 => .regWr9 d a | 10 => .regWr10 d a | 11 => .regWr11 d a
  | 12 => .regWr12 d a | 13 => .regWr13 d a | 14 => .regWr14 d a | _ => .regWr15 d a

/-- The read of a register at `a` (`30_encoding.md` R123). -/
def decodeRegRead (a : Addr) : Instr :=
  if indexOf a = 2 then .regRd2 a else if indexOf a = 3 then .regRd3 a else .regRdX a

/-- The BUS17 table (`30_encoding.md` R123) under the window map `m`: every word is an operation. The
data byte of a read is not the CPU's. -/
def decodeCycle (m : WindowMap) (rnw : Bool) (a : Addr) (d : Byte) : Instr :=
  let w : Byte := if rnw then 0 else d
  match windowOf m a with
  | .ramLo => .busRamLo rnw a w
  | .upper => .busUpper rnw a w
  | .fexx => .busFexx rnw a w
  | .io => if snoopedWrite m rnw a then .snoopWr a d else .busIo rnw a w
  | .reg => if rnw then decodeRegRead a else decodeRegWrite a d
  | .mmu => if rnw then .mmuRd a else .mmuWr a d
  | .pal => if rnw then .palRd a else .palWr a d
  | .sam => if rnw then .samRd a else if samValueOf a then .samSet a d else .samClr a d
  | .vec => .busVec rnw a w

/-- `RnW`, bit 16 of the word (`30_encoding.md` R121). -/
def wordRnw (w : BitVec 17) : Bool := w.getLsbD 16

/-- `A`, bits 15:0 of the word (`30_encoding.md` R121). -/
def wordAddr (w : BitVec 17) : Addr := w.extractLsb' 0 16

/-- The BUS17 word `{RnW, A}` (`30_encoding.md` R121). -/
def busWord (rnw : Bool) (a : Addr) : BitVec 17 := BitVec.ofBool rnw ++ a

/-- Decoding of a BUS17 word with its data byte. -/
def decodeBus (m : WindowMap) (w : BitVec 17) (d : Byte) : Instr :=
  decodeCycle m (wordRnw w) (wordAddr w) d

/-- The event codes (`30_encoding.md` R124). -/
def EventId.code : EventId → BitVec 2
  | .hsFall => 0
  | .hsRise => 1
  | .hBord => 2
  | .timer => 3

/-- The event with a code (`30_encoding.md` R124). -/
def eventOfCode (c : BitVec 2) : EventId :=
  if c = 0 then .hsFall else if c = 1 then .hsRise else if c = 2 then .hBord else .timer

/-- The operand 0..3 that names an event, in a call. -/
def eventOfNat : Nat → Option EventId
  | 0 => some .hsFall
  | 1 => some .hsRise
  | 2 => some .hBord
  | 3 => some .timer
  | _ => none

/-- The number of a burst selector (`30_encoding.md` R151). -/
def BurstSel.index : BurstSel → Nat
  | .none => 0
  | .normal => 1
  | .shifted => 2

/-- The burst selector with a number. -/
def burstOfNat : Nat → Option BurstSel
  | 0 => some .none
  | 1 => some .normal
  | 2 => some .shifted
  | _ => none

/-- Decoding of a queue entry (`30_encoding.md` R124). -/
def decodeEvent (code : BitVec 2) (tick seq : Nat) : Instr :=
  match eventOfCode code with
  | .hsFall => .evHsFall tick seq
  | .hsRise => .evHsRise tick seq
  | .hBord => .evHBord tick seq
  | .timer => .evTimer tick seq

/-- A `render_line` or `vo_render.row` call: `(burst_sel, n, buf)` with `buf` of `n` indices. -/
def rowCall (mk : BurstSel → Nat → List Byte → Instr) : List Operand → Option Instr
  | [.nat b, .nat n, .bytes buf] =>
    match burstOfNat b with
    | some sel => if n = buf.length then some (mk sel n buf) else none
    | none => none
  | _ => none

/-- A call without operands. -/
def plainCall (i : Instr) : List Operand → Option Instr
  | [] => some i
  | _ => none

/-- A call with one natural number. -/
def natCall (f : Nat → Option Instr) : List Operand → Option Instr
  | [.nat n] => f n
  | _ => none

/-- A call with two natural numbers. -/
def nat2Call (f : Nat → Nat → Option Instr) : List Operand → Option Instr
  | [.nat m, .nat n] => f m n
  | _ => none

/-- The operands of each call code (`30_encoding.md` R125); `none` for a code that names no call. -/
def callShape : Nat → Option (List Operand → Option Instr)
  | 0x00 => some (nat2Call fun e t => (eventOfNat e).map (.schedule · t))
  | 0x01 => some (natCall fun e => (eventOfNat e).map .cancel)
  | 0x02 => some (natCall fun t => some (.advanceTo t))
  | 0x03 => some fun
    | [.nat rnw, .nat a, .nat d] =>
      if rnw < 2 ∧ a < 65536 ∧ d < 256 then
        some (.memoryCycle (rnw == 1) (BitVec.ofNat 16 a) (if rnw = 1 then 0 else BitVec.ofNat 8 d))
      else none
    | _ => none
  | 0x04 => some (plainCall .reset)
  | 0x05 => some (nat2Call fun i v =>
      if v < 256 then some (.setRegister i (BitVec.ofNat 8 v)) else none)
  | 0x06 => some (natCall fun i => some (.getRegister i))
  | 0x07 => some (nat2Call fun i p => some (.setMmuBank i p))
  | 0x08 => some fun
    | [.nat i, .rat y, .rat pb, .rat pr] => some (.setPaletteEntry i y pb pr)
    | _ => none
  | 0x09 => some fun
    | [.nat i, .rat o] => some (.setBurst i o)
    | _ => none
  | 0x0A => some fun
    | [.rat h] => some (.setHue h)
    | _ => none
  | 0x10 => some (rowCall .renderPalette)
  | 0x11 => some (rowCall .renderArt2)
  | 0x12 => some (rowCall .renderArt5)
  | 0x13 => some (rowCall .renderSim)
  | 0x18 => some (rowCall .voRenderRow)
  | _ => none

/-- The operands of each identity code (`30_encoding.md` R120); `none` for a code that names no
procedure. -/
def procShape : Nat → Option (List Operand → Option Instr)
  | 0x20 => some (plainCall .recompute)
  | 0x21 => some (nat2Call fun n v =>
      if n < 16 ∧ v < 256 then some (.regWrite (BitVec.ofNat 4 n) (BitVec.ofNat 8 v)) else none)
  | 0x22 => some (plainCall .flush)
  | 0x23 => some (natCall fun p => some (.renderTo p))
  | 0x24 => some (plainCall .cell)
  | 0x25 => some (natCall fun m => if m < 64 then some (.raise (BitVec.ofNat 6 m)) else none)
  | 0x26 => some (plainCall .updateLevels)
  | 0x27 => some (plainCall .timerLoad)
  | 0x28 => some (plainCall .timerClock)
  | 0x29 => some (plainCall .timerExpire)
  | 0x2A => some (plainCall .finishLine)
  | 0x2B => some (plainCall .rowAdvance)
  | 0x2C => some (plainCall .verticalStep)
  | 0x2D => some (plainCall .lineCounters)
  | 0x2E => some (natCall fun t => some (.scheduleLine t))
  | _ => none

/-- The operation that a code of a table names with these operands. -/
def readShape (table : Nat → Option (List Operand → Option Instr)) (code : Byte)
    (ops : List Operand) : Except DecodeError Instr :=
  match table code.toNat with
  | none => .error (.noSuchCode code)
  | some f =>
    match f ops with
    | none => .error (.wrongOperands code)
    | some i => .ok i

/-- The decoder of what is issued from outside, under the window map `m`: bus cycles (`30_encoding.md`
R121, R123) and interface calls (R125). Total on every request. -/
def decode (m : WindowMap) : Request → Except DecodeError Instr
  | .bus w d => .ok (decodeBus m w d)
  | .call c ops => readShape callShape c ops
  | .event _ _ _ | .proc _ _ => .error .internalOnly

/-- The block's own operation that a queue entry (`30_encoding.md` R124) or an identity code (R120)
names. No operation of the block calls it; it is how one of them is run by itself (assumption 3). -/
def readInternal : Request → Except DecodeError Instr
  | .event c t s => .ok (decodeEvent c t s)
  | .proc c ops => readShape procShape c ops
  | .bus _ _ | .call _ _ => .error .outsideOnly

/-! The encoder, from the same tables. -/

/-- A cycle's request. -/
def busReq (rnw : Bool) (a : Addr) (d : Byte) : Request := .bus (busWord rnw a) d

/-- A call's request. -/
def callReq (code : Nat) (ops : List Operand) : Request := .call (BitVec.ofNat 8 code) ops

/-- An internal procedure's request. -/
def procReq (code : Nat) (ops : List Operand) : Request := .proc (BitVec.ofNat 8 code) ops

/-- A row call's request. -/
def rowReq (code : Nat) (sel : BurstSel) (n : Nat) (buf : List Byte) : Request :=
  callReq code [.nat sel.index, .nat n, .bytes buf]

/-- The number that names an event in a call. -/
def EventId.number (e : EventId) : Nat := e.code.toNat

/-- The encoder: the request of an operation. -/
def encode : Instr → Request
  | .busRamLo rnw a d => busReq rnw a d
  | .busUpper rnw a d => busReq rnw a d
  | .busFexx rnw a d => busReq rnw a d
  | .busIo rnw a d => busReq rnw a d
  | .busVec rnw a d => busReq rnw a d
  | .snoopWr a d => busReq false a d
  | .regWr0 d a => busReq false a d
  | .regWr1 d a => busReq false a d
  | .regWr2 d a => busReq false a d
  | .regWr3 d a => busReq false a d
  | .regWr4 d a => busReq false a d
  | .regWr5 d a => busReq false a d
  | .regWr6 d a => busReq false a d
  | .regWr7 d a => busReq false a d
  | .regWr8 d a => busReq false a d
  | .regWr9 d a => busReq false a d
  | .regWr10 d a => busReq false a d
  | .regWr11 d a => busReq false a d
  | .regWr12 d a => busReq false a d
  | .regWr13 d a => busReq false a d
  | .regWr14 d a => busReq false a d
  | .regWr15 d a => busReq false a d
  | .regRd2 a => busReq true a 0
  | .regRd3 a => busReq true a 0
  | .regRdX a => busReq true a 0
  | .mmuWr a d => busReq false a d
  | .mmuRd a => busReq true a 0
  | .palWr a d => busReq false a d
  | .palRd a => busReq true a 0
  | .samClr a d => busReq false a d
  | .samSet a d => busReq false a d
  | .samRd a => busReq true a 0
  | .evHsFall t s => .event EventId.hsFall.code t s
  | .evHsRise t s => .event EventId.hsRise.code t s
  | .evHBord t s => .event EventId.hBord.code t s
  | .evTimer t s => .event EventId.timer.code t s
  | .schedule ev t => callReq 0x00 [.nat ev.number, .nat t]
  | .cancel ev => callReq 0x01 [.nat ev.number]
  | .advanceTo t => callReq 0x02 [.nat t]
  | .memoryCycle rnw a d => callReq 0x03 [.nat rnw.toNat, .nat a.toNat, .nat d.toNat]
  | .reset => callReq 0x04 []
  | .setRegister i v => callReq 0x05 [.nat i, .nat v.toNat]
  | .getRegister i => callReq 0x06 [.nat i]
  | .setMmuBank i p => callReq 0x07 [.nat i, .nat p]
  | .setPaletteEntry i y pb pr => callReq 0x08 [.nat i, .rat y, .rat pb, .rat pr]
  | .setBurst i o => callReq 0x09 [.nat i, .rat o]
  | .setHue h => callReq 0x0A [.rat h]
  | .renderPalette sel n buf => rowReq 0x10 sel n buf
  | .renderArt2 sel n buf => rowReq 0x11 sel n buf
  | .renderArt5 sel n buf => rowReq 0x12 sel n buf
  | .renderSim sel n buf => rowReq 0x13 sel n buf
  | .voRenderRow sel n buf => rowReq 0x18 sel n buf
  | .recompute => procReq 0x20 []
  | .regWrite n d => procReq 0x21 [.nat n.toNat, .nat d.toNat]
  | .flush => procReq 0x22 []
  | .renderTo p => procReq 0x23 [.nat p]
  | .cell => procReq 0x24 []
  | .raise m => procReq 0x25 [.nat m.toNat]
  | .updateLevels => procReq 0x26 []
  | .timerLoad => procReq 0x27 []
  | .timerClock => procReq 0x28 []
  | .timerExpire => procReq 0x29 []
  | .finishLine => procReq 0x2A []
  | .rowAdvance => procReq 0x2B []
  | .verticalStep => procReq 0x2C []
  | .lineCounters => procReq 0x2D []
  | .scheduleLine t => procReq 0x2E [.nat t]

/-! The numbering of `opcode_table.json`. -/

/-- The operands of a call code, all zero: the table gives operands no bits. -/
def zeroOperands : Nat → List Operand
  | 0x00 | 0x05 | 0x07 | 0x21 => [.nat 0, .nat 0]
  | 0x01 | 0x02 | 0x06 | 0x23 | 0x25 | 0x2E => [.nat 0]
  | 0x03 => [.nat 0, .nat 0, .nat 0]
  | 0x08 => [.nat 0, .rat 0, .rat 0, .rat 0]
  | 0x09 => [.nat 0, .rat 0]
  | 0x0A => [.rat 0]
  | 0x10 | 0x11 | 0x12 | 0x13 | 0x18 => [.nat 0, .nat 0, .bytes []]
  | _ => []

/-- The request whose table bits are `w`: more than eight bits are a BUS17 word (with data byte 0),
eight bits a call code or, from 0x20 on, an identity code, fewer than eight an event code (the table gives EVT two bits;
assumption 2). `none` where `w` does not fit the format. -/
def Request.ofTable (nbits w : Nat) : Option Request :=
  if 8 < nbits then
    if w < 2 ^ 17 then some (.bus (BitVec.ofNat 17 w) 0) else none
  else if nbits = 8 then
    if w < 0x20 then some (.call (BitVec.ofNat 8 w) (zeroOperands w))
    else if w < 256 then some (.proc (BitVec.ofNat 8 w) (zeroOperands w))
    else none
  else if w < 4 then some (.event (BitVec.ofNat 2 w) 0 0) else none

/-- The operation that an instruction whose bits are `w` names: what the decoder reads, or in the
formats EVT and PROC the block's own operation with that code; under the default window
map, for which the table is written (`30_encoding.md` R123). -/
def decodeTableWord (nbits w : Nat) : Option Instr :=
  match Request.ofTable nbits w with
  | none => none
  | some r =>
    match if r.internal then readInternal r else decode defaultWindows r with
    | .ok i => some i
    | .error _ => none

end Sys2Proof
end

