-- ==== Sys2Proof/Machine/Defaults.lean ====
section
/-! DEFINITION. The default value of every configuration parameter, as
`92_eei_decisions.md` and the rules it names give it (assumptions 5 and 30). A parameter the spec
leaves OPEN without a default takes the value its examples use (`95_test_vectors.md`), which the
log names. -/

namespace Sys2Proof.Machine

/-- The narrow or the wide value. -/
def perWidth (p : PerWidth) (wide : Bool) : Nat := if wide then p.wide else p.narrow

/-- The legacy slots and border values (`46_pixel_generation.md` R367 to R371,
`42_registers.md` R221). -/
def defaultLegacy : LegacySlots where
  textFg0 := 13
  textBg0 := 12
  textFg1 := 15
  textBg1 := 14
  sgFg := #v[0, 1, 2, 3, 4, 5, 6, 7]
  sgBg := 8
  cgBase0 := 0
  cgBase1 := 4
  rgBase0 := 8
  rgBase1 := 10
  borderText := 0
  borderG0 := 18
  borderG1 := 63

/-- `M_RGB` (`47_composite.md` R422). -/
def defaultMatrix : DecodeMatrix where
  red := ⟨1, 0, 113983 / 100000⟩
  green := ⟨1, -39465 / 100000, -58060 / 100000⟩
  blue := ⟨1, 203211 / 100000, 0⟩

/-- The reference filter `BOX` over `n` positions (`47_composite.md` R421). -/
def boxFilter (n : Nat) : RowFilter := ⟨List.replicate n (1 / (n : Rat)), 0⟩

/-- The defaults of `00_scope.md` R8. -/
def defaultParams : Params where
  ticksPerPixel := 1
  slowTicks := 16
  fastTicks := 8
  win := defaultWindows
  physW := 19
  bankW := 6
  directBase := 0x70000
  irqDisableClearsPending := true
  timerFastPeriod := 4
  timerOffset := 2
  tSl := 912
  tWhs := 80
  pVis := 140
  nVis := 744
  lb := ⟨116, 52⟩
  aaw := ⟨512, 640⟩
  rb := ⟨116, 52⟩
  nVsync := 3
  nVblank := 13
  tb := #v[25, 21, 25, 9]
  aa := #v[some 192, some 200, none, some 225]
  frameskip := 0
  palExtraTb := 25
  palSuppress := 25
  pHbord := ⟨768, 832⟩
  vbordLineOffset := 1
  lprTable := #v[some 1, some 1, some 2, some 8, some 9, some 10, some 11, none]
  rowmask := #v[0, 0, 1, 7, 15, 15, 15, 15]
  gfxBpr := #v[16, 20, 32, 40, 64, 80, 128, 160]
  textCols := #v[32, 40, 32, 40, 64, 80, 64, 80]
  legacyLpr := #v[12, 3, 3, 2, 2, 1, 1, 1]
  sgSplit := 6
  legacy := defaultLegacy
  fontHi := []
  fontLegacy := []
  rbHeadroom := 32
  tmax := 4
  ncyc := 1
  t0 := 0
  modPhase := 0
  phase0 := 0
  kU := 872021 / 1000000
  kV := 1229951 / 1000000
  sat := 1
  mRgb := defaultMatrix
  gamma := .identity
  nBurst := 3
  lpY := boxFilter 4
  lpC := boxFilter 4
  variant := .palette
  cidxBlack := 0
  cidxWhite := 63
  art2 := []
  art5 := []
  vpX := 116
  vpY := 38
  vpW := 512
  vpH := 192
  pitch := 512
  pf := .xrgb8888
  vfetch := .ram
  voConnected := false
  nlprPerLine := true
  lpfPerLine := Config.lpfSampled

end Sys2Proof.Machine
end

