-- ==== Sys2Proof/Machine/Signal.lean ====
section
/-! DEFINITION. The reals of the signal path (`00_scope.md` R14, `47_composite.md` R392), exactly.
Every value the composite block forms from rational parameters is a sum of cosines of rational
angles with rational coefficients; such sums are closed under the sum and, by the angle-sum
formulas, under the product. They are held as data, and compared with a rational by enclosures of
the cosines, as fine as needed, and by an exact test for zero (assumption 4). Angles are degrees. -/

namespace Sys2Proof.Machine

/-- The tone `coef * cos(angle)`. -/
structure Tone where
  angle : Rat
  coef : Rat
deriving DecidableEq, Repr

/-- A real of the signal path: the sum of its tones, in rising order of angles in `[0, 90)`. -/
structure Amp where
  tones : List Tone
deriving DecidableEq, Repr

/-! Sums and products. -/

/-- An angle reduced to `[0, 360)` degrees. -/
def reduceAngle (d : Rat) : Rat := d - 360 * ((d / 360).floor : Rat)

/-- `c * cos(e)`, `e` in `[0, 360)`, with an angle in `[0, 90]`. -/
def foldAngle (e c : Rat) : Tone :=
  if e ≤ 90 then ⟨e, c⟩
  else if e ≤ 180 then ⟨180 - e, -c⟩
  else if e ≤ 270 then ⟨e - 180, -c⟩
  else ⟨360 - e, c⟩

/-- The cosines of 60 and 90 degrees are rational. -/
def Tone.simplify (t : Tone) : Tone :=
  if t.angle = 90 then ⟨0, 0⟩ else if t.angle = 60 then ⟨0, t.coef / 2⟩ else t

/-- The tone `c * cos(d)` in its one form. -/
def toneOf (d c : Rat) : Tone := (foldAngle (reduceAngle d) c).simplify

/-- One tone before the rest, left out where it is 0. -/
def consTone (t : Tone) (l : List Tone) : List Tone := if t.coef = 0 then l else t :: l

/-- A tone added to a sum. -/
def insertTone (t : Tone) : List Tone → List Tone
  | [] => consTone t []
  | u :: l =>
    if t.angle < u.angle then consTone t (u :: l)
    else if t.angle = u.angle then consTone ⟨u.angle, t.coef + u.coef⟩ l
    else u :: insertTone t l

/-- The sum of any tones. -/
def mergeTones (l : List Tone) : List Tone := l.foldr insertTone []

/-- 0. -/
def Amp.zero : Amp := ⟨[]⟩

/-- A rational number. -/
def Amp.ofRat (q : Rat) : Amp := ⟨consTone ⟨0, q⟩ []⟩

/-- `a + b`. -/
def Amp.add (a b : Amp) : Amp := ⟨a.tones.foldr insertTone b.tones⟩

/-- `q * a`. -/
def Amp.scale (q : Rat) (a : Amp) : Amp :=
  ⟨if q = 0 then [] else a.tones.map fun t => ⟨t.angle, q * t.coef⟩⟩

/-- `-a`. -/
def Amp.neg (a : Amp) : Amp := a.scale (-1)

/-- The product of two tones, by the angle-sum formulas (`47_composite.md` R392). -/
def toneProduct (t u : Tone) : List Tone :=
  [toneOf (t.angle + u.angle) (t.coef * u.coef / 2),
    toneOf (t.angle - u.angle) (t.coef * u.coef / 2)]

/-- `a * b`. -/
def Amp.mul (a b : Amp) : Amp :=
  ⟨mergeTones (a.tones.flatMap fun t => b.tones.flatMap fun u => toneProduct t u)⟩

/-- The sum of a list. -/
def Amp.sum (l : List Amp) : Amp := l.foldr Amp.add .zero

/-- The cosine of an angle in degrees. -/
def cosDeg (d : Rat) : Amp := ⟨mergeTones [toneOf d 1]⟩

/-- The sine of an angle in degrees. -/
def sinDeg (d : Rat) : Amp := cosDeg (d - 90)

/-! Enclosures. -/

/-- Newton's iteration for the square root of `n`, from above. -/
def newton : Nat → Nat → Nat → Nat
  | 0, _, x => x
  | k + 1, n, x => if (x + n / x) / 2 < x then newton k n ((x + n / x) / 2) else x

/-- The integer square root, as Newton's iteration finds it. -/
def rootGuess (n : Nat) : Nat := newton (Nat.log2 n + 2) n (2 ^ (Nat.log2 n / 2 + 1))

/-- A natural not above the square root of `n`. -/
def rootBelow (n : Nat) : Nat := if rootGuess n * rootGuess n ≤ n then rootGuess n else 0

/-- A natural not below the square root of `n`. -/
def rootAbove (n : Nat) : Nat :=
  if n ≤ (rootGuess n + 1) * (rootGuess n + 1) then rootGuess n + 1 else n

/-- Bounds of a real. -/
structure Span where
  lo : Rat
  hi : Rat
deriving DecidableEq, Repr

/-- Integers around `2^p * cos(m * 90 / 2^k)`, `m` at most `2^k`, by the half-angle formula. -/
def dyadicCos (p : Nat) : Nat → Nat → Int × Int
  | 0, m => if m = 0 then (2 ^ p, 2 ^ p) else (0, 0)
  | k + 1, m =>
    let r : Int × Int :=
      if m ≤ 2 ^ k then dyadicCos p k m
      else (-(dyadicCos p k (2 ^ (k + 1) - m)).2, -(dyadicCos p k (2 ^ (k + 1) - m)).1)
    (rootBelow ((2 ^ p + r.1).toNat * 2 ^ p / 2), rootAbove (((2 ^ p + r.2).toNat * 2 ^ p + 1) / 2))

/-- Bounds of the cosine of an angle in `(0, 90)`, from the two nearest multiples `m` and `m + 1` of
`90 / 2^k`. -/
def gridSpan (p k m : Nat) : Span :=
  ⟨((dyadicCos p k (m + 1)).1 : Rat) / 2 ^ p, ((dyadicCos p k m).2 : Rat) / 2 ^ p⟩

/-- Bounds of the cosine of an angle. -/
def cosSpan (k : Nat) (d : Rat) : Span :=
  if d = 0 then ⟨1, 1⟩
  else if 0 < d ∧ d < 90 then gridSpan (2 * k + 8) k (d / 90 * 2 ^ k).floor.toNat
  else ⟨-1, 1⟩

/-- Bounds of a tone. -/
def Tone.span (k : Nat) (t : Tone) : Span :=
  let s := cosSpan k t.angle
  if 0 ≤ t.coef then ⟨t.coef * s.lo, t.coef * s.hi⟩ else ⟨t.coef * s.hi, t.coef * s.lo⟩

/-- Bounds of a sum of tones. -/
def spanOf (k : Nat) : List Tone → Span
  | [] => ⟨0, 0⟩
  | t :: l => ⟨(t.span k).lo + (spanOf k l).lo, (t.span k).hi + (spanOf k l).hi⟩

/-! The test for zero. A sum of powers of a primitive `n`-th root of unity is 0 exactly where its
product with all `1 - x^(n/q)`, `q` a prime factor of `n`, is 0 in the group ring of the powers. -/

/-- The sum as one of exponentials: the angle of each power of `exp(i)`. -/
def chars (l : List Tone) : List Tone :=
  mergeTones (l.flatMap fun t =>
    [⟨reduceAngle t.angle, t.coef / 2⟩, ⟨reduceAngle (-t.angle), t.coef / 2⟩])

/-- The order of the root of unity whose powers occur. -/
def orderOf (l : List Tone) : Nat := l.foldr (fun t n => Nat.lcm (t.angle / 360).den n) 1

/-- `n` without its factors `q`. -/
def stripFactor : Nat → Nat → Nat → Nat
  | 0, _, n => n
  | k + 1, q, n => if n % q = 0 then stripFactor k q (n / q) else n

/-- The prime factors of `n` from `q` on. -/
def factorsFrom : Nat → Nat → Nat → List Nat
  | 0, _, n => if n ≤ 1 then [] else [n]
  | k + 1, q, n =>
    if n ≤ 1 then []
    else if n % q = 0 then q :: factorsFrom k (q + 1) (stripFactor (Nat.log2 n + 1) q n)
    else if n < q * q then [n]
    else factorsFrom k (q + 1) n

/-- The product with `1 - x^(n/q)`. -/
def dropRoots (l : List Tone) (q : Nat) : List Tone :=
  (l.map fun t => ⟨reduceAngle (t.angle + 360 / (q : Rat)), -t.coef⟩).foldr insertTone l

/-- Is the sum 0? -/
def isZeroSum (l : List Tone) : Bool :=
  ((factorsFrom (orderOf l) 2 (orderOf l)).foldl dropRoots (chars l)).isEmpty

/-! Comparison. -/

/-- Is the sum at least 0, as far as the bounds with `k` halvings say? -/
def signAt (k : Nat) (l : List Tone) : Option Bool :=
  if 0 ≤ (spanOf k l).lo then some true
  else if (spanOf k l).hi < 0 then some false
  else none

/-- The same, doubling the number of halvings. -/
def searchSign : Nat → Nat → List Tone → Option Bool
  | 0, k, l => signAt k l
  | n + 1, k, l =>
    match signAt k l with
    | some b => some b
    | none => searchSign n (2 * k) l

/-- A common denominator of the coefficients. -/
def coefDen (l : List Tone) : Nat := l.foldr (fun t n => Nat.lcm t.coef.den n) 1

/-- Twice the sum of the absolute coefficients over their common denominator: no conjugate of the
sum of algebraic integers that this makes of it is greater. -/
def heightOf (l : List Tone) : Nat :=
  2 * (l.map fun t => (t.coef * (coefDen l : Rat)).num.natAbs).sum

/-- The number of halvings that decides any sum that is not 0: such a sum, made one of algebraic
integers, has a norm of at least 1, so it is at least `height ^ -order` (assumption 4). -/
def signBits (l : List Tone) : Nat := 2 * (orderOf l * (Nat.log2 (heightOf l) + 2)) + 64

/-- Is the sum at least 0? `none` where it is not decided. -/
def nonneg? (l : List Tone) : Option Bool :=
  match signAt 16 l with
  | some b => some b
  | none =>
    if isZeroSum l then some true else searchSign (Nat.log2 (signBits l) + 1) 32 l

/-- `q ≤ a`, for a real `a`; where it is not decided, a free value. -/
def Amp.atLeast (q : Rat) (a : Amp) : Bool :=
  let d := a.add (.ofRat (-q))
  match nonneg? d.tones with
  | some b => b
  | none => Config.undecided (d.tones.map fun t => (t.angle, t.coef))

end Sys2Proof.Machine
end

