-- ==== Sys2Proof/Machine/BurstTable.lean ====
section
/-! DEFINITION. The burst tables (`10_state.md` R53, `47_composite.md` R400). -/

namespace Sys2Proof.Machine

/-- A burst descriptor: the offset and its four tables (`10_state.md` R53). -/
structure BurstDesc where
  offset : Rat
  modU : List Amp
  modV : List Amp
  demU : List Amp
  demV : List Amp
deriving DecidableEq, Repr

/-- `theta(t)`, in degrees; `MOD_PHASE` is `modPhase * pi` radians (`47_composite.md` R400). -/
def theta (c : Params) (t : Nat) : Rat :=
  360 * (c.ncyc : Rat) * (t : Rat) / (c.tmax : Rat) + 180 * c.modPhase

/-- `phi(b)`, in degrees (`47_composite.md` R400). -/
def phi (c : Params) (hue offset : Rat) : Rat := c.phase0 + offset + hue

/-- The descriptor with its tables built (`47_composite.md` R400). -/
def buildBurst (c : Params) (hue offset : Rat) : BurstDesc where
  offset := offset
  modU := (List.range c.tmax).map fun t => sinDeg (theta c t)
  modV := (List.range c.tmax).map fun t => cosDeg (theta c t)
  demU := (List.range c.tmax).map fun t => (sinDeg (theta c t + phi c hue offset)).scale 2
  demV := (List.range c.tmax).map fun t => (cosDeg (theta c t + phi c hue offset)).scale 2

end Sys2Proof.Machine
end

