-- ==== Sys2Proof/Machine/Memory.lean ====
section
/-! DEFINITION. Sparse memories in one canonical form. `Memory` is the external RAM array
(`00_scope.md` R11, `20_memory.md` R80 (b)): addresses strictly rising and no entry equal to what
an unlisted address reads as. `Store` holds values that may be absent (the colour table, R51; the
target buffer, R441): keys strictly rising. -/

namespace Sys2Proof.Machine

/-- A byte memory: (address, byte) pairs. -/
abbrev Memory := List Host.Cell

/-- What an address that nothing has written reads as (DESIGN CHOICE, assumption 10). -/
def unwrittenByte : Byte := 0

/-- The byte at an address. -/
def memRead : Memory → Nat → Byte
  | [], _ => unwrittenByte
  | (k, b) :: m, a => if k = a then b else memRead m a

/-- One entry before the rest, left out where it equals what an unlisted address reads as. -/
def memCons (a : Nat) (v : Byte) (m : Memory) : Memory :=
  if v = unwrittenByte then m else (a, v) :: m

/-- The memory with one byte written. -/
def memWrite : Memory → Nat → Byte → Memory
  | [], a, v => memCons a v []
  | (k, b) :: m, a, v =>
    if a < k then memCons a v ((k, b) :: m)
    else if a = k then memCons a v m
    else (k, b) :: memWrite m a v

/-- All keys are above `lo`, strictly rising, and no entry holds the unlisted value. -/
def memWfAbove : Nat → Memory → Bool
  | _, [] => true
  | lo, (k, b) :: m => decide (lo ≤ k) && b != unwrittenByte && memWfAbove (k + 1) m

/-- The canonical form. -/
def Memory.wf (m : Memory) : Bool := memWfAbove 0 m

/-- A store of values that may be absent. -/
abbrev Store (α : Type) := List (Nat × α)

/-- The value at a key, if any. -/
def storeFind {α : Type} : Store α → Nat → Option α
  | [], _ => none
  | (k, b) :: m, a => if k = a then some b else storeFind m a

/-- The store with one value set. -/
def storeSet {α : Type} : Store α → Nat → α → Store α
  | [], a, v => [(a, v)]
  | (k, b) :: m, a, v =>
    if a < k then (a, v) :: (k, b) :: m
    else if a = k then (a, v) :: m
    else (k, b) :: storeSet m a v

/-- All keys are at least `lo` and strictly rising. -/
def storeWfAbove {α : Type} : Nat → Store α → Bool
  | _, [] => true
  | lo, (k, _) :: m => decide (lo ≤ k) && storeWfAbove (k + 1) m

/-- The canonical form of a store. -/
def Store.wf {α : Type} (m : Store α) : Bool := storeWfAbove 0 m

end Sys2Proof.Machine
end

