-- ==== Sys2Proof/Machine/Recompute.lean ====
section
/-! DEFINITION. The derived fields of the registers and the mode record (`10_state.md` R25 to R34,
R37, R38), and the two halves of `Recompute` as functions of the stored bytes
(`42_registers.md` R220, R221). -/

namespace Sys2Proof.Machine

/-- The derived fields (`42_registers.md` R220), under the spec's names. -/
structure Fields where
  coco : Bool
  mmuen : Bool
  ien : Bool
  fen : Bool
  mc3 : Bool
  mc2 : Bool
  mc1 : Bool
  mc0 : Bool
  tins : Bool
  tr : Bool
  irqEn : IrqMask
  firqEn : IrqMask
  timerReload : BitVec 12
  bp : Bool
  bpi : Bool
  moch : Bool
  h50 : Bool
  lpr : BitVec 3
  lpf : BitVec 2
  hres : BitVec 3
  cres : BitVec 2
  brdr : Colour
  vsc : BitVec 4
  y : BitVec 16
  hven : Bool
  x : BitVec 7
  v : BitVec 3
  f : BitVec 7
  r1 : Bool
  ty : Bool
  ag : Bool
  gm : BitVec 3
  css : Bool
deriving DecidableEq, Repr

/-- The render modes (`10_state.md` R34). -/
inductive RenderMode where
  | legacyText | legacyCg | legacyRg | nativeText | nativeGfx
deriving DecidableEq, Repr

/-- The mode record (`10_state.md` R34): `nlpr = none` is `INF`. -/
structure ModeRecord where
  mode : RenderMode
  wide : Bool
  bpr : Nat
  r : BitVec 2
  nlpr : Option Nat
  rowStride : Nat
  attr : Bool
  border : Colour
  burstSel : BurstSel
deriving DecidableEq, Repr

/-- The field of `width` bits of `v` whose lowest bit is `lo` (`00_scope.md` R9). -/
def bits {w : Nat} (v : BitVec w) (lo width : Nat) : BitVec width := v.extractLsb' lo width

/-- Bit `i` of `v` (`00_scope.md` R9). -/
def bit {w : Nat} (v : BitVec w) (i : Nat) : Bool := v.getLsbD i

/-- `Recompute`, first half (`42_registers.md` R220). -/
def extractFields (reg : Vector Byte 16) (sam : BitVec 16) (snoop0 : Byte) : Fields where
  coco := bit reg[0] 7
  mmuen := bit reg[0] 6
  ien := bit reg[0] 5
  fen := bit reg[0] 4
  mc3 := bit reg[0] 3
  mc2 := bit reg[0] 2
  mc1 := bit reg[0] 1
  mc0 := bit reg[0] 0
  tins := bit reg[1] 5
  tr := bit reg[1] 0
  irqEn := bits reg[2] 0 6
  firqEn := bits reg[3] 0 6
  timerReload := bits reg[4] 0 4 ++ reg[5]
  bp := bit reg[8] 7
  bpi := bit reg[8] 5
  moch := bit reg[8] 4
  h50 := bit reg[8] 3
  lpr := bits reg[8] 0 3
  lpf := bits reg[9] 5 2
  hres := bits reg[9] 2 3
  cres := bits reg[9] 0 2
  brdr := bits reg[10] 0 6
  vsc := bits reg[12] 0 4
  y := reg[13] ++ reg[14]
  hven := bit reg[15] 7
  x := bits reg[15] 0 7
  v := bits sam 0 3
  f := bits sam 3 7
  r1 := bit sam 12
  ty := bit sam 15
  ag := bit snoop0 7
  gm := bits snoop0 4 3
  css := bit snoop0 3

/-- An entry of a table of eight indexed by a three-bit code. -/
def at8 {α : Type} (t : Vector α 8) (i : BitVec 3) : α := t[i.toNat]'i.isLt

/-- An entry of a table of four indexed by a two-bit code. -/
def at4 {α : Type} (t : Vector α 4) (i : BitVec 2) : α := t[i.toNat]'i.isLt

/-- `burst_sel` (`42_registers.md` R221, last line). -/
def burstSelOf (f : Fields) : BurstSel :=
  if f.moch then .none else if f.bpi then .shifted else .normal

/-- The mode record of the legacy-compatible modes (`42_registers.md` R221, `COCO = 1`). -/
def legacyMode (c : Params) (f : Fields) : ModeRecord :=
  let bpr := if bit f.v 0 then 16 else 32
  { mode := if !f.ag then .legacyText else if bit f.gm 0 then .legacyRg else .legacyCg
    wide := false
    bpr := bpr
    r := if bit f.v 0 then 0 else 1
    nlpr := some (at8 c.legacyLpr f.v)
    rowStride := bpr
    attr := false
    border :=
      if !f.ag then c.legacy.borderText
      else if f.css then c.legacy.borderG1 else c.legacy.borderG0
    burstSel := burstSelOf f }

/-- The mode record of the native modes (`42_registers.md` R221, `COCO = 0`). -/
def nativeMode (c : Params) (f : Fields) : ModeRecord :=
  let attr := !f.bp && bit f.cres 0
  let bpr :=
    if f.bp then at8 c.gfxBpr f.hres else at8 c.textCols f.hres * (1 + attr.toNat)
  { mode := if f.bp then .nativeGfx else .nativeText
    wide := bit f.hres 0
    bpr := bpr
    r := if f.bp then bits f.hres 1 2 else if bit f.hres 2 then 2 else 1
    nlpr := at8 c.lprTable f.lpr
    rowStride := if f.hven then 256 else bpr
    attr := attr
    border := f.brdr
    burstSel := burstSelOf f }

/-- `Recompute`, second half (`42_registers.md` R221). -/
def modeOf (c : Params) (f : Fields) : ModeRecord :=
  if f.coco then legacyMode c f else nativeMode c f

end Sys2Proof.Machine
end

