-- ==== Sys2Proof/Machine/Pixels.lean ====
section
/-! DEFINITION. From the bytes of a cell to colour values: `Pixels`, `Bits` and `Expand`
(`46_pixel_generation.md` R358 to R372), as functions of what a cell is painted from. -/

namespace Sys2Proof.Machine

/-- Four colour values, left to right (`46_pixel_generation.md` R345). -/
structure Quad where
  c0 : Colour
  c1 : Colour
  c2 : Colour
  c3 : Colour
deriving DecidableEq, Repr

/-- What a cell is painted from besides its bytes (`46_pixel_generation.md` R352,
`70_reset_and_hazards.md` R503; assumption 39 for `nlpr`). -/
structure CellCtx where
  mode : RenderMode
  r : BitVec 2
  attr : Bool
  cres : BitVec 2
  css : Bool
  nlpr : Option Nat
  row : BitVec 4
  blink : Bool
  pal : Vector Colour 16
deriving DecidableEq, Repr

/-- An entry of a file of sixteen. -/
def at16 {α : Type} (t : Vector α 16) (i : BitVec 4) : α := t[i.toNat]'i.isLt

/-- Palette indirection (`46_pixel_generation.md` R358). -/
def palOf (x : CellCtx) (i : BitVec 4) : Colour := at16 x.pal i

/-- `Bits(g, fg, bg)` (`46_pixel_generation.md` R360). -/
def bitsQuads (g : Byte) (fg bg : Colour) : Quad × Quad :=
  let p (i : Nat) := if bit g (7 - i) then fg else bg
  (⟨p 0, p 1, p 2, p 3⟩, ⟨p 4, p 5, p 6, p 7⟩)

/-- A quad of one colour. -/
def solidQuad (c : Colour) : Quad := ⟨c, c, c, c⟩

/-- The high nibble of a byte. -/
def hiNibble (c : Byte) : BitVec 4 := bits c 4 4

/-- The low nibble of a byte. -/
def loNibble (c : Byte) : BitVec 4 := bits c 0 4

/-- A nibble of native graphics (`46_pixel_generation.md` R361, `30_encoding.md` R147). -/
def gfxQuad (x : CellCtx) (n : BitVec 4) : Quad :=
  if x.cres = 0 then
    let p (i : Nat) := palOf x ((bits n i 1).setWidth 4)
    ⟨p 3, p 2, p 1, p 0⟩
  else if x.cres = 1 then
    let l := palOf x ((bits n 2 2).setWidth 4)
    let h := palOf x ((bits n 0 2).setWidth 4)
    ⟨l, l, h, h⟩
  else solidQuad (palOf x n)

/-- The first row listed for a code, or the free value (`46_pixel_generation.md` R372). -/
def glyphBits (font : List GlyphRow) (free : Nat → BitVec 4 → Byte) (code : Nat) (row : BitVec 4) :
    Byte :=
  match font.find? (fun g => g.code == code && g.row == row) with
  | some g => g.bits
  | none => free code row

/-- `FONT_HI[code][row]`. -/
def fontHi (c : Params) (code : BitVec 7) (row : BitVec 4) : Byte :=
  glyphBits c.fontHi Config.glyphHi code.toNat row

/-- `FONT_LEGACY[code][row]`. -/
def fontLegacy (c : Params) (code : BitVec 6) (row : BitVec 4) : Byte :=
  glyphBits c.fontLegacy Config.glyphLegacy code.toNat row

/-- `UL_ROW` (`46_pixel_generation.md` R363): `(nlpr - 1) mod 16`, 15 for `INF`. -/
def underlineRow : Option Nat → BitVec 4
  | some n => BitVec.ofNat 4 (n + 15)
  | none => 15

/-- Underline, then blink (`46_pixel_generation.md` R363, R366). -/
def applyAttr (x : CellCtx) (a g : Byte) : Byte :=
  let g := if bit a 6 && x.row == underlineRow x.nlpr then 0xFF else g
  if bit a 7 && x.blink then 0x00 else g

/-- `NATIVE_TEXT` (`46_pixel_generation.md` R362). -/
def nativeTextQuads (c : Params) (x : CellCtx) (ch a : Byte) : Quad × Quad :=
  let g := fontHi c (bits ch 0 7) x.row
  if x.attr then
    let fg := palOf x (8 + (bits a 3 3).setWidth 4)
    let bg := palOf x ((bits a 0 3).setWidth 4)
    bitsQuads (applyAttr x a g) fg bg
  else bitsQuads g (palOf x 1) (palOf x 0)

/-- `LEGACY_TEXT`, semigraphics (`46_pixel_generation.md` R368). -/
def semigraphicsQuads (c : Params) (x : CellCtx) (ch : Byte) : Quad × Quad :=
  let fg := palOf x (at8 c.legacy.sgFg (bits ch 4 3))
  let bg := palOf x c.legacy.sgBg
  let top := decide (x.row.toNat < c.sgSplit)
  let left := if top then bit ch 3 else bit ch 1
  let right := if top then bit ch 2 else bit ch 0
  (solidQuad (if left then fg else bg), solidQuad (if right then fg else bg))

/-- `LEGACY_TEXT`, alphanumeric (`46_pixel_generation.md` R367). -/
def legacyAlphaQuads (c : Params) (x : CellCtx) (ch : Byte) : Quad × Quad :=
  let g := fontLegacy c (bits ch 0 6) x.row
  let fg := palOf x (if x.css then c.legacy.textFg1 else c.legacy.textFg0)
  let bg := palOf x (if x.css then c.legacy.textBg1 else c.legacy.textBg0)
  if bit ch 6 then bitsQuads g bg fg else bitsQuads g fg bg

/-- A nibble of `LEGACY_CG` (`46_pixel_generation.md` R369, `30_encoding.md` R150). Where the base, a
parameter, plus the pixel's value exceeds 15, the index is taken mod 16 (DESIGN CHOICE,
assumption 44). -/
def legacyCgQuad (c : Params) (x : CellCtx) (n : BitVec 4) : Quad :=
  let base := if x.css then c.legacy.cgBase1 else c.legacy.cgBase0
  let l := palOf x (base + (bits n 2 2).setWidth 4)
  let h := palOf x (base + (bits n 0 2).setWidth 4)
  ⟨l, l, h, h⟩

/-- `LEGACY_RG` (`46_pixel_generation.md` R370, `30_encoding.md` R150). Where the base, a parameter,
is 15, the index of a set bit is 0 (DESIGN CHOICE, assumption 44). -/
def legacyRgQuads (c : Params) (x : CellCtx) (ch : Byte) : Quad × Quad :=
  let base := if x.css then c.legacy.rgBase1 else c.legacy.rgBase0
  bitsQuads ch (palOf x (base + 1)) (palOf x base)

/-- `Pixels(c, a)` by mode (`46_pixel_generation.md` R360 to R370). -/
def pixels (c : Params) (x : CellCtx) (ch a : Byte) : Quad × Quad :=
  match x.mode with
  | .nativeGfx => (gfxQuad x (hiNibble ch), gfxQuad x (loNibble ch))
  | .nativeText => nativeTextQuads c x ch a
  | .legacyText => if bit ch 7 then semigraphicsQuads c x ch else legacyAlphaQuads c x ch
  | .legacyCg => (legacyCgQuad c x (hiNibble ch), legacyCgQuad c x (loNibble ch))
  | .legacyRg => legacyRgQuads c x ch

/-- `Expand(q, r)` (`46_pixel_generation.md` R359). -/
def expand (q : Quad) (r : BitVec 2) : List Colour :=
  if r = 0 then
    List.replicate 4 q.c0 ++ List.replicate 4 q.c1 ++ List.replicate 4 q.c2 ++ List.replicate 4 q.c3
  else if r = 1 then [q.c0, q.c0, q.c1, q.c1, q.c2, q.c2, q.c3, q.c3]
  else if r = 2 then [q.c0, q.c1, q.c2, q.c3]
  else [q.c0, q.c2]

/-- `W = 2 * (16 >> r)`, the width of a cell (`46_pixel_generation.md` R345). -/
def cellWidth (r : BitVec 2) : Nat := 2 * (16 >>> r.toNat)

/-- The pixels of a whole cell as render-buffer bytes (`46_pixel_generation.md` R353). -/
def cellPixels (c : Params) (x : CellCtx) (ch a : Byte) : List Byte :=
  let q := pixels c x ch a
  (expand q.1 x.r ++ expand q.2 x.r).map (·.setWidth 8)

end Sys2Proof.Machine
end

