-- ==== Sys2Proof/Machine/State.lean ====
section
/-! DEFINITION. The state of the block as plain data (`10_state.md`), the faults and refusals, and
the state after power-on and reset (`70_reset_and_hazards.md` R490, R491). -/

namespace Sys2Proof.Machine

/-- The field state of the raster (`10_state.md` R43). -/
inductive VState where
  | vblank | topBorder | active | bottomBorder | vsync
deriving DecidableEq, Repr

/-- The select class of a cycle (`30_encoding.md` R152, `41_bus_decode.md` R191). -/
inductive Sel where
  | ram | romInt | romExt | io | internal
deriving DecidableEq, Repr

/-- What the decoder puts out: select, `RAS` and the physical address, present exactly with
`RAS = 1` (`41_bus_decode.md` R190). -/
structure BusSelect where
  sel : Sel
  ras : Bool
  z : Option Nat
deriving DecidableEq, Repr

/-- The notifications (`00_scope.md` R13, `30_encoding.md` R151, R152). -/
inductive Notice where
  | hs (level : Bool)
  | fs (level : Bool)
  | irq (level : Bool)
  | firq (level : Bool)
  | renderRow (row : List Byte) (n : Nat) (burst : BurstSel)
  | cycle (rnw : Bool) (a : Addr) (select : BusSelect) (ticks : Nat)
deriving DecidableEq, Repr

/-- An entry of the scheduler's queue (`10_state.md` R21, `40_scheduler.md` R171). -/
structure QEntry where
  tick : Nat
  ev : EventId
  seq : Nat
deriving DecidableEq, Repr

/-- A byte of RAM written during the current line: when, where, and what it held before
(`20_memory.md` R99; assumption 11). -/
structure LineWrite where
  tick : Nat
  addr : Nat
  old : Byte
deriving DecidableEq, Repr

/-- A cell painted on the current line: where, from which bytes and in which context
(`20_memory.md` R99; assumption 12). -/
structure PaintedCell where
  pos : Nat
  width : Nat
  charAddr : Option Nat
  char : Byte
  attrAddr : Option Nat
  attr : Byte
  ctx : CellCtx
deriving DecidableEq, Repr

/-- The per-line counters and the render buffer (`10_state.md` R49, R50), with the model's record
of what a video fetch of this line may see. -/
structure Line where
  beamPos : Nat
  lbRem : Nat
  aaRem : Nat
  vramRem : Nat
  rbRem : Nat
  fetchK : Nat
  buf : List Byte
  writes : List LineWrite
  cells : List PaintedCell
  picks : Nat
  /-- `nlpr` as the line's horizontal-sync fall sampled it (`70_reset_and_hazards.md` R503;
  assumption 39) -/
  nlpr : Option Nat
  /-- `LPF` as the line's horizontal-sync fall sampled it (`42_registers.md` R231, R503;
  assumption 42) -/
  lpf : BitVec 2
deriving DecidableEq, Repr

/-- A colour in the linear space of the composite block (`10_state.md` R51). -/
structure Ycc where
  y : Rat
  pb : Rat
  pr : Rat
deriving DecidableEq, Repr

/-- The state of the machine. -/
structure State where
  /-- The operations issued by the external agents and not yet run (the model's; assumption 1). -/
  inbox : List Request
  /-- A queue entry or an internal procedure that the block is to run by itself in the next step; no
  operation puts one here (the model's; assumption 3) -/
  internal : Option Request
  /-- What the collaborators' callbacks schedule, one list of calls for each callback to come
  (`40_scheduler.md` R177; the model's, assumption 40) -/
  callbacks : List (List (EventId × Nat))
  /-- The configuration (`00_scope.md` R8): no operation writes it (assumption 5). -/
  cfg : Params
  /-- R20 -/
  now : Nat
  /-- R21 -/
  queue : List QEntry
  /-- R22 -/
  seqNext : Nat
  /-- R23 -/
  reg : Vector Byte 16
  /-- R25 to R33, R37, R38: the derived fields -/
  fields : Fields
  /-- R34: the mode record -/
  mode : ModeRecord
  /-- R35: entries below `2 ^ BANK_W` -/
  bank : Vector Nat 16
  /-- R36 -/
  pal : Vector Colour 16
  /-- R37 -/
  sam : BitVec 16
  /-- R38: `snoop[0]` -/
  snoop0 : Byte
  /-- R38: `snoop[1]` -/
  snoop1 : Byte
  /-- R39 -/
  pendingIrq : IrqMask
  /-- R39 -/
  pendingFirq : IrqMask
  /-- R40 -/
  irqLevel : Bool
  /-- R40 -/
  firqLevel : Bool
  /-- R41 -/
  timerCounter : Nat
  /-- R41 -/
  timerRunning : Bool
  /-- R41 -/
  blink : Bool
  /-- R43 -/
  vstate : VState
  /-- R44 -/
  lcount : Nat
  /-- R44 -/
  scanline : Nat
  /-- R45 -/
  lineStart : Nat
  /-- R46 -/
  row : BitVec 4
  /-- R46: `B`, below `2 ^ PHYS_W` -/
  base : Nat
  /-- R47 -/
  hsLevel : Bool
  /-- R47 -/
  fsLevel : Bool
  /-- R48 -/
  frameCtr : Nat
  /-- R49, R50 -/
  line : Line
  /-- R51: a colour index without an entry is unwritten -/
  colour : Store Ycc
  /-- R52 -/
  hue : Rat
  /-- R53 -/
  burst : List BurstDesc
  /-- R441 -/
  voLine : Nat
  /-- R441: the target buffer -/
  target : Store Nat
  /-- The external RAM array (R11, R80 (b); assumption 10) -/
  ram : Memory
  /-- The notifications sent, newest first, each with its tick (R13; the model's, assumption 15) -/
  trace : List (Nat × Notice)
  /-- The byte the latest read produced (R195; the model's, assumption 16) -/
  readData : Byte
  /-- The row the latest `render_line` produced (R390; the model's, assumption 16) -/
  rowOut : List Rgb
  /-- Free values drawn so far (the model's, assumption 33) -/
  draws : Nat
deriving DecidableEq, Repr

/-- The faults: the caller contract violations of `60_exceptions.md` R450, after which no
operation is defined. Each is safe: the spec itself ends the run there (assumption 25 for the
last). -/
inductive Fault where
  /-- `ContractViolation(AdvanceToPast)`: raised by `advance_to` below `now` (R176). Safe. -/
  | advanceToPast
  /-- `ContractViolation(NoVideoFetch)`: raised by a cell that must fetch while the `VFetch` port
  is not connected (R354). Safe. -/
  | noVideoFetch
  /-- `ContractViolation(BadIndex)`: raised by `set_register`, `get_register`, `set_mmu_bank`,
  `set_burst`, `set_palette_entry` with an index out of range. Safe. -/
  | badIndex
  /-- `ContractViolation(UnsetColour)`: raised by the renderers for a row that holds a colour index
  without a triple (R404). Safe. -/
  | unsetColour
  /-- `advance_to` does not return, because an event re-schedules itself for ever (U22): raised
  only where `T_SL`, `TIMER_FAST_PERIOD` or `TICKS_PER_PIXEL` is 0. Safe. -/
  | schedulerStuck
deriving DecidableEq, Repr

/-- The refusals. -/
inductive Refusal where
  /-- An operation without a meaning in the model: raised by `exec`. Safe. -/
  | notModelled (mnemonic : String)
  /-- A request that stands for no operation, or for one that its issuer cannot invoke
  (`30_encoding.md` R120, R125): raised by `step`. Safe. -/
  | notAnOperation (e : DecodeError)
deriving DecidableEq, Repr

/-- The answer of an operation. -/
abbrev Res := Host.Outcome State Fault Refusal

/-- A line without pixels to paint (`70_reset_and_hazards.md` R490) over a buffer. -/
def Line.blank (buf : List Byte) (nlpr : Option Nat) (lpf : BitVec 2) : Line where
  beamPos := 0
  lbRem := 0
  aaRem := 0
  vramRem := 0
  rbRem := 0
  fetchK := 0
  buf := buf
  writes := []
  cells := []
  picks := 0
  nlpr := nlpr
  lpf := lpf

/-- The bytes of all registers after reset (`10_state.md` R23). -/
def zeroRegs : Vector Byte 16 := Vector.replicate 16 0

/-- `bank[i]` after the reset with draw number `n` (`70_reset_and_hazards.md` R490). -/
def drawnBank (c : Params) (n : Nat) : Vector Nat 16 :=
  Vector.ofFn fun i => Config.bankDraw n i.val % 2 ^ c.bankW

/-- `pal[i]` after the reset with draw number `n` (`70_reset_and_hazards.md` R490). -/
def drawnPal (n : Nat) : Vector Colour 16 := Vector.ofFn fun i => Config.palDraw n i.val

/-- The derived fields after reset. -/
def resetFields : Fields := extractFields zeroRegs 0 0

/-- The state after the power-on reset with parameters `c`: `reset` applied to the power-on state
(`70_reset_and_hazards.md` R490, R491), field by field. -/
def State.resetWith (c : Params) : State where
  inbox := []
  internal := none
  callbacks := []
  cfg := c
  now := 0
  queue := [⟨c.tSl * c.ticksPerPixel, .hsFall, 0⟩]
  seqNext := 1
  reg := zeroRegs
  fields := resetFields
  mode := modeOf c resetFields
  bank := drawnBank c 0
  pal := drawnPal 0
  sam := 0
  snoop0 := 0
  snoop1 := 0
  pendingIrq := 0
  pendingFirq := 0
  irqLevel := false
  firqLevel := false
  timerCounter := 0
  timerRunning := false
  blink := false
  vstate := .vblank
  lcount := 0
  scanline := 0
  lineStart := 0
  row := 0
  base := 0
  hsLevel := true
  fsLevel := true
  frameCtr := 0
  line := Line.blank ((List.range (c.nVis + c.rbHeadroom)).map Config.powerOnPixel)
    (modeOf c resetFields).nlpr resetFields.lpf
  colour := []
  hue := 0
  burst := List.replicate c.nBurst (buildBurst c 0 0)
  voLine := 0
  target := []
  ram := []
  trace := []
  readData := 0
  rowOut := []
  draws := 1

/-- The machine right after power-on and reset, with the default parameters (S0 of
`95_test_vectors.md`). -/
def State.reset : State := State.resetWith defaultParams

end Sys2Proof.Machine
end

