-- ==== Sys2Proof/Machine/Flags.lean ====
section
/-! DEFINITION. The interrupt masks and levels as pure functions (`60_exceptions.md` R455 to R460). -/

namespace Sys2Proof.Machine

/-- The timer's source bit (`60_exceptions.md` R455). -/
def irqTimer : IrqMask := 0x20

/-- The horizontal border's source bit (R455). -/
def irqHBord : IrqMask := 0x10

/-- The vertical border's source bit (R455). -/
def irqVBord : IrqMask := 0x08

/-- `compute_levels`, one output: asserted when enabled and a bit is pending (R458). -/
def computeLevel (enable : Bool) (pending : IrqMask) : Bool := enable && pending != 0

/-- The pending mask after the sources `m` occur under the enable mask (R457). -/
def latchPending (pending enable m : IrqMask) : IrqMask := pending ||| (m &&& enable)

/-- The pending mask after a write of the enable register (`42_registers.md` R224, R225). -/
def disablePending (c : Params) (pending : IrqMask) (d : Byte) : IrqMask :=
  if c.irqDisableClearsPending then pending &&& bits d 0 6 else pending

/-- The byte a pending read returns (`30_encoding.md` R142). -/
def pendingByte (pending : IrqMask) : Byte := pending.setWidth 8

end Sys2Proof.Machine
end

