-- ==== Sys2Proof/Machine/Operands.lean ====
section
/-! DEFINITION. What an operation reads from the state before it acts: the address decoder and
translation (`41_bus_decode.md` R190, `20_memory.md` R92, R93), the cycle length (R192), the fetch
address (`46_pixel_generation.md` R355), the line targets (`44_raster.md` R290), the video start
(R299) and the beam position (`46_pixel_generation.md` R350). All are pure (R86). -/

namespace Sys2Proof.Machine

/-- The bank table index `{TR, A[15:13]}` (`20_memory.md` R92). -/
def bankIndex (tr : Bool) (a : Addr) : BitVec 4 := BitVec.ofBool tr ++ bits a 13 3

/-- `DIRECT_BASE | A` (`20_memory.md` R92, R93). It is not reduced mod `2^PHYS_W` where `DIRECT_BASE`
exceeds it (DESIGN CHOICE, assumption 43). -/
def directAddr (c : Params) (a : Addr) : Nat := c.directBase ||| a.toNat

/-- `Translate(A)` (`20_memory.md` R92): the page number, then the thirteen-bit offset, `BANK_W + 13`
bits in all, which are not reduced mod `2^PHYS_W` where they are more than `PHYS_W` (R80; DESIGN
CHOICE, assumption 43). -/
def translate (s : State) (a : Addr) : Nat :=
  if s.fields.mmuen then at16 s.bank (bankIndex s.fields.tr a) * 8192 + (bits a 0 13).toNat
  else directAddr s.cfg a

/-- A cycle that selects RAM at `z`. -/
def selRam (z : Nat) : BusSelect := ⟨.ram, true, some z⟩

/-- A cycle that selects something else than RAM. -/
def selOther (sel : Sel) : BusSelect := ⟨sel, false, none⟩

/-- `Rom(A)` (`41_bus_decode.md` R190, table of R197). -/
def romSelect (s : State) (a : Addr) : BusSelect :=
  if !s.fields.mc1 then
    selOther (if a.toNat < s.cfg.win.romLo + 0x4000 then .romInt else .romExt)
  else selOther (if !s.fields.mc0 then .romInt else .romExt)

/-- `RamT(A)` (`41_bus_decode.md` R190). -/
def ramSelect (s : State) (a : Addr) : BusSelect := selRam (translate s a)

/-- `Upper(A)` (`41_bus_decode.md` R190). -/
def upperSelect (s : State) (a : Addr) : BusSelect :=
  if s.fields.ty then ramSelect s a else romSelect s a

/-- `Decode(A)` (`41_bus_decode.md` R190). -/
def busDecode (s : State) (a : Addr) : BusSelect :=
  match windowOf s.cfg.win a with
  | .ramLo => ramSelect s a
  | .upper => upperSelect s a
  | .fexx => if s.fields.mc3 then selRam (directAddr s.cfg a) else upperSelect s a
  | .io => selOther .io
  | .reg | .mmu | .pal | .sam => selOther .internal
  | .vec => selOther .romInt

/-- `CycleTicks()` (`41_bus_decode.md` R192). -/
def cycleTicks (s : State) : Nat := if s.fields.r1 then s.cfg.fastTicks else s.cfg.slowTicks

/-- A sum of physical addresses, `mod 2^PHYS_W` (`10_state.md` R57, `46_pixel_generation.md` R355). -/
def wrapPhys (c : Params) (z : Nat) : Nat := z % 2 ^ c.physW

/-- `Addr(k)` (`46_pixel_generation.md` R355). -/
def fetchAddr (s : State) (k : Nat) : Nat :=
  if s.fields.coco then wrapPhys s.cfg (s.base + k)
  else if s.fields.hven then wrapPhys s.cfg (s.base + (2 * s.fields.x.toNat + k) % 256)
  else wrapPhys s.cfg (s.base + 2 * s.fields.x.toNat + k)

/-- `L`, the field duration in lines (`44_raster.md` R282, R296). -/
def fieldLines (f : Fields) : Nat := if f.h50 then 312 else 262

/-- `Target(ACTIVE)` under a lines-per-field code (`44_raster.md` R290); `none` is `INF`. -/
def activeTarget (c : Params) (lpf : BitVec 2) : Option Nat := at4 c.aa lpf

/-- `Target(s)` (`44_raster.md` R290); `none` is `INF`. -/
def lineTarget (s : State) : VState → Option Nat
  | .vblank => some s.cfg.nVblank
  | .topBorder =>
    some (at4 s.cfg.tb s.fields.lpf + if s.fields.h50 then s.cfg.palExtraTb else 0)
  | .active => activeTarget s.cfg s.fields.lpf
  | .vsync => some s.cfg.nVsync
  | .bottomBorder => none

/-- Has the count reached the target (`INF` is never reached, `00_scope.md` R9)? -/
def reached (count : Nat) : Option Nat → Bool
  | some t => decide (t ≤ count)
  | none => false

/-- `VideoStart()` (`44_raster.md` R299). -/
def videoStart (s : State) : Nat :=
  let f := s.fields
  if f.coco then
    wrapPhys s.cfg (bits f.y 13 3 ++ f.f ++ bits f.y 0 6 ++ (0 : BitVec 3)).toNat
  else wrapPhys s.cfg (f.y ++ (0 : BitVec 3)).toNat

/-- The beam position in the render buffer, limited to `0 .. N_VIS`
(`46_pixel_generation.md` R350). -/
def beamTarget (s : State) : Nat :=
  min ((s.now - s.lineStart) / s.cfg.ticksPerPixel - s.cfg.pVis) s.cfg.nVis

/-- `nlpr` for the underline of a cell painted now. DESIGN CHOICE (assumption 39): the spec settles
not when it is sampled; R503 says at the line's horizontal-sync fall, `46_pixel_generation.md` R352
that the mode record is read when the cell is painted. -/
def underlineNlpr (s : State) : Option Nat :=
  if s.cfg.nlprPerLine then s.line.nlpr else s.mode.nlpr

/-- `LPF` for the VBORD comparison: that of the current registers (`44_raster.md` R290, R306,
`10_state.md` R44). Where a write has changed it since the line's horizontal-sync fall,
`42_registers.md` R231 lets the targets change from the next fall only, and no ruling sets one of the
rules aside: which `LPF` counts then is free (assumption 42). -/
def borderLpf (s : State) : BitVec 2 :=
  if s.fields.lpf = s.line.lpf then s.fields.lpf
  else if s.cfg.lpfPerLine then s.line.lpf
  else s.fields.lpf

/-- What a cell painted now is painted from (`70_reset_and_hazards.md` R503; assumption 39 for
`nlpr`). -/
def cellCtx (s : State) : CellCtx where
  mode := s.mode.mode
  r := s.mode.r
  attr := s.mode.attr
  cres := s.fields.cres
  css := s.fields.css
  nlpr := underlineNlpr s
  row := s.row
  blink := s.blink
  pal := s.pal

end Sys2Proof.Machine
end

