-- ==== Sys2Proof/Machine/Ops.lean ====
section
/-! DEFINITION. The named operations over the state that the meanings share: sequencing of
answers, notifications (`00_scope.md` R13), the scheduler's queue (`40_scheduler.md` R174, R175),
raising and acknowledging interrupts (`60_exceptions.md` R457, R458, R461; what other hardware
calls taking an exception), the recompute path, and the RAM array. -/

namespace Sys2Proof.Machine

/-- Run `f` on the next state; a fault or a refusal ends the operation (`00_scope.md` R12). -/
def andThen (r : Res) (f : State → Res) : Res :=
  match r with
  | .next s => f s
  | .fault e => .fault e
  | .refused e => .refused e

/-! Notifications. -/

/-- The notifications with one more, sent now. -/
def notified (n : Notice) (s : State) : List (Nat × Notice) := (s.now, n) :: s.trace

/-- The notifications after a level output was driven: one more exactly on a change (R13). -/
def levelTrace (changed : Bool) (n : Notice) (s : State) : List (Nat × Notice) :=
  if changed then notified n s else s.trace

/-- Send a notification. -/
@[simps] def emit (n : Notice) (s : State) : State := { s with trace := notified n s }

/-- Set the horizontal-sync output, with a notification on a change only (R13). -/
@[simps] def setHs (l : Bool) (s : State) : State :=
  { s with hsLevel := l, trace := levelTrace (s.hsLevel != l) (.hs l) s }

/-- Set the frame-sync output, with a notification on a change only (R13). -/
@[simps] def setFs (l : Bool) (s : State) : State :=
  { s with fsLevel := l, trace := levelTrace (s.fsLevel != l) (.fs l) s }

/-- Set the IRQ output, with a notification on a change only (`60_exceptions.md` R458). -/
@[simps] def setIrq (l : Bool) (s : State) : State :=
  { s with irqLevel := l, trace := levelTrace (s.irqLevel != l) (.irq l) s }

/-! The queue. -/

/-- The order of the queue: ascending `(tick, seq)` (`40_scheduler.md` R178). -/
def QEntry.before (e f : QEntry) : Bool :=
  decide (e.tick < f.tick) || (e.tick == f.tick && decide (e.seq < f.seq))

/-- Insertion keeping the order (`40_scheduler.md` R174). -/
def queueInsert (e : QEntry) : List QEntry → List QEntry
  | [] => [e]
  | f :: q => if e.before f then e :: f :: q else f :: queueInsert e q

/-- The queue without an entry for `ev` (`40_scheduler.md` R175). -/
def queueRemove (ev : EventId) (q : List QEntry) : List QEntry := q.filter (·.ev != ev)

/-- `cancel(ev)` (`40_scheduler.md` R175). -/
@[simps] def cancelEvent (ev : EventId) (s : State) : State := { s with queue := queueRemove ev s.queue }

/-- The queue and the next stamp after `schedule(ev, tick)` (`40_scheduler.md` R174). -/
def enqueue (ev : EventId) (tick : Nat) (p : List QEntry × Nat) : List QEntry × Nat :=
  (queueInsert ⟨tick, ev, p.2⟩ (queueRemove ev p.1), p.2 + 1)

/-- `schedule(ev, tick)` (`40_scheduler.md` R174). -/
@[simps] def scheduleEvent (ev : EventId) (tick : Nat) (s : State) : State :=
  { s with
    queue := (enqueue ev tick (s.queue, s.seqNext)).1
    seqNext := (enqueue ev tick (s.queue, s.seqNext)).2 }

/-- The queue and the next stamp after several calls of `schedule`, the first call first. -/
def enqueueAll (calls : List (EventId × Nat)) (p : List QEntry × Nat) : List QEntry × Nat :=
  calls.foldl (fun p c => enqueue c.1 c.2 p) p

/-- Control crosses into a collaborator `n` times, and each callback makes its calls of `schedule`
(`40_scheduler.md` R177; assumption 40), of any event, whatever R181 says of the queue's occupancy
(DESIGN CHOICE, assumption 45). -/
@[simps] def crossings (n : Nat) (s : State) : State :=
  { s with
    callbacks := s.callbacks.drop n
    queue := (enqueueAll (s.callbacks.take n).flatten (s.queue, s.seqNext)).1
    seqNext := (enqueueAll (s.callbacks.take n).flatten (s.queue, s.seqNext)).2 }

/-! Interrupts. -/

/-- The notifications of `UpdateLevels()`: IRQ, then FIRQ, each on a change only
(`60_exceptions.md` R458). -/
def levelsTrace (s : State) : List (Nat × Notice) :=
  levelTrace (s.firqLevel != computeLevel s.fields.fen s.pendingFirq)
    (.firq (computeLevel s.fields.fen s.pendingFirq))
    (setIrq (computeLevel s.fields.ien s.pendingIrq) s)

/-- `UpdateLevels()` (`60_exceptions.md` R458). -/
@[simps] def updateLevels (s : State) : State :=
  { s with
    irqLevel := computeLevel s.fields.ien s.pendingIrq
    firqLevel := computeLevel s.fields.fen s.pendingFirq
    trace := levelsTrace s }

/-- The masks after the sources `m` occurred (`60_exceptions.md` R457). -/
@[simps] def latchSources (m : IrqMask) (s : State) : State :=
  { s with
    pendingIrq := latchPending s.pendingIrq s.fields.irqEn m
    pendingFirq := latchPending s.pendingFirq s.fields.firqEn m }

/-- `Raise(m)` (`60_exceptions.md` R457). -/
@[simps!] def raiseIrq (m : IrqMask) (s : State) : State := updateLevels (latchSources m s)

/-- The IRQ pending byte read, and the bits returned cleared (`42_registers.md` R240). -/
@[simps] def takeIrq (s : State) : State :=
  { s with
    readData := pendingByte s.pendingIrq
    pendingIrq := s.pendingIrq &&& ~~~s.pendingIrq }

/-- The FIRQ pending byte read, and the bits returned cleared (`42_registers.md` R241). -/
@[simps] def takeFirq (s : State) : State :=
  { s with
    readData := pendingByte s.pendingFirq
    pendingFirq := s.pendingFirq &&& ~~~s.pendingFirq }

/-- The acknowledge of IRQ: the read of register 2 (`42_registers.md` R240, `60_exceptions.md`
R461). -/
@[simps!] def readIrqPending (s : State) : State := updateLevels (takeIrq s)

/-- The acknowledge of FIRQ: the read of register 3 (`42_registers.md` R241). -/
@[simps!] def readFirqPending (s : State) : State := updateLevels (takeFirq s)

/-! Registers. -/

/-- `Recompute()` (`42_registers.md` R220, R221). -/
@[simps] def recomputeAll (s : State) : State :=
  let f := extractFields s.reg s.sam s.snoop0
  { s with fields := f, mode := modeOf s.cfg f }

/-- A file of sixteen with one entry replaced. -/
def set16 {α : Type} (t : Vector α 16) (i : BitVec 4) (v : α) : Vector α 16 :=
  t.set i.toNat v i.isLt

/-- `sam` with bit `b` set to `v` (`30_encoding.md` R145). -/
def setBit16 (w : BitVec 16) (b : BitVec 4) (v : Bool) : BitVec 16 :=
  if v then w ||| BitVec.twoPow 16 b.toNat else w &&& ~~~(BitVec.twoPow 16 b.toNat)

/-! Data of reads. -/

/-- A read the block does not drive: the byte is a free value (`42_registers.md` R242; U4). -/
@[simps] def readUndriven (s : State) : State :=
  { s with readData := Config.undrivenByte s.draws, draws := s.draws + 1 }

/-- A read an external ROM or peripheral answers: a free value (U24). -/
@[simps] def readExternal (s : State) : State :=
  { s with readData := Config.externalByte s.draws, draws := s.draws + 1 }

/-! The render buffer and the RAM array. -/

/-- The buffer with the bytes `px` at position `pos`. -/
def splice (buf : List Byte) (pos : Nat) (px : List Byte) : List Byte :=
  buf.take pos ++ px ++ buf.drop (pos + px.length)

/-- A painted cell with byte `d` shown for the RAM address `z`. -/
def PaintedCell.withByte (z : Nat) (d : Byte) (p : PaintedCell) : PaintedCell :=
  { p with
    char := if p.charAddr = some z then d else p.char
    attr := if p.attrAddr = some z then d else p.attr }

/-- Does the cell show the byte at `z`? -/
def PaintedCell.shows (z : Nat) (p : PaintedCell) : Bool :=
  p.charAddr == some z || p.attrAddr == some z

/-- The buffer with a painted cell painted again. -/
def repaint (c : Params) (p : PaintedCell) (buf : List Byte) : List Byte :=
  splice buf p.pos ((cellPixels c p.ctx p.char p.attr).take p.width)

/-- The cells of the line after the byte at `z` was written: each cell that shows it may show the
new byte or keep the old one, a free choice (`20_memory.md` R99, U7; assumption 12). -/
def lateWrite (c : Params) (z : Nat) (d : Byte) :
    List PaintedCell → List Byte × Nat → List PaintedCell × (List Byte × Nat)
  | [], acc => ([], acc)
  | p :: ps, (buf, picks) =>
    if p.shows z then
      let p' := if Config.lateWriteShown picks then p.withByte z d else p
      let buf' := if Config.lateWriteShown picks then repaint c p' buf else buf
      let rest := lateWrite c z d ps (buf', picks + 1)
      (p' :: rest.1, rest.2)
    else
      let rest := lateWrite c z d ps (buf, picks)
      (p :: rest.1, rest.2)

/-- The line after a write of `d` to the RAM byte `z`, which held `old`. -/
def lineAfterWrite (c : Params) (now : Nat) (z : Nat) (old d : Byte) (l : Line) : Line :=
  let r := lateWrite c z d l.cells (l.buf, l.picks)
  { l with
    cells := r.1
    buf := r.2.1
    picks := r.2.2
    writes := ⟨now, z, old⟩ :: l.writes }

/-- `MemWrite(z, 1, d)` on the RAM array (`41_bus_decode.md` R195 step 5). -/
@[simps] def ramWrite (z : Nat) (d : Byte) (s : State) : State :=
  { s with
    ram := memWrite s.ram z d
    line := lineAfterWrite s.cfg s.now z (memRead s.ram z) d s.line }

/-- `D <- MemRead(z, 1)` on the RAM array (`41_bus_decode.md` R195 step 5). -/
@[simps] def ramRead (z : Nat) (s : State) : State := { s with readData := memRead s.ram z }

end Sys2Proof.Machine
end

