-- ==== Sys2Proof/Machine/Render.lean ====
section
/-! DEFINITION. Painting the render buffer: the video fetch (`46_pixel_generation.md` R354, R355,
`20_memory.md` R99), `Cell` (R353), `RenderTo` (R352) and `Flush` (R350). The painter works on the
per-line counters and the buffer (`Line`) and only reads the rest of the state. -/

namespace Sys2Proof.Machine

/-- The tick at which the beam reaches the next buffer position (`44_raster.md` R280). -/
def beamReach (s : State) (l : Line) : Nat :=
  s.lineStart + (s.cfg.pVis + l.beamPos) * s.cfg.ticksPerPixel

/-- The values the byte at `z` held since the beam reached it and holds no more
(`20_memory.md` R99). -/
def overwritten (s : State) (l : Line) (z : Nat) : List Byte :=
  (l.writes.filter fun w => w.addr == z && decide (beamReach s l ≤ w.tick)).map (·.old)

/-- A fetched byte: its address if one was fetched, the byte, and the line after the fetch. -/
structure Fetched where
  addr : Option Nat
  byte : Byte
  line : Line

/-- `VFetch(z)` from the RAM array: the byte RAM holds, or, where the byte was written after the
beam reached it, a free choice among the values it held (`20_memory.md` R99, U7; assumption 11). -/
def ramFetch (s : State) (l : Line) (z : Nat) : Fetched :=
  match overwritten s l z with
  | [] => ⟨some z, memRead s.ram z, l⟩
  | olds =>
    ⟨some z,
      (memRead s.ram z :: olds).getD (Config.fetchMoment l.picks % (olds.length + 1)) 0,
      { l with picks := l.picks + 1 }⟩

/-- `VFetch(z)` answered by an oracle: any byte (`00_scope.md` R18; assumption 10). No write of the
CPU concerns it. -/
def oracleFetch (l : Line) (z : Nat) : Fetched :=
  ⟨none, Config.videoByte l.picks z, { l with picks := l.picks + 1 }⟩

/-- `VFetch(z)` (`46_pixel_generation.md` R354). -/
def vFetch (s : State) (l : Line) (z : Nat) : Fetched :=
  match s.cfg.vfetch with
  | .oracle => oracleFetch l z
  | .ram | .absent => ramFetch s l z

/-- A fetch counted on the line (`46_pixel_generation.md` R353). -/
def Fetched.counted (g : Fetched) : Fetched :=
  { g with
    line := { g.line with fetchK := g.line.fetchK + 1, vramRem := g.line.vramRem - 1 } }

/-- The next video byte of the line, 0x00 where the line has none left; `none` where the `VFetch`
port is needed and not connected (`46_pixel_generation.md` R353, R354). -/
def fetchNext (s : State) (l : Line) : Option Fetched :=
  if l.vramRem = 0 then some ⟨none, 0, l⟩
  else if s.cfg.vfetchConnected then some (vFetch s l (fetchAddr s l.fetchK)).counted
  else none

/-- The attribute byte of a cell, 0x00 where the mode has none (`46_pixel_generation.md` R353). -/
def fetchAttr (s : State) (l : Line) : Option Fetched :=
  if s.mode.attr then fetchNext s l else some ⟨none, 0, l⟩

/-- The line after a cell was painted from the fetched bytes `ch` and `at`, the line holding what
the fetches left (`46_pixel_generation.md` R353). -/
def paintCell (s : State) (ch att : Fetched) : Line :=
  let l := att.line
  let m := min (cellWidth s.mode.r) l.aaRem
  { l with
    buf := splice l.buf l.beamPos ((cellPixels s.cfg (cellCtx s) ch.byte att.byte).take m)
    cells := ⟨l.beamPos, m, ch.addr, ch.byte, att.addr, att.byte, cellCtx s⟩ :: l.cells
    beamPos := l.beamPos + m
    aaRem := l.aaRem - m }

/-- `Cell()` on the line (`46_pixel_generation.md` R353); `none` is `NoVideoFetch`. -/
def cellStep (s : State) (l : Line) : Option Line :=
  match fetchNext s l with
  | none => none
  | some ch =>
    match fetchAttr s ch.line with
    | none => none
    | some att => some (paintCell s ch att)

/-- `n` positions of one value from the beam position on. -/
def paintRun (n : Nat) (v : Byte) (l : Line) : Line :=
  { l with buf := splice l.buf l.beamPos (List.replicate n v), beamPos := l.beamPos + n }

/-- The border's value as a buffer byte (`46_pixel_generation.md` R375). -/
def borderByte (s : State) : Byte := s.mode.border.setWidth 8

/-- One round of `RenderTo`'s loop; equal positions of a border or of the zero fill are painted
together (`46_pixel_generation.md` R352, R376; assumption 27). -/
def paintStep (s : State) (p : Nat) (l : Line) : Option Line :=
  if 0 < l.lbRem then
    let n := min l.lbRem (p - l.beamPos)
    some { paintRun n (borderByte s) l with lbRem := l.lbRem - n }
  else if 0 < l.aaRem then cellStep s l
  else if 0 < l.rbRem then
    let n := min l.rbRem (p - l.beamPos)
    some { paintRun n (borderByte s) l with rbRem := l.rbRem - n }
  else some (paintRun (p - l.beamPos) 0 l)

/-- `RenderTo`'s loop; each round moves the beam, so the fuel `p - beam_pos` is enough. -/
def paintLoop (s : State) (p : Nat) : Nat → Line → Option Line
  | 0, l => some l
  | k + 1, l =>
    if l.beamPos < p then
      match paintStep s p l with
      | none => none
      | some l' => paintLoop s p k l'
    else some l

/-- The state with a painted line. -/
@[simps] def setLine (l : Line) (s : State) : State := { s with line := l }

/-- The state with a painted line, the callbacks of its video fetches run (`40_scheduler.md` R177).
They only schedule, which no painting reads, so they stand after it (assumption 40). -/
@[simps!] def afterPaint (l : Line) (s : State) : State :=
  crossings (l.fetchK - s.line.fetchK) (setLine l s)

/-- The answer of a painter: the state with the painted line, or `NoVideoFetch`
(`46_pixel_generation.md` R354). -/
def withLine (s : State) : Option Line → Res
  | some l => .next (afterPaint l s)
  | none => .fault .noVideoFetch

/-- `RenderTo(p)` (`46_pixel_generation.md` R352), `p` limited to `N_VIS` (assumption 26). -/
def renderToPos (p : Nat) (s : State) : Res :=
  withLine s
    (paintLoop s (min p s.cfg.nVis) (min p s.cfg.nVis - s.line.beamPos) s.line)

/-- `Cell()` (`46_pixel_generation.md` R353). -/
def paintOneCell (s : State) : Res := withLine s (cellStep s s.line)

/-- `Flush()` (`46_pixel_generation.md` R350). -/
def flushLine (s : State) : Res :=
  if s.frameCtr = 0 then renderToPos (beamTarget s) s else .next s

end Sys2Proof.Machine
end

