-- ==== Sys2Proof/Machine/Timer.lean ====
section
/-! DEFINITION. The interval timer (`45_timer.md`). -/

namespace Sys2Proof.Machine

/-- The count of a load or reload (`45_timer.md` R332, R334). -/
def reloadCount (s : State) : Nat := s.fields.timerReload.toNat + s.cfg.timerOffset

/-- The timer stopped (`45_timer.md` R332). -/
@[simps] def stopTimer (s : State) : State := { s with timerRunning := false, timerCounter := 0 }

/-- The timer with its count loaded (`45_timer.md` R332, R333). -/
@[simps] def countTimer (running : Bool) (n : Nat) (s : State) : State :=
  { s with timerCounter := n, timerRunning := running }

/-- The blink flag toggled (`45_timer.md` R334). -/
@[simps] def toggleBlink (s : State) : State := { s with blink := !s.blink }

/-- `TimerLoad()` (`45_timer.md` R332). -/
def loadTimer (s : State) : State :=
  if s.fields.timerReload = 0 then
    cancelEvent .timer (stopTimer s)
  else if s.fields.tins then
    scheduleEvent .timer (s.now + reloadCount s * s.cfg.timerFastPeriod)
      (countTimer true (reloadCount s) s)
  else cancelEvent .timer (countTimer true (reloadCount s) s)

/-- The reload of `TimerExpire()` (`45_timer.md` R334). -/
@[simps] def reloadTimer (s : State) : State :=
  { s with
    timerCounter := if s.fields.timerReload = 0 then 0 else reloadCount s
    timerRunning := if s.fields.timerReload = 0 then false else s.timerRunning }

/-- `TimerExpire()` (`45_timer.md` R334): blink, interrupt, reload. -/
def expireTimer (s : State) : State :=
  reloadTimer (raiseIrq irqTimer (toggleBlink s))

/-- The count after a clock (`45_timer.md` R333): an expiry at 0. -/
def expireAtZero (s : State) : State := if s.timerCounter = 0 then expireTimer s else s

/-- `TimerClock()` (`45_timer.md` R333). -/
def clockTimer (s : State) : State :=
  if s.timerRunning then expireAtZero (countTimer true (s.timerCounter - 1) s) else s

/-- The next expiry of the fast timer, measured from `T` (`45_timer.md` R336). -/
def rearmTimer (tick : Nat) (s : State) : State :=
  if s.timerRunning then
    scheduleEvent .timer (tick + s.timerCounter * s.cfg.timerFastPeriod) s
  else s

/-- The handler `EV_TIMER(T)` (`45_timer.md` R336). -/
def onTimer (tick : Nat) (s : State) : State :=
  if s.timerRunning && s.fields.tins then rearmTimer tick (expireTimer s) else s

end Sys2Proof.Machine
end

