-- ==== Sys2Proof/Machine/Composite.lean ====
section
/-! DEFINITION. The composite block (`47_composite.md`): the setters, the encoded sample, the
output stage, and the four `render_line` variants as pure functions of the colour table, the burst
descriptors and the configuration (R432). -/

namespace Sys2Proof.Machine

/-! The output stage. -/

/-- The value from which the identity's quantised output is at least `k`, for `k` from 1 to 255:
`floor(255 v + 1/2)` is at least `k` from `(k - 1/2) / 255` on (`47_composite.md` R423). -/
def identityRise (k : Nat) : Rat := (2 * (k : Rat) - 1) / 510

/-- The greatest level at least `base` that `a` reaches, found in `n` bisections of `2^n` levels. -/
def levelFrom (a : Amp) : Nat → Nat → Nat
  | 0, base => base
  | n + 1, base =>
    if a.atLeast (identityRise (base + 2 ^ n)) then levelFrom a n (base + 2 ^ n)
    else levelFrom a n base

/-- Is the rise at `t` of another curve passed, for a value limited to `[0, 1]`? -/
def risePassed (a : Amp) (t : Rat) : Bool := decide (t ≤ 0) || (decide (t ≤ 1) && a.atLeast t)

/-- `Q(v) = floor(255 GAMMA(clamp(v)) + 1/2)` (`47_composite.md` R423; assumption 21). -/
def quantise (c : Params) (a : Amp) : Byte :=
  match c.gamma with
  | .identity => BitVec.ofNat 8 (levelFrom a 8 0)
  | .levels rises => BitVec.ofNat 8 (min 255 (rises.countP (risePassed a)))

/-- `Out((r, g, b))` (`47_composite.md` R423). -/
def outRgb (c : Params) (r g b : Amp) : Rgb := ⟨quantise c r, quantise c g, quantise c b⟩

/-- One row of the decode matrix applied. -/
def applyRow (m : DecodeRow) (y u v : Amp) : Amp :=
  (y.scale m.y).add ((u.scale m.u).add (v.scale m.v))

/-- `Out(M_RGB(y, u, v))` (`47_composite.md` R422, R423). -/
def outYuv (c : Params) (y u v : Amp) : Rgb :=
  outRgb c (applyRow c.mRgb.red y u v) (applyRow c.mRgb.green y u v) (applyRow c.mRgb.blue y u v)

/-- `Out((y, y, y))` (`47_composite.md` R406, R420). -/
def outGrey (c : Params) (y : Amp) : Rgb := outRgb c y y y

/-! Samples and tables. -/

/-- `U` of a colour (`47_composite.md` R404). -/
def chromaU (c : Params) (k : Ycc) : Rat := c.kU * c.sat * k.pb

/-- `V` of a colour (`47_composite.md` R404). -/
def chromaV (c : Params) (k : Ycc) : Rat := c.kV * c.sat * k.pr

/-- The phase index of position `x` (`47_composite.md` R400). -/
def phaseIndex (c : Params) (x : Nat) : Nat := (x + c.t0) % c.tmax

/-- `burst[b]`; an index beyond `N_BURST` has offset 0 (assumption 37). -/
def burstOf (s : State) (sel : BurstSel) : BurstDesc :=
  s.burst.getD sel.index (buildBurst s.cfg s.hue 0)

/-- `enc(c, t)` (`47_composite.md` R404), with the modulation tables of a descriptor. -/
def encSample (c : Params) (b : BurstDesc) (k : Ycc) (t : Nat) : Amp :=
  (Amp.ofRat k.y).add
    (((b.modU.getD t .zero).scale (chromaU c k)).add ((b.modV.getD t .zero).scale (chromaV c k)))

/-- `plain[b][c]` and, for `b = 0`, `grey[c]` (`47_composite.md` R406, R410). -/
def plainPixel (s : State) (sel : BurstSel) (k : Ycc) : Rgb :=
  if sel = .none then outGrey s.cfg (.ofRat k.y)
  else
    let f := phi s.cfg s.hue (burstOf s sel).offset
    let u := chromaU s.cfg k
    let v := chromaV s.cfg k
    outYuv s.cfg (.ofRat k.y) (((cosDeg f).scale u).add ((sinDeg f).scale v))
      (((sinDeg f).scale (-u)).add ((cosDeg f).scale v))

/-- The triples of a row; `none` where one was never set (`47_composite.md` R404,
`60_exceptions.md` R450; assumption 18). -/
def rowColours (s : State) (buf : List Byte) : Option (List Ycc) :=
  buf.mapM fun b => storeFind s.colour b.toNat

/-! The plain and the artifact variants. -/

/-- `BW(c)` (`47_composite.md` R413). -/
def bwOf (c : Params) (b : Byte) : Option Nat :=
  if b = c.cidxBlack then some 0 else if b = c.cidxWhite then some 1 else none

/-- `BW` of position `x - 1`, black to the left of the row (`47_composite.md` R413). -/
def bwLeft (c : Params) (buf : List Byte) (x : Nat) : Option Nat :=
  if x = 0 then some 0 else bwOf c (buf.getD (x - 1) 0)

/-- `BW` of position `x + 1`, black to the right of the row (`47_composite.md` R413). -/
def bwRight (c : Params) (buf : List Byte) (x : Nat) : Option Nat :=
  if x + 1 < buf.length then bwOf c (buf.getD (x + 1) 0) else some 0

/-- The key of the two-sample table, if the neighbourhood is unambiguous (`47_composite.md`
R411). -/
def art2Key (c : Params) (buf : List Byte) (x : Nat) : Option Nat :=
  match bwLeft c buf x, bwOf c (buf.getD x 0) with
  | some l, some m => some (2 * l + m)
  | _, _ => none

/-- The window key of the three-sample table (`47_composite.md` R412). -/
def art5Key (c : Params) (buf : List Byte) (x : Nat) : Option Nat :=
  match bwLeft c buf x, bwOf c (buf.getD x 0), bwRight c buf x with
  | some l, some m, some r => some (4 * l + 2 * m + r)
  | _, _, _ => none

/-- An entry of an artifact table, a free value where it is not given (`47_composite.md` R411,
R412; assumption 20). -/
def artLookup (lut : List ArtEntry) (free : BurstSel → Nat → Nat → Rgb) (sel : BurstSel)
    (phase key : Nat) : Rgb :=
  match lut.find? (fun e => e.sel = sel && e.phase == phase && e.key == key) with
  | some e => e.pixel
  | none => free sel phase key

/-- One pixel of an artifact variant: the table where there is a key, else the plain pixel. -/
def artPixel (lut : List ArtEntry) (free : BurstSel → Nat → Nat → Rgb) (sel : BurstSel)
    (phase : Nat) (key : Option Nat) (plain : Rgb) : Rgb :=
  if sel = .none then plain
  else
    match key with
    | some k => artLookup lut free sel phase k
    | none => plain

/-- `render_line.PALETTE` (`47_composite.md` R410). -/
def paletteRow (s : State) (sel : BurstSel) (buf : List Byte) : Option (List Rgb) :=
  (rowColours s buf).map fun ks => ks.map (plainPixel s sel)

/-- `render_line.ART2` (`47_composite.md` R411). -/
def art2Row (s : State) (sel : BurstSel) (buf : List Byte) : Option (List Rgb) :=
  (rowColours s buf).map fun ks => ks.mapIdx fun x k =>
    artPixel s.cfg.art2 Config.art2Pixel sel (phaseIndex s.cfg x) (art2Key s.cfg buf x)
      (plainPixel s sel k)

/-- `render_line.ART5` (`47_composite.md` R412). -/
def art5Row (s : State) (sel : BurstSel) (buf : List Byte) : Option (List Rgb) :=
  (rowColours s buf).map fun ks => ks.mapIdx fun x k =>
    artPixel s.cfg.art5 Config.art5Pixel sel (phaseIndex s.cfg x) (art5Key s.cfg buf x)
      (plainPixel s sel k)

/-! The simulated variant. -/

/-- `f[i - k]`, zero outside the row (`47_composite.md` R420, R421). -/
def sampleBack (f : List Amp) (i k : Nat) : Amp := if k ≤ i then f.getD (i - k) .zero else .zero

/-- A filter's output at position `x` (`47_composite.md` R421; assumption 22). -/
def filterAt (g : RowFilter) (f : List Amp) (x : Nat) : Amp :=
  Amp.sum (g.taps.mapIdx fun k w => (sampleBack f (x + g.advance) k).scale w)

/-- A filter over a whole row. -/
def filterRow (g : RowFilter) (f : List Amp) : List Amp := f.mapIdx fun x _ => filterAt g f x

/-- The modulated row `s[x]` (`47_composite.md` R420). -/
def modulate (s : State) (sel : BurstSel) (ks : List Ycc) : List Amp :=
  ks.mapIdx fun x k => encSample s.cfg (burstOf s sel) k (phaseIndex s.cfg x)

/-- The row multiplied by a demodulation table (`47_composite.md` R420). -/
def demodulate (c : Params) (table f : List Amp) : List Amp :=
  f.mapIdx fun x v => v.mul (table.getD (phaseIndex c x) .zero)

/-- The simulated decode of a row of triples (`47_composite.md` R420). -/
def simPixels (s : State) (sel : BurstSel) (ks : List Ycc) : List Rgb :=
  let c := s.cfg
  let f := modulate s sel ks
  let yy := filterRow c.lpY f
  if sel = .none then yy.map (outGrey c)
  else
    let b := burstOf s sel
    let uu := filterRow c.lpC (demodulate c b.demU f)
    let vv := filterRow c.lpC (demodulate c b.demV f)
    yy.mapIdx fun x y => outYuv c y (uu.getD x .zero) (vv.getD x .zero)

/-- `render_line.SIM` (`47_composite.md` R420). -/
def simRow (s : State) (sel : BurstSel) (buf : List Byte) : Option (List Rgb) :=
  (rowColours s buf).map (simPixels s sel)

/-- The state with the row of a `render_line` call. -/
@[simps] def setRowOut (out : List Rgb) (s : State) : State := { s with rowOut := out }

/-- The row handed on by a direct `render_line` call (`47_composite.md` R390), or `UnsetColour`. -/
def withRow (s : State) : Option (List Rgb) → Res
  | some out => .next (setRowOut out s)
  | none => .fault .unsetColour

/-! The setters. -/

/-- The state with the triple of one colour index set. -/
@[simps] def storeColour (index : Nat) (k : Ycc) (s : State) : State :=
  { s with colour := storeSet s.colour index k }

/-- `set_palette_entry` (`47_composite.md` R395). -/
def setColour (index : Nat) (k : Ycc) (s : State) : Res :=
  if index < 256 then .next (storeColour index k s)
  else .fault .badIndex

/-- `set_hue` (`47_composite.md` R396, R400). -/
@[simps] def rebuildHue (degrees : Rat) (s : State) : State :=
  { s with hue := degrees, burst := s.burst.map fun b => buildBurst s.cfg degrees b.offset }

/-- The state with the descriptor of one burst index rebuilt. -/
@[simps] def storeBurst (index : Nat) (offset : Rat) (s : State) : State :=
  { s with burst := s.burst.set index (buildBurst s.cfg s.hue offset) }

/-- `set_burst` (`47_composite.md` R397, R400). -/
def rebuildBurst (index : Nat) (offset : Rat) (s : State) : Res :=
  if index < s.cfg.nBurst then .next (storeBurst index offset s)
  else .fault .badIndex

end Sys2Proof.Machine
end

