-- ==== Sys2Proof/Machine/VoRender.lean ====
section
/-! DEFINITION. The pixel renderer at its interface (`48_vo_render.md`). -/

namespace Sys2Proof.Machine

/-- `Pack(PF, (R, G, B))` (`48_vo_render.md` R441): `0x00RRGGBB`, or a free function
(assumption 21). -/
def packPixel : PixelFormat → Rgb → Nat
  | .xrgb8888, p => p.red.toNat * 65536 + p.green.toNat * 256 + p.blue.toNat
  | .other id, p => Config.packOther id p

/-- `render_line.VARIANT` (`47_composite.md` R390). -/
def variantRow (s : State) (sel : BurstSel) (buf : List Byte) : Option (List Rgb) :=
  match s.cfg.variant with
  | .palette => paletteRow s sel buf
  | .art2 => art2Row s sel buf
  | .art5 => art5Row s sel buf
  | .sim => simRow s sel buf

/-- The columns of a rendered row that lie in the viewport (`48_vo_render.md` R442). -/
def viewColumns (c : Params) (out : List Rgb) : List Rgb := (out.drop c.vpX).take c.vpW

/-- Consecutive pixels stored from a target index on. -/
def storePixels (pf : PixelFormat) : Store Nat → Nat → List Rgb → Store Nat
  | t, _, [] => t
  | t, i, p :: ps => storePixels pf (storeSet t i (packPixel pf p)) (i + 1) ps

/-- Does the current row lie in the viewport (`48_vo_render.md` R442)? -/
def rowInView (s : State) : Bool :=
  decide (s.cfg.vpY ≤ s.voLine) && decide (s.voLine < s.cfg.vpY + s.cfg.vpH)

/-- The state after a rendered row was stored and counted. -/
@[simps] def storeRow (out : List Rgb) (s : State) : State :=
  { s with
    target := storePixels s.cfg.pf s.target ((s.voLine - s.cfg.vpY) * s.cfg.pitch)
      (viewColumns s.cfg out)
    voLine := s.voLine + 1 }

/-- The state after a row outside the viewport: it is only counted. -/
@[simps] def skipRow (s : State) : State := { s with voLine := s.voLine + 1 }

/-- `vo_render.row` (`48_vo_render.md` R442). -/
def voRow (sel : BurstSel) (n : Nat) (buf : List Byte) (s : State) : Res :=
  if rowInView s then
    match variantRow s sel (buf.take n) with
    | some out => .next (storeRow out s)
    | none => .fault .unsetColour
  else .next (skipRow s)

end Sys2Proof.Machine
end

