-- ==== Sys2Proof/Machine/Raster.lean ====
section
/-! DEFINITION. The raster scanner: the procedures of the horizontal-sync fall and the event
handlers (`44_raster.md`), and `advance_to`, which fires them (`40_scheduler.md` R176). -/

namespace Sys2Proof.Machine

/-! The procedures of the horizontal-sync fall. -/

/-- Is the line's `RenderRow` held back (`44_raster.md` R302, R303)? -/
def rowSuppressed (s : State) : Bool := s.fields.h50 && decide (s.scanline < s.cfg.palSuppress)

/-- The delivered row `buf[0 .. N_VIS-1]` (`44_raster.md` R302). -/
def deliveredRow (s : State) : List Byte := s.line.buf.take s.cfg.nVis

/-- The state with the row's notification sent and its callback run (`44_raster.md` R302,
`40_scheduler.md` R177). -/
def announceRow (s : State) : State :=
  crossings 1 (emit (.renderRow (deliveredRow s) s.cfg.nVis s.mode.burstSel) s)

/-- Delivery of the completed row: the notification, and `vo_render.row` where it is connected
(`44_raster.md` R302, `48_vo_render.md` R442; assumption 13). -/
def deliverRow (s : State) : Res :=
  if rowSuppressed s then .next s
  else if s.cfg.voConnected then
    voRow s.mode.burstSel s.cfg.nVis (deliveredRow s) (announceRow s)
  else .next (announceRow s)

/-- `FinishLine()` (`44_raster.md` R302). -/
def completeLine (s : State) : Res :=
  if s.frameCtr = 0 then andThen (renderToPos s.cfg.nVis s) deliverRow else .next s

/-- Has the row counter come to the lines per row (`44_raster.md` R297)? -/
def rowWraps (row : BitVec 4) : Option Nat → Bool
  | some n => row == BitVec.ofNat 4 n
  | none => false

/-- The row counter set. -/
@[simps] def setRow (r : BitVec 4) (s : State) : State := { s with row := r }

/-- The next character row: `row` 0, `B` one stride further (`44_raster.md` R297). -/
@[simps] def nextRow (s : State) : State :=
  { s with row := 0, base := wrapPhys s.cfg (s.base + s.mode.rowStride) }

/-- `RowAdvance()` (`44_raster.md` R297). -/
def advanceRow (s : State) : State :=
  if s.vstate = .active then
    if rowWraps (s.row + 1) s.mode.nlpr then
      nextRow s
    else setRow (s.row + 1) s
  else s

/-- The row seed at the start of the active area (`44_raster.md` R298). -/
def rowSeed (s : State) : BitVec 4 :=
  if s.fields.coco then 0 else s.fields.vsc &&& at8 s.cfg.rowmask s.fields.lpr

/-- `frame_ctr` at the vsync to vblank edge (`44_raster.md` R296). -/
def nextFrameCtr (s : State) : Nat :=
  if s.frameCtr = 0 then s.cfg.frameskip else s.frameCtr - 1

/-- The variables set at the vsync to vblank edge (`44_raster.md` R296, `48_vo_render.md` R441). -/
@[simps] def fieldVars (s : State) : State :=
  { s with
    vstate := .vblank, lcount := 0, scanline := 0
    base := videoStart s, frameCtr := nextFrameCtr s, voLine := 0 }

/-- The vsync to vblank edge (`44_raster.md` R296); it starts the renderer's line count too
(`48_vo_render.md` R441; assumption 14). -/
def startField (s : State) : State := fieldVars (setFs true s)

/-- Entering a field state. -/
@[simps] def enterState (v : VState) (s : State) : State := { s with vstate := v, lcount := 0 }

/-- `VerticalStep()` (`44_raster.md` R296). -/
def stepVertical (s : State) : State :=
  if s.vstate = .vsync then
    if reached s.lcount (lineTarget s .vsync) then startField s else s
  else if fieldLines s.fields ≤ s.scanline + s.cfg.nVsync then
    setFs false (enterState .vsync s)
  else if s.vstate = .vblank && reached s.lcount (lineTarget s .vblank) then
    enterState .topBorder s
  else if s.vstate = .topBorder && reached s.lcount (lineTarget s .topBorder) then
    setRow (rowSeed s) (enterState .active s)
  else if s.vstate = .active && reached s.lcount (lineTarget s .active) then
    enterState .bottomBorder s
  else s

/-- The line with its four counters and the sampled `nlpr` and `LPF`, nothing painted and nothing
written yet. -/
def Line.start (l : Line) (lb aa vram rb : Nat) (nlpr : Option Nat) (lpf : BitVec 2) : Line :=
  { l with
    beamPos := 0, fetchK := 0, lbRem := lb, aaRem := aa, vramRem := vram, rbRem := rb
    writes := [], cells := [], nlpr := nlpr, lpf := lpf }

/-- The state with a line started. -/
@[simps] def startLine (lb aa vram rb : Nat) (s : State) : State :=
  { s with line := s.line.start lb aa vram rb s.mode.nlpr s.fields.lpf }

/-- `LineCounters()` (`44_raster.md` R300). -/
def startCounters (s : State) : State :=
  match s.vstate with
  | .active =>
    startLine (perWidth s.cfg.lb s.mode.wide) (perWidth s.cfg.aaw s.mode.wide) s.mode.bpr
      (perWidth s.cfg.rb s.mode.wide) s
  | .topBorder | .bottomBorder => startLine s.cfg.nVis 0 0 0 s
  | .vblank | .vsync => startLine 0 0 0 0 s

/-- `ScheduleLine(T)` (`44_raster.md` R301). -/
def scheduleRaster (tick : Nat) (s : State) : State :=
  scheduleEvent .hsFall (tick + s.cfg.tSl * s.cfg.ticksPerPixel)
    (scheduleEvent .hBord (tick + perWidth s.cfg.pHbord s.mode.wide * s.cfg.ticksPerPixel)
      (scheduleEvent .hsRise (tick + s.cfg.tWhs * s.cfg.ticksPerPixel) s))

/-! The handlers. -/

/-- The line's start and the line counts (`44_raster.md` R295 steps 4 and 5). -/
@[simps] def countLine (tick : Nat) (s : State) : State :=
  { s with lineStart := tick, scanline := s.scanline + 1, lcount := s.lcount + 1 }

/-- The line counts and the start of the line at a horizontal-sync fall (`44_raster.md` R295 steps
3 to 5). -/
def beginLine (tick : Nat) (s : State) : State := countLine tick (setHs false s)

/-- `EV_HS_FALL(T)` (`44_raster.md` R295) after the completed line was delivered. -/
def nextLine (tick : Nat) (s : State) : State :=
  scheduleRaster tick (startCounters (stepVertical (beginLine tick (advanceRow s))))

/-- `EV_HS_FALL(T)` (`44_raster.md` R295). -/
def onHsFall (tick : Nat) (s : State) : Res :=
  andThen (completeLine s) fun t => .next (nextLine tick t)

/-- `EV_HS_RISE(T)` (`44_raster.md` R305). -/
def onHsRise (s : State) : State := setHs true s

/-- Is this the border point of the line before the active area ends (`44_raster.md` R306;
assumption 29)? The target is that of the current registers (R290), and after a write of `LPF` in this
line it is open whether the write counts already (R290) or from the next horizontal-sync fall on
(`42_registers.md` R231; assumption 42). -/
def vbordLine (s : State) : Bool :=
  s.vstate = .active &&
    activeTarget s.cfg (borderLpf s) == some (s.lcount + s.cfg.vbordLineOffset)

/-- The second interrupt of the border point (`44_raster.md` R306). -/
def vbordPulse (s : State) : State := if vbordLine s then raiseIrq irqVBord s else s

/-- The slow timer clock of the border point (`44_raster.md` R306). -/
def slowClock (s : State) : State := if s.fields.tins then s else clockTimer s

/-- `EV_HBORD(T)` (`44_raster.md` R306). -/
def onHBord (s : State) : State := slowClock (vbordPulse (raiseIrq irqHBord s))

/-- `Handler(ev)(T)` (`40_scheduler.md` R171). -/
def fire (ev : EventId) (tick : Nat) (s : State) : Res :=
  match ev with
  | .hsFall => onHsFall tick s
  | .hsRise => .next (onHsRise s)
  | .hBord => .next (onHBord s)
  | .timer => .next (onTimer tick s)

/-! `advance_to`. -/

/-- How many entries can come of one entry up to `target`: a fall brings one rise, one border
point and the falls after it, a timer entry the expiries after it. -/
def QEntry.weight (target : Nat) (e : QEntry) : Nat :=
  match e.ev with
  | .hsFall => 3 * (target + 1 - e.tick)
  | .timer => target + 1 - e.tick
  | .hsRise | .hBord => if e.tick ≤ target then 1 else 0

/-- The entries that can come of a queue up to `target`. -/
def queueFuel (target : Nat) (q : List QEntry) : Nat := (q.map (QEntry.weight target)).sum

/-- The entries that can come of a list of `schedule` calls. -/
def callFuel (target : Nat) (calls : List (EventId × Nat)) : Nat :=
  (calls.map fun c => QEntry.weight target ⟨c.2, c.1, 0⟩).sum

/-- The fuel of `advance_to`: never short while an event re-schedules itself later than its own
tick (`40_scheduler.md` R176 corner case (4); assumption 25), whatever the callbacks schedule. -/
def advanceFuel (target : Nat) (s : State) : Nat :=
  queueFuel target s.queue + callFuel target s.callbacks.flatten

/-- Time set to `t`. -/
@[simps] def setNow (t : Nat) (s : State) : State := { s with now := t }

/-- The head of the queue taken out and time moved to it, never back (`40_scheduler.md` R176). -/
@[simps] def takeEntry (e : QEntry) (q : List QEntry) (s : State) : State :=
  { s with queue := q, now := max s.now e.tick }

/-- The loop of `advance_to` (`40_scheduler.md` R176). -/
def advanceLoop (target : Nat) : Nat → State → Res
  | 0, s =>
    match s.queue with
    | [] => .next (setNow target s)
    | e :: _ => if target < e.tick then .next (setNow target s) else .fault .schedulerStuck
  | k + 1, s =>
    match s.queue with
    | [] => .next (setNow target s)
    | e :: q =>
      if target < e.tick then .next (setNow target s)
      else
        andThen (fire e.ev e.tick (takeEntry e q s)) (advanceLoop target k)

/-- `advance_to(target)` (`40_scheduler.md` R176). -/
def advance (target : Nat) (s : State) : Res :=
  if target < s.now then .fault .advanceToPast
  else advanceLoop target (advanceFuel target s) s

end Sys2Proof.Machine
end

