-- ==== Sys2Proof/Machine/Registers.lean ====
section
/-! DEFINITION. What a write or read of a register, of a window entry or of a snooped address does
inside the block (`42_registers.md`, `43_mmu_palette_sam.md`, `41_bus_decode.md` R205), without the
bus cycle, and `reset` (`70_reset_and_hazards.md` R490). -/

namespace Sys2Proof.Machine

/-! Register writes. -/

/-- The byte of register `n`. -/
def regByte (s : State) (n : BitVec 4) : Byte := at16 s.reg n

/-- `reg[n] <- D` (`42_registers.md` R238). -/
@[simps] def setReg (n : BitVec 4) (d : Byte) (s : State) : State :=
  { s with reg := set16 s.reg n d }

/-- `reg[n] <- D; Recompute()` (`42_registers.md` R238). -/
@[simps!] def storeReg (n : BitVec 4) (d : Byte) (s : State) : State := recomputeAll (setReg n d s)

/-- The extra effect of register 1 (`42_registers.md` R223). -/
def extraInit1 (old d : Byte) (s : State) : State :=
  if bit old 5 = bit d 5 then s else loadTimer s

/-- The IRQ mask after a write of its enable register (`42_registers.md` R224). -/
@[simps] def maskIrq (d : Byte) (s : State) : State :=
  { s with pendingIrq := disablePending s.cfg s.pendingIrq d }

/-- The FIRQ mask after a write of its enable register (`42_registers.md` R225). -/
@[simps] def maskFirq (d : Byte) (s : State) : State :=
  { s with pendingFirq := disablePending s.cfg s.pendingFirq d }

/-- The extra effect of register 2 (`42_registers.md` R224). -/
def extraIrqEnable (d : Byte) (s : State) : State := updateLevels (maskIrq d s)

/-- The extra effect of register 3 (`42_registers.md` R225). -/
def extraFirqEnable (d : Byte) (s : State) : State := updateLevels (maskFirq d s)

/-- `Extra(n, old, D)` (`42_registers.md` R238, R222 to R237). -/
def extraEffect (n : BitVec 4) (old d : Byte) (s : State) : State :=
  if n = 0 then updateLevels s
  else if n = 1 then extraInit1 old d s
  else if n = 2 then extraIrqEnable d s
  else if n = 3 then extraFirqEnable d s
  else if n = 4 then loadTimer s
  else s

/-- `RegWrite(n, D)` after its flush (`42_registers.md` R238). -/
def writeRegNow (n : BitVec 4) (d : Byte) (s : State) : State :=
  extraEffect n (regByte s n) d (storeReg n d s)

/-- `RegWrite(n, D)` (`42_registers.md` R238). A flush that needs the `VFetch` port where none is
connected is `NoVideoFetch` (`46_pixel_generation.md` R354), although R238 says 'Faults: none'
(DESIGN CHOICE, assumption 28). -/
def writeReg (n : BitVec 4) (d : Byte) (s : State) : Res :=
  andThen (flushLine s) fun t => .next (writeRegNow n d t)

/-! Register reads. -/

/-- The read of a stored register byte by the direct call (`42_registers.md` R251). -/
@[simps] def readStored (n : BitVec 4) (s : State) : State := { s with readData := regByte s n }

/-- A direct register read (`42_registers.md` R251). -/
def readRegister (n : BitVec 4) (s : State) : State :=
  if n = 2 then readIrqPending s
  else if n = 3 then readFirqPending s
  else readStored n s

/-! The MMU bank window. -/

/-- `bank[i] <- page[BANK_W-1:0]` (`43_mmu_palette_sam.md` R260, R262). The data byte of a bus write
has no bits from 8 on, and those of a wider entry become 0 (assumption 41). -/
@[simps] def writeBank (i : BitVec 4) (page : Nat) (s : State) : State :=
  { s with bank := set16 s.bank i (page % 2 ^ s.cfg.bankW) }

/-- `D <- zext_8(bank[i])` (`43_mmu_palette_sam.md` R261). Of an entry wider than a byte, which
`zext_8` is not defined for, the low eight bits are read (assumption 41). -/
@[simps] def readBank (i : BitVec 4) (s : State) : State :=
  { s with readData := BitVec.ofNat 8 (at16 s.bank i) }

/-! The palette window. -/

/-- `pal[i] <- D[5:0]` (`43_mmu_palette_sam.md` R264). -/
@[simps] def storePal (i : BitVec 4) (d : Byte) (s : State) : State :=
  { s with pal := set16 s.pal i (bits d 0 6) }

/-- `PAL_WR` inside the block (`43_mmu_palette_sam.md` R264): the flush, which faults where it needs
a `VFetch` port that is not connected (DESIGN CHOICE, assumption 28), then the entry. -/
def writePal (i : BitVec 4) (d : Byte) (s : State) : Res :=
  andThen (flushLine s) fun t => .next (storePal i d t)

/-- `D <- {0b00, pal[i]}` (`43_mmu_palette_sam.md` R265). -/
@[simps] def readPal (i : BitVec 4) (s : State) : State :=
  { s with readData := (at16 s.pal i).setWidth 8 }

/-! The SAM window and the snooped addresses. -/

/-- `sam[b] <- v` (`43_mmu_palette_sam.md` R270, R271). -/
@[simps] def setSam (b : BitVec 4) (v : Bool) (s : State) : State :=
  { s with sam := setBit16 s.sam b v }

/-- `sam[b] <- v; Recompute()` (`43_mmu_palette_sam.md` R270, R271). -/
@[simps!] def storeSam (b : BitVec 4) (v : Bool) (s : State) : State := recomputeAll (setSam b v s)

/-- `SAM_CLR` and `SAM_SET` inside the block (`43_mmu_palette_sam.md` R270, R271): the flush, which
faults where it needs a `VFetch` port that is not connected (DESIGN CHOICE, assumption 28), then the
bit. -/
def writeSam (b : BitVec 4) (v : Bool) (s : State) : Res :=
  andThen (flushLine s) fun t => .next (storeSam b v t)

/-- `snoop[i] <- D` (`41_bus_decode.md` R205). There are two latches (`10_state.md` R38): under a
window map with more snooped addresses a write of another one stores nothing (assumption 6). -/
@[simps] def setSnoop (i : Nat) (d : Byte) (s : State) : State :=
  { s with
    snoop0 := if i = 0 then d else s.snoop0
    snoop1 := if i = 1 then d else s.snoop1 }

/-- `snoop[i] <- D; Recompute()` (`41_bus_decode.md` R205). -/
@[simps!] def storeSnoop (i : Nat) (d : Byte) (s : State) : State := recomputeAll (setSnoop i d s)

/-- `SNOOP_WR` inside the block (`41_bus_decode.md` R205). A flush that needs the `VFetch` port where
none is connected is `NoVideoFetch` (`46_pixel_generation.md` R354), although R205 says 'Faults: none'
(DESIGN CHOICE, assumption 28). -/
def writeSnoop (i : Nat) (d : Byte) (s : State) : Res :=
  andThen (flushLine s) fun t => .next (storeSnoop i d t)

/-! Reset. -/

/-- The line after `reset`: no counts, the buffer as it was (`70_reset_and_hazards.md` R490). -/
def Line.cleared (c : Params) (l : Line) : Line :=
  { Line.blank l.buf (modeOf c resetFields).nlpr resetFields.lpf with picks := l.picks }

/-- The registers, masks, counters and raster variables of `reset` (`70_reset_and_hazards.md`
R490). `bank` and `pal` are fresh free values (assumption 7). -/
@[simps] def clearState (s : State) : State :=
  { s with
    reg := zeroRegs, sam := 0, snoop0 := 0, snoop1 := 0
    bank := drawnBank s.cfg s.draws, pal := drawnPal s.draws, draws := s.draws + 1
    pendingIrq := 0, pendingFirq := 0
    timerCounter := 0, timerRunning := false, blink := false
    vstate := .vblank, lcount := 0, scanline := 0, lineStart := s.now
    row := 0, base := 0, frameCtr := 0
    line := s.line.cleared s.cfg }

/-- The queue after `reset` (`70_reset_and_hazards.md` R490). -/
def resetQueue (s : State) : State :=
  scheduleEvent .hsFall (s.now + s.cfg.tSl * s.cfg.ticksPerPixel)
    (cancelEvent .timer (cancelEvent .hBord (cancelEvent .hsRise s)))

/-- `reset()` (`70_reset_and_hazards.md` R490). -/
def resetBlock (s : State) : State :=
  updateLevels (recomputeAll (resetQueue (setFs true (setHs true (clearState s)))))

end Sys2Proof.Machine
end

