-- ==== Sys2Proof/Machine/Bus.lean ====
section
/-! DEFINITION. The bus cycle (`41_bus_decode.md` R195), as one operation that every cycle shares,
and the dispatch of its internal effects by window (R206). -/

namespace Sys2Proof.Machine

/-- Step 5 of a cycle: what the platform does with the data byte (`41_bus_decode.md` R195). RAM
holds it; a ROM or a peripheral answers a read with a free value and keeps a write to itself
(assumption 9). -/
def platformTransfer (rnw : Bool) (d : Byte) (b : BusSelect) (s : State) : State :=
  match b.z with
  | some z => if rnw then ramRead z s else ramWrite z d s
  | none =>
    if b.sel = .internal then s
    else if rnw then readExternal s
    else s

/-- The state with the cycle's notification sent and its callback run (`41_bus_decode.md` R195 step
3, `40_scheduler.md` R177). -/
def announceCycle (rnw : Bool) (a : Addr) (s : State) : State :=
  crossings 1 (emit (.cycle rnw a (busDecode s a) (cycleTicks s)) s)

/-- Steps 1 to 4 of a cycle (`41_bus_decode.md` R195): the decode and the length of the state
before it, the notification, the events that are due. -/
def cycleAdvance (rnw : Bool) (a : Addr) (s : State) : Res :=
  advance (s.now + cycleTicks s) (announceCycle rnw a s)

/-- A bus cycle with its internal effect (`41_bus_decode.md` R195, steps 1 to 6). -/
def busCycle (rnw : Bool) (a : Addr) (d : Byte) (effect : State → Res) (s : State) : Res :=
  andThen (cycleAdvance rnw a s) fun t => effect (platformTransfer rnw d (busDecode s a) t)

/-- A cycle without an internal effect. -/
def plainCycle (rnw : Bool) (a : Addr) (d : Byte) (s : State) : Res :=
  busCycle rnw a d .next s

/-- The cycle that writes register `n` at its address. -/
def regWriteCycle (n : BitVec 4) (a : Addr) (d : Byte) (s : State) : Res :=
  busCycle false a d (writeReg n d) s

/-- The read of register `n` inside the block (`42_registers.md` R240 to R242). -/
def readRegBus (n : BitVec 4) (s : State) : State :=
  if n = 2 then readIrqPending s
  else if n = 3 then readFirqPending s
  else readUndriven s

/-- Step 6 of a cycle by window (`41_bus_decode.md` R195, R206). -/
def windowEffect (rnw : Bool) (a : Addr) (d : Byte) (s : State) : Res :=
  match windowOf s.cfg.win a with
  | .ramLo | .upper | .fexx | .vec => .next s
  | .io =>
    if snoopedWrite s.cfg.win rnw a then writeSnoop (snoopIndexOf s.cfg.win a) d s else .next s
  | .reg => if rnw then .next (readRegBus (indexOf a) s) else writeReg (indexOf a) d s
  | .mmu => .next (if rnw then readBank (indexOf a) s else writeBank (indexOf a) d.toNat s)
  | .pal => if rnw then .next (readPal (indexOf a) s) else writePal (indexOf a) d s
  | .sam => if rnw then .next (readUndriven s) else writeSam (samBitOf a) (samValueOf a) s

end Sys2Proof.Machine
end

