-- ==== Sys2Proof/Machine/BusOps.lean ====
section
/-! DEFINITION. The meanings of the operations of format BUS17: the cycles that select an external
device (`41_bus_decode.md` R196 to R200), the snooped write (R205), and the bank, palette and SAM
windows (`43_mmu_palette_sam.md`). -/

namespace Sys2Proof.Machine

/-- `BUS.RAM_LO` (`41_bus_decode.md` R196). -/
def execBusRamLo (rnw : Bool) (a : Addr) (d : Byte) (s : State) : Res := plainCycle rnw a d s

/-- `BUS.UPPER` (`41_bus_decode.md` R197). -/
def execBusUpper (rnw : Bool) (a : Addr) (d : Byte) (s : State) : Res := plainCycle rnw a d s

/-- `BUS.FEXX` (`41_bus_decode.md` R198). -/
def execBusFexx (rnw : Bool) (a : Addr) (d : Byte) (s : State) : Res := plainCycle rnw a d s

/-- `BUS.IO` (`41_bus_decode.md` R199). -/
def execBusIo (rnw : Bool) (a : Addr) (d : Byte) (s : State) : Res := plainCycle rnw a d s

/-- `BUS.VEC` (`41_bus_decode.md` R200). -/
def execBusVec (rnw : Bool) (a : Addr) (d : Byte) (s : State) : Res := plainCycle rnw a d s

/-- `SNOOP_WR` (`41_bus_decode.md` R205). -/
def execSnoopWr (a : Addr) (d : Byte) (s : State) : Res :=
  busCycle false a d (writeSnoop (snoopIndexOf s.cfg.win a) d) s

/-- `MMU_WR` (`43_mmu_palette_sam.md` R260). -/
def execMmuWr (a : Addr) (d : Byte) (s : State) : Res :=
  busCycle false a d (fun t => .next (writeBank (indexOf a) d.toNat t)) s

/-- `MMU_RD` (`43_mmu_palette_sam.md` R261). -/
def execMmuRd (a : Addr) (s : State) : Res :=
  busCycle true a 0 (fun t => .next (readBank (indexOf a) t)) s

/-- `PAL_WR` (`43_mmu_palette_sam.md` R264). -/
def execPalWr (a : Addr) (d : Byte) (s : State) : Res :=
  busCycle false a d (writePal (indexOf a) d) s

/-- `PAL_RD` (`43_mmu_palette_sam.md` R265). -/
def execPalRd (a : Addr) (s : State) : Res :=
  busCycle true a 0 (fun t => .next (readPal (indexOf a) t)) s

/-- `SAM_CLR` (`43_mmu_palette_sam.md` R270); the data byte is ignored. -/
def execSamClr (a : Addr) (d : Byte) (s : State) : Res :=
  busCycle false a d (writeSam (samBitOf a) false) s

/-- `SAM_SET` (`43_mmu_palette_sam.md` R271); the data byte is ignored. -/
def execSamSet (a : Addr) (d : Byte) (s : State) : Res :=
  busCycle false a d (writeSam (samBitOf a) true) s

/-- `SAM_RD` (`43_mmu_palette_sam.md` R272): not driven. -/
def execSamRd (a : Addr) (s : State) : Res :=
  busCycle true a 0 (fun t => .next (readUndriven t)) s

end Sys2Proof.Machine
end

