-- ==== Sys2Proof/Machine/Calls.lean ====
section
/-! DEFINITION. The meanings of the operations of format CALL (`30_encoding.md` R125). -/

namespace Sys2Proof.Machine

/-- `schedule` (`40_scheduler.md` R174), of any event: a call of it can leave the occupancy law of
R181 (DESIGN CHOICE, assumption 45). -/
def execSchedule (ev : EventId) (tick : Nat) (s : State) : Res := .next (scheduleEvent ev tick s)

/-- `cancel` (`40_scheduler.md` R175), of any event: a call of it can leave the occupancy law of R181
(DESIGN CHOICE, assumption 45). -/
def execCancel (ev : EventId) (s : State) : Res := .next (cancelEvent ev s)

/-- `advance_to` (`40_scheduler.md` R176). -/
def execAdvanceTo (target : Nat) (s : State) : Res := advance target s

/-- `memory_cycle` (`41_bus_decode.md` R195). -/
def execMemoryCycle (rnw : Bool) (a : Addr) (d : Byte) (s : State) : Res :=
  busCycle rnw a d (windowEffect rnw a d) s

/-- `reset` (`70_reset_and_hazards.md` R490). -/
def execReset (s : State) : Res := .next (resetBlock s)

/-- `set_register` (`42_registers.md` R250). -/
def execSetRegister (index : Nat) (value : Byte) (s : State) : Res :=
  if index < 16 then writeReg (BitVec.ofNat 4 index) value s else .fault .badIndex

/-- `get_register` (`42_registers.md` R251). -/
def execGetRegister (index : Nat) (s : State) : Res :=
  if index < 16 then .next (readRegister (BitVec.ofNat 4 index) s) else .fault .badIndex

/-- `set_mmu_bank` (`43_mmu_palette_sam.md` R262). -/
def execSetMmuBank (index page : Nat) (s : State) : Res :=
  if index < 16 then .next (writeBank (BitVec.ofNat 4 index) page s) else .fault .badIndex

/-- `set_palette_entry` (`47_composite.md` R395). -/
def execSetPaletteEntry (index : Nat) (y pb pr : Rat) (s : State) : Res :=
  setColour index ⟨y, pb, pr⟩ s

/-- `set_burst` (`47_composite.md` R397). -/
def execSetBurst (index : Nat) (offset : Rat) (s : State) : Res := rebuildBurst index offset s

/-- `set_hue` (`47_composite.md` R396). -/
def execSetHue (degrees : Rat) (s : State) : Res := .next (rebuildHue degrees s)

/-- `render_line.PALETTE` (`47_composite.md` R410). -/
def execRenderPalette (sel : BurstSel) (n : Nat) (buf : List Byte) (s : State) : Res :=
  withRow s (paletteRow s sel (buf.take n))

/-- `render_line.ART2` (`47_composite.md` R411). -/
def execRenderArt2 (sel : BurstSel) (n : Nat) (buf : List Byte) (s : State) : Res :=
  withRow s (art2Row s sel (buf.take n))

/-- `render_line.ART5` (`47_composite.md` R412). -/
def execRenderArt5 (sel : BurstSel) (n : Nat) (buf : List Byte) (s : State) : Res :=
  withRow s (art5Row s sel (buf.take n))

/-- `render_line.SIM` (`47_composite.md` R420). -/
def execRenderSim (sel : BurstSel) (n : Nat) (buf : List Byte) (s : State) : Res :=
  withRow s (simRow s sel (buf.take n))

/-- `vo_render.row` (`48_vo_render.md` R442). -/
def execVoRenderRow (sel : BurstSel) (n : Nat) (buf : List Byte) (s : State) : Res :=
  voRow sel n buf s

end Sys2Proof.Machine
end

