-- ==== Sys2Proof/Machine/Events.lean ====
section
/-! DEFINITION. The meanings of the operations of format EVT: one queue entry's handler, run with
the entry's tick (`40_scheduler.md` R171). The stamp orders entries and has no other effect; the
queue and `now` are the loop's affair (assumption 38). -/

namespace Sys2Proof.Machine

/-- `EV_HS_FALL` (`44_raster.md` R295). -/
def execEvHsFall (tick _seq : Nat) (s : State) : Res := onHsFall tick s

/-- `EV_HS_RISE` (`44_raster.md` R305). -/
def execEvHsRise (_tick _seq : Nat) (s : State) : Res := .next (onHsRise s)

/-- `EV_HBORD` (`44_raster.md` R306). -/
def execEvHBord (_tick _seq : Nat) (s : State) : Res := .next (onHBord s)

/-- `EV_TIMER` (`45_timer.md` R336). -/
def execEvTimer (tick _seq : Nat) (s : State) : Res := .next (onTimer tick s)

end Sys2Proof.Machine
end

