-- ==== Sys2Proof/Machine/Procs.lean ====
section
/-! DEFINITION. The meanings of the internal procedures (`30_encoding.md` R120), each run on its
own (assumption 3). -/

namespace Sys2Proof.Machine

/-- `Recompute` (`42_registers.md` R220, R221). -/
def execRecompute (s : State) : Res := .next (recomputeAll s)

/-- `RegWrite` (`42_registers.md` R238). -/
def execRegWrite (n : BitVec 4) (d : Byte) (s : State) : Res := writeReg n d s

/-- `Flush` (`46_pixel_generation.md` R350). -/
def execFlush (s : State) : Res := flushLine s

/-- `RenderTo` (`46_pixel_generation.md` R352). -/
def execRenderTo (p : Nat) (s : State) : Res := renderToPos p s

/-- `Cell` (`46_pixel_generation.md` R353). -/
def execCell (s : State) : Res := paintOneCell s

/-- `Raise` (`60_exceptions.md` R457). -/
def execRaise (m : IrqMask) (s : State) : Res := .next (raiseIrq m s)

/-- `UpdateLevels` (`60_exceptions.md` R458). -/
def execUpdateLevels (s : State) : Res := .next (updateLevels s)

/-- `TimerLoad` (`45_timer.md` R332). -/
def execTimerLoad (s : State) : Res := .next (loadTimer s)

/-- `TimerClock` (`45_timer.md` R333). -/
def execTimerClock (s : State) : Res := .next (clockTimer s)

/-- `TimerExpire` (`45_timer.md` R334). -/
def execTimerExpire (s : State) : Res := .next (expireTimer s)

/-- `FinishLine` (`44_raster.md` R302). -/
def execFinishLine (s : State) : Res := completeLine s

/-- `RowAdvance` (`44_raster.md` R297). -/
def execRowAdvance (s : State) : Res := .next (advanceRow s)

/-- `VerticalStep` (`44_raster.md` R296). -/
def execVerticalStep (s : State) : Res := .next (stepVertical s)

/-- `LineCounters` (`44_raster.md` R300). -/
def execLineCounters (s : State) : Res := .next (startCounters s)

/-- `ScheduleLine` (`44_raster.md` R301). -/
def execScheduleLine (tick : Nat) (s : State) : Res := .next (scheduleRaster tick s)

end Sys2Proof.Machine
end

