-- ==== Sys2Proof/Machine/RegOps.lean ====
section
/-! DEFINITION. The meanings of the register window's bus operations (`42_registers.md` R222 to
R242). The address of the cycle stands last; one that is not given is the register's under the
default window map (`20_memory.md` R88). -/

namespace Sys2Proof.Machine

/-- `REG_WR.0`, init flags 0 (`42_registers.md` R222). -/
def execRegWr0 (d : Byte) (s : State) (a : Addr := 0xFF90) : Res := regWriteCycle 0 a d s

/-- `REG_WR.1`, init flags 1 (`42_registers.md` R223). -/
def execRegWr1 (d : Byte) (s : State) (a : Addr := 0xFF91) : Res := regWriteCycle 1 a d s

/-- `REG_WR.2`, IRQ enable (`42_registers.md` R224). -/
def execRegWr2 (d : Byte) (s : State) (a : Addr := 0xFF92) : Res := regWriteCycle 2 a d s

/-- `REG_WR.3`, FIRQ enable (`42_registers.md` R225). -/
def execRegWr3 (d : Byte) (s : State) (a : Addr := 0xFF93) : Res := regWriteCycle 3 a d s

/-- `REG_WR.4`, timer high (`42_registers.md` R226). -/
def execRegWr4 (d : Byte) (s : State) (a : Addr := 0xFF94) : Res := regWriteCycle 4 a d s

/-- `REG_WR.5`, timer low (`42_registers.md` R227). -/
def execRegWr5 (d : Byte) (s : State) (a : Addr := 0xFF95) : Res := regWriteCycle 5 a d s

/-- `REG_WR.6`, register 6 (`42_registers.md` R228). -/
def execRegWr6 (d : Byte) (s : State) (a : Addr := 0xFF96) : Res := regWriteCycle 6 a d s

/-- `REG_WR.7`, register 7 (`42_registers.md` R229). -/
def execRegWr7 (d : Byte) (s : State) (a : Addr := 0xFF97) : Res := regWriteCycle 7 a d s

/-- `REG_WR.8`, video mode (`42_registers.md` R230). -/
def execRegWr8 (d : Byte) (s : State) (a : Addr := 0xFF98) : Res := regWriteCycle 8 a d s

/-- `REG_WR.9`, resolution (`42_registers.md` R231). -/
def execRegWr9 (d : Byte) (s : State) (a : Addr := 0xFF99) : Res := regWriteCycle 9 a d s

/-- `REG_WR.10`, border (`42_registers.md` R232). -/
def execRegWr10 (d : Byte) (s : State) (a : Addr := 0xFF9A) : Res := regWriteCycle 10 a d s

/-- `REG_WR.11`, register 11 (`42_registers.md` R233). -/
def execRegWr11 (d : Byte) (s : State) (a : Addr := 0xFF9B) : Res := regWriteCycle 11 a d s

/-- `REG_WR.12`, vertical scroll (`42_registers.md` R234). -/
def execRegWr12 (d : Byte) (s : State) (a : Addr := 0xFF9C) : Res := regWriteCycle 12 a d s

/-- `REG_WR.13`, vertical offset high (`42_registers.md` R235). -/
def execRegWr13 (d : Byte) (s : State) (a : Addr := 0xFF9D) : Res := regWriteCycle 13 a d s

/-- `REG_WR.14`, vertical offset low (`42_registers.md` R236). -/
def execRegWr14 (d : Byte) (s : State) (a : Addr := 0xFF9E) : Res := regWriteCycle 14 a d s

/-- `REG_WR.15`, horizontal offset (`42_registers.md` R237). -/
def execRegWr15 (d : Byte) (s : State) (a : Addr := 0xFF9F) : Res := regWriteCycle 15 a d s

/-- `REG_RD.2` (`42_registers.md` R240). -/
def execRegRd2 (s : State) (a : Addr := 0xFF92) : Res :=
  busCycle true a 0 (fun t => .next (readIrqPending t)) s

/-- `REG_RD.3` (`42_registers.md` R241). -/
def execRegRd3 (s : State) (a : Addr := 0xFF93) : Res :=
  busCycle true a 0 (fun t => .next (readFirqPending t)) s

/-- `REG_RD.x` (`42_registers.md` R242): not driven. -/
def execRegRdX (a : Addr) (s : State) : Res :=
  busCycle true a 0 (fun t => .next (readUndriven t)) s

end Sys2Proof.Machine
end

