-- ==== Sys2Proof/Machine/Dispatch.lean ====
section
/-! DEFINITION. The dispatch: one arm per operation, each one direct call of its meaning. -/

namespace Sys2Proof.Machine

def exec (i : Instr) (s : State) : Host.Outcome State Fault Refusal :=
  match i with
  | .busRamLo rnw a d => Sys2Proof.Machine.execBusRamLo rnw a d s
  | .busUpper rnw a d => Sys2Proof.Machine.execBusUpper rnw a d s
  | .busFexx rnw a d => Sys2Proof.Machine.execBusFexx rnw a d s
  | .busIo rnw a d => Sys2Proof.Machine.execBusIo rnw a d s
  | .busVec rnw a d => Sys2Proof.Machine.execBusVec rnw a d s
  | .snoopWr a d => Sys2Proof.Machine.execSnoopWr a d s
  | .regWr0 d a => Sys2Proof.Machine.execRegWr0 d s a
  | .regWr1 d a => Sys2Proof.Machine.execRegWr1 d s a
  | .regWr2 d a => Sys2Proof.Machine.execRegWr2 d s a
  | .regWr3 d a => Sys2Proof.Machine.execRegWr3 d s a
  | .regWr4 d a => Sys2Proof.Machine.execRegWr4 d s a
  | .regWr5 d a => Sys2Proof.Machine.execRegWr5 d s a
  | .regWr6 d a => Sys2Proof.Machine.execRegWr6 d s a
  | .regWr7 d a => Sys2Proof.Machine.execRegWr7 d s a
  | .regWr8 d a => Sys2Proof.Machine.execRegWr8 d s a
  | .regWr9 d a => Sys2Proof.Machine.execRegWr9 d s a
  | .regWr10 d a => Sys2Proof.Machine.execRegWr10 d s a
  | .regWr11 d a => Sys2Proof.Machine.execRegWr11 d s a
  | .regWr12 d a => Sys2Proof.Machine.execRegWr12 d s a
  | .regWr13 d a => Sys2Proof.Machine.execRegWr13 d s a
  | .regWr14 d a => Sys2Proof.Machine.execRegWr14 d s a
  | .regWr15 d a => Sys2Proof.Machine.execRegWr15 d s a
  | .regRd2 a => Sys2Proof.Machine.execRegRd2 s a
  | .regRd3 a => Sys2Proof.Machine.execRegRd3 s a
  | .regRdX a => Sys2Proof.Machine.execRegRdX a s
  | .mmuWr a d => Sys2Proof.Machine.execMmuWr a d s
  | .mmuRd a => Sys2Proof.Machine.execMmuRd a s
  | .palWr a d => Sys2Proof.Machine.execPalWr a d s
  | .palRd a => Sys2Proof.Machine.execPalRd a s
  | .samClr a d => Sys2Proof.Machine.execSamClr a d s
  | .samSet a d => Sys2Proof.Machine.execSamSet a d s
  | .samRd a => Sys2Proof.Machine.execSamRd a s
  | .evHsFall tick seq => Sys2Proof.Machine.execEvHsFall tick seq s
  | .evHsRise tick seq => Sys2Proof.Machine.execEvHsRise tick seq s
  | .evHBord tick seq => Sys2Proof.Machine.execEvHBord tick seq s
  | .evTimer tick seq => Sys2Proof.Machine.execEvTimer tick seq s
  | .schedule ev tick => Sys2Proof.Machine.execSchedule ev tick s
  | .cancel ev => Sys2Proof.Machine.execCancel ev s
  | .advanceTo target => Sys2Proof.Machine.execAdvanceTo target s
  | .memoryCycle rnw a d => Sys2Proof.Machine.execMemoryCycle rnw a d s
  | .reset => Sys2Proof.Machine.execReset s
  | .setRegister index value => Sys2Proof.Machine.execSetRegister index value s
  | .getRegister index => Sys2Proof.Machine.execGetRegister index s
  | .setMmuBank index page => Sys2Proof.Machine.execSetMmuBank index page s
  | .setPaletteEntry index y pb pr => Sys2Proof.Machine.execSetPaletteEntry index y pb pr s
  | .setBurst index offset => Sys2Proof.Machine.execSetBurst index offset s
  | .setHue degrees => Sys2Proof.Machine.execSetHue degrees s
  | .renderPalette sel n buf => Sys2Proof.Machine.execRenderPalette sel n buf s
  | .renderArt2 sel n buf => Sys2Proof.Machine.execRenderArt2 sel n buf s
  | .renderArt5 sel n buf => Sys2Proof.Machine.execRenderArt5 sel n buf s
  | .renderSim sel n buf => Sys2Proof.Machine.execRenderSim sel n buf s
  | .voRenderRow sel n buf => Sys2Proof.Machine.execVoRenderRow sel n buf s
  | .recompute => Sys2Proof.Machine.execRecompute s
  | .regWrite n d => Sys2Proof.Machine.execRegWrite n d s
  | .flush => Sys2Proof.Machine.execFlush s
  | .renderTo p => Sys2Proof.Machine.execRenderTo p s
  | .cell => Sys2Proof.Machine.execCell s
  | .raise m => Sys2Proof.Machine.execRaise m s
  | .updateLevels => Sys2Proof.Machine.execUpdateLevels s
  | .timerLoad => Sys2Proof.Machine.execTimerLoad s
  | .timerClock => Sys2Proof.Machine.execTimerClock s
  | .timerExpire => Sys2Proof.Machine.execTimerExpire s
  | .finishLine => Sys2Proof.Machine.execFinishLine s
  | .rowAdvance => Sys2Proof.Machine.execRowAdvance s
  | .verticalStep => Sys2Proof.Machine.execVerticalStep s
  | .lineCounters => Sys2Proof.Machine.execLineCounters s
  | .scheduleLine tick => Sys2Proof.Machine.execScheduleLine tick s

end Sys2Proof.Machine
end

