-- ==== Sys2Proof/Machine/Step.lean ====
section
/-! DEFINITION. One step of the machine: the first operation of the inbox is decoded and run on
the rest (`00_scope.md` R17, `70_reset_and_hazards.md` R500; assumption 1). What the block runs by
itself is never taken from the inbox (`30_encoding.md` R120; assumption 3). -/

namespace Sys2Proof.Machine

/-- The state with the first operation of the inbox taken out. -/
@[simps] def takeRequest (rest : List Request) (s : State) : State := { s with inbox := rest }

/-- The state with the block's own operation taken out. -/
@[simps] def takeInternal (s : State) : State := { s with internal := none }

/-- The answer to a request that was read: its operation, or the refusal by name. -/
def runRead (r : Except DecodeError Instr) (s : State) : Res :=
  match r with
  | .ok i => exec i s
  | .error e => .refused (.notAnOperation e)

/-- One step. With nothing to run the machine waits: without an operation nothing happens
(`40_scheduler.md` R180). -/
def step (s : State) : Host.Outcome State Fault Refusal :=
  match s.internal with
  | some r => runRead (readInternal r) (takeInternal s)
  | none =>
    match s.inbox with
    | [] => .next s
    | r :: rest => runRead (decode s.cfg.win r) (takeRequest rest s)

/-- The state with the operation of the table word `w` put where the next step takes it: first in
the inbox, or, for a queue entry or an internal procedure, as the block's own operation. -/
def State.withFetchWord (s : State) (nbits w : Nat) : State :=
  match Request.ofTable nbits w with
  | some r =>
    if r.internal then { s with internal := some r }
    else { s with inbox := r :: s.inbox, internal := none }
  | none => s

end Sys2Proof.Machine
end

