-- ==== Sys2Proof/Safety.lean ====
section
/-! DEFINITION. The terms in which statements about the machine are made: when no event is due, the
state at the end of an uneventful cycle, what a RAM write and a flush leave, which parameters the
spec admits, the real number a sum of tones stands for, and the invariants of the state. -/

namespace Sys2Proof.Machine

/-! Time. -/

/-- No entry of the queue fires in `advance_to(t)`: its head, if any, lies after `t`
(`40_scheduler.md` R176). -/
def nothingDue (s : State) (t : Nat) : Bool :=
  match s.queue with
  | [] => true
  | e :: _ => decide (t < e.tick)

/-- No event is due up to the end of the next bus cycle, what its callback schedules included. -/
def quietCycle (s : State) : Bool := nothingDue (crossings 1 s) (s.now + cycleTicks s)

/-- The state at the end of a bus cycle in which no event is due, before the data transfer
(`41_bus_decode.md` R195 steps 1 to 4): the cycle's callback has run. -/
@[simps] def afterCycle (rnw : Bool) (a : Addr) (s : State) : State :=
  { crossings 1 s with
    now := s.now + cycleTicks s
    trace := (s.now, .cycle rnw a (busDecode s a) (cycleTicks s)) :: s.trace }

/-! Parameters. -/

/-- The periods that make every event re-schedule itself later than its own tick
(`40_scheduler.md` R176 corner case (4)). -/
def timedOk (c : Params) : Bool :=
  decide (0 < c.tSl) && decide (0 < c.ticksPerPixel) && decide (0 < c.timerFastPeriod)

/-- The geometry of a line (`44_raster.md` R280). -/
def fitsOk (c : Params) : Bool :=
  c.lb.narrow + c.aaw.narrow + c.rb.narrow == c.nVis
    && c.lb.wide + c.aaw.wide + c.rb.wide == c.nVis

/-- The geometry constraint of `44_raster.md` R280 whole: the visible span also lies in the line. A
claim that uses the composition of a line takes it as a hypothesis
(`93_implementation_defined.md` U23). -/
def geometryOk (c : Params) : Bool := fitsOk c && decide (c.pVis + c.nVis ≤ c.tSl)

/-- The constraints of the signal path: `TMAX > 2 NCYC` (`47_composite.md` R391, U23), and gain 1 at
zero frequency of both filters (R421). -/
def signalOk (c : Params) : Bool :=
  decide (2 * c.ncyc < c.tmax) && c.lpY.taps.sum == 1 && c.lpC.taps.sum == 1

/-- Every value that U23 (`93_implementation_defined.md`) asks a claim to constrain. -/
def paramsOk (c : Params) : Bool :=
  timedOk c && geometryOk c && signalOk c && decide (c.tSl % c.tmax = 0)

/-! Reals of the signal path (`47_composite.md` R392). -/

/-- An angle in radians. -/
noncomputable def radians (d : Rat) : ℝ := d * Real.pi / 180

/-- The real number that a list of tones stands for. -/
noncomputable def tonesReal (l : List Tone) : ℝ :=
  (l.map fun t => (t.coef : ℝ) * Real.cos (radians t.angle)).sum

/-- The real number that a sum of tones stands for. -/
noncomputable def Amp.real (a : Amp) : ℝ := tonesReal a.tones

/-- Does the comparison of `a` with `q` end without the free value of assumption 4? -/
def Amp.decided (q : Rat) (a : Amp) : Bool := (nonneg? (a.add (.ofRat (-q))).tones).isSome

/-- Do all comparisons of the output stage with `a` end so? -/
def outputDecided (c : Params) (a : Amp) : Bool :=
  match c.gamma with
  | .identity => (List.range 255).all fun k => a.decided (identityRise (k + 1))
  | .levels rises => rises.all fun t => a.decided t

/-- Do they end so for the three components of a decoded pixel? -/
def pixelDecided (c : Params) (y u v : Amp) : Bool :=
  outputDecided c (applyRow c.mRgb.red y u v) && outputDecided c (applyRow c.mRgb.green y u v) &&
    outputDecided c (applyRow c.mRgb.blue y u v)

/-- `floor(255 clamp(v) + 1/2)` (`47_composite.md` R423 with the identity as `GAMMA`). -/
noncomputable def roundOutput (v : ℝ) : Byte :=
  BitVec.ofInt 8 ⌊255 * max 0 (min v 1) + 1 / 2⌋

/-- The output of a filter at position `x` over a row of `n` positions, zero outside it
(`47_composite.md` R421; assumption 22). -/
noncomputable def firReal (g : RowFilter) (n : Nat) (f : Nat → ℝ) (x : Nat) : ℝ :=
  (g.taps.mapIdx fun k w =>
    if k ≤ x + g.advance ∧ x + g.advance - k < n then (w : ℝ) * f (x + g.advance - k) else 0).sum

/-- The filter removes the `j`-th harmonic of the subcarrier (`47_composite.md` R421, F2). -/
def filterRejects (c : Params) (g : RowFilter) (j : Nat) : Prop :=
  (g.taps.mapIdx fun k w =>
    (w : ℝ) * Real.cos (2 * Real.pi * (j * c.ncyc * k / c.tmax))).sum = 0 ∧
  (g.taps.mapIdx fun k w =>
    (w : ℝ) * Real.sin (2 * Real.pi * (j * c.ncyc * k / c.tmax))).sum = 0

/-! What the shared operations leave. -/

/-- What fired events, and the callbacks they make, may change: everything else is as it was. No
event writes a register, a derived field, a bank or palette entry, RAM or the colour state
(`40_scheduler.md` R172, `00_scope.md` R19). -/
def EventFrame (s t : State) : Prop :=
  t = { s with
    now := t.now, queue := t.queue, seqNext := t.seqNext, callbacks := t.callbacks
    pendingIrq := t.pendingIrq, pendingFirq := t.pendingFirq
    irqLevel := t.irqLevel, firqLevel := t.firqLevel
    timerCounter := t.timerCounter, timerRunning := t.timerRunning, blink := t.blink
    vstate := t.vstate, lcount := t.lcount, scanline := t.scanline, lineStart := t.lineStart
    row := t.row, base := t.base, hsLevel := t.hsLevel, fsLevel := t.fsLevel
    frameCtr := t.frameCtr, line := t.line, voLine := t.voLine, target := t.target
    trace := t.trace }

/-- `t` is `s` after the RAM byte at `z` was written with `d`: that byte, and of the line only what
concerns late writes (`20_memory.md` R99; assumptions 11 and 12). -/
def RamWritten (z : Nat) (d : Byte) (s t : State) : Prop :=
  memRead t.ram z = d ∧
  (∀ y, y ≠ z → memRead t.ram y = memRead s.ram y) ∧
  t = { s with ram := t.ram, line := t.line } ∧
  t.line = { s.line with
    buf := t.line.buf, cells := t.line.cells, picks := t.line.picks, writes := t.line.writes } ∧
  ((∀ p ∈ s.line.cells, p.shows z = false) →
    t.line.buf = s.line.buf ∧ t.line.cells = s.line.cells ∧ t.line.picks = s.line.picks)

/-- `l` is the line of `s` painted up to position `p` at least: nothing if the beam is there
already, and never a position below the beam (`46_pixel_generation.md` R352). -/
def PaintedTo (p : Nat) (s : State) (l : Line) : Prop :=
  p ≤ l.beamPos ∧
  (p ≤ s.line.beamPos → l = s.line) ∧
  (s.line.beamPos ≤ s.line.buf.length →
    l.buf.take s.line.beamPos = s.line.buf.take s.line.beamPos) ∧
  l.writes = s.line.writes ∧ l.nlpr = s.line.nlpr ∧ l.lpf = s.line.lpf

/-- What painting up to `p` put into the buffer: from the beam on the rest of the left border, the
active area, the right border, and 0 in every position that the line's counters give nothing
(`46_pixel_generation.md` R352, R375). -/
def PaintedBorders (p : Nat) (s : State) (l : Line) : Prop :=
  s.line.beamPos ≤ s.line.buf.length →
  ∀ j, s.line.beamPos ≤ j → j < p →
    (j < s.line.beamPos + s.line.lbRem → l.buf[j]? = some (s.mode.border.setWidth 8)) ∧
    (s.line.beamPos + s.line.lbRem + s.line.aaRem ≤ j →
      j < s.line.beamPos + s.line.lbRem + s.line.aaRem + s.line.rbRem →
      l.buf[j]? = some (s.mode.border.setWidth 8)) ∧
    (s.line.beamPos + s.line.lbRem + s.line.aaRem + s.line.rbRem ≤ j → l.buf[j]? = some 0)

/-- `l` is the line of `s` after a flush (`46_pixel_generation.md` R350). -/
def Flushed (s : State) (l : Line) : Prop :=
  (s.frameCtr = 0 → PaintedTo (beamTarget s) s l) ∧ (s.frameCtr ≠ 0 → l = s.line)

/-- `s` with the flushed line `l` after register `n` was stored and everything derived recomputed
(`42_registers.md` R238 before `Extra`). -/
def registerStored (n : BitVec 4) (d : Byte) (s : State) (l : Line) : State :=
  { afterPaint l s with
    reg := set16 s.reg n d
    fields := extractFields (set16 s.reg n d) s.sam s.snoop0
    mode := modeOf s.cfg (extractFields (set16 s.reg n d) s.sam s.snoop0) }

/-- `s` with the levels of `compute_levels` and the notifications of the changes
(`60_exceptions.md` R458). -/
def levelsUpdated (s : State) : State :=
  { s with
    irqLevel := computeLevel s.fields.ien s.pendingIrq
    firqLevel := computeLevel s.fields.fen s.pendingFirq
    trace := levelsTrace s }

/-- The operation that a queue entry stands for (`30_encoding.md` R124). -/
def QEntry.operation (e : QEntry) : Instr :=
  match e.ev with
  | .hsFall => .evHsFall e.tick e.seq
  | .hsRise => .evHsRise e.tick e.seq
  | .hBord => .evHBord e.tick e.seq
  | .timer => .evTimer e.tick e.seq

/-- Every colour index of the row has a triple (`60_exceptions.md` R450). -/
def coloursSet (s : State) (row : List Byte) : Bool :=
  row.all fun b => (storeFind s.colour b.toNat).isSome

/-- The state before the first reset, with parameters `c` (`70_reset_and_hazards.md` R491). -/
def powerOn (c : Params) : State :=
  { State.resetWith c with queue := [], seqNext := 0, draws := 0 }

/-! Invariants. -/

/-- No derived field is stale (`41_bus_decode.md` R207, `42_registers.md` R220, R221). -/
abbrev DerivedOk (s : State) : Prop :=
  s.fields = extractFields s.reg s.sam s.snoop0 ∧ s.mode = modeOf s.cfg s.fields

/-- The output levels are `compute_levels` (`60_exceptions.md` R458). -/
abbrev LevelsOk (s : State) : Prop :=
  s.irqLevel = computeLevel s.fields.ien s.pendingIrq ∧
  s.firqLevel = computeLevel s.fields.fen s.pendingFirq

/-- A queue in order, without two entries for one event (`10_state.md` R21). -/
def queueSorted : List QEntry → Bool
  | [] => true
  | e :: q => q.all (fun f => e.before f && e.ev != f.ev) && queueSorted q

/-- The queue is sorted by `(tick, seq)`, has one entry for an event, and its stamps are below
`seq_next` (`10_state.md` R21, R22). -/
abbrev QueueOk (s : State) : Prop :=
  queueSorted s.queue = true ∧ ∀ e ∈ s.queue, e.seq < s.seqNext

/-- The memories are in their canonical form. -/
abbrev MemoryOk (s : State) : Prop :=
  Memory.wf s.ram = true ∧ Store.wf s.colour = true ∧ Store.wf s.target = true

/-- Every counter and entry lies in its range, and frame sync is low exactly in `VSYNC`
(`10_state.md` R35, R41, R46, R48, `44_raster.md` R312). -/
abbrev RangesOk (s : State) : Prop :=
  (∀ v ∈ s.bank.toList, v < 2 ^ s.cfg.bankW) ∧
  s.base < 2 ^ s.cfg.physW ∧
  s.frameCtr ≤ s.cfg.frameskip ∧
  s.timerCounter ≤ 4095 + s.cfg.timerOffset ∧
  (s.timerRunning = true → 1 ≤ s.timerCounter) ∧
  (s.fsLevel = false ↔ s.vstate = .vsync)

/-- A buffer byte that is a colour value, 0..63 (`46_pixel_generation.md` R346). -/
def isColour (b : Byte) : Bool := decide (b < 64)

/-- The render buffer has its size, the counters of the line lie within the visible span, every
painted position holds a colour value, and every painted cell lies in the painted part
(`10_state.md` R49, R50, `46_pixel_generation.md` R346). -/
abbrev LineOk (s : State) : Prop :=
  s.line.buf.length = s.cfg.nVis + s.cfg.rbHeadroom ∧
  s.line.beamPos + s.line.lbRem + s.line.aaRem + s.line.rbRem ≤ s.cfg.nVis ∧
  (s.line.buf.take s.line.beamPos).all isColour = true ∧
  ∀ p ∈ s.line.cells, p.pos + p.width ≤ s.line.beamPos

/-- A delivered row has `N_VIS` bytes, all colour values (`10_state.md` R50). -/
def rowNoticeOk (c : Params) : Notice → Bool
  | .renderRow row n _ => row.length == c.nVis && n == c.nVis && row.all isColour
  | .hs _ | .fs _ | .irq _ | .firq _ | .cycle _ _ _ _ => true

/-- Every delivered row is as it should be. -/
abbrev RowsOk (s : State) : Prop := ∀ n ∈ s.trace, rowNoticeOk s.cfg n.2 = true

/-- The level a notification sets on the IRQ output, if any. -/
def irqOf : Notice → Option Bool
  | .irq l => some l
  | .hs _ | .fs _ | .firq _ | .renderRow _ _ _ | .cycle _ _ _ _ => none

/-- The level a notification sets on the FIRQ output, if any. -/
def firqOf : Notice → Option Bool
  | .firq l => some l
  | .hs _ | .fs _ | .irq _ | .renderRow _ _ _ | .cycle _ _ _ _ => none

/-- The level a notification sets on the horizontal-sync output, if any. -/
def hsOf : Notice → Option Bool
  | .hs l => some l
  | .fs _ | .irq _ | .firq _ | .renderRow _ _ _ | .cycle _ _ _ _ => none

/-- The level a notification sets on the frame-sync output, if any. -/
def fsOf : Notice → Option Bool
  | .fs l => some l
  | .hs _ | .irq _ | .firq _ | .renderRow _ _ _ | .cycle _ _ _ _ => none

/-- The levels, newest first, alternate, end at the present level and began at `start`. -/
def toggles (start : Bool) : Bool → List Bool → Bool
  | level, [] => level == start
  | level, l :: ls => l == level && toggles start (!l) ls

/-- The notifications of one output tell its level, one for each change (`00_scope.md` R13). -/
def outputTold (start level : Bool) (f : Notice → Option Bool) (s : State) : Bool :=
  toggles start level (s.trace.filterMap fun n => f n.2)

/-- The notifications tell all four outputs (`00_scope.md` R13). -/
abbrev OutputsTold (s : State) : Prop :=
  outputTold true s.hsLevel hsOf s = true ∧ outputTold true s.fsLevel fsOf s = true ∧
  outputTold false s.irqLevel irqOf s = true ∧ outputTold false s.firqLevel firqOf s = true

end Sys2Proof.Machine
end

