-- ==== Sys2Proof/Certificates/Slice0/Obligations.lean ====
section
/-! DEFINITION. The statements about the machine, each over every state and every operand unless
its hypotheses say otherwise. -/

open Sys2Proof Sys2Proof.Machine

/-! Encoding and the step. -/

/-- The encoding of any well-formed operation gives the operation back, under every window map: of a
bus cycle or an interface call by the decoder; of a queue entry or an internal procedure by its code,
and the decoder refuses it, for nothing outside invokes it (`30_encoding.md` R120 to R125,
`20_memory.md` R88; the formats EVT and PROC are read as log 3 says). -/
def Obligations.EncodeThenDecode : Prop :=
  ∀ (m : WindowMap) (i : Instr), i.wellFormed m = true →
    ((encode i).internal = false → decode m (encode i) = .ok i) ∧
    ((encode i).internal = true →
      readInternal (encode i) = .ok i ∧ decode m (encode i) = .error .internalOnly)

/-- Every word of format BUS17 is the word of the operation it decodes to, so no bit of the word is
dropped and the data byte of a write is kept; whatever the decoder accepts is a well-formed bus cycle
or interface call, never an internal procedure; and the codes of the block's own operations name
these only, under every window map (`30_encoding.md` R120, R121, R123, R125; log 3). -/
def Obligations.DecodingIsFaithful : Prop :=
  ∀ m : WindowMap,
    (∀ (w : BitVec 17) (d : Byte),
      encode (decodeBus m w d) = .bus w (if wordRnw w then 0 else d)) ∧
    (∀ (r : Request) (i : Instr), decode m r = .ok i →
      i.wellFormed m = true ∧ (encode i).internal = false) ∧
    ∀ (r : Request) (i : Instr), readInternal r = .ok i →
      i.wellFormed m = true ∧ (encode i).internal = true

/-- A few words of the table, written out from `30_encoding.md` R123 to R125 for the default window
map; the last two are the code of a queue entry (R124) and the identity code of an internal procedure
(R120), which the model reads as log 3 says and the decoder refuses. -/
def Obligations.TableWordsDecode : Prop :=
  decode defaultWindows (.bus 0b00000000000000000#17 0x5A) = .ok (.busRamLo false 0x0000 0x5A) ∧
  decode defaultWindows (.bus 0b01111111100100010#17 0xF8) = .ok (.snoopWr 0xFF22 0xF8) ∧
  decode defaultWindows (.bus 0b01111111110011010#17 0x12) = .ok (.regWr10 0x12 0xFF9A) ∧
  decode defaultWindows (.bus 0b11111111110010010#17 0x00) = .ok (.regRd2 0xFF92) ∧
  decode defaultWindows (.bus 0b11111111110100011#17 0x00) = .ok (.mmuRd 0xFFA3) ∧
  decode defaultWindows (.bus 0b01111111110110101#17 0xC9) = .ok (.palWr 0xFFB5 0xC9) ∧
  decode defaultWindows (.bus 0b01111111111011001#17 0x00) = .ok (.samSet 0xFFD9 0x00) ∧
  decode defaultWindows (.call 0x02#8 [.nat 8]) = .ok (.advanceTo 8) ∧
  readInternal (.event 0b10#2 2448 6) = .ok (.evHBord 2448 6) ∧
  readInternal (.proc 0x25#8 [.nat 0x20]) = .ok (.raise 0x20) ∧
  decode defaultWindows (.call 0x25#8 [.nat 0x20]) = .error (.noSuchCode 0x25) ∧
  decode defaultWindows (.proc 0x25#8 [.nat 0x20]) = .error .internalOnly

/-- A step takes the first operation out of the inbox, decodes it and runs it; with an empty inbox
nothing happens; a request that is no operation from outside is refused by name (`40_scheduler.md`
R180, `70_reset_and_hazards.md` R500, `30_encoding.md` R120; log 1, 35). Where one of the block's own
operations stands to be run, the step runs that one first (log 3). -/
def Obligations.StepRunsTheDecodedOperation : Prop :=
  (∀ (s : State) (r : Request) (rest : List Request) (i : Instr), s.internal = none →
    s.inbox = r :: rest → decode s.cfg.win r = .ok i → step s = exec i { s with inbox := rest }) ∧
  (∀ s : State, s.internal = none → s.inbox = [] → step s = .next s) ∧
  (∀ (s : State) (r : Request) (rest : List Request) (e : DecodeError), s.internal = none →
    s.inbox = r :: rest → decode s.cfg.win r = .error e → step s = .refused (.notAnOperation e)) ∧
  (∀ (s : State) (r : Request) (i : Instr), s.internal = some r → readInternal r = .ok i →
    step s = exec i { s with internal := none }) ∧
  (∀ (s : State) (r : Request) (e : DecodeError), s.internal = some r →
    readInternal r = .error e → step s = .refused (.notAnOperation e))

/-- `memory_cycle(RnW, A)` is the operation of the window that `A` lies in (`41_bus_decode.md` R195
step 6, R206). -/
def Obligations.MemoryCycleIsItsWindowOperation : Prop :=
  ∀ (rnw : Bool) (a : Addr) (d : Byte) (s : State),
    exec (.memoryCycle rnw a (if rnw then 0 else d)) s = exec (decodeCycle s.cfg.win rnw a d) s

/-! The scheduler. -/

/-- `schedule(ev, tick)`: any entry for `ev` is replaced by one with the next stamp, the queue stays
in order, and nothing else changes; any tick is accepted (`40_scheduler.md` R174). -/
def Obligations.ScheduleReplacesTheEntry : Prop :=
  ∀ (ev : EventId) (tick : Nat) (s : State), QueueOk s →
    ∃ q, exec (.schedule ev tick) s = .next { s with queue := q, seqNext := s.seqNext + 1 } ∧
      queueSorted q = true ∧
      ∀ e, e ∈ q ↔ e = ⟨tick, ev, s.seqNext⟩ ∨ (e ∈ s.queue ∧ e.ev ≠ ev)

/-- `cancel(ev)` removes the entry for `ev` if there is one, keeps the order of the others and
changes nothing else; a second `cancel(ev)` does nothing (`40_scheduler.md` R175). -/
def Obligations.CancelRemovesTheEntry : Prop :=
  ∀ (ev : EventId) (s : State),
    ∃ q, exec (.cancel ev) s = .next { s with queue := q } ∧ q.Sublist s.queue ∧
      (∀ e, e ∈ q ↔ e ∈ s.queue ∧ e.ev ≠ ev) ∧
      exec (.cancel ev) { s with queue := q } = .next { s with queue := q }

/-- `advance_to`, case by case: below `now` it is the contract violation `AdvanceToPast`, and only
there; with no entry due it only moves time, `target = now` included; with the head of the queue due
it takes that out, moves time to it and never back, runs its handler, and goes on from the state the
handler leaves (`40_scheduler.md` R176; the last clause for positive periods, log 25). -/
def Obligations.AdvanceFiresTheHead : Prop :=
  ∀ (target : Nat) (s : State),
    (exec (.advanceTo target) s = .fault .advanceToPast ↔ target < s.now) ∧
    (s.now ≤ target → nothingDue s target = true →
      exec (.advanceTo target) s = .next { s with now := target }) ∧
    ∀ (e : QEntry) (q : List QEntry), timedOk s.cfg = true →
      s.now ≤ target → s.queue = e :: q → e.tick ≤ target →
      (∀ t, exec e.operation { s with queue := q, now := max s.now e.tick } = .next t →
        exec (.advanceTo target) s = exec (.advanceTo target) t) ∧
      (∀ f, exec e.operation { s with queue := q, now := max s.now e.tick } = .fault f →
        exec (.advanceTo target) s = .fault f)

/-- `advance_to` answers from every state for every target not in the past, with positive periods,
the fetch port connected and the renderer not, whatever the callbacks schedule; and whenever it answers, time stands at the target,
no entry is due any more, and only what events may change has changed (`40_scheduler.md` R172,
R176, R177; log 13, 40). -/
def Obligations.AdvanceEndsAtTheTarget : Prop :=
  ∀ (target : Nat) (s : State),
    (timedOk s.cfg = true → s.cfg.vfetchConnected = true → s.cfg.voConnected = false →
      s.now ≤ target → ∃ t, exec (.advanceTo target) s = .next t) ∧
    (∀ t, exec (.advanceTo target) s = .next t →
      t.now = target ∧ nothingDue t target = true ∧ EventFrame s t)

/-- With positive periods no operation gets stuck in the scheduler, from any state
(`40_scheduler.md` R176 corner case (4); log 25). -/
def Obligations.NoOperationIsStuck : Prop :=
  ∀ (i : Instr) (s : State), timedOk s.cfg = true → exec i s ≠ .fault .schedulerStuck

/-- A call of `schedule` that a collaborator makes inside the `Cycle` callback of a bus cycle, or
inside the first `VFetch` callback of a painting that fetches, acts as the call made right before
the operation: it is supported at any tick, and an entry that is due fires within the cycle; and a
painting uses one callback for each byte it fetched (`40_scheduler.md` R177, `00_scope.md` R13; log
40). -/
def Obligations.CallbacksScheduleAsCallsDo : Prop :=
  ∀ (s : State) (ev : EventId) (tick : Nat) (c : List (EventId × Nat))
    (cs : List (List (EventId × Nat))), s.callbacks = ((ev, tick) :: c) :: cs →
    ∃ u, exec (.schedule ev tick) { s with callbacks := c :: cs } = .next u ∧
      (∀ (rnw : Bool) (a : Addr) (d : Byte),
        exec (decodeCycle s.cfg.win rnw a d) s = exec (decodeCycle s.cfg.win rnw a d) u ∧
        exec (.memoryCycle rnw a d) s = exec (.memoryCycle rnw a d) u) ∧
      ∀ (p : Nat) (t : State), exec (.renderTo p) s = .next t →
        t.callbacks = s.callbacks.drop (t.line.fetchK - s.line.fetchK) ∧
        (s.line.fetchK < t.line.fetchK → exec (.renderTo p) u = .next t) ∧
        (t.line.fetchK ≤ s.line.fetchK → t.queue = s.queue ∧ t.seqNext = s.seqNext)

/-- No step takes time back, none writes a parameter, none takes a notification back, and none
leaves an operation of the block's own standing to be run: from there on only what is issued from
outside runs (`10_state.md` R20, `00_scope.md` R18, R13, `30_encoding.md` R120; log 3). -/
def Obligations.StepsKeepTimeAndParameters : Prop :=
  ∀ s t : State, step s = .next t →
    s.now ≤ t.now ∧ t.cfg = s.cfg ∧ t.internal = none ∧ ∃ l, t.trace = l ++ s.trace

/-! Bus cycles. -/

/-- Translation: with `MMUEN = 1` the bank entry `{TR, A[15:13]}` gives the page and `A[12:0]` the
offset; with `MMUEN = 0` the address is `DIRECT_BASE | A` (`20_memory.md` R92). A cycle that selects
RAM and in which no event is due moves the byte at the address the decoder gives, and only that byte:
in the RAM window at the translated address; in the upper window the same with `TY = 1`; in the 0xFE
window at the direct address with `MC3 = 1`. A read changes nothing but time, the notifications and
what the cycle's callback schedules (`41_bus_decode.md` R190, R195, R196 to R198). Of the line a write
changes only what concerns late writes (`20_memory.md` R99; logs 11 and 12). The model's choices, not
the rules': the RAM array (log 10); the calls of the cycle's callback as data of the state (log 40);
and, for parameters with `BANK_W + 13` or `DIRECT_BASE` beyond `PHYS_W`, an address that is not
reduced mod `2^PHYS_W` (R80 against R92; log 43). -/
def Obligations.RamCyclesMoveTheByte : Prop :=
  ∀ (s : State) (a : Addr),
    (s.fields.mmuen = true → translate s a =
      s.bank.toList.getD ((if s.fields.tr then 8 else 0) + a.toNat / 8192) 0 * 8192 +
        a.toNat % 8192) ∧
    (s.fields.mmuen = false → translate s a = (s.cfg.directBase ||| a.toNat)) ∧
    ∀ (d : Byte) (z : Nat) (w r : Instr), quietCycle s = true →
      (windowOf s.cfg.win a = .ramLo ∧ z = translate s a ∧
          w = .busRamLo false a d ∧ r = .busRamLo true a 0) ∨
        (windowOf s.cfg.win a = .upper ∧ s.fields.ty = true ∧ z = translate s a ∧
          w = .busUpper false a d ∧ r = .busUpper true a 0) ∨
        (windowOf s.cfg.win a = .fexx ∧ s.fields.mc3 = true ∧
          z = s.cfg.directBase ||| a.toNat ∧
          w = .busFexx false a d ∧ r = .busFexx true a 0) ∨
        (windowOf s.cfg.win a = .fexx ∧ s.fields.mc3 = false ∧ s.fields.ty = true ∧
          z = translate s a ∧ w = .busFexx false a d ∧ r = .busFexx true a 0) →
      busDecode s a = ⟨.ram, true, some z⟩ ∧
      (Memory.wf s.ram = true →
        ∃ t, exec w s = .next t ∧ RamWritten z d (afterCycle false a s) t) ∧
      exec r s = .next { afterCycle true a s with readData := memRead s.ram z }

/-- The cycles of `BUS.UPPER`, `BUS.FEXX`, `BUS.IO` and `BUS.VEC` that select a ROM or a peripheral,
with no event due, change nothing of the block but time, the notifications and what the cycle's
callback schedules; a read returns some byte from outside. The select is the one of the table of
`41_bus_decode.md` R197; the I/O window selects the peripherals, and a write of it that is not
snooped does nothing else (R199); the vectors select the internal ROM whatever `TY`, `MC1`, `MC0` hold
(R200; log 9). -/
def Obligations.OtherCyclesOnlyTakeTime : Prop :=
  ∀ (s : State) (a : Addr) (d : Byte), quietCycle s = true →
    let rom : BusSelect := ⟨if s.fields.mc1 then (if s.fields.mc0 then .romExt else .romInt)
      else if a.toNat < s.cfg.win.romLo + 0x4000 then .romInt else .romExt, false, none⟩
    (windowOf s.cfg.win a = .upper → s.fields.ty = false →
      busDecode s a = rom ∧
      exec (.busUpper false a d) s = .next (afterCycle false a s) ∧
      ∃ b, exec (.busUpper true a 0) s =
        .next { afterCycle true a s with readData := b, draws := s.draws + 1 }) ∧
    (windowOf s.cfg.win a = .fexx → s.fields.mc3 = false → s.fields.ty = false →
      busDecode s a = rom ∧
      exec (.busFexx false a d) s = .next (afterCycle false a s) ∧
      ∃ b, exec (.busFexx true a 0) s =
        .next { afterCycle true a s with readData := b, draws := s.draws + 1 }) ∧
    (windowOf s.cfg.win a = .io → busDecode s a = ⟨.io, false, none⟩ ∧
      (snoopedWrite s.cfg.win false a = false →
        exec (.busIo false a d) s = .next (afterCycle false a s)) ∧
      ∃ b, exec (.busIo true a 0) s =
        .next { afterCycle true a s with readData := b, draws := s.draws + 1 }) ∧
    (windowOf s.cfg.win a = .vec → busDecode s a = ⟨.romInt, false, none⟩ ∧
      exec (.busVec false a d) s = .next (afterCycle false a s) ∧
      ∃ b, exec (.busVec true a 0) s =
        .next { afterCycle true a s with readData := b, draws := s.draws + 1 })

/-- No bus cycle faults: with positive periods, the fetch port connected and the renderer not, every
cycle, at every address, with every byte, from every state, whatever its callbacks schedule, answers,
and takes the ticks that the speed bit of the state before it says (`60_exceptions.md` R451, `41_bus_decode.md` R192,
`70_reset_and_hazards.md` R501; log 13, and 28 for the fetch port). -/
def Obligations.BusCyclesNeverFault : Prop :=
  ∀ (s : State) (rnw : Bool) (a : Addr) (d : Byte), timedOk s.cfg = true →
    s.cfg.vfetchConnected = true → s.cfg.voConnected = false →
    ∃ t, exec (decodeCycle s.cfg.win rnw a d) s = .next t ∧
      exec (.memoryCycle rnw a (if rnw then 0 else d)) s = .next t ∧
      t.now = s.now + (if s.fields.r1 then s.cfg.fastTicks else s.cfg.slowTicks)

/-! The register window. -/

/-- The writes of the register window are the sixteen operations `REG_WR.0` to `REG_WR.15`, chosen by
`A[3:0]`. Of each: the events due in the cycle fire first, then `RegWrite(n, D)` runs; with no event
due it is `RegWrite(n, D)` at the end of the cycle, and it answers (`41_bus_decode.md` R195,
`42_registers.md` R238, `30_encoding.md` R122, `70_reset_and_hazards.md` R502; the cycle's callback:
log 40). -/
def Obligations.RegisterWindowWrites : Prop :=
  ∀ (a : Addr) (d : Byte) (s : State), windowOf s.cfg.win a = .reg →
    decodeCycle s.cfg.win false a d =
      [Instr.regWr0 d a, .regWr1 d a, .regWr2 d a, .regWr3 d a, .regWr4 d a, .regWr5 d a,
        .regWr6 d a, .regWr7 d a, .regWr8 d a, .regWr9 d a, .regWr10 d a, .regWr11 d a,
        .regWr12 d a, .regWr13 d a, .regWr14 d a, .regWr15 d a].getD (a.toNat % 16) .reset ∧
    (∀ t, exec (decodeCycle s.cfg.win false a d) s = .next t ↔
      ∃ u, exec (.advanceTo (s.now + cycleTicks s))
          (crossings 1 { s with trace :=
            (s.now, .cycle false a ⟨.internal, false, none⟩ (cycleTicks s)) :: s.trace }) =
            .next u ∧
        exec (.regWrite (a.extractLsb' 0 4) d) u = .next t) ∧
    (quietCycle s = true → s.cfg.vfetchConnected = true →
      ∃ t, exec (decodeCycle s.cfg.win false a d) s = .next t ∧
        exec (.regWrite (a.extractLsb' 0 4) d) (afterCycle false a s) = .next t)

/-- `RegWrite(n, D)` for registers 5 to 15: the line is flushed, the byte stored whole, everything
derived recomputed, and nothing else happens (`42_registers.md` R238, R227 to R237). -/
def Obligations.RegWriteStoresAndRecomputes : Prop :=
  ∀ (n : BitVec 4) (d : Byte) (s : State), 5 ≤ n → s.cfg.vfetchConnected = true →
    ∃ l, exec .flush s = .next (afterPaint l s) ∧ Flushed s l ∧
      exec (.regWrite n d) s = .next (registerStored n d s l)

/-- `RegWrite` of registers 0, 2 and 3: after the store the output levels follow the output enables
of the new register 0; a written enable mask clears the pending bits of the sources it disables
(where `IRQ_DISABLE_CLEARS_PENDING`) and never sets one (`42_registers.md` R222, R224, R225). -/
def Obligations.RegWriteInterruptEnables : Prop :=
  ∀ (d : Byte) (s : State), s.cfg.vfetchConnected = true →
    ∃ l, exec .flush s = .next (afterPaint l s) ∧ Flushed s l ∧
      exec (.regWrite 0 d) s = .next (levelsUpdated (registerStored 0 d s l)) ∧
      (registerStored 0 d s l).fields.ien = d.getLsbD 5 ∧
      (registerStored 0 d s l).fields.fen = d.getLsbD 4 ∧
      exec (.regWrite 2 d) s = .next (levelsUpdated { registerStored 2 d s l with
        pendingIrq := if s.cfg.irqDisableClearsPending then s.pendingIrq &&& d.extractLsb' 0 6
          else s.pendingIrq }) ∧
      (registerStored 2 d s l).fields.irqEn = d.extractLsb' 0 6 ∧
      exec (.regWrite 3 d) s = .next (levelsUpdated { registerStored 3 d s l with
        pendingFirq := if s.cfg.irqDisableClearsPending then s.pendingFirq &&& d.extractLsb' 0 6
          else s.pendingFirq }) ∧
      (registerStored 3 d s l).fields.firqEn = d.extractLsb' 0 6

/-- `RegWrite` of registers 1 and 4: after the store, register 4 loads the timer, and register 1
does where bit 5 (`TINS`) changed (`42_registers.md` R223, R226). -/
def Obligations.RegWriteTimerLoads : Prop :=
  ∀ (d : Byte) (s : State), s.cfg.vfetchConnected = true →
    ∃ l, exec .flush s = .next (afterPaint l s) ∧ Flushed s l ∧
      (∃ t, exec (.regWrite 4 d) s = .next t ∧
        exec .timerLoad (registerStored 4 d s l) = .next t) ∧
      (s.reg[1].getLsbD 5 ≠ d.getLsbD 5 → ∃ t, exec (.regWrite 1 d) s = .next t ∧
        exec .timerLoad (registerStored 1 d s l) = .next t) ∧
      (s.reg[1].getLsbD 5 = d.getLsbD 5 →
        exec (.regWrite 1 d) s = .next (registerStored 1 d s l))

/-- The reads of registers 2 and 3, with no event due, return the pending mask, clear it, and let its
output fall; the other mask stays. A read of another register or in the SAM window returns some byte
and changes nothing of the block but time, the notifications and what the cycle's callback schedules
(`42_registers.md` R240 to R242, `60_exceptions.md` R461, `43_mmu_palette_sam.md` R272; log 8). -/
def Obligations.PendingReadsClear : Prop :=
  ∀ (a : Addr) (s : State), quietCycle s = true →
    (windowOf s.cfg.win a = .reg → a.toNat % 16 = 2 →
      exec (.regRd2 a) s = .next (levelsUpdated { afterCycle true a s with
        readData := s.pendingIrq.setWidth 8, pendingIrq := 0 })) ∧
    (windowOf s.cfg.win a = .reg → a.toNat % 16 = 3 →
      exec (.regRd3 a) s = .next (levelsUpdated { afterCycle true a s with
        readData := s.pendingFirq.setWidth 8, pendingFirq := 0 })) ∧
    (windowOf s.cfg.win a = .reg → a.toNat % 16 ≠ 2 → a.toNat % 16 ≠ 3 →
      ∃ b, exec (.regRdX a) s =
        .next { afterCycle true a s with readData := b, draws := s.draws + 1 }) ∧
    (windowOf s.cfg.win a = .sam → ∃ b, exec (.samRd a) s =
      .next { afterCycle true a s with readData := b, draws := s.draws + 1 })

/-- The direct register calls: `set_register` is `RegWrite` without a cycle, `get_register` of 2 and
3 clears as the bus read does, of another index returns the stored byte; an index from 16 on is
`BadIndex` (`42_registers.md` R250, R251, `60_exceptions.md` R450). -/
def Obligations.DirectRegisterCalls : Prop :=
  ∀ (index : Nat) (v : Byte) (s : State),
    (index < 16 → exec (.setRegister index v) s = exec (.regWrite (BitVec.ofNat 4 index) v) s) ∧
    (index < 16 → s.cfg.vfetchConnected = true → ∃ t, exec (.setRegister index v) s = .next t) ∧
    (index = 2 → exec (.getRegister index) s = .next (levelsUpdated { s with
      readData := s.pendingIrq.setWidth 8, pendingIrq := 0 })) ∧
    (index = 3 → exec (.getRegister index) s = .next (levelsUpdated { s with
      readData := s.pendingFirq.setWidth 8, pendingFirq := 0 })) ∧
    (index < 16 → index ≠ 2 → index ≠ 3 → exec (.getRegister index) s =
      .next { s with readData := s.reg.toList.getD index 0 }) ∧
    (16 ≤ index → exec (.setRegister index v) s = .fault .badIndex ∧
      exec (.getRegister index) s = .fault .badIndex)

/-! The bank, palette and SAM windows, and the snooped addresses. -/

/-- The bank window and `set_mmu_bank`: a write, with no event due, sets the entry `A[3:0]` to the
value reduced to `BANK_W` bits; a read returns the entry; the direct call sets an entry without a
cycle, and an index from 16 on is `BadIndex`; nothing else of the block changes
(`43_mmu_palette_sam.md` R260 to R262; of an entry wider than a byte a read gives the low eight
bits, log 41). -/
def Obligations.BankEntriesReadAndWrite : Prop :=
  ∀ s : State,
    (∀ (a : Addr) (i : BitVec 4) (d : Byte), quietCycle s = true → windowOf s.cfg.win a = .mmu →
      i = a.extractLsb' 0 4 →
      exec (.mmuWr a d) s = .next { afterCycle false a s with
        bank := s.bank.set i.toNat (d.toNat % 2 ^ s.cfg.bankW) i.isLt } ∧
      exec (.mmuRd a) s = .next { afterCycle true a s with
        readData := BitVec.ofNat 8 (s.bank[i.toNat]'i.isLt) }) ∧
    ∀ index page : Nat,
      (∀ h : index < 16, exec (.setMmuBank index page) s =
        .next { s with bank := s.bank.set index (page % 2 ^ s.cfg.bankW) h }) ∧
      (16 ≤ index → exec (.setMmuBank index page) s = .fault .badIndex)

/-- The palette window: a write, with no event due, flushes the line and then sets the six-bit
entry `A[3:0]`; a read returns the entry (`43_mmu_palette_sam.md` R264, R265). -/
def Obligations.PaletteEntriesReadAndWrite : Prop :=
  ∀ (a : Addr) (i : BitVec 4) (d : Byte) (s : State), quietCycle s = true →
    windowOf s.cfg.win a = .pal → i = a.extractLsb' 0 4 →
    (s.cfg.vfetchConnected = true →
      ∃ l, exec .flush (afterCycle false a s) = .next (afterPaint l (afterCycle false a s)) ∧
        Flushed (afterCycle false a s) l ∧
        exec (.palWr a d) s = .next { afterPaint l (afterCycle false a s) with
          pal := s.pal.set i.toNat (d.extractLsb' 0 6) i.isLt }) ∧
    exec (.palRd a) s = .next { afterCycle true a s with
      readData := (s.pal[i.toNat]'i.isLt).setWidth 8 }

/-- The SAM window: a write at an even address clears the bit `A[4:1]` and at an odd one sets it,
whatever the data byte, with no event due, after a flush and with everything derived recomputed;
every other bit of `sam` stays (`43_mmu_palette_sam.md` R270, R271). -/
def Obligations.SamBitsClearAndSet : Prop :=
  ∀ (a : Addr) (d : Byte) (s : State), quietCycle s = true → windowOf s.cfg.win a = .sam →
    s.cfg.vfetchConnected = true →
    ∃ (l : Line) (m : BitVec 16),
      exec .flush (afterCycle false a s) = .next (afterPaint l (afterCycle false a s)) ∧
      Flushed (afterCycle false a s) l ∧
      (∀ k < 16, m.getLsbD k =
        if k = a.toNat / 2 % 16 then a.toNat % 2 == 1 else s.sam.getLsbD k) ∧
      exec (if a.toNat % 2 = 1 then .samSet a d else .samClr a d) s =
        .next { afterPaint l (afterCycle false a s) with
          sam := m
          fields := extractFields s.reg m s.snoop0
          mode := modeOf s.cfg (extractFields s.reg m s.snoop0) }

/-- A write of a snooped address, with no event due, is latched at index `A - A_SNOOP_LO` after a
flush and everything derived is recomputed from it; the peripheral's cycle happens besides
(`41_bus_decode.md` R205). There are two latches, so a map with more snooped addresses stores nothing
for the further ones (log 6). -/
def Obligations.SnoopedWritesAreLatched : Prop :=
  ∀ (a : Addr) (d x y : Byte) (s : State), quietCycle s = true → s.cfg.vfetchConnected = true →
    windowOf s.cfg.win a = .io → snoopedWrite s.cfg.win false a = true →
    x = (if a.toNat = s.cfg.win.snoopLo then d else s.snoop0) →
    y = (if a.toNat = s.cfg.win.snoopLo + 1 then d else s.snoop1) →
    ∃ l, exec .flush (afterCycle false a s) = .next (afterPaint l (afterCycle false a s)) ∧
      Flushed (afterCycle false a s) l ∧
      exec (.snoopWr a d) s = .next { afterPaint l (afterCycle false a s) with
        snoop0 := x, snoop1 := y
        fields := extractFields s.reg s.sam x
        mode := modeOf s.cfg (extractFields s.reg s.sam x) }

/-- `Recompute()` rewrites the derived fields and the mode record and nothing else, and calling it
twice changes nothing. Each field is the bits of the registers, of `sam` and of `snoop[0]` that R220
names, and the mode record is the one of R221, with the tables of the configuration. After a write of
a register, of a SAM bit or of a snooped address, by cycle or by call, and after `reset`, no derived
field is stale, whatever was stale before (`42_registers.md` R220, R221, `41_bus_decode.md` R207). -/
def Obligations.WritesLeaveNothingStale : Prop :=
  (∀ s : State, ∃ t, exec .recompute s = .next t ∧
    t = { s with fields := t.fields, mode := t.mode } ∧ DerivedOk t ∧
    exec .recompute t = .next t ∧ (DerivedOk s → t = s) ∧
    (let f := t.fields;
      (f.coco = s.reg[0].getLsbD 7 ∧ f.mmuen = s.reg[0].getLsbD 6 ∧ f.ien = s.reg[0].getLsbD 5 ∧
      f.fen = s.reg[0].getLsbD 4 ∧ f.mc3 = s.reg[0].getLsbD 3 ∧ f.mc2 = s.reg[0].getLsbD 2 ∧
      f.mc1 = s.reg[0].getLsbD 1 ∧ f.mc0 = s.reg[0].getLsbD 0 ∧
      f.tins = s.reg[1].getLsbD 5 ∧ f.tr = s.reg[1].getLsbD 0 ∧
      f.irqEn.toNat = s.reg[2].toNat % 64 ∧ f.firqEn.toNat = s.reg[3].toNat % 64 ∧
      f.timerReload.toNat = s.reg[4].toNat % 16 * 256 + s.reg[5].toNat ∧
      f.bp = s.reg[8].getLsbD 7 ∧ f.bpi = s.reg[8].getLsbD 5 ∧ f.moch = s.reg[8].getLsbD 4 ∧
      f.h50 = s.reg[8].getLsbD 3 ∧ f.lpr.toNat = s.reg[8].toNat % 8 ∧
      f.lpf.toNat = s.reg[9].toNat / 32 % 4 ∧ f.hres.toNat = s.reg[9].toNat / 4 % 8 ∧
      f.cres.toNat = s.reg[9].toNat % 4 ∧ f.brdr.toNat = s.reg[10].toNat % 64 ∧
      f.vsc.toNat = s.reg[12].toNat % 16 ∧
      f.y.toNat = s.reg[13].toNat * 256 + s.reg[14].toNat ∧
      f.hven = s.reg[15].getLsbD 7 ∧ f.x.toNat = s.reg[15].toNat % 128 ∧
      f.v.toNat = s.sam.toNat % 8 ∧ f.f.toNat = s.sam.toNat / 8 % 128 ∧
      f.r1 = s.sam.getLsbD 12 ∧ f.ty = s.sam.getLsbD 15 ∧
      f.ag = s.snoop0.getLsbD 7 ∧ f.gm.toNat = s.snoop0.toNat / 16 % 8 ∧
      f.css = s.snoop0.getLsbD 3)) ∧
    (let f := t.fields;
      let m := t.mode;
      let c := s.cfg;
      (f.coco = true →
        m.wide = false ∧ m.attr = false ∧ m.bpr = (if f.v.toNat % 2 = 1 then 16 else 32) ∧
        m.r = (if f.v.toNat % 2 = 1 then 0 else 1) ∧
        m.nlpr = some (c.legacyLpr.toList.getD f.v.toNat 0) ∧
        m.mode = (if f.ag = false then .legacyText
          else if f.gm.toNat % 2 = 1 then .legacyRg else .legacyCg) ∧
        m.rowStride = m.bpr ∧
        m.border = (if f.ag = false then c.legacy.borderText
          else if f.css then c.legacy.borderG1 else c.legacy.borderG0)) ∧
      (f.coco = false →
        m.wide = (f.hres.toNat % 2 == 1) ∧ m.nlpr = c.lprTable.toList.getD f.lpr.toNat none ∧
        (f.bp = true → m.mode = .nativeGfx ∧ m.attr = false ∧
          m.bpr = c.gfxBpr.toList.getD f.hres.toNat 0 ∧ m.r.toNat = f.hres.toNat / 2) ∧
        (f.bp = false → m.mode = .nativeText ∧ m.attr = (f.cres.toNat % 2 == 1) ∧
          m.bpr = c.textCols.toList.getD f.hres.toNat 0 * (1 + f.cres.toNat % 2) ∧
          m.r = (if 4 ≤ f.hres.toNat then 2 else 1)) ∧
        m.rowStride = (if f.hven then 256 else m.bpr) ∧ m.border = f.brdr) ∧
      m.burstSel = (if f.moch then .none else if f.bpi then .shifted else .normal))) ∧
  ∀ (s t : State) (a : Addr) (n : BitVec 4) (k : Nat) (d : Byte),
    ∀ o ∈ [decodeRegWrite a d, .regWrite n d, .setRegister k d, .samClr a d, .samSet a d,
      .snoopWr a d, .reset], exec o s = .next t → DerivedOk t

/-! Interrupts. -/

/-- `Raise(m)` latches each source for the outputs that enable it, keeps what is pending, and drives
the outputs; a source that is not enabled leaves no trace; nothing else changes
(`60_exceptions.md` R457). -/
def Obligations.RaiseLatchesEnabledSources : Prop :=
  ∀ (m : IrqMask) (s : State),
    exec (.raise m) s = .next (levelsUpdated { s with
      pendingIrq := s.pendingIrq ||| (m &&& s.fields.irqEn)
      pendingFirq := s.pendingFirq ||| (m &&& s.fields.firqEn) })

/-- `UpdateLevels()` sets each output to `enable and a bit is pending`, with one notification for
each output that changes, IRQ first; nothing else changes, and where the levels are right already
nothing at all (`60_exceptions.md` R458, `00_scope.md` R13). -/
def Obligations.UpdateLevelsFollowsTheMasks : Prop :=
  ∀ s : State, ∃ t, exec .updateLevels s = .next t ∧
    t = { s with irqLevel := t.irqLevel, firqLevel := t.firqLevel, trace := t.trace } ∧
    t.irqLevel = (s.fields.ien && s.pendingIrq != 0) ∧
    t.firqLevel = (s.fields.fen && s.pendingFirq != 0) ∧
    t.trace = (if t.firqLevel = s.firqLevel then [] else [(s.now, .firq t.firqLevel)]) ++
      (if t.irqLevel = s.irqLevel then [] else [(s.now, .irq t.irqLevel)]) ++ s.trace

/-! The timer. -/

/-- `TimerLoad()`: a reload value of 0 stops the timer and withdraws its event; else the count is
the reload value and the offset, and the event is scheduled in the fast mode and withdrawn in the
slow one (`45_timer.md` R332). -/
def Obligations.TimerLoadStartsOrStops : Prop :=
  ∀ s : State,
    (s.fields.timerReload = 0 → exec .timerLoad s =
      exec (.cancel .timer) { s with timerRunning := false, timerCounter := 0 }) ∧
    (s.fields.timerReload ≠ 0 → s.fields.tins = true → exec .timerLoad s =
      exec (.schedule .timer (s.now +
          (s.fields.timerReload.toNat + s.cfg.timerOffset) * s.cfg.timerFastPeriod))
        { s with timerRunning := true
                 timerCounter := s.fields.timerReload.toNat + s.cfg.timerOffset }) ∧
    (s.fields.timerReload ≠ 0 → s.fields.tins = false → exec .timerLoad s =
      exec (.cancel .timer)
        { s with timerRunning := true
                 timerCounter := s.fields.timerReload.toNat + s.cfg.timerOffset }) ∧
    ∃ t, exec .timerLoad s = .next t

/-- `TimerExpire()` toggles `blink`, raises the timer's interrupt, and reloads the count or, with
reload value 0, stops, the queue as it was; `TimerClock()` counts a running timer down by one and
lets it expire at 0, and leaves a stopped one alone (`45_timer.md` R333, R334). `EV_TIMER(T)` in the
fast mode expires the timer and, while it runs, schedules the next expiry one interval after its own
`T`; it does nothing where the timer is stopped or slow (R336). -/
def Obligations.TimerClocksAndExpires : Prop :=
  ∀ s : State,
    (∃ u, exec (.raise 0x20) { s with blink := !s.blink } = .next u ∧
      exec .timerExpire s = .next { u with
        timerRunning := if s.fields.timerReload = 0 then false else s.timerRunning
        timerCounter := if s.fields.timerReload = 0 then 0
          else s.fields.timerReload.toNat + s.cfg.timerOffset }) ∧
    (s.timerRunning = false → exec .timerClock s = .next s) ∧
    (s.timerRunning = true → 1 < s.timerCounter → exec .timerClock s =
      .next { s with timerCounter := s.timerCounter - 1 }) ∧
    (s.timerRunning = true → s.timerCounter = 1 → ∃ t, exec .timerClock s = .next t ∧
      exec .timerExpire { s with timerCounter := 0 } = .next t) ∧
    ∀ tick seq : Nat,
      ((s.timerRunning && s.fields.tins) = false → exec (.evTimer tick seq) s = .next s) ∧
      (s.timerRunning = true → s.fields.tins = true →
        ∃ u t, exec .timerExpire s = .next u ∧ exec (.evTimer tick seq) s = .next t ∧
          (s.fields.timerReload = 0 → t = u) ∧
          (s.fields.timerReload ≠ 0 → exec (.schedule .timer (tick +
            (s.fields.timerReload.toNat + s.cfg.timerOffset) * s.cfg.timerFastPeriod)) u =
              .next t))

/-! The raster. -/

/-- `EV_HS_RISE` sets the horizontal-sync output high, with a notification if it was low, and does
nothing else. `EV_HBORD` raises HBORD, then VBORD where the line is the one `VBORD_LINE_OFFSET`
before the end of the active area, then clocks the timer if it is slow (`44_raster.md` R305,
R306; the active height is compared with `lcount + VBORD_LINE_OFFSET`, log 29, and is that of the
`LPF` of the register at this moment, R290, or of that which the line's start sampled,
`42_registers.md` R231, where the two differ: no rule decides, and the statement is of both, log
42). -/
def Obligations.RiseAndBorderHandlers : Prop :=
  ∀ (tick seq : Nat) (s : State),
    exec (.evHsRise tick seq) s = .next { s with
      hsLevel := true
      trace := if s.hsLevel = true then s.trace else (s.now, .hs true) :: s.trace } ∧
    ∃ u v t, exec (.raise 0x10) s = .next u ∧
      (if s.vstate = .active ∧
          s.cfg.aa.toList.getD
              (if s.cfg.lpfPerLine = true then s.line.lpf else s.fields.lpf).toNat none =
            some (s.lcount + s.cfg.vbordLineOffset)
        then exec (.raise 0x08) u = .next v else v = u) ∧
      (if s.fields.tins = true then t = v else exec .timerClock v = .next t) ∧
      exec (.evHBord tick seq) s = .next t

/-- `RowAdvance()` steps the row counter after an active line, and at the lines per row wraps it and
moves the base by the row stride; after any other line it does nothing (`44_raster.md` R297). -/
def Obligations.RowAdvanceStepsTheRow : Prop :=
  ∀ s : State,
    (s.vstate ≠ .active → exec .rowAdvance s = .next s) ∧
    (s.vstate = .active → s.mode.nlpr = none →
      exec .rowAdvance s = .next { s with row := s.row + 1 }) ∧
    (∀ n, s.vstate = .active → s.mode.nlpr = some n → (s.row.toNat + 1) % 16 ≠ n % 16 →
      exec .rowAdvance s = .next { s with row := s.row + 1 }) ∧
    (∀ n, s.vstate = .active → s.mode.nlpr = some n → (s.row.toNat + 1) % 16 = n % 16 →
      exec .rowAdvance s = .next { s with
        row := 0, base := (s.base + s.mode.rowStride) % 2 ^ s.cfg.physW })

/-- `VerticalStep()`. Out of the end of `VSYNC`: frame sync rises, the counts and `B` are latched for
the new field, and the frame counter moves on (`44_raster.md` R296, R299; the renderer's line count
starts again, `48_vo_render.md` R441, log 14). Elsewhere, first matching case only: the last
`N_VSYNC` lines of the field start `VSYNC` and frame sync falls; `VBLANK`, the top border and the
active area end at their target; the active area starts with the seeded row; otherwise nothing
happens (R290, R296, R298). -/
def Obligations.VerticalStepMovesOn : Prop :=
  ∀ s : State,
    (s.vstate = .vsync →
      (s.lcount < s.cfg.nVsync → exec .verticalStep s = .next s) ∧
      (s.cfg.nVsync ≤ s.lcount → exec .verticalStep s = .next { s with
        fsLevel := true
        trace := if s.fsLevel = true then s.trace else (s.now, .fs true) :: s.trace
        vstate := .vblank, lcount := 0, scanline := 0, voLine := 0
        base := (if s.fields.coco then
            s.fields.y.toNat / 8192 * 65536 + s.fields.f.toNat * 512 + s.fields.y.toNat % 64 * 8
          else s.fields.y.toNat * 8) % 2 ^ s.cfg.physW
        frameCtr := if s.frameCtr = 0 then s.cfg.frameskip else s.frameCtr - 1 })) ∧
    (s.vstate ≠ .vsync →
      let L := if s.fields.h50 then 312 else 262
      let tb := s.cfg.tb.toList.getD s.fields.lpf.toNat 0 +
        (if s.fields.h50 then s.cfg.palExtraTb else 0)
      let aa := s.cfg.aa.toList.getD s.fields.lpf.toNat none
      (L ≤ s.scanline + s.cfg.nVsync → exec .verticalStep s = .next { s with
        vstate := .vsync, lcount := 0, fsLevel := false
        trace := if s.fsLevel = false then s.trace else (s.now, .fs false) :: s.trace }) ∧
      (s.scanline + s.cfg.nVsync < L →
        (s.vstate = .vblank → s.cfg.nVblank ≤ s.lcount →
          exec .verticalStep s = .next { s with vstate := .topBorder, lcount := 0 }) ∧
        (s.vstate = .vblank → s.lcount < s.cfg.nVblank → exec .verticalStep s = .next s) ∧
        (s.vstate = .topBorder → tb ≤ s.lcount → exec .verticalStep s = .next { s with
          vstate := .active, lcount := 0
          row := if s.fields.coco then 0
            else s.fields.vsc &&& s.cfg.rowmask.toList.getD s.fields.lpr.toNat 0 }) ∧
        (s.vstate = .topBorder → s.lcount < tb → exec .verticalStep s = .next s) ∧
        (∀ n, s.vstate = .active → aa = some n → n ≤ s.lcount →
          exec .verticalStep s = .next { s with vstate := .bottomBorder, lcount := 0 }) ∧
        (s.vstate = .active → (∀ n, aa = some n → s.lcount < n) →
          exec .verticalStep s = .next s) ∧
        (s.vstate = .bottomBorder → exec .verticalStep s = .next s)))

/-- `LineCounters()` sets the per-line counters from the field state and the mode, keeps the buffer,
and forgets what concerned the old line (`44_raster.md` R300; log 11, 12). It is also where the
line's `nlpr` and `LPF` are sampled (`70_reset_and_hazards.md` R503; log 39, 42). -/
def Obligations.LineCountersFollowTheState : Prop :=
  ∀ s : State, ∃ lb aa vram rb, exec .lineCounters s = .next { s with
      line := { s.line with
        beamPos := 0, fetchK := 0, lbRem := lb, aaRem := aa, vramRem := vram, rbRem := rb
        writes := [], cells := [], nlpr := s.mode.nlpr, lpf := s.fields.lpf } } ∧
    (s.vstate = .active → s.mode.wide = false →
      lb = s.cfg.lb.narrow ∧ aa = s.cfg.aaw.narrow ∧ vram = s.mode.bpr ∧ rb = s.cfg.rb.narrow) ∧
    (s.vstate = .active → s.mode.wide = true →
      lb = s.cfg.lb.wide ∧ aa = s.cfg.aaw.wide ∧ vram = s.mode.bpr ∧ rb = s.cfg.rb.wide) ∧
    (s.vstate = .topBorder ∨ s.vstate = .bottomBorder →
      lb = s.cfg.nVis ∧ aa = 0 ∧ vram = 0 ∧ rb = 0) ∧
    (s.vstate = .vblank ∨ s.vstate = .vsync → lb = 0 ∧ aa = 0 ∧ vram = 0 ∧ rb = 0)

/-- The composition of a line, with a geometry that R280 admits: painted from its start to its end,
an active line is `LB` positions of border, `AAW` positions of cells and `RB` positions of border, for
the horizontal timing that its start sampled; a line of the top or bottom border is all border, a
blanked one all 0; and the visible span ends within the line (`44_raster.md` R280, R300,
`46_pixel_generation.md` R352, R375). -/
def Obligations.LineGeometry : Prop :=
  ∀ s t : State, geometryOk s.cfg = true → s.cfg.vfetchConnected = true →
    s.line.buf.length = s.cfg.nVis + s.cfg.rbHeadroom → exec .lineCounters s = .next t →
    ∃ l, exec (.renderTo s.cfg.nVis) t = .next (afterPaint l t) ∧
      l.beamPos = s.cfg.nVis ∧ l.lbRem = 0 ∧ l.aaRem = 0 ∧ l.rbRem = 0 ∧
      l.buf.length = s.line.buf.length ∧
      s.lineStart + (s.cfg.pVis + l.beamPos) * s.cfg.ticksPerPixel ≤
        s.lineStart + s.cfg.tSl * s.cfg.ticksPerPixel ∧
      ∀ j < s.cfg.nVis,
        (s.vstate = .active → s.mode.wide = false →
          j < s.cfg.lb.narrow ∨ s.cfg.lb.narrow + s.cfg.aaw.narrow ≤ j →
          l.buf[j]? = some (s.mode.border.setWidth 8)) ∧
        (s.vstate = .active → s.mode.wide = true →
          j < s.cfg.lb.wide ∨ s.cfg.lb.wide + s.cfg.aaw.wide ≤ j →
          l.buf[j]? = some (s.mode.border.setWidth 8)) ∧
        (s.vstate = .topBorder ∨ s.vstate = .bottomBorder →
          l.buf[j]? = some (s.mode.border.setWidth 8)) ∧
        (s.vstate = .vblank ∨ s.vstate = .vsync → l.buf[j]? = some 0)

/-- `ScheduleLine(T)` schedules the sync rise, the border point and the next fall relative to `T`, in
that order, and changes nothing but the queue and the stamps (`44_raster.md` R301). -/
def Obligations.ScheduleLineFillsTheQueue : Prop :=
  ∀ (T : Nat) (s : State), QueueOk s →
    ∃ q, exec (.scheduleLine T) s = .next { s with queue := q, seqNext := s.seqNext + 3 } ∧
      queueSorted q = true ∧
      ∀ e, e ∈ q ↔
        e = ⟨T + s.cfg.tWhs * s.cfg.ticksPerPixel, .hsRise, s.seqNext⟩ ∨
        e = ⟨T + (if s.mode.wide then s.cfg.pHbord.wide else s.cfg.pHbord.narrow) *
          s.cfg.ticksPerPixel, .hBord, s.seqNext + 1⟩ ∨
        e = ⟨T + s.cfg.tSl * s.cfg.ticksPerPixel, .hsFall, s.seqNext + 2⟩ ∨
        (e ∈ s.queue ∧ e.ev = .timer)

/-- `FinishLine()`: in a field that is not displayed nothing happens; else the line is painted to its
end and its row delivered with the burst of this moment, unless it is one of the first lines of a
50 Hz field; with the pixel renderer connected the delivered row also goes through `vo_render.row`
(`44_raster.md` R302, R303, `48_vo_render.md` R442; log 13). The row's callback runs with the
notification (`40_scheduler.md` R177; log 40). -/
def Obligations.FinishLineDeliversTheRow : Prop :=
  ∀ s : State, s.cfg.vfetchConnected = true →
    (s.frameCtr ≠ 0 → exec .finishLine s = .next s) ∧
    (s.frameCtr = 0 → ∃ u, exec (.renderTo s.cfg.nVis) s = .next u ∧
      (s.fields.h50 = true → s.scanline < s.cfg.palSuppress → exec .finishLine s = .next u) ∧
      (s.fields.h50 = false ∨ s.cfg.palSuppress ≤ s.scanline →
        (s.cfg.voConnected = false → exec .finishLine s = .next (crossings 1 { u with
          trace := (s.now, .renderRow (u.line.buf.take s.cfg.nVis) s.cfg.nVis s.mode.burstSel) ::
            s.trace })) ∧
        (s.cfg.voConnected = true → exec .finishLine s =
          exec (.voRenderRow s.mode.burstSel s.cfg.nVis (u.line.buf.take s.cfg.nVis))
            (crossings 1 { u with
              trace :=
                (s.now, .renderRow (u.line.buf.take s.cfg.nVis) s.cfg.nVis s.mode.burstSel) ::
                s.trace }))))

/-- `EV_HS_FALL(T)` runs its eight steps in order: finish the line, advance the row, horizontal sync
low, the new line's start, the two counts, the vertical step, the counters, the schedule
(`44_raster.md` R295). It answers with the fetch port connected and the renderer not (log 13). -/
def Obligations.HsFallRunsItsEightSteps : Prop :=
  ∀ (T seq : Nat) (s : State), s.cfg.vfetchConnected = true → s.cfg.voConnected = false →
    ∃ a b d e t, exec .finishLine s = .next a ∧ exec .rowAdvance a = .next b ∧
      exec .verticalStep { b with
        hsLevel := false
        trace := if b.hsLevel = false then b.trace else (b.now, .hs false) :: b.trace
        lineStart := T, scanline := b.scanline + 1, lcount := b.lcount + 1 } = .next d ∧
      exec .lineCounters d = .next e ∧ exec (.scheduleLine T) e = .next t ∧
      exec (.evHsFall T seq) s = .next t

/-! Painting. -/

/-- `RenderTo(p)` and `Flush()` answer with the fetch port connected, change the line only (and run
the callbacks of its fetches, log 40), paint up to the position asked for or the beam, and paint no
position a second time. What they paint: the border's value in both borders, 0 where no counter gives
a position (`46_pixel_generation.md` R350, R352, R375; `p` is limited to `N_VIS`, log 26). Where
`RenderTo` stops, it stops with `NoVideoFetch` and the port is not connected (R354). -/
def Obligations.RenderToPaintsUpTo : Prop :=
  ∀ (p : Nat) (s : State),
    (s.cfg.vfetchConnected = true →
      (∃ l, exec (.renderTo p) s = .next (afterPaint l s) ∧
        PaintedTo (min p s.cfg.nVis) s l ∧ PaintedBorders (min p s.cfg.nVis) s l) ∧
      (∃ l, exec .flush s = .next (afterPaint l s) ∧ Flushed s l ∧
        (s.frameCtr = 0 → PaintedBorders (beamTarget s) s l))) ∧
    (∀ f, exec (.renderTo p) s = .fault f →
      f = .noVideoFetch ∧ s.cfg.vfetchConnected = false)

/-- Painting a line in two parts with no write between paints the same line as painting it at once:
no position is painted twice and none is skipped (`46_pixel_generation.md` R378; for positions above
`N_VIS` also log 26). -/
def Obligations.SplitPaintingChangesNothing : Prop :=
  ∀ (p q : Nat) (s t : State), p ≤ q → exec (.renderTo p) s = .next t →
    exec (.renderTo q) t = exec (.renderTo q) s

/-- `Cell()`: it fetches one byte, and with attributes a second one, as far as the line has bytes
left, and takes 0x00 for a byte it does not fetch; it counts the fetches and paints the pixels of the
two bytes at the beam, cut at the end of the active area, by the one path
(`46_pixel_generation.md` R353, R376). From the RAM array, where nothing was written on this line, the
bytes are those at `Addr(fetch_k)` and `Addr(fetch_k + 1)`, without translation (R354, R355; log 10).
With the port not connected and a byte needed it is `NoVideoFetch`. -/
def Obligations.CellPaintsTheFetchedByte : Prop :=
  ∀ s : State,
    let addr (k : Nat) : Nat := (if s.fields.coco then s.base + k
      else if s.fields.hven then s.base + (2 * s.fields.x.toNat + k) % 256
      else s.base + 2 * s.fields.x.toNat + k) % 2 ^ s.cfg.physW
    (s.cfg.vfetchConnected = true ∨ s.line.vramRem = 0 →
      ∃ (ch att : Byte) (m n : Nat) (l : Line),
        n = min s.line.vramRem (if s.mode.attr then 2 else 1) ∧
        (n = 0 → ch = 0) ∧ (n < 2 → att = 0) ∧
        m = min (2 * (16 >>> s.mode.r.toNat)) s.line.aaRem ∧
        exec .cell s = .next (afterPaint l s) ∧
        l = { s.line with
          buf := splice s.line.buf s.line.beamPos ((cellPixels s.cfg (cellCtx s) ch att).take m)
          beamPos := s.line.beamPos + m, aaRem := s.line.aaRem - m
          fetchK := s.line.fetchK + n, vramRem := s.line.vramRem - n
          cells := l.cells, picks := l.picks } ∧
        (s.cfg.vfetch = .ram → s.line.writes = [] → l.picks = s.line.picks ∧
          (0 < n → ch = memRead s.ram (addr s.line.fetchK)) ∧
          (1 < n → att = memRead s.ram (addr (s.line.fetchK + 1))))) ∧
    (0 < s.line.vramRem → s.cfg.vfetchConnected = false →
      exec .cell s = .fault .noVideoFetch)

/-- The pixels of a cell, in every mode. Position `j` shows the pixel `p` of the eight that the bytes
stand for (R359: at `r = 3` only every second one). In the one-bit modes it is bit `7 - p` of the byte
or of the glyph row, as foreground or background; the two-bit and four-bit modes take the bits that
hold it. Text takes its colours from the attribute byte, whose underline applies before its blink, or
from the two fixed slots; legacy text swaps them for inverse video, and its semigraphics show the
quadrant of the half (`46_pixel_generation.md` R345, R359 to R363, R366 to R370). That the index in the
legacy graphics modes is taken mod 16, where the base of a parameter carries it beyond 15, is the
model's choice (log 44). -/
def Obligations.PixelsOfEveryMode : Prop :=
  ∀ (c : Params) (x : CellCtx) (ch a : Byte) (j p : Nat), j < 2 * (16 >>> x.r.toNat) →
    p = (if x.r = 3 then 2 * j else j / (4 >>> x.r.toNat)) →
    let colour (n : Nat) : Byte := (x.pal.toList.getD n 0).setWidth 8
    let px := (cellPixels c x ch a)[j]?
    let css (n m : BitVec 4) : Nat := if x.css then m.toNat else n.toNat
    (x.mode = .nativeGfx →
      (x.cres = 0 → px = some (colour (ch.toNat / 2 ^ (7 - p) % 2))) ∧
      (x.cres = 1 → px = some (colour (ch.toNat / 4 ^ (3 - p / 2) % 4))) ∧
      (x.cres = 2 ∨ x.cres = 3 → px = some (colour (ch.toNat / 16 ^ (1 - p / 4) % 16)))) ∧
    (x.mode = .nativeText →
      let g0 := fontHi c (ch.extractLsb' 0 7) x.row
      (x.attr = false → px = some (colour (if g0.getLsbD (7 - p) then 1 else 0))) ∧
      (x.attr = true →
        let ul := match x.nlpr with
          | some n => (n + 15) % 16
          | none => 15
        let g1 : Byte := if a.getLsbD 6 = true ∧ x.row.toNat = ul then 0xFF else g0
        let g2 : Byte := if a.getLsbD 7 = true ∧ x.blink = true then 0 else g1
        px = some (colour (if g2.getLsbD (7 - p) then 8 + a.toNat / 8 % 8 else a.toNat % 8)))) ∧
    (x.mode = .legacyText →
      (ch.getLsbD 7 = false →
        px = some (colour
          (if (fontLegacy c (ch.extractLsb' 0 6) x.row).getLsbD (7 - p) = ch.getLsbD 6
            then css c.legacy.textBg0 c.legacy.textBg1
            else css c.legacy.textFg0 c.legacy.textFg1))) ∧
      (ch.getLsbD 7 = true →
        px = some (colour
          (if ch.getLsbD ((if x.row.toNat < c.sgSplit then 3 else 1) - p / 4)
            then (c.legacy.sgFg.toList.getD (ch.toNat / 16 % 8) 0).toNat
            else c.legacy.sgBg.toNat)))) ∧
    (x.mode = .legacyCg → px = some (colour
      ((css c.legacy.cgBase0 c.legacy.cgBase1 + ch.toNat / 4 ^ (3 - p / 2) % 4) % 16))) ∧
    (x.mode = .legacyRg → px = some (colour
      ((css c.legacy.rgBase0 c.legacy.rgBase1 + ch.toNat / 2 ^ (7 - p) % 2) % 16)))

/-! The composite block and the renderer. -/

/-- The setters of the composite block. `set_palette_entry` stores the triple of one index, whatever
its values, keeps the others, and changes nothing else; an index from 256 on is `BadIndex`
(`47_composite.md` R395, `60_exceptions.md` R450). `set_hue` and `set_burst` rebuild the tables they
concern from the offset, the hue and the parameters, and change nothing else: `set_hue` those of every
index, `set_burst` those of one; an index from `N_BURST` on is `BadIndex` (R396, R397). -/
def Obligations.CompositeSettersStoreAndRebuild : Prop :=
  ∀ (index : Nat) (y pb pr q : Rat) (s : State),
    (index < 256 → ∃ m, exec (.setPaletteEntry index y pb pr) s = .next { s with colour := m } ∧
      storeFind m index = some ⟨y, pb, pr⟩ ∧
      ∀ k, k ≠ index → storeFind m k = storeFind s.colour k) ∧
    (256 ≤ index → exec (.setPaletteEntry index y pb pr) s = .fault .badIndex) ∧
    (s.burst.length = s.cfg.nBurst →
      (∃ bs : List BurstDesc, exec (.setHue q) s = .next { s with hue := q, burst := bs } ∧
        bs.length = s.cfg.nBurst ∧
        ∀ (k : Nat) (b : BurstDesc), s.burst[k]? = some b →
          bs[k]? = some (buildBurst s.cfg q b.offset)) ∧
      (index < s.cfg.nBurst → ∃ bs : List BurstDesc,
        exec (.setBurst index q) s = .next { s with burst := bs } ∧
        bs.length = s.cfg.nBurst ∧ bs[index]? = some (buildBurst s.cfg s.hue q) ∧
        ∀ k : Nat, k ≠ index → bs[k]? = s.burst[k]?)) ∧
    (s.cfg.nBurst ≤ index → exec (.setBurst index q) s = .fault .badIndex)

/-- The burst tables are the real sines and cosines of R400, for every phase index, hue and offset. A
turn by any angle of a burst's offset, of the hue or of `PHASE0` leaves the modulation tables and
turns the demodulation tables, and with them the decoded chroma, back by that angle; a half turn
negates them (`47_composite.md` R392, R400, R431; `MOD_PHASE` is in units of pi, log 23). -/
def Obligations.BurstTablesAndTheHueLaw : Prop :=
  ∀ (c : Params) (h o g : Rat),
    (∀ t < c.tmax, ∃ mu mv du dv : Amp,
      let th : ℝ := 2 * Real.pi * c.ncyc * t / c.tmax + c.modPhase * Real.pi
      let ph : ℝ := ((c.phase0 + o + h : Rat) : ℝ) * Real.pi / 180
      (buildBurst c h o).modU[t]? = some mu ∧ mu.real = Real.sin th ∧
      (buildBurst c h o).modV[t]? = some mv ∧ mv.real = Real.cos th ∧
      (buildBurst c h o).demU[t]? = some du ∧ du.real = 2 * Real.sin (th + ph) ∧
      (buildBurst c h o).demV[t]? = some dv ∧ dv.real = 2 * Real.cos (th + ph)) ∧
    ∀ b ∈ [buildBurst c h (o + g), buildBurst c (h + g) o,
        buildBurst { c with phase0 := c.phase0 + g } h o],
      b.modU = (buildBurst c h o).modU ∧ b.modV = (buildBurst c h o).modV ∧
      (∀ t, (b.demU.getD t .zero).real =
          ((buildBurst c h o).demU.getD t .zero).real * Real.cos (radians g) +
            ((buildBurst c h o).demV.getD t .zero).real * Real.sin (radians g) ∧
        (b.demV.getD t .zero).real =
          ((buildBurst c h o).demV.getD t .zero).real * Real.cos (radians g) -
            ((buildBurst c h o).demU.getD t .zero).real * Real.sin (radians g)) ∧
      (g = 180 → b.demU = (buildBurst c h o).demU.map Amp.neg ∧
        b.demV = (buildBurst c h o).demV.map Amp.neg)

/-- The output stage: `Q` of a rational value is `floor(255 clamp(v) + 1/2)` with the identity as
`GAMMA`; so it is of every real value whose comparisons end without the free value of log 4; and
with any `GAMMA` a greater value never gives a smaller byte (`47_composite.md` R391, R423; log 21). -/
def Obligations.OutputStageRounds : Prop :=
  ∀ c : Params,
    (∀ v : Rat, c.gamma = .identity → quantise c (.ofRat v) =
      BitVec.ofInt 8 (255 * max 0 (min v 1) + 1 / 2 : Rat).floor) ∧
    (∀ a : Amp, c.gamma = .identity → outputDecided c a = true →
      quantise c a = roundOutput a.real) ∧
    (∀ a b : Amp, outputDecided c a = true → outputDecided c b = true → a.real ≤ b.real →
      (quantise c a).toNat ≤ (quantise c b).toNat)

/-- Each `render_line` variant answers a row whose colours are all set with one pixel for each
position, and changes nothing but the row it hands on; a row with a colour that was never set is
`UnsetColour` (`47_composite.md` R390, R404, R432, `60_exceptions.md` R450; log 18). -/
def Obligations.RenderLineAnswersSetColours : Prop :=
  ∀ (sel : BurstSel) (buf : List Byte) (s : State),
    ∀ i ∈ [Instr.renderPalette sel buf.length buf, .renderArt2 sel buf.length buf,
      .renderArt5 sel buf.length buf, .renderSim sel buf.length buf],
    (coloursSet s buf = true → ∃ row, row.length = buf.length ∧
      exec i s = .next { s with rowOut := row }) ∧
    (coloursSet s buf = false → exec i s = .fault .unsetColour)

/-- `render_line.PALETTE` shows each position by its own colour alone: grey by its luma with burst 0;
else the decoded `(y, U cos(phi) + V sin(phi), -U sin(phi) + V cos(phi))`, with the real cosine and
sine of the burst's phase (`47_composite.md` R392, R404, R406, R410). At a phase of 0 that is
`(y, U, V)`, and at 90 degrees the axes are swapped, `(y, V, -U)` (R396). -/
def Obligations.PalettePixels : Prop :=
  ∀ (sel : BurstSel) (buf : List Byte) (s t : State) (x : Nat) (b : Byte) (k : Ycc) (d : BurstDesc),
    exec (.renderPalette sel buf.length buf) s = .next t → buf[x]? = some b →
    storeFind s.colour b.toNat = some k → s.burst[sel.index]? = some d →
    let c := s.cfg
    let f : ℝ := radians (c.phase0 + d.offset + s.hue)
    let u : Rat := c.kU * c.sat * k.pb
    let v : Rat := c.kV * c.sat * k.pr
    (sel = .none →
      t.rowOut[x]? = some (outRgb c (.ofRat k.y) (.ofRat k.y) (.ofRat k.y))) ∧
    (sel ≠ .none → ∃ uu vv : Amp, t.rowOut[x]? = some (outYuv c (.ofRat k.y) uu vv) ∧
      uu.real = u * Real.cos f + v * Real.sin f ∧
      vv.real = -(u * Real.sin f) + v * Real.cos f) ∧
    (sel ≠ .none → c.phase0 + d.offset + s.hue = 0 →
      t.rowOut[x]? = some (outYuv c (.ofRat k.y) (.ofRat u) (.ofRat v))) ∧
    (sel ≠ .none → c.phase0 + d.offset + s.hue = 90 →
      t.rowOut[x]? = some (outYuv c (.ofRat k.y) (.ofRat v) (.ofRat (-u))))

/-- With burst 0 no chroma is decoded: every pixel of every variant is grey, all components equal
(`47_composite.md` R402, R410, R420). With another burst the artifact variants show the entry of their
table where the neighbourhood is black and white only, positions outside the row counting as black,
and fall back to the plain pixel where the position itself or a neighbour is neither the black nor
the white index (R411 to R413; an entry that the configuration does not list is free, log 20). -/
def Obligations.GreyAndFallBackPixels : Prop :=
  (∀ (n : Nat) (buf : List Byte) (s t : State),
    ∀ i ∈ [Instr.renderPalette .none n buf, .renderArt2 .none n buf, .renderArt5 .none n buf,
      .renderSim .none n buf],
    exec i s = .next t → ∀ p ∈ t.rowOut, p.red = p.green ∧ p.green = p.blue) ∧
  ∀ (sel : BurstSel) (buf : List Byte) (s t : State) (x : Nat), x < buf.length → sel ≠ .none →
    exec (.renderPalette sel buf.length buf) s = .next t →
    let c := s.cfg
    let at_ (y : Nat) : Byte := if y < buf.length then buf.getD y 0 else c.cidxBlack
    let left : Byte := if x = 0 then c.cidxBlack else at_ (x - 1)
    let pure_ (b : Byte) : Prop := b = c.cidxBlack ∨ b = c.cidxWhite
    let bw (b : Byte) : Nat := if b = c.cidxBlack then 0 else 1
    let listed (lut : List ArtEntry) (key : Nat) (px : Rgb) : Prop :=
      (∃ e ∈ lut, e.sel = sel ∧ e.phase = (x + c.t0) % c.tmax ∧ e.key = key) ∧
      ∀ e ∈ lut, e.sel = sel → e.phase = (x + c.t0) % c.tmax → e.key = key → e.pixel = px
    (∃ u, exec (.renderArt2 sel buf.length buf) s = .next u ∧
      (¬ pure_ left ∨ ¬ pure_ (at_ x) → u.rowOut[x]? = t.rowOut[x]?) ∧
      ∀ px, pure_ left → pure_ (at_ x) → listed c.art2 (2 * bw left + bw (at_ x)) px →
        u.rowOut[x]? = some px) ∧
    (∃ u, exec (.renderArt5 sel buf.length buf) s = .next u ∧
      (¬ pure_ left ∨ ¬ pure_ (at_ x) ∨ ¬ pure_ (at_ (x + 1)) → u.rowOut[x]? = t.rowOut[x]?) ∧
      ∀ px, pure_ left → pure_ (at_ x) → pure_ (at_ (x + 1)) →
        listed c.art5 (4 * bw left + 2 * bw (at_ x) + bw (at_ (x + 1))) px →
        u.rowOut[x]? = some px)

/-- `render_line.SIM` shows each position by the decoded values of R420: the row of samples
`y + U mod_u + V mod_v` is filtered by `LP_Y`, and multiplied by each demodulation table and filtered
by `LP_C`, over a row extended by 0; with burst 0 only the luma shows (`47_composite.md` R404, R420 to
R422; the filters by their taps, log 22). -/
def Obligations.SimulatedPixels : Prop :=
  ∀ (sel : BurstSel) (buf : List Byte) (s t : State) (x : Nat) (d : BurstDesc),
    exec (.renderSim sel buf.length buf) s = .next t → x < buf.length →
    s.burst[sel.index]? = some d →
    let c := s.cfg
    let k (j : Nat) : Ycc := (storeFind s.colour (buf.getD j 0).toNat).getD ⟨0, 0, 0⟩
    let at_ (table : List Amp) (j : Nat) : ℝ := (table.getD ((j + c.t0) % c.tmax) .zero).real
    let e (j : Nat) : ℝ := (k j).y + (c.kU * c.sat * (k j).pb : Rat) * at_ d.modU j +
      (c.kV * c.sat * (k j).pr : Rat) * at_ d.modV j
    ∃ yy uu vv : Amp,
      yy.real = firReal c.lpY buf.length e x ∧
      uu.real = firReal c.lpC buf.length (fun j => e j * at_ d.demU j) x ∧
      vv.real = firReal c.lpC buf.length (fun j => e j * at_ d.demV j) x ∧
      t.rowOut[x]? = some (if sel = .none then outRgb c yy yy yy else outYuv c yy uu vv)

/-- The constant-row law: with filters of gain 1 that remove the subcarrier (and the chroma filter
its second harmonic), a row of one colour decodes, away from its ends, to that colour's
`(y, U cos(phi) + V sin(phi), -U sin(phi) + V cos(phi))`, the values that the palette variant shows;
so the two pixels are the same wherever the output stage decides them (`47_composite.md` R421, R430;
the free value of log 4). -/
def Obligations.ConstantRowDecodesToThePlainPixel : Prop :=
  ∀ (sel : BurstSel) (n x : Nat) (b : Byte) (s t p : State) (k : Ycc) (o : Rat),
    0 < s.cfg.tmax → s.cfg.lpY.taps.sum = 1 → s.cfg.lpC.taps.sum = 1 →
    filterRejects s.cfg s.cfg.lpY 1 → filterRejects s.cfg s.cfg.lpC 1 →
    filterRejects s.cfg s.cfg.lpC 2 →
    s.cfg.lpY.taps.length ≤ x + s.cfg.lpY.advance + 1 → x + s.cfg.lpY.advance < n →
    s.cfg.lpC.taps.length ≤ x + s.cfg.lpC.advance + 1 → x + s.cfg.lpC.advance < n →
    storeFind s.colour b.toNat = some k →
    s.burst[sel.index]? = some (buildBurst s.cfg s.hue o) →
    exec (.renderSim sel n (List.replicate n b)) s = .next t →
    exec (.renderPalette sel n (List.replicate n b)) s = .next p → x < n →
    let c := s.cfg
    let f : ℝ := radians (phi c s.hue o)
    let u : ℝ := (c.kU * c.sat * k.pb : Rat)
    let v : ℝ := (c.kV * c.sat * k.pr : Rat)
    (sel = .none → ∃ yy : Amp, yy.real = k.y ∧ t.rowOut[x]? = some (outRgb c yy yy yy) ∧
      (outputDecided c yy = true → t.rowOut[x]? = p.rowOut[x]?)) ∧
    (sel ≠ .none → ∃ yy uu vv up vp : Amp,
      yy.real = k.y ∧ uu.real = u * Real.cos f + v * Real.sin f ∧
      vv.real = -(u * Real.sin f) + v * Real.cos f ∧ up.real = uu.real ∧ vp.real = vv.real ∧
      t.rowOut[x]? = some (outYuv c yy uu vv) ∧
      p.rowOut[x]? = some (outYuv c (.ofRat k.y) up vp) ∧
      (pixelDecided c yy uu vv = true → pixelDecided c (.ofRat k.y) up vp = true →
        t.rowOut[x]? = p.rowOut[x]?))

/-- `vo_render.row` counts every row; a row outside the viewport writes nothing; a row inside, with
its colours set, writes the packed pixels of the viewport's columns into its own stretch of the
target buffer and nothing outside that stretch; a row inside with an unset colour, in any column, is
`UnsetColour` (`48_vo_render.md` R441, R442, `60_exceptions.md` R450; log 18). -/
def Obligations.VoRenderStoresTheViewport : Prop :=
  ∀ (sel : BurstSel) (buf : List Byte) (s : State),
    (s.voLine < s.cfg.vpY ∨ s.cfg.vpY + s.cfg.vpH ≤ s.voLine →
      exec (.voRenderRow sel buf.length buf) s = .next { s with voLine := s.voLine + 1 }) ∧
    (s.cfg.vpY ≤ s.voLine → s.voLine < s.cfg.vpY + s.cfg.vpH → coloursSet s buf = true →
      ∃ row m, row.length = buf.length ∧
        exec (match s.cfg.variant with
          | .palette => .renderPalette sel buf.length buf
          | .art2 => .renderArt2 sel buf.length buf
          | .art5 => .renderArt5 sel buf.length buf
          | .sim => .renderSim sel buf.length buf) s = .next { s with rowOut := row } ∧
        exec (.voRenderRow sel buf.length buf) s =
          .next { s with target := m, voLine := s.voLine + 1 } ∧
        (∀ x p, s.cfg.vpX ≤ x → x < s.cfg.vpX + s.cfg.vpW → row[x]? = some p →
          storeFind m ((s.voLine - s.cfg.vpY) * s.cfg.pitch + (x - s.cfg.vpX)) =
            some (packPixel s.cfg.pf p)) ∧
        ∀ k, (k < (s.voLine - s.cfg.vpY) * s.cfg.pitch ∨
            (s.voLine - s.cfg.vpY) * s.cfg.pitch + s.cfg.vpW ≤ k) →
          storeFind m k = storeFind s.target k) ∧
    (s.cfg.vpY ≤ s.voLine → s.voLine < s.cfg.vpY + s.cfg.vpH → coloursSet s buf = false →
      exec (.voRenderRow sel buf.length buf) s = .fault .unsetColour)

/-! Reset. -/

/-- `reset()` from any state: every register and latch is 0, the bank and palette entries are free
values (log 7), the masks, levels, timer and raster variables are at their reset values, only the fall
of the first line is pending, what the rule calls untouched is untouched, the renderer's line count
too (log 14), and the sync outputs go high and the interrupt outputs low, each with a notification on
a change only (`70_reset_and_hazards.md` R490). -/
def Obligations.ResetClearsTheBlock : Prop :=
  ∀ s : State, ∃ t, exec .reset s = .next t ∧
    t = { State.resetWith s.cfg with
      inbox := s.inbox, internal := s.internal, callbacks := s.callbacks
      now := s.now, lineStart := s.now, seqNext := s.seqNext + 1
      queue := t.queue, bank := t.bank, pal := t.pal, line := t.line, colour := s.colour
      hue := s.hue, burst := s.burst, voLine := s.voLine, target := s.target, ram := s.ram
      trace := t.trace, readData := s.readData, rowOut := s.rowOut, draws := s.draws + 1 } ∧
    (∀ e, e ∈ t.queue ↔
      e = ⟨s.now + s.cfg.tSl * s.cfg.ticksPerPixel, .hsFall, s.seqNext⟩) ∧
    (∀ v ∈ t.bank.toList, v < 2 ^ s.cfg.bankW) ∧
    t.line.buf = s.line.buf ∧ t.line.beamPos = 0 ∧ t.line.lbRem = 0 ∧ t.line.aaRem = 0 ∧
    t.line.vramRem = 0 ∧ t.line.rbRem = 0 ∧ t.line.fetchK = 0 ∧
    t.trace = (if s.firqLevel then [(s.now, .firq false)] else []) ++
      (if s.irqLevel then [(s.now, .irq false)] else []) ++
      (if s.fsLevel then [] else [(s.now, .fs true)]) ++
      (if s.hsLevel then [] else [(s.now, .hs true)]) ++ s.trace ∧
    DerivedOk t ∧ LevelsOk t

/-- The state after power-on is `reset` of the power-on state, with any parameters
(`70_reset_and_hazards.md` R491); with the default ones its mode record is native text, 32 columns,
no attributes, one line per row, narrow, burst normal (`10_state.md` R34), and its burst tables are
those that `47_composite.md` R400 lists (defaults of log 30, unit of `MOD_PHASE` log 23). -/
def Obligations.ResetFollowsPowerOn : Prop :=
  (∀ c : Params, exec .reset (powerOn c) = .next (State.resetWith c)) ∧
  State.reset.mode = ⟨.nativeText, false, 32, 1, some 1, 32, false, 0, .normal⟩ ∧
  State.reset.burst = List.replicate 3 ⟨0, [0, 1, 0, -1].map .ofRat, [1, 0, -1, 0].map .ofRat,
    [0, 2, 0, -2].map .ofRat, [2, 0, -2, 0].map .ofRat⟩

/-- Every invariant of the statements below holds right after power-on and reset, and the default
parameters meet every constraint that U23 (`93_implementation_defined.md`) asks for. -/
def Obligations.ResetMeetsTheInvariants : Prop :=
  DerivedOk State.reset ∧ LevelsOk State.reset ∧ QueueOk State.reset ∧ MemoryOk State.reset ∧
  RangesOk State.reset ∧ LineOk State.reset ∧ RowsOk State.reset ∧ OutputsTold State.reset ∧
  fitsOk State.reset.cfg = true ∧ timedOk State.reset.cfg = true ∧ paramsOk State.reset.cfg = true

/-! Invariants that every step keeps, from every state. -/

/-- No derived field is ever stale and the output levels are `compute_levels`, between any two
operations (`41_bus_decode.md` R207, `60_exceptions.md` R458). -/
def Obligations.StepsKeepFieldsAndLevels : Prop :=
  ∀ s t : State, DerivedOk s → LevelsOk s → step s = .next t → DerivedOk t ∧ LevelsOk t

/-- The queue stays in the order `(tick, seq)` with one entry for an event and its stamps below
`seq_next`, and the memories keep their canonical form (`10_state.md` R21, R22, `40_scheduler.md`
R178; log 10, 36). -/
def Obligations.StepsKeepQueueAndMemories : Prop :=
  ∀ s t : State, step s = .next t → (QueueOk s → QueueOk t) ∧ (MemoryOk s → MemoryOk t)

/-- Every entry and counter stays in its range, a running timer has a count, and frame sync is low
exactly in `VSYNC` (`10_state.md` R35, R41, R46, R48, `44_raster.md` R312). -/
def Obligations.StepsKeepTheRanges : Prop :=
  ∀ s t : State, RangesOk s → step s = .next t → RangesOk t

/-- With a geometry that fills the visible span, the line stays well formed, and every row that is
ever delivered has `N_VIS` bytes, each a colour value 0..63 (`10_state.md` R49, R50,
`44_raster.md` R280, R302, `46_pixel_generation.md` R346, R352). -/
def Obligations.StepsKeepTheLineAndDeliverColours : Prop :=
  ∀ s t : State, fitsOk s.cfg = true → LineOk s → RowsOk s → step s = .next t →
    LineOk t ∧ RowsOk t

/-- The notifications of each output alternate and end at its present level: one for each change and
none besides (`00_scope.md` R13). -/
def Obligations.StepsTellTheOutputs : Prop :=
  ∀ s t : State, OutputsTold s → step s = .next t → OutputsTold t

/-- Only the operations of its own window, the direct call for it, a cycle at such an address and
`reset` change a register, a bank entry, a palette entry, the SAM bits or a snooped latch; of all
well-formed operations, which are those that a request or a code names (`00_scope.md` R19,
`41_bus_decode.md` R206). -/
def Obligations.OnlyWritesChangeTheRegisters : Prop :=
  ∀ (i : Instr) (s t : State), i.wellFormed s.cfg.win = true → exec i s = .next t →
    (t.reg ≠ s.reg → i = .reset ∨ (∃ a d, i = decodeRegWrite a d) ∨ (∃ n d, i = .regWrite n d) ∨
      (∃ k v, i = .setRegister k v) ∨
      ∃ a d, windowOf s.cfg.win a = .reg ∧ i = .memoryCycle false a d) ∧
    (t.bank ≠ s.bank → i = .reset ∨ (∃ a d, i = .mmuWr a d) ∨ (∃ k p, i = .setMmuBank k p) ∨
      ∃ a d, windowOf s.cfg.win a = .mmu ∧ i = .memoryCycle false a d) ∧
    (t.pal ≠ s.pal → i = .reset ∨ (∃ a d, i = .palWr a d) ∨
      ∃ a d, windowOf s.cfg.win a = .pal ∧ i = .memoryCycle false a d) ∧
    (t.sam ≠ s.sam → i = .reset ∨ (∃ a d, i = .samClr a d ∨ i = .samSet a d) ∨
      ∃ a d, windowOf s.cfg.win a = .sam ∧ i = .memoryCycle false a d) ∧
    (t.snoop0 ≠ s.snoop0 ∨ t.snoop1 ≠ s.snoop1 → i = .reset ∨ (∃ a d, i = .snoopWr a d) ∨
      ∃ a d, windowOf s.cfg.win a = .io ∧ snoopedWrite s.cfg.win false a = true ∧
        i = .memoryCycle false a d)
end

