-- ==== Sys2Proof/Laws/Memory.lean ====
section
/-! SUPPORT. The laws of the two sparse memories: what a read after a write gives, and that a write
keeps the canonical form. -/

namespace Sys2Proof.Machine

/-! The byte memory. -/

theorem memRead_memCons (a : Nat) (v : Byte) (m : Memory) (b : Nat) (h : b ≠ a) :
    memRead (memCons a v m) b = memRead m b := by
  unfold memCons
  split
  · rfl
  · simp [memRead, Ne.symm h]

/-- An address below every key reads as unlisted. -/
theorem memRead_below {lo : Nat} {m : Memory} (h : memWfAbove lo m = true) {a : Nat} (ha : a < lo) :
    memRead m a = unwrittenByte := by
  induction m generalizing lo with
  | nil => rfl
  | cons c m ih =>
    obtain ⟨k, b⟩ := c
    simp only [memWfAbove, Bool.and_eq_true, decide_eq_true_eq] at h
    rw [memRead, if_neg (by omega)]
    exact ih h.2 (by omega)

theorem memRead_memCons_self {lo a : Nat} (v : Byte) {m : Memory} (h : memWfAbove lo m = true)
    (ha : a < lo) : memRead (memCons a v m) a = v := by
  unfold memCons
  split
  · rename_i hv; rw [memRead_below h ha, hv]
  · simp [memRead]

theorem memWfAbove_mono {lo lo' : Nat} (h : lo ≤ lo') {m : Memory} (hm : memWfAbove lo' m = true) :
    memWfAbove lo m = true := by
  cases m with
  | nil => rfl
  | cons c m =>
    obtain ⟨k, b⟩ := c
    simp only [memWfAbove, Bool.and_eq_true, decide_eq_true_eq] at hm ⊢
    exact ⟨⟨by omega, hm.1.2⟩, hm.2⟩

theorem memCons_wf {lo a : Nat} (v : Byte) {m : Memory} (ha : lo ≤ a)
    (h : memWfAbove (a + 1) m = true) : memWfAbove lo (memCons a v m) = true := by
  unfold memCons
  split
  · exact memWfAbove_mono (by omega) h
  · rename_i hv
    simp only [memWfAbove, Bool.and_eq_true, decide_eq_true_eq]
    exact ⟨⟨ha, by simpa using hv⟩, h⟩

theorem memWrite_wfAbove {lo a : Nat} (v : Byte) {m : Memory} (ha : lo ≤ a)
    (h : memWfAbove lo m = true) : memWfAbove lo (memWrite m a v) = true := by
  induction m generalizing lo with
  | nil => exact memCons_wf v ha rfl
  | cons c m ih =>
    obtain ⟨k, b⟩ := c
    have h' := h
    simp only [memWfAbove, Bool.and_eq_true, decide_eq_true_eq] at h
    rw [memWrite]
    split
    · refine memCons_wf v ha ?_
      simp only [memWfAbove, Bool.and_eq_true, decide_eq_true_eq]
      exact ⟨⟨by omega, h.1.2⟩, h.2⟩
    · split
      · subst_vars; exact memCons_wf v ha h.2
      · simp only [memWfAbove, Bool.and_eq_true, decide_eq_true_eq]
        exact ⟨h.1, ih (by omega) h.2⟩

/-- A write keeps the canonical form. -/
theorem memWrite_wf (m : Memory) (a : Nat) (v : Byte) (h : Memory.wf m = true) :
    Memory.wf (memWrite m a v) = true := memWrite_wfAbove v (Nat.zero_le a) h

/-- A read of the written address gives the byte, in a memory in canonical form. -/
theorem memRead_memWrite_self {m : Memory} (a : Nat) (v : Byte) (h : Memory.wf m = true) :
    memRead (memWrite m a v) a = v := by
  unfold Memory.wf at h
  generalize 0 = lo at h
  induction m generalizing lo with
  | nil => exact memRead_memCons_self v (m := []) (lo := a + 1) rfl (by omega)
  | cons c m ih =>
    obtain ⟨k, b⟩ := c
    have h' := h
    simp only [memWfAbove, Bool.and_eq_true, decide_eq_true_eq] at h
    rw [memWrite]
    split
    · refine memRead_memCons_self (lo := a + 1) v ?_ (by omega)
      simp only [memWfAbove, Bool.and_eq_true, decide_eq_true_eq]
      exact ⟨⟨by omega, h.1.2⟩, h.2⟩
    · split
      · subst_vars; exact memRead_memCons_self v h.2 (by omega)
      · rw [memRead, if_neg (fun e => by omega)]
        exact ih _ h.2

/-- A write leaves every other address as it was. -/
theorem memRead_memWrite_other {a b : Nat} (m : Memory) (v : Byte) (h : b ≠ a) :
    memRead (memWrite m a v) b = memRead m b := by
  induction m with
  | nil => exact memRead_memCons a v [] b h
  | cons c m ih =>
    obtain ⟨k, w⟩ := c
    rw [memWrite]
    split
    · exact memRead_memCons a v _ b h
    · split
      · subst_vars; rw [memRead_memCons _ _ _ _ h, memRead, if_neg (Ne.symm h)]
      · simp only [memRead, ih]

/-! The store. -/

theorem storeWfAbove_mono {α : Type} {lo lo' : Nat} (h : lo ≤ lo') {m : Store α}
    (hm : storeWfAbove lo' m = true) : storeWfAbove lo m = true := by
  cases m with
  | nil => rfl
  | cons c m =>
    obtain ⟨k, b⟩ := c
    simp only [storeWfAbove, Bool.and_eq_true, decide_eq_true_eq] at hm ⊢
    exact ⟨by omega, hm.2⟩

theorem storeSet_wfAbove {α : Type} {lo a : Nat} (v : α) {m : Store α} (ha : lo ≤ a)
    (h : storeWfAbove lo m = true) : storeWfAbove lo (storeSet m a v) = true := by
  induction m generalizing lo with
  | nil => simp [storeSet, storeWfAbove, ha]
  | cons c m ih =>
    obtain ⟨k, b⟩ := c
    simp only [storeWfAbove, Bool.and_eq_true, decide_eq_true_eq] at h
    rw [storeSet]
    split
    · simp only [storeWfAbove, Bool.and_eq_true, decide_eq_true_eq]
      exact ⟨ha, by omega, h.2⟩
    · split
      · subst_vars
        simp only [storeWfAbove, Bool.and_eq_true, decide_eq_true_eq]
        exact ⟨ha, h.2⟩
      · simp only [storeWfAbove, Bool.and_eq_true, decide_eq_true_eq]
        exact ⟨h.1, ih (by omega) h.2⟩

/-- Setting a value keeps the canonical form. -/
theorem storeSet_wf {α : Type} (m : Store α) (a : Nat) (v : α) (h : Store.wf m = true) :
    Store.wf (storeSet m a v) = true := storeSet_wfAbove v (Nat.zero_le a) h

/-- The set key holds the value. -/
theorem storeFind_storeSet_self {α : Type} (m : Store α) (a : Nat) (v : α) :
    storeFind (storeSet m a v) a = some v := by
  induction m with
  | nil => simp [storeSet, storeFind]
  | cons c m ih =>
    obtain ⟨k, b⟩ := c
    rw [storeSet]
    split
    · simp [storeFind]
    · split
      · simp [storeFind]
      · rename_i h1 h2; simp [storeFind, Ne.symm h2, ih]

/-- Every other key holds what it held. -/
theorem storeFind_storeSet_other {α : Type} {a b : Nat} (m : Store α) (v : α) (h : b ≠ a) :
    storeFind (storeSet m a v) b = storeFind m b := by
  induction m with
  | nil => simp [storeSet, storeFind, Ne.symm h]
  | cons c m ih =>
    obtain ⟨k, w⟩ := c
    rw [storeSet]
    split
    · simp [storeFind, Ne.symm h]
    · split
      · subst_vars; simp [storeFind, Ne.symm h]
      · simp only [storeFind, ih]

end Sys2Proof.Machine
end

