-- ==== Sys2Proof/Laws/State.lean ====
section
/-! SUPPORT. Updates of the state. Every update in record form (`emit`, `setHs`, `setFs`, `setIrq`,
`cancelEvent`, `scheduleEvent`, `crossings`, `latchSources`, `takeIrq`, `takeFirq`, `maskIrq`,
`maskFirq`, `setReg`, `setSam`, `setSnoop`, `storePal`, `writeBank`, `readStored`, `readBank`,
`readPal`, `readUndriven`, `readExternal`, `ramWrite`, `ramRead`, `recomputeAll`, `stopTimer`,
`countTimer`, `toggleBlink`, `setRow`, `nextRow`, `fieldVars`, `enterState`, `startLine`,
`countLine`, `setLine`, `setNow`, `takeEntry`, `clearState`, `rebuildHue`, `storeColour`,
`storeBurst`, `setRowOut`, `storeRow`, `skipRow`, `takeRequest`, `takeInternal`, `updateLevels`, `reloadTimer`,
`afterCycle`), and every short composition of them (`raiseIrq`, `readIrqPending`,
`readFirqPending`, `storeReg`, `storeSam`, `storeSnoop`), is tagged `@[simps]` where it is
defined: Lean then states, for every field `f`, the `@[simp]` lemma `<update>_<f>`, true by `rfl`
(`emit_now`, `setHs_trace`, ...). Here stand the updates that are composed or conditional, each
written once as a record, and the sequencing of answers. -/

namespace Sys2Proof.Machine

/-! Reset. -/

/-- After reset the RAM array is in its canonical form (`00_scope.md` R11: nothing is listed). -/
theorem reset_ram_wf : Memory.wf State.reset.ram = true := rfl

/-- After reset the colour table and the target buffer are in canonical form. -/
theorem reset_stores_wf :
    Store.wf State.reset.colour = true ∧ Store.wf State.reset.target = true := ⟨rfl, rfl⟩

/-! Scheduling. -/

@[simp] theorem enqueue_fst (ev : EventId) (tick : Nat) (p : List QEntry × Nat) :
    (enqueue ev tick p).1 = queueInsert ⟨tick, ev, p.2⟩ (queueRemove ev p.1) := rfl

@[simp] theorem enqueue_snd (ev : EventId) (tick : Nat) (p : List QEntry × Nat) :
    (enqueue ev tick p).2 = p.2 + 1 := rfl

@[simp] theorem enqueueAll_nil (p : List QEntry × Nat) : enqueueAll [] p = p := rfl

@[simp] theorem enqueueAll_cons (c : EventId × Nat) (cs : List (EventId × Nat))
    (p : List QEntry × Nat) : enqueueAll (c :: cs) p = enqueueAll cs (enqueue c.1 c.2 p) := rfl

/-- No callback, nothing happens. -/
@[simp] theorem crossings_zero (s : State) : crossings 0 s = s := rfl

/-- A callback that schedules nothing, and the end of the callbacks given, change no queue. -/
theorem crossings_silent {n : Nat} {s : State} (h : (s.callbacks.take n).flatten = []) :
    crossings n s = { s with callbacks := s.callbacks.drop n } := by
  simp [crossings, h]

/-! Answers. -/

@[simp] theorem andThen_next (s : State) (f : State → Res) : andThen (.next s) f = f s := rfl

@[simp] theorem andThen_fault (e : Fault) (f : State → Res) : andThen (.fault e) f = .fault e := rfl

@[simp] theorem andThen_refused (e : Refusal) (f : State → Res) :
    andThen (.refused e) f = .refused e := rfl

/-- What a sequence that answers a next state did. -/
theorem andThen_eq_next {r : Res} {f : State → Res} {t : State} (h : andThen r f = .next t) :
    ∃ u, r = .next u ∧ f u = .next t := by
  cases r with
  | next u => exact ⟨u, rfl, h⟩
  | fault e => cases h
  | refused e => cases h

/-- A sequence faults where its first part or its second part does. -/
theorem andThen_eq_fault {r : Res} {f : State → Res} {e : Fault} (h : andThen r f = .fault e) :
    r = .fault e ∨ ∃ u, r = .next u ∧ f u = .fault e := by
  cases r with
  | next u => exact .inr ⟨u, rfl, h⟩
  | fault e' => cases h; exact .inl rfl
  | refused e' => cases h

/-! Interrupts. -/

/-- `UpdateLevels()` writes the two levels and the notifications, nothing else. -/
theorem updateLevels_eq (s : State) :
    updateLevels s = { s with
      irqLevel := computeLevel s.fields.ien s.pendingIrq
      firqLevel := computeLevel s.fields.fen s.pendingFirq
      trace := levelsTrace s } := rfl

/-- `Raise(m)` writes the two masks, the two levels and the notifications, nothing else. -/
theorem raiseIrq_eq (m : IrqMask) (s : State) :
    raiseIrq m s = { s with
      pendingIrq := latchPending s.pendingIrq s.fields.irqEn m
      pendingFirq := latchPending s.pendingFirq s.fields.firqEn m
      irqLevel := computeLevel s.fields.ien (latchPending s.pendingIrq s.fields.irqEn m)
      firqLevel := computeLevel s.fields.fen (latchPending s.pendingFirq s.fields.firqEn m)
      trace := levelsTrace (latchSources m s) } := rfl

/-- The read of register 2 returns the IRQ mask and clears it. -/
theorem readIrqPending_eq (s : State) :
    readIrqPending s = { s with
      readData := pendingByte s.pendingIrq
      pendingIrq := 0
      irqLevel := false
      firqLevel := computeLevel s.fields.fen s.pendingFirq
      trace := levelsTrace (takeIrq s) } := by
  have h : s.pendingIrq &&& ~~~s.pendingIrq = 0#6 := BitVec.and_not_self ..
  have h0 : computeLevel s.fields.ien 0#6 = false := by simp [computeLevel]
  simp [readIrqPending, updateLevels_eq, h, h0, takeIrq]

/-- The read of register 3 returns the FIRQ mask and clears it. -/
theorem readFirqPending_eq (s : State) :
    readFirqPending s = { s with
      readData := pendingByte s.pendingFirq
      pendingFirq := 0
      irqLevel := computeLevel s.fields.ien s.pendingIrq
      firqLevel := false
      trace := levelsTrace (takeFirq s) } := by
  have h : s.pendingFirq &&& ~~~s.pendingFirq = 0#6 := BitVec.and_not_self ..
  have h0 : computeLevel s.fields.fen 0#6 = false := by simp [computeLevel]
  simp [readFirqPending, updateLevels_eq, h, h0, takeFirq]

/-- Where the levels already are `compute_levels`, `UpdateLevels()` does nothing. -/
theorem updateLevels_of_ok {s : State} (h : LevelsOk s) : updateLevels s = s := by
  simp [updateLevels_eq, levelsTrace, levelTrace, ← h.1, ← h.2]

/-! Recompute. -/

/-- `Recompute()` writes the derived fields and the mode record, nothing else. -/
theorem recomputeAll_eq (s : State) :
    recomputeAll s = { s with
      fields := extractFields s.reg s.sam s.snoop0
      mode := modeOf s.cfg (extractFields s.reg s.sam s.snoop0) } := rfl

/-- Where nothing is stale, `Recompute()` does nothing. -/
theorem recomputeAll_of_ok {s : State} (h : DerivedOk s) : recomputeAll s = s := by
  rw [recomputeAll_eq, ← h.1, ← h.2]

/-! The cycle. -/

theorem afterCycle_eq (rnw : Bool) (a : Addr) (s : State) :
    afterCycle rnw a s =
      setNow (s.now + cycleTicks s) (announceCycle rnw a s) := rfl

end Sys2Proof.Machine
end

