-- ==== Sys2Proof/Laws/Queue.lean ====
section
/-! SUPPORT. The scheduler's queue: what insertion and removal leave, and that they keep its order
(`40_scheduler.md` R174, R175, R178). -/

namespace Sys2Proof.Machine

theorem QEntry.before_iff (e f : QEntry) :
    e.before f = true ↔ e.tick < f.tick ∨ (e.tick = f.tick ∧ e.seq < f.seq) := by
  simp [QEntry.before]

theorem QEntry.before_trans {e f g : QEntry} (h : e.before f = true) (k : f.before g = true) :
    e.before g = true := by
  rw [QEntry.before_iff] at *
  omega

/-- Of two entries with different stamps, one comes before the other. -/
theorem QEntry.before_of_not {e f : QEntry} (hs : e.seq ≠ f.seq) (h : ¬ e.before f = true) :
    f.before e = true := by
  rw [QEntry.before_iff] at *
  omega

/-- An inserted queue holds the new entry and the old ones. -/
theorem mem_queueInsert {e g : QEntry} {q : List QEntry} :
    g ∈ queueInsert e q ↔ g = e ∨ g ∈ q := by
  induction q with
  | nil => simp [queueInsert]
  | cons f q ih =>
    rw [queueInsert]
    split
    · simp
    · simp only [List.mem_cons, ih]; tauto

/-- A queue without an event holds the entries of the others. -/
theorem mem_queueRemove {ev : EventId} {g : QEntry} {q : List QEntry} :
    g ∈ queueRemove ev q ↔ g ∈ q ∧ g.ev ≠ ev := by
  simp [queueRemove]

theorem queueSorted_cons (e : QEntry) (q : List QEntry) :
    queueSorted (e :: q) = true ↔
      (∀ f ∈ q, e.before f = true ∧ e.ev ≠ f.ev) ∧ queueSorted q = true := by
  simp [queueSorted]

/-- Removal keeps the order. -/
theorem queueRemove_sorted (ev : EventId) {q : List QEntry} (h : queueSorted q = true) :
    queueSorted (queueRemove ev q) = true := by
  induction q with
  | nil => rfl
  | cons e q ih =>
    rw [queueSorted_cons] at h
    have hi := ih h.2
    unfold queueRemove at hi ⊢
    rw [List.filter_cons]
    split
    · rw [queueSorted_cons]
      exact ⟨fun f hf => h.1 f (List.mem_of_mem_filter hf), hi⟩
    · exact hi

/-- Insertion of an entry with a new event and a new stamp keeps the order. -/
theorem queueInsert_sorted {e : QEntry} {q : List QEntry} (h : queueSorted q = true)
    (he : ∀ f ∈ q, f.ev ≠ e.ev ∧ f.seq < e.seq) : queueSorted (queueInsert e q) = true := by
  induction q with
  | nil => rfl
  | cons f q ih =>
    rw [queueSorted_cons] at h
    have hf := he f (List.mem_cons_self ..)
    rw [queueInsert]
    split
    · rename_i hb
      rw [queueSorted_cons]
      refine ⟨fun g hg => ?_, (queueSorted_cons f q).2 h⟩
      refine ⟨?_, Ne.symm (he g hg).1⟩
      rcases List.mem_cons.1 hg with rfl | hg
      · exact hb
      · exact QEntry.before_trans hb (h.1 g hg).1
    · rename_i hb
      rw [queueSorted_cons]
      refine ⟨fun g hg => ?_, ih h.2 fun g hg => he g (List.mem_cons_of_mem _ hg)⟩
      rcases mem_queueInsert.1 hg with rfl | hg
      · exact ⟨QEntry.before_of_not (by omega) hb, hf.1⟩
      · exact h.1 g hg

/-- Cancelling keeps the queue in order. -/
theorem cancelEvent_queueOk (ev : EventId) {s : State} (h : QueueOk s) :
    QueueOk (cancelEvent ev s) :=
  ⟨queueRemove_sorted ev h.1, fun e he => h.2 e (mem_queueRemove.1 he).1⟩

/-- A queue in order stays so under a call of `schedule`. -/
theorem enqueue_ok (ev : EventId) (tick : Nat) {p : List QEntry × Nat}
    (h : queueSorted p.1 = true ∧ ∀ e ∈ p.1, e.seq < p.2) :
    queueSorted (enqueue ev tick p).1 = true ∧
      ∀ e ∈ (enqueue ev tick p).1, e.seq < (enqueue ev tick p).2 := by
  refine ⟨queueInsert_sorted (queueRemove_sorted ev h.1) fun f hf => ?_, fun e he => ?_⟩
  · exact ⟨(mem_queueRemove.1 hf).2, h.2 f (mem_queueRemove.1 hf).1⟩
  · rcases mem_queueInsert.1 he with rfl | he
    · exact Nat.lt_succ_self _
    · exact Nat.lt_succ_of_lt (h.2 e (mem_queueRemove.1 he).1)

theorem enqueueAll_ok (calls : List (EventId × Nat)) {p : List QEntry × Nat}
    (h : queueSorted p.1 = true ∧ ∀ e ∈ p.1, e.seq < p.2) :
    queueSorted (enqueueAll calls p).1 = true ∧
      ∀ e ∈ (enqueueAll calls p).1, e.seq < (enqueueAll calls p).2 := by
  induction calls generalizing p with
  | nil => exact h
  | cons c cs ih => exact ih (enqueue_ok c.1 c.2 h)

/-- Scheduling keeps the queue in order. -/
theorem scheduleEvent_queueOk (ev : EventId) (tick : Nat) {s : State} (h : QueueOk s) :
    QueueOk (scheduleEvent ev tick s) := enqueue_ok ev tick h

/-- So do the callbacks (`40_scheduler.md` R177). -/
theorem crossings_queueOk (n : Nat) {s : State} (h : QueueOk s) : QueueOk (crossings n s) :=
  enqueueAll_ok _ h

/-- In a sorted queue of which the head is not due, nothing is due. -/
theorem not_due_of_sorted {s : State} {t : Nat} (hq : queueSorted s.queue = true)
    (h : nothingDue s t = true) : ∀ e ∈ s.queue, t < e.tick := by
  unfold nothingDue at h
  intro e he
  cases hs : s.queue with
  | nil => rw [hs] at he; cases he
  | cons f q =>
    rw [hs] at he hq h
    simp only [decide_eq_true_eq] at h
    rcases List.mem_cons.1 he with rfl | he
    · exact h
    · have hb := (((queueSorted_cons f q).1 hq).1 e he).1
      rw [QEntry.before_iff] at hb
      omega

/-! The fuel of `advance_to`. -/

theorem weight_queueInsert (t : Nat) (e : QEntry) (q : List QEntry) :
    queueFuel t (queueInsert e q) = e.weight t + queueFuel t q := by
  induction q with
  | nil => rfl
  | cons f q ih =>
    rw [queueInsert]
    split
    · rfl
    · simp only [queueFuel, List.map_cons, List.sum_cons] at ih ⊢
      omega

theorem weight_queueRemove (t : Nat) (ev : EventId) (q : List QEntry) :
    queueFuel t (queueRemove ev q) ≤ queueFuel t q := by
  induction q with
  | nil => exact Nat.le_refl _
  | cons f q ih =>
    unfold queueRemove at ih ⊢
    rw [List.filter_cons]
    split
    · simp only [queueFuel, List.map_cons, List.sum_cons] at ih ⊢
      omega
    · simp only [queueFuel, List.map_cons, List.sum_cons] at ih ⊢
      omega

/-- The stamp has no weight. -/
theorem weight_stamp (t n : Nat) (e : QEntry) :
    QEntry.weight t ⟨e.tick, e.ev, n⟩ = e.weight t := by
  cases e with
  | mk tick ev seq => cases ev <;> rfl

/-- A call of `schedule` adds at most the weight of its entry. -/
theorem weight_enqueue (t : Nat) (ev : EventId) (tick : Nat) (p : List QEntry × Nat) :
    queueFuel t (enqueue ev tick p).1 ≤ QEntry.weight t ⟨tick, ev, 0⟩ + queueFuel t p.1 := by
  have h := weight_queueRemove t ev p.1
  rw [enqueue_fst, weight_queueInsert, weight_stamp t p.2 ⟨tick, ev, 0⟩]
  omega

/-- Several calls of `schedule` add at most the weight of their entries. -/
theorem weight_enqueueAll (t : Nat) (calls : List (EventId × Nat)) (p : List QEntry × Nat) :
    queueFuel t (enqueueAll calls p).1 ≤ callFuel t calls + queueFuel t p.1 := by
  induction calls generalizing p with
  | nil => simp
  | cons c cs ih =>
    have h1 := ih (enqueue c.1 c.2 p)
    have h2 := weight_enqueue t c.1 c.2 p
    simp only [callFuel, List.map_cons, List.sum_cons, enqueueAll_cons] at h1 ⊢
    omega

/-- The callbacks turn calls to come into entries, and make nothing more of them. -/
theorem weight_crossings (t n : Nat) (s : State) :
    advanceFuel t (crossings n s) ≤ advanceFuel t s := by
  have h := weight_enqueueAll t (s.callbacks.take n).flatten (s.queue, s.seqNext)
  have e : callFuel t s.callbacks.flatten =
      callFuel t (s.callbacks.take n).flatten + callFuel t (s.callbacks.drop n).flatten := by
    conv_lhs => rw [← List.take_append_drop n s.callbacks]
    simp [callFuel]
  simp only [advanceFuel, crossings_queue, crossings_callbacks] at h ⊢
  omega

/-- Scheduling adds at most the weight of the new entry. -/
theorem weight_schedule (t : Nat) (ev : EventId) (tick : Nat) (s : State) :
    advanceFuel t (scheduleEvent ev tick s) ≤
      QEntry.weight t ⟨tick, ev, 0⟩ + advanceFuel t s := by
  have h := weight_enqueue t ev tick (s.queue, s.seqNext)
  simp only [advanceFuel, scheduleEvent_queue, scheduleEvent_callbacks] at h ⊢
  omega

theorem weight_cancel (t : Nat) (ev : EventId) (s : State) :
    advanceFuel t (cancelEvent ev s) ≤ advanceFuel t s := by
  have h := weight_queueRemove t ev s.queue
  simp only [advanceFuel, cancelEvent_queue, cancelEvent_callbacks]
  omega

end Sys2Proof.Machine
end

