-- ==== Sys2Proof/Laws/Render.lean ====
section
/-! SUPPORT. What painting does (`46_pixel_generation.md` R350 to R359): the size and values of a
cell, that every round of `RenderTo` moves the beam and leaves what is painted, that it ends at the
position asked for, and when it stops with `NoVideoFetch`. -/

namespace Sys2Proof.Machine

/-! The pixels of a cell. -/

/-- A quad expands to `16 >> r` positions (`46_pixel_generation.md` R359). -/
theorem expand_length (q : Quad) (r : BitVec 2) : (expand q r).length = 16 >>> r.toNat := by
  unfold expand
  split_ifs with h0 h1 h2
  · subst h0; simp
  · subst h1; simp
  · subst h2; simp
  · have h3 : r = 3 := by
      revert h0 h1 h2
      revert r
      decide
    subst h3; simp

/-- A cell is `W` positions wide (`46_pixel_generation.md` R345). -/
theorem cellPixels_length (c : Params) (x : CellCtx) (ch a : Byte) :
    (cellPixels c x ch a).length = cellWidth x.r := by
  simp [cellPixels, expand_length, cellWidth]
  omega

theorem cellWidth_pos (r : BitVec 2) : 0 < cellWidth r := by
  revert r
  decide

theorem isColour_setWidth (v : Colour) : isColour (v.setWidth 8) = true := by
  revert v
  decide

/-- A cell's pixels are colour values (`46_pixel_generation.md` R346). -/
theorem cellPixels_colour (c : Params) (x : CellCtx) (ch a : Byte) :
    (cellPixels c x ch a).all isColour = true := by
  simp only [cellPixels, List.all_map, List.all_eq_true]
  intro v _
  exact isColour_setWidth v

theorem borderByte_colour (s : State) : isColour (borderByte s) = true := isColour_setWidth _

/-! Splicing. -/

/-- Bytes spliced in where they fit leave the size as it was. -/
theorem splice_length {buf px : List Byte} {pos : Nat} (h : pos + px.length ≤ buf.length) :
    (splice buf pos px).length = buf.length := by
  simp [splice]
  omega

theorem splice_length_ge (buf px : List Byte) (pos : Nat) (h : pos ≤ buf.length) :
    pos + px.length ≤ (splice buf pos px).length := by
  simp [splice]
  omega

/-- Splicing leaves everything before the position. -/
theorem splice_take {buf px : List Byte} {pos n : Nat} (h : pos ≤ buf.length) (hn : n ≤ pos) :
    (splice buf pos px).take n = buf.take n := by
  rw [splice, List.append_assoc, List.take_append_of_le_length (by simp; omega), List.take_take,
    Nat.min_eq_left hn]

/-- The buffer up to the end of the spliced bytes. -/
theorem splice_take_end {buf px : List Byte} {pos : Nat} (h : pos ≤ buf.length) :
    (splice buf pos px).take (pos + px.length) = buf.take pos ++ px := by
  rw [splice, List.take_append_of_le_length (by simp; omega)]
  exact List.take_of_length_le (by simp)

/-- A splice of colour values into a prefix of colour values. -/
theorem splice_take_colour {buf px : List Byte} {pos n : Nat} (hn : n ≤ buf.length)
    (hp : pos + px.length ≤ n) (hb : (buf.take n).all isColour = true)
    (hx : px.all isColour = true) : ((splice buf pos px).take n).all isColour = true := by
  have hd : (buf.take n).drop (pos + px.length) =
      (buf.drop (pos + px.length)).take (n - (pos + px.length)) := by
    rw [List.drop_take]
  have e : (splice buf pos px).take n =
      buf.take pos ++ px ++ (buf.take n).drop (pos + px.length) := by
    rw [splice, List.take_append, List.take_of_length_le (by simp; omega), hd]
    simp
    congr 1
    omega
  rw [e, List.all_append, List.all_append, hx]
  have h1 : (buf.take pos).all isColour = true := by
    rw [List.all_eq_true] at hb ⊢
    intro x hx'
    refine hb x ?_
    have : buf.take pos = (buf.take n).take pos := by rw [List.take_take, Nat.min_eq_left (by omega)]
    rw [this] at hx'
    exact List.mem_of_mem_take hx'
  have h2 : ((buf.take n).drop (pos + px.length)).all isColour = true := by
    rw [List.all_eq_true] at hb ⊢
    exact fun x hx' => hb x (List.mem_of_mem_drop hx')
  simp [h1, h2]

/-! Fetching. -/

/-- With the port connected a fetch always answers (`46_pixel_generation.md` R354). -/
theorem fetchNext_connected {s : State} (h : s.cfg.vfetchConnected = true) (l : Line) :
    ∃ g, fetchNext s l = some g := by
  unfold fetchNext
  rw [if_pos h]
  split <;> exact ⟨_, rfl⟩

theorem vFetch_line (s : State) (l : Line) (z : Nat) :
    (vFetch s l z).line = { l with picks := (vFetch s l z).line.picks } := by
  unfold vFetch
  split
  · rfl
  all_goals
    unfold ramFetch
    split <;> rfl

/-- A fetch changes the fetch counters and the choices made, nothing else of the line. -/
theorem fetchNext_line {s : State} {l : Line} {g : Fetched} (h : fetchNext s l = some g) :
    g.line = { l with
      fetchK := g.line.fetchK, vramRem := g.line.vramRem, picks := g.line.picks } := by
  unfold fetchNext at h
  split at h
  · cases h; rfl
  · split at h
    · cases h
      simp only [Fetched.counted]
      rw [vFetch_line]
    · cases h

theorem fetchAttr_line {s : State} {l : Line} {g : Fetched} (h : fetchAttr s l = some g) :
    g.line = { l with
      fetchK := g.line.fetchK, vramRem := g.line.vramRem, picks := g.line.picks } := by
  unfold fetchAttr at h
  split at h
  · exact fetchNext_line h
  · cases h; rfl

/-- What a painted cell does to the line (`46_pixel_generation.md` R353). -/
theorem cellStep_spec {s : State} {l l' : Line} (h : cellStep s l = some l') :
    ∃ (ch att : Byte) (p : PaintedCell),
      p.pos = l.beamPos ∧ p.width = min (cellWidth s.mode.r) l.aaRem ∧
      l' = { l with
        buf := splice l.buf l.beamPos
          ((cellPixels s.cfg (cellCtx s) ch att).take (min (cellWidth s.mode.r) l.aaRem))
        cells := p :: l.cells
        beamPos := l.beamPos + min (cellWidth s.mode.r) l.aaRem
        aaRem := l.aaRem - min (cellWidth s.mode.r) l.aaRem
        fetchK := l'.fetchK, vramRem := l'.vramRem, picks := l'.picks } := by
  unfold cellStep at h
  split at h
  · cases h
  · rename_i ch hc
    split at h
    · cases h
    · rename_i att ha
      injection h with h
      have e1 := fetchNext_line hc
      have e2 := fetchAttr_line ha
      rw [e1] at e2
      refine ⟨ch.byte, att.byte, ⟨l.beamPos, min (cellWidth s.mode.r) l.aaRem, ch.addr, ch.byte,
        att.addr, att.byte, cellCtx s⟩, rfl, rfl, ?_⟩
      subst h
      unfold paintCell
      rw [e2]

theorem cellStep_connected {s : State} (h : s.cfg.vfetchConnected = true) (l : Line) :
    ∃ l', cellStep s l = some l' := by
  obtain ⟨ch, hc⟩ := fetchNext_connected h l
  have ha : ∃ att, fetchAttr s ch.line = some att := by
    unfold fetchAttr
    split
    · exact fetchNext_connected h _
    · exact ⟨_, rfl⟩
  obtain ⟨att, ha⟩ := ha
  exact ⟨paintCell s ch att, by simp [cellStep, hc, ha]⟩

/-! Rounds of the loop. -/

/-- One round paints `n` positions at the beam, takes them from the counters, and may record one
cell: everything a round can do (`46_pixel_generation.md` R352). -/
structure Round (s : State) (p : Nat) (l l' : Line) (n : Nat) (px : List Byte) : Prop where
  size : px.length = n
  colour : px.all isColour = true
  buf : l'.buf = splice l.buf l.beamPos px
  beam : l'.beamPos = l.beamPos + n
  /-- The round takes its positions from one counter, or fills with zero up to `p`. -/
  counts : (l.beamPos < p → 0 < n) ∧
    (l'.lbRem + l'.aaRem + l'.rbRem + n = l.lbRem + l.aaRem + l.rbRem ∨
      (l.lbRem + l.aaRem + l.rbRem = 0 ∧ l'.lbRem + l'.aaRem + l'.rbRem = 0 ∧
        l.beamPos + n = max p l.beamPos))
  writes : l'.writes = l.writes
  nlpr : l'.nlpr = l.nlpr
  lpf : l'.lpf = l.lpf
  cells : l'.cells = l.cells ∨ ∃ c, l'.cells = c :: l.cells ∧ c.pos + c.width = l'.beamPos

theorem paintStep_round {s : State} {p : Nat} {l l' : Line} (h : paintStep s p l = some l') :
    ∃ n px, Round s p l l' n px := by
  unfold paintStep at h
  have hb : ∀ n, (List.replicate n (borderByte s)).all isColour = true := by
    intro n
    rw [List.all_eq_true]
    intro x hx
    rw [(List.mem_replicate.1 hx).2]
    exact borderByte_colour s
  split at h
  · rename_i h0
    cases h
    refine ⟨_, _, ⟨List.length_replicate .., hb _, rfl, rfl, ⟨?_, .inl ?_⟩, rfl, rfl, rfl,
          .inl rfl⟩⟩
    · omega
    · simp only [paintRun]; omega
  · split at h
    · rename_i h0 h1
      obtain ⟨ch, att, c, hp, hw, e⟩ := cellStep_spec h
      have hwd := cellWidth_pos s.mode.r
      refine ⟨min (cellWidth s.mode.r) l.aaRem,
        (cellPixels s.cfg (cellCtx s) ch att).take (min (cellWidth s.mode.r) l.aaRem), ?_⟩
      constructor
      · rw [List.length_take, cellPixels_length]
        simp only [cellCtx]
        omega
      · have := cellPixels_colour s.cfg (cellCtx s) ch att
        rw [List.all_eq_true] at this ⊢
        exact fun x hx => this x (List.mem_of_mem_take hx)
      · rw [e]
      · rw [e]
      · refine ⟨fun _ => by omega, .inl ?_⟩
        rw [e]
        simp only
        omega
      · rw [e]
      · rw [e]
      · rw [e]
      · refine .inr ⟨c, by rw [e], ?_⟩
        rw [hp, hw, e]
    · split at h
      · rename_i h0 h1 h2
        cases h
        refine ⟨_, _, ⟨List.length_replicate .., hb _, rfl, rfl, ⟨?_, .inl ?_⟩, rfl, rfl, rfl,
          .inl rfl⟩⟩
        · omega
        · simp only [paintRun]; omega
      · rename_i h0 h1 h2
        cases h
        refine ⟨_, _, ⟨List.length_replicate .., ?_, rfl, rfl, ⟨?_, .inr ⟨?_, ?_, ?_⟩⟩, rfl, rfl,
          rfl, .inl rfl⟩⟩
        · rw [List.all_eq_true]
          intro x hx
          rw [(List.mem_replicate.1 hx).2]
          decide
        · omega
        · omega
        · simp only [paintRun]; omega
        · omega

theorem paintStep_connected {s : State} (h : s.cfg.vfetchConnected = true) (p : Nat) (l : Line) :
    ∃ l', paintStep s p l = some l' := by
  unfold paintStep
  split
  · exact ⟨_, rfl⟩
  · split
    · exact cellStep_connected h l
    · split <;> exact ⟨_, rfl⟩

/-! The loop. -/

theorem paintLoop_done {s : State} {p : Nat} (k : Nat) {l : Line} (h : p ≤ l.beamPos) :
    paintLoop s p k l = some l := by
  cases k with
  | zero => rfl
  | succ k => rw [paintLoop, if_neg (by omega)]

/-- The loop with enough fuel and the port connected answers. -/
theorem paintLoop_connected {s : State} (h : s.cfg.vfetchConnected = true) (p k : Nat) (l : Line) :
    ∃ l', paintLoop s p k l = some l' := by
  induction k generalizing l with
  | zero => exact ⟨l, rfl⟩
  | succ k ih =>
    rw [paintLoop]
    split
    · obtain ⟨l', hl⟩ := paintStep_connected h p l
      rw [hl]
      exact ih l'
    · exact ⟨l, rfl⟩

/-- An induction over the rounds of the loop: a property that every round keeps holds at the end. -/
theorem paintLoop_induct {s : State} {p : Nat} {P : Line → Prop}
    (step : ∀ l l', l.beamPos < p → P l → paintStep s p l = some l' → P l')
    {k : Nat} {l l' : Line} (h : paintLoop s p k l = some l') (hl : P l) : P l' := by
  induction k generalizing l with
  | zero => cases h; exact hl
  | succ k ih =>
    rw [paintLoop] at h
    split at h
    · rename_i hb
      split at h
      · cases h
      · rename_i l1 h1
        exact ih h (step l l1 hb hl h1)
    · cases h; exact hl

/-- With fuel for the positions that are left, the loop reaches the position asked for. -/
theorem paintLoop_reaches {s : State} {p k : Nat} {l l' : Line} (hk : p ≤ l.beamPos + k)
    (h : paintLoop s p k l = some l') : p ≤ l'.beamPos := by
  induction k generalizing l with
  | zero => cases h; omega
  | succ k ih =>
    rw [paintLoop] at h
    split at h
    · rename_i hb
      split at h
      · cases h
      · rename_i l1 h1
        obtain ⟨n, px, r⟩ := paintStep_round h1
        refine ih ?_ h
        have := r.counts.1 hb
        rw [r.beam]
        omega
    · cases h; omega

/-- The positions below the beam are never painted again (`46_pixel_generation.md` R352). -/
theorem paintLoop_prefix {s : State} {p k : Nat} {l l' : Line}
    (h : paintLoop s p k l = some l') (hb : l.beamPos ≤ l.buf.length) :
    l.beamPos ≤ l'.beamPos ∧ l'.beamPos ≤ l'.buf.length ∧
      l'.buf.take l.beamPos = l.buf.take l.beamPos := by
  refine paintLoop_induct (P := fun m => l.beamPos ≤ m.beamPos ∧ m.beamPos ≤ m.buf.length ∧
    m.buf.take l.beamPos = l.buf.take l.beamPos) ?_ h ⟨Nat.le_refl _, hb, rfl⟩
  intro m m' _ hm h1
  obtain ⟨n, px, r⟩ := paintStep_round h1
  refine ⟨by rw [r.beam]; omega, ?_, ?_⟩
  · have := splice_length_ge m.buf px m.beamPos hm.2.1
    rw [r.beam, r.buf]
    have := r.size
    omega
  · rw [r.buf, splice_take hm.2.1 hm.1, hm.2.2]

theorem paintLoop_writes {s : State} {p k : Nat} {l l' : Line}
    (h : paintLoop s p k l = some l') : l'.writes = l.writes ∧ l'.nlpr = l.nlpr ∧ l'.lpf = l.lpf := by
  refine paintLoop_induct (P := fun m => m.writes = l.writes ∧ m.nlpr = l.nlpr ∧ m.lpf = l.lpf) ?_ h
    ⟨rfl, rfl, rfl⟩
  intro m m' _ hm h1
  obtain ⟨n, px, r⟩ := paintStep_round h1
  rw [r.writes, r.nlpr, r.lpf]
  exact hm

/-! `RenderTo` and `Flush`. -/

theorem afterPaint_eq (l : Line) (s : State) :
    afterPaint l s = crossings (l.fetchK - s.line.fetchK) (setLine l s) := rfl

/-- Painting nothing fetches nothing. -/
theorem afterPaint_self (s : State) : afterPaint s.line s = s := by
  simp [afterPaint, setLine]

/-- What `RenderTo(p)` does when it answers (`46_pixel_generation.md` R352). -/
theorem renderToPos_spec {p : Nat} {s t : State} (h : renderToPos p s = .next t) :
    ∃ l, t = afterPaint l s ∧ PaintedTo (min p s.cfg.nVis) s l := by
  unfold renderToPos withLine at h
  split at h
  · rename_i l hl
    cases h
    refine ⟨l, rfl, paintLoop_reaches (by omega) hl, fun hp => ?_, fun hb =>
      (paintLoop_prefix hl hb).2.2, paintLoop_writes hl⟩
    rw [paintLoop_done _ hp] at hl
    exact (Option.some.inj hl).symm
  · cases h

/-- With the port connected `RenderTo` answers (`46_pixel_generation.md` R354). -/
theorem renderToPos_connected {s : State} (h : s.cfg.vfetchConnected = true) (p : Nat) :
    ∃ l, renderToPos p s = .next (afterPaint l s) ∧ PaintedTo (min p s.cfg.nVis) s l := by
  obtain ⟨l, hl⟩ := paintLoop_connected h (min p s.cfg.nVis) (min p s.cfg.nVis - s.line.beamPos)
    s.line
  have e : renderToPos p s = .next (afterPaint l s) := by simp [renderToPos, withLine, hl]
  obtain ⟨l', e', hp⟩ := renderToPos_spec e
  have : l' = l := by
    have := congrArg State.line e'
    simpa using this.symm
  exact ⟨l, e, this ▸ hp⟩

theorem beamTarget_le (s : State) : beamTarget s ≤ s.cfg.nVis := Nat.min_le_right _ _

/-- What a flush does when it answers (`46_pixel_generation.md` R350). -/
theorem flushLine_spec {s t : State} (h : flushLine s = .next t) :
    ∃ l, t = afterPaint l s ∧ Flushed s l := by
  unfold flushLine at h
  split at h
  · rename_i h0
    obtain ⟨l, e, hp⟩ := renderToPos_spec h
    rw [Nat.min_eq_left (beamTarget_le s)] at hp
    exact ⟨l, e, fun _ => hp, fun k => absurd h0 k⟩
  · rename_i h0
    cases h
    exact ⟨s.line, (afterPaint_self s).symm, fun k => absurd k h0, fun _ => rfl⟩

/-- With the port connected a flush answers (`46_pixel_generation.md` R350, R354). -/
theorem flushLine_connected {s : State} (h : s.cfg.vfetchConnected = true) :
    ∃ l, flushLine s = .next (afterPaint l s) ∧ Flushed s l := by
  have e : ∃ t, flushLine s = .next t := by
    unfold flushLine
    split
    · obtain ⟨l, e, _⟩ := renderToPos_connected h (beamTarget s)
      exact ⟨_, e⟩
    · exact ⟨s, rfl⟩
  obtain ⟨t, e⟩ := e
  obtain ⟨l, rfl, hf⟩ := flushLine_spec e
  exact ⟨l, e, hf⟩

/-- The only fault of a painter is `NoVideoFetch`. -/
theorem renderToPos_fault {p : Nat} {s : State} {e : Fault} (h : renderToPos p s = .fault e) :
    e = .noVideoFetch ∧ s.cfg.vfetchConnected = false := by
  by_cases hc : s.cfg.vfetchConnected = true
  · obtain ⟨l, hl, _⟩ := renderToPos_connected hc p
    rw [hl] at h; cases h
  · unfold renderToPos withLine at h
    split at h
    · cases h
    · cases h; exact ⟨rfl, by simpa using hc⟩

end Sys2Proof.Machine
end

