-- ==== Sys2Proof/Laws/Raster.lean ====
section
/-! SUPPORT. What the event handlers and `advance_to` do: what they may change, when they answer,
and that `advance_to` ends (`40_scheduler.md` R176, `44_raster.md` R295 to R306, `45_timer.md`
R336). -/

namespace Sys2Proof.Machine

/-! The frame of the handlers. -/

theorem EventFrame.refl (s : State) : EventFrame s s := rfl

theorem EventFrame.trans {s t u : State} (h : EventFrame s t) (k : EventFrame t u) :
    EventFrame s u := by
  unfold EventFrame at *
  rw [k, h]

theorem EventFrame.cfg {s t : State} (h : EventFrame s t) : t.cfg = s.cfg := by rw [h]
theorem EventFrame.fields {s t : State} (h : EventFrame s t) : t.fields = s.fields := by rw [h]
theorem EventFrame.mode {s t : State} (h : EventFrame s t) : t.mode = s.mode := by rw [h]
theorem EventFrame.ram {s t : State} (h : EventFrame s t) : t.ram = s.ram := by rw [h]

theorem updateLevels_frame (s : State) : EventFrame s (updateLevels s) := rfl
theorem latchSources_frame (m : IrqMask) (s : State) : EventFrame s (latchSources m s) := rfl
theorem raiseIrq_frame (m : IrqMask) (s : State) : EventFrame s (raiseIrq m s) :=
  (latchSources_frame m s).trans (updateLevels_frame _)
theorem setHs_frame (l : Bool) (s : State) : EventFrame s (setHs l s) := rfl
theorem setFs_frame (l : Bool) (s : State) : EventFrame s (setFs l s) := rfl
theorem scheduleEvent_frame (ev : EventId) (n : Nat) (s : State) :
    EventFrame s (scheduleEvent ev n s) := rfl
theorem cancelEvent_frame (ev : EventId) (s : State) : EventFrame s (cancelEvent ev s) := rfl
theorem countTimer_frame (b : Bool) (n : Nat) (s : State) : EventFrame s (countTimer b n s) := rfl
theorem toggleBlink_frame (s : State) : EventFrame s (toggleBlink s) := rfl
theorem reloadTimer_frame (s : State) : EventFrame s (reloadTimer s) := rfl
theorem emit_frame (n : Notice) (s : State) : EventFrame s (emit n s) := rfl
theorem setLine_frame (l : Line) (s : State) : EventFrame s (setLine l s) := rfl
theorem crossings_frame (n : Nat) (s : State) : EventFrame s (crossings n s) := rfl
theorem afterPaint_frame (l : Line) (s : State) : EventFrame s (afterPaint l s) := rfl
theorem announceRow_frame (s : State) : EventFrame s (announceRow s) := rfl
theorem startLine_frame (a b c d : Nat) (s : State) : EventFrame s (startLine a b c d s) := rfl
theorem countLine_frame (n : Nat) (s : State) : EventFrame s (countLine n s) := rfl
theorem fieldVars_frame (s : State) : EventFrame s (fieldVars s) := rfl
theorem enterState_frame (v : VState) (s : State) : EventFrame s (enterState v s) := rfl
theorem setRow_frame (r : BitVec 4) (s : State) : EventFrame s (setRow r s) := rfl
theorem nextRow_frame (s : State) : EventFrame s (nextRow s) := rfl
theorem storeRow_frame (o : List Rgb) (s : State) : EventFrame s (storeRow o s) := rfl
theorem skipRow_frame (s : State) : EventFrame s (skipRow s) := rfl
theorem takeEntry_frame (e : QEntry) (q : List QEntry) (s : State) :
    EventFrame s (takeEntry e q s) := rfl
theorem setNow_frame (n : Nat) (s : State) : EventFrame s (setNow n s) := rfl

theorem expireTimer_frame (s : State) : EventFrame s (expireTimer s) :=
  ((toggleBlink_frame s).trans (raiseIrq_frame irqTimer _)).trans (reloadTimer_frame _)

theorem clockTimer_frame (s : State) : EventFrame s (clockTimer s) := by
  unfold clockTimer expireAtZero
  split_ifs
  · exact (countTimer_frame _ _ s).trans (expireTimer_frame _)
  · exact countTimer_frame _ _ s
  · rfl

theorem onTimer_frame (n : Nat) (s : State) : EventFrame s (onTimer n s) := by
  unfold onTimer rearmTimer
  split_ifs
  · exact (expireTimer_frame s).trans (scheduleEvent_frame _ _ _)
  · exact expireTimer_frame s
  · rfl

/-- The `LPF` of the VBORD comparison is one of the two that the rules name, by the parameter
(assumption 42). -/
theorem borderLpf_eq (s : State) :
    borderLpf s = if s.cfg.lpfPerLine then s.line.lpf else s.fields.lpf := by
  unfold borderLpf
  split_ifs with h <;> simp [h]

theorem vbordPulse_frame (s : State) : EventFrame s (vbordPulse s) := by
  unfold vbordPulse
  split
  · exact raiseIrq_frame _ s
  · rfl

theorem slowClock_frame (s : State) : EventFrame s (slowClock s) := by
  unfold slowClock
  split
  · rfl
  · exact clockTimer_frame s

theorem onHBord_frame (s : State) : EventFrame s (onHBord s) :=
  ((raiseIrq_frame _ s).trans (vbordPulse_frame _)).trans (slowClock_frame _)

theorem advanceRow_frame (s : State) : EventFrame s (advanceRow s) := by
  unfold advanceRow
  split_ifs
  · exact nextRow_frame s
  · exact setRow_frame _ s
  · rfl

theorem stepVertical_frame (s : State) : EventFrame s (stepVertical s) := by
  unfold stepVertical
  split_ifs
  · exact (setFs_frame _ s).trans (fieldVars_frame _)
  · rfl
  · exact (enterState_frame _ s).trans (setFs_frame _ _)
  · exact enterState_frame _ s
  · exact (enterState_frame _ s).trans (setRow_frame _ _)
  · exact enterState_frame _ s
  · rfl

theorem startCounters_frame (s : State) : EventFrame s (startCounters s) := by
  unfold startCounters
  split <;> exact startLine_frame _ _ _ _ s

theorem beginLine_frame (n : Nat) (s : State) : EventFrame s (beginLine n s) :=
  (setHs_frame _ s).trans (countLine_frame n _)

theorem scheduleRaster_frame (n : Nat) (s : State) : EventFrame s (scheduleRaster n s) :=
  ((scheduleEvent_frame _ _ s).trans (scheduleEvent_frame _ _ _)).trans (scheduleEvent_frame _ _ _)

theorem nextLine_frame (n : Nat) (s : State) : EventFrame s (nextLine n s) :=
  ((((advanceRow_frame s).trans (beginLine_frame n _)).trans
    (stepVertical_frame _)).trans (startCounters_frame _)).trans (scheduleRaster_frame n _)

theorem voRow_frame {sel : BurstSel} {n : Nat} {buf : List Byte} {s t : State}
    (h : voRow sel n buf s = .next t) : EventFrame s t := by
  unfold voRow at h
  split at h
  · split at h
    · cases h; exact storeRow_frame _ s
    · cases h
  · cases h; exact skipRow_frame s

theorem deliverRow_frame {s t : State} (h : deliverRow s = .next t) : EventFrame s t := by
  unfold deliverRow at h
  split_ifs at h
  · cases h; rfl
  · exact (announceRow_frame s).trans (voRow_frame h)
  · cases h; exact announceRow_frame s

theorem completeLine_frame {s t : State} (h : completeLine s = .next t) : EventFrame s t := by
  unfold completeLine at h
  split at h
  · obtain ⟨u, hu, ht⟩ := andThen_eq_next h
    obtain ⟨l, rfl, _⟩ := renderToPos_spec hu
    exact (afterPaint_frame l s).trans (deliverRow_frame ht)
  · cases h; rfl

theorem onHsFall_frame {n : Nat} {s t : State} (h : onHsFall n s = .next t) : EventFrame s t := by
  obtain ⟨u, hu, ht⟩ := andThen_eq_next h
  cases ht
  exact (completeLine_frame hu).trans (nextLine_frame n u)

/-- What a fired event may change. -/
theorem fire_frame {ev : EventId} {n : Nat} {s t : State} (h : fire ev n s = .next t) :
    EventFrame s t := by
  cases ev with
  | hsFall => exact onHsFall_frame h
  | hsRise => cases h; rfl
  | hBord => cases h; exact onHBord_frame s
  | timer => cases h; exact onTimer_frame n s

/-! Time stands still inside a handler. -/

@[simp] theorem expireTimer_now (s : State) : (expireTimer s).now = s.now := by
  simp [expireTimer]

@[simp] theorem clockTimer_now (s : State) : (clockTimer s).now = s.now := by
  unfold clockTimer expireAtZero; split_ifs <;> simp

@[simp] theorem onTimer_now (n : Nat) (s : State) : (onTimer n s).now = s.now := by
  unfold onTimer rearmTimer; split_ifs <;> simp

@[simp] theorem onHBord_now (s : State) : (onHBord s).now = s.now := by
  unfold onHBord slowClock vbordPulse; split_ifs <;> simp

@[simp] theorem advanceRow_now (s : State) : (advanceRow s).now = s.now := by
  unfold advanceRow; split_ifs <;> simp

@[simp] theorem stepVertical_now (s : State) : (stepVertical s).now = s.now := by
  unfold stepVertical; split_ifs <;> simp [startField]

@[simp] theorem startCounters_now (s : State) : (startCounters s).now = s.now := by
  unfold startCounters; split <;> simp

@[simp] theorem nextLine_now (n : Nat) (s : State) : (nextLine n s).now = s.now := by
  simp [nextLine, scheduleRaster, beginLine]

theorem voRow_now {sel : BurstSel} {n : Nat} {buf : List Byte} {s t : State}
    (h : voRow sel n buf s = .next t) : t.now = s.now := by
  unfold voRow at h
  split at h
  · split at h
    · cases h; rfl
    · cases h
  · cases h; rfl

theorem deliverRow_now {s t : State} (h : deliverRow s = .next t) : t.now = s.now := by
  unfold deliverRow at h
  split_ifs at h
  · cases h; rfl
  · rw [voRow_now h]; rfl
  · cases h; rfl

theorem completeLine_now {s t : State} (h : completeLine s = .next t) : t.now = s.now := by
  unfold completeLine at h
  split at h
  · obtain ⟨u, hu, ht⟩ := andThen_eq_next h
    obtain ⟨l, rfl, _⟩ := renderToPos_spec hu
    rw [deliverRow_now ht, afterPaint_now]
  · cases h; rfl
theorem onHsFall_now {n : Nat} {s t : State} (h : onHsFall n s = .next t) : t.now = s.now := by
  obtain ⟨u, hu, ht⟩ := andThen_eq_next h
  cases ht
  rw [nextLine_now, completeLine_now hu]

/-- No handler moves time (`40_scheduler.md` R176). -/
theorem fire_now {ev : EventId} {n : Nat} {s t : State} (h : fire ev n s = .next t) :
    t.now = s.now := by
  cases ev with
  | hsFall => exact onHsFall_now h
  | hsRise => cases h; rfl
  | hBord => cases h; exact onHBord_now s
  | timer => cases h; exact onTimer_now n s

/-! The queue after a handler. -/

/-- The fuel looks at the queue and the callbacks to come. -/
theorem advanceFuel_congr {s t : State} (target : Nat) (hq : t.queue = s.queue)
    (hc : t.callbacks = s.callbacks) : advanceFuel target t = advanceFuel target s := by
  rw [advanceFuel, hq, hc, advanceFuel]

theorem voRow_fuel {sel : BurstSel} {n : Nat} {buf : List Byte} {s t : State} (target : Nat)
    (h : voRow sel n buf s = .next t) : advanceFuel target t = advanceFuel target s := by
  unfold voRow at h
  split at h
  · split at h
    · cases h; exact advanceFuel_congr target rfl rfl
    · cases h
  · cases h; exact advanceFuel_congr target rfl rfl

theorem announceRow_fuel (target : Nat) (s : State) :
    advanceFuel target (announceRow s) ≤ advanceFuel target s :=
  weight_crossings target 1 _

theorem afterPaint_fuel (target : Nat) (l : Line) (s : State) :
    advanceFuel target (afterPaint l s) ≤ advanceFuel target s :=
  weight_crossings target _ (setLine l s)

/-- Completing a line makes nothing more due, whatever its callbacks schedule. -/
theorem completeLine_fuel {s t : State} (target : Nat) (h : completeLine s = .next t) :
    advanceFuel target t ≤ advanceFuel target s := by
  unfold completeLine at h
  split at h
  · obtain ⟨u, hu, ht⟩ := andThen_eq_next h
    obtain ⟨l, rfl, _⟩ := renderToPos_spec hu
    refine Nat.le_trans ?_ (afterPaint_fuel target l s)
    unfold deliverRow at ht
    split_ifs at ht
    · cases ht; exact Nat.le_refl _
    · rw [voRow_fuel target ht]; exact announceRow_fuel target _
    · cases ht; exact announceRow_fuel target _
  · cases h; exact Nat.le_refl _

@[simp] theorem expireTimer_queue (s : State) : (expireTimer s).queue = s.queue := by
  simp [expireTimer]

@[simp] theorem expireTimer_callbacks (s : State) : (expireTimer s).callbacks = s.callbacks := by
  simp [expireTimer]

@[simp] theorem clockTimer_queue (s : State) : (clockTimer s).queue = s.queue := by
  unfold clockTimer expireAtZero; split_ifs <;> simp

@[simp] theorem clockTimer_callbacks (s : State) : (clockTimer s).callbacks = s.callbacks := by
  unfold clockTimer expireAtZero; split_ifs <;> simp

@[simp] theorem onHBord_queue (s : State) : (onHBord s).queue = s.queue := by
  unfold onHBord slowClock vbordPulse; split_ifs <;> simp

@[simp] theorem onHBord_callbacks (s : State) : (onHBord s).callbacks = s.callbacks := by
  unfold onHBord slowClock vbordPulse; split_ifs <;> simp

@[simp] theorem advanceRow_queue (s : State) : (advanceRow s).queue = s.queue := by
  unfold advanceRow; split_ifs <;> simp

@[simp] theorem advanceRow_callbacks (s : State) : (advanceRow s).callbacks = s.callbacks := by
  unfold advanceRow; split_ifs <;> simp

@[simp] theorem stepVertical_queue (s : State) : (stepVertical s).queue = s.queue := by
  unfold stepVertical; split_ifs <;> simp [startField]

@[simp] theorem stepVertical_callbacks (s : State) : (stepVertical s).callbacks = s.callbacks := by
  unfold stepVertical; split_ifs <;> simp [startField]

@[simp] theorem startCounters_queue (s : State) : (startCounters s).queue = s.queue := by
  unfold startCounters; split <;> simp

@[simp] theorem startCounters_callbacks (s : State) : (startCounters s).callbacks = s.callbacks := by
  unfold startCounters; split <;> simp

/-- The next line is the three entries of the line scheduled over the queue as it was
(`44_raster.md` R301). -/
theorem nextLine_scheduled (n : Nat) (s : State) :
    ∃ u : State, u.queue = s.queue ∧ u.callbacks = s.callbacks ∧ u.cfg = s.cfg ∧
      u.mode = s.mode ∧ nextLine n s = scheduleRaster n u := by
  have hf := ((advanceRow_frame s).trans (beginLine_frame n _)).trans
    ((stepVertical_frame _).trans (startCounters_frame _))
  exact ⟨startCounters (stepVertical (beginLine n (advanceRow s))), by simp [beginLine],
    by simp [beginLine], hf.cfg, hf.mode, rfl⟩

/-- A reloaded timer that runs has a count (`45_timer.md` R334). -/
theorem expireTimer_running {s : State} (h : (expireTimer s).timerRunning = true) :
    0 < (expireTimer s).timerCounter := by
  have h0 : s.fields.timerReload ≠ 0 := by
    intro e
    simp [expireTimer, e] at h
  have h1 : s.fields.timerReload.toNat ≠ 0 := fun e => h0 (BitVec.eq_of_toNat_eq (by simpa using e))
  simp only [expireTimer, reloadTimer_timerCounter, raiseIrq_fields, toggleBlink_fields, if_neg h0,
    reloadCount]
  omega

/-! `advance_to` ends. -/

theorem timedOk_iff (c : Params) :
    timedOk c = true ↔ 0 < c.tSl ∧ 0 < c.ticksPerPixel ∧ 0 < c.timerFastPeriod := by
  simp [timedOk, and_assoc]

/-- A fired event leaves less to fire than it took (`40_scheduler.md` R176 corner case (4)). -/
theorem fire_weight {e : QEntry} {target : Nat} {s t : State} (hc : timedOk s.cfg = true)
    (he : e.tick ≤ target) (h : fire e.ev e.tick s = .next t) :
    advanceFuel target t + 1 ≤ e.weight target + advanceFuel target s := by
  obtain ⟨h1, h2, h3⟩ := (timedOk_iff _).1 hc
  unfold QEntry.weight
  cases hev : e.ev with
  | hsFall =>
    rw [hev] at h
    obtain ⟨u, hu, ht⟩ := andThen_eq_next h
    cases ht
    obtain ⟨v, hq, hcb, hcf, _, hv⟩ := nextLine_scheduled e.tick u
    rw [hv]
    have hcfg : v.cfg = s.cfg := hcf.trans (completeLine_frame hu).cfg
    have hfu := completeLine_fuel target hu
    rw [← advanceFuel_congr target hq hcb] at hfu
    unfold scheduleRaster
    rw [hcfg]
    simp only
    refine Nat.le_trans (Nat.add_le_add_right (weight_schedule target _ _ _) 1) ?_
    have w2 := weight_schedule target .hBord
      (e.tick + perWidth s.cfg.pHbord v.mode.wide * s.cfg.ticksPerPixel)
      (scheduleEvent .hsRise (e.tick + s.cfg.tWhs * s.cfg.ticksPerPixel) v)
    have w3 := weight_schedule target .hsRise (e.tick + s.cfg.tWhs * s.cfg.ticksPerPixel) v
    have hp : 1 ≤ s.cfg.tSl * s.cfg.ticksPerPixel := Nat.mul_pos h1 h2
    simp only [QEntry.weight] at *
    split_ifs at * <;> omega
  | hsRise =>
    rw [hev] at h
    cases h
    rw [show advanceFuel target (onHsRise s) = advanceFuel target s from
      advanceFuel_congr target rfl rfl]
    simp only [if_pos he]
    omega
  | hBord =>
    rw [hev] at h
    cases h
    rw [advanceFuel_congr target (onHBord_queue s) (onHBord_callbacks s)]
    simp only [if_pos he]
    omega
  | timer =>
    rw [hev] at h
    cases h
    unfold onTimer rearmTimer
    split_ifs with hr hp
    · have hpos := expireTimer_running hp
      rw [(expireTimer_frame s).cfg]
      refine Nat.le_trans (Nat.add_le_add_right (weight_schedule target _ _ _) 1) ?_
      rw [advanceFuel_congr target (expireTimer_queue s) (expireTimer_callbacks s)]
      have hm : 1 ≤ (expireTimer s).timerCounter * s.cfg.timerFastPeriod := Nat.mul_pos hpos h3
      simp only [QEntry.weight]
      omega
    · rw [advanceFuel_congr target (expireTimer_queue s) (expireTimer_callbacks s)]
      simp only
      omega
    · simp only
      omega

theorem weight_pos {e : QEntry} {target : Nat} (h : e.tick ≤ target) : 0 < e.weight target := by
  unfold QEntry.weight
  cases e.ev <;> simp only
  · omega
  · simp [h]
  · simp [h]
  · omega

/-- The head of the queue weighs in the fuel. -/
theorem advanceFuel_take {s : State} {e : QEntry} {q : List QEntry} (target : Nat)
    (hq : s.queue = e :: q) :
    advanceFuel target s = e.weight target + advanceFuel target (takeEntry e q s) := by
  simp only [advanceFuel, hq, takeEntry_queue, takeEntry_callbacks, queueFuel, List.map_cons,
    List.sum_cons, Nat.add_assoc]

theorem nothingDue_nil {s : State} {t : Nat} (h : s.queue = []) : nothingDue s t = true := by
  simp [nothingDue, h]

/-- One round of `advance_to` (`40_scheduler.md` R176): the loop ends where nothing is due, else it
takes the head and fires it. -/
theorem advanceLoop_quiet {target : Nat} (k : Nat) {s : State} (h : nothingDue s target = true) :
    advanceLoop target k s = .next (setNow target s) := by
  unfold nothingDue at h
  cases k <;> rw [advanceLoop]
  all_goals
    split
    · rfl
    · rename_i e q hq
      rw [hq] at h
      simp only [decide_eq_true_eq] at h
      rw [if_pos h]

theorem advanceLoop_due {target : Nat} (k : Nat) {s : State} {e : QEntry} {q : List QEntry}
    (hq : s.queue = e :: q) (he : e.tick ≤ target) :
    advanceLoop target (k + 1) s =
      andThen (fire e.ev e.tick (takeEntry e q s)) (advanceLoop target k) := by
  rw [advanceLoop, hq]
  simp only
  rw [if_neg (by omega)]

/-- With the periods positive and the fuel enough, the loop never gets stuck. -/
theorem advanceLoop_not_stuck {target k : Nat} {s : State} (hc : timedOk s.cfg = true)
    (hk : advanceFuel target s ≤ k) :
    advanceLoop target k s ≠ .fault .schedulerStuck := by
  induction k generalizing s with
  | zero =>
    rw [advanceLoop]
    split
    · simp
    · rename_i e q hq
      split
      · simp
      · rename_i he
        have := weight_pos (target := target) (e := e) (by omega)
        rw [advanceFuel_take target hq] at hk
        omega
  | succ k ih =>
    by_cases hd : nothingDue s target = true
    · rw [advanceLoop_quiet _ hd]; simp
    · unfold nothingDue at hd
      split at hd
      · simp at hd
      · rename_i e q hq
        have he : e.tick ≤ target := by simpa using hd
        rw [advanceLoop_due k hq he]
        intro hs
        rcases andThen_eq_fault hs with hf | ⟨u, hu, hf⟩
        · cases hev : e.ev with
          | hsFall =>
            rw [hev] at hf
            rcases andThen_eq_fault hf with h1 | ⟨u, _, h1⟩
            · unfold completeLine at h1
              split at h1
              · rcases andThen_eq_fault h1 with h2 | ⟨v, _, h2⟩
                · exact absurd (renderToPos_fault h2).1 (by simp)
                · unfold deliverRow voRow at h2
                  split_ifs at h2
                  · split at h2 <;> cases h2
              · cases h1
            · cases h1
          | hsRise => rw [hev] at hf; cases hf
          | hBord => rw [hev] at hf; cases hf
          | timer => rw [hev] at hf; cases hf
        · refine ih (s := u) ?_ ?_ hf
          · rw [(fire_frame hu).cfg]; exact hc
          · have hw := fire_weight (s := takeEntry e q s) (t := u) hc he hu
            rw [advanceFuel_take target hq] at hk
            omega

/-! What `advance_to` does when it answers. -/

theorem advanceLoop_spec {target k : Nat} {s t : State} (h : advanceLoop target k s = .next t) :
    EventFrame s t ∧ t.now = target ∧ nothingDue t target = true := by
  induction k generalizing s with
  | zero =>
    by_cases hd : nothingDue s target = true
    · rw [advanceLoop_quiet _ hd] at h
      cases h
      exact ⟨rfl, rfl, hd⟩
    · unfold nothingDue at hd
      rw [advanceLoop] at h
      split at h
      · simp [*] at hd
      · rename_i e q hq
        rw [hq] at hd
        simp only [decide_eq_true_eq] at hd
        rw [if_neg hd] at h
        cases h
  | succ k ih =>
    by_cases hd : nothingDue s target = true
    · rw [advanceLoop_quiet _ hd] at h
      cases h
      exact ⟨rfl, rfl, hd⟩
    · unfold nothingDue at hd
      split at hd
      · simp at hd
      · rename_i e q hq
        rw [advanceLoop_due k hq (by simpa using hd)] at h
        obtain ⟨u, hu, ht⟩ := andThen_eq_next h
        obtain ⟨h1, h2, h3⟩ := ih ht
        exact ⟨((show EventFrame s (takeEntry e q s) from rfl).trans (fire_frame hu)).trans h1,
          h2, h3⟩

/-- What `advance_to` does when it answers (`40_scheduler.md` R176). -/
theorem advance_spec {target : Nat} {s t : State} (h : advance target s = .next t) :
    s.now ≤ target ∧ EventFrame s t ∧ t.now = target ∧ nothingDue t target = true := by
  unfold advance at h
  split at h
  · cases h
  · rename_i hn
    exact ⟨by omega, advanceLoop_spec h⟩

/-- With nothing due `advance_to` only moves time. -/
theorem advance_quiet {target : Nat} {s : State} (hn : s.now ≤ target)
    (h : nothingDue s target = true) : advance target s = .next (setNow target s) := by
  rw [advance, if_neg (by omega), advanceLoop_quiet _ h]

/-- An induction over `advance_to`: a property that taking an entry, firing it and moving time keep
holds at the end. -/
theorem advanceLoop_induct {target : Nat} {P : State → Prop}
    (take : ∀ s e q, s.queue = e :: q → P s → P (takeEntry e q s))
    (fires : ∀ ev n s t, P s → fire ev n s = .next t → P t)
    (time : ∀ s n, P s → P (setNow n s))
    {k : Nat} {s t : State} (h : advanceLoop target k s = .next t) (hs : P s) : P t := by
  induction k generalizing s with
  | zero =>
    rw [advanceLoop] at h
    split at h
    · cases h; exact time _ _ hs
    · split at h
      · cases h; exact time _ _ hs
      · cases h
  | succ k ih =>
    by_cases hd : nothingDue s target = true
    · rw [advanceLoop_quiet _ hd] at h
      cases h; exact time _ _ hs
    · unfold nothingDue at hd
      split at hd
      · simp at hd
      · rename_i e q hq
        rw [advanceLoop_due k hq (by simpa using hd)] at h
        obtain ⟨u, hu, ht⟩ := andThen_eq_next h
        exact ih ht (fires _ _ _ _ (take _ _ _ hq hs) hu)

theorem advance_induct {target : Nat} {P : State → Prop}
    (take : ∀ s e q, s.queue = e :: q → P s → P (takeEntry e q s))
    (fires : ∀ ev n s t, P s → fire ev n s = .next t → P t)
    (time : ∀ s n, P s → P (setNow n s))
    {s t : State} (h : advance target s = .next t) (hs : P s) : P t := by
  unfold advance at h
  split at h
  · cases h
  · exact advanceLoop_induct take fires time h hs

/-! When handlers and `advance_to` answer. -/

/-- With the fetch port connected and the renderer not, no handler faults. -/
theorem fire_answers {s : State} (hv : s.cfg.vfetchConnected = true)
    (ho : s.cfg.voConnected = false) (ev : EventId) (n : Nat) : ∃ t, fire ev n s = .next t := by
  cases ev with
  | hsFall =>
    have hc : ∃ u, completeLine s = .next u := by
      unfold completeLine
      split
      · obtain ⟨l, hl, _⟩ := renderToPos_connected hv s.cfg.nVis
        rw [hl]
        simp only [andThen_next, deliverRow]
        split
        · exact ⟨_, rfl⟩
        · rw [show (afterPaint l s).cfg.voConnected = false from ho]
          exact ⟨_, rfl⟩
      · exact ⟨s, rfl⟩
    obtain ⟨u, hu⟩ := hc
    exact ⟨nextLine n u, by simp [fire, onHsFall, hu]⟩
  | hsRise => exact ⟨_, rfl⟩
  | hBord => exact ⟨_, rfl⟩
  | timer => exact ⟨_, rfl⟩

theorem advanceLoop_answers {target k : Nat} {s : State} (hc : timedOk s.cfg = true)
    (hv : s.cfg.vfetchConnected = true) (ho : s.cfg.voConnected = false)
    (hk : advanceFuel target s ≤ k) : ∃ t, advanceLoop target k s = .next t := by
  induction k generalizing s with
  | zero =>
    have hs := advanceLoop_not_stuck hc hk
    rw [advanceLoop] at hs ⊢
    split at hs
    · exact ⟨_, rfl⟩
    · split at hs
      · rename_i h; exact ⟨_, if_pos h⟩
      · simp at hs
  | succ k ih =>
    by_cases hd : nothingDue s target = true
    · exact ⟨_, advanceLoop_quiet _ hd⟩
    · unfold nothingDue at hd
      split at hd
      · simp at hd
      · rename_i e q hq
        have he : e.tick ≤ target := by simpa using hd
        obtain ⟨u, hu⟩ := fire_answers (s := takeEntry e q s) hv ho e.ev e.tick
        have hf := (fire_frame hu).cfg
        simp only [takeEntry_cfg] at hf
        have hw := fire_weight (s := takeEntry e q s) hc he hu
        rw [advanceFuel_take target hq] at hk
        obtain ⟨t, ht⟩ := ih (s := u) (by rw [hf]; exact hc) (by rw [hf]; exact hv)
          (by rw [hf]; exact ho)
          (by omega)
        exact ⟨t, by rw [advanceLoop_due k hq he, hu, andThen_next, ht]⟩

/-- With the periods positive, the fetch port connected and the renderer not, `advance_to` answers
for every target that is not in the past (`40_scheduler.md` R176, `60_exceptions.md` R451). -/
theorem advance_answers {target : Nat} {s : State} (hc : timedOk s.cfg = true)
    (hv : s.cfg.vfetchConnected = true) (ho : s.cfg.voConnected = false) (hn : s.now ≤ target) :
    ∃ t, advance target s = .next t := by
  rw [advance, if_neg (by omega)]
  exact advanceLoop_answers hc hv ho (Nat.le_refl _)

end Sys2Proof.Machine
end

