-- ==== Sys2Proof/Laws/Bus.lean ====
section
/-! SUPPORT. What a bus cycle does (`41_bus_decode.md` R195): its first half with and without events
due, the data transfer, the decoder's answers by window, and the flushed writes. -/

namespace Sys2Proof.Machine

/-! The first half. -/

/-- With no event due the first half of a cycle only notifies and moves time. -/
theorem cycleAdvance_quiet {s : State} (rnw : Bool) (a : Addr) (h : quietCycle s = true) :
    cycleAdvance rnw a s = .next (afterCycle rnw a s) := by
  unfold cycleAdvance
  rw [advance_quiet (by simp [announceCycle])
    (by simpa [quietCycle, nothingDue, announceCycle] using h)]
  rfl

/-- A cycle with no event due is its data transfer and its effect at the end of the cycle. -/
theorem busCycle_quiet {s : State} (rnw : Bool) (a : Addr) (d : Byte) (f : State → Res)
    (h : quietCycle s = true) :
    busCycle rnw a d f s = f (platformTransfer rnw d (busDecode s a) (afterCycle rnw a s)) := by
  rw [busCycle, cycleAdvance_quiet rnw a h, andThen_next]

/-- What a cycle does when it answers. -/
theorem busCycle_spec {rnw : Bool} {a : Addr} {d : Byte} {f : State → Res} {s t : State}
    (h : busCycle rnw a d f s = .next t) :
    ∃ u, EventFrame s u ∧ u.now = s.now + cycleTicks s ∧ nothingDue u u.now = true ∧
      f (platformTransfer rnw d (busDecode s a) u) = .next t := by
  obtain ⟨u, hu, ht⟩ := andThen_eq_next h
  obtain ⟨_, hf, hn, hd⟩ := advance_spec hu
  exact ⟨u, (show EventFrame s (announceCycle rnw a s) from rfl).trans hf, hn, hn ▸ hd, ht⟩

/-- With the periods positive, the fetch port connected and the renderer not, a cycle answers
whenever its effect does (`60_exceptions.md` R451). -/
theorem busCycle_answers {rnw : Bool} {a : Addr} {d : Byte} {f : State → Res} {s : State}
    (hc : timedOk s.cfg = true) (hv : s.cfg.vfetchConnected = true) (ho : s.cfg.voConnected = false)
    (hf : ∀ u : State, u.cfg = s.cfg → ∃ t, f u = .next t) : ∃ t, busCycle rnw a d f s = .next t := by
  obtain ⟨u, hu⟩ := advance_answers (s := announceCycle rnw a s)
    (target := s.now + cycleTicks s) hc hv ho (by simp [announceCycle])
  have hcf : u.cfg = s.cfg := (advance_spec hu).2.1.cfg
  have hp : (platformTransfer rnw d (busDecode s a) u).cfg = s.cfg := by
    unfold platformTransfer
    split
    · split <;> simp [hcf]
    · split_ifs <;> simp [hcf]
  obtain ⟨t, ht⟩ := hf _ hp
  exact ⟨t, by rw [busCycle, cycleAdvance, hu, andThen_next, ht]⟩

/-! The data transfer. -/

/-- A write that no painted cell shows leaves the painted line as it is. -/
theorem lateWrite_unshown (c : Params) (z : Nat) (d : Byte) (ps : List PaintedCell)
    (acc : List Byte × Nat) (h : ∀ p ∈ ps, p.shows z = false) :
    lateWrite c z d ps acc = (ps, acc) := by
  induction ps with
  | nil => rfl
  | cons p ps ih =>
    rw [lateWrite, h p (List.mem_cons_self ..)]
    simp only [Bool.false_eq_true, if_false]
    rw [ih fun q hq => h q (List.mem_cons_of_mem _ hq)]

/-- What a RAM write does. -/
theorem ramWrite_spec {s : State} (z : Nat) (d : Byte) (h : Memory.wf s.ram = true) :
    RamWritten z d s (ramWrite z d s) := by
  refine ⟨memRead_memWrite_self z d h, fun y hy => memRead_memWrite_other s.ram d hy, rfl, rfl,
    fun hp => ?_⟩
  simp [ramWrite, lineAfterWrite, lateWrite_unshown s.cfg z d _ _ hp]

/-! The decoder by window (`41_bus_decode.md` R190). -/

theorem busDecode_ramLo {s : State} {a : Addr} (h : windowOf s.cfg.win a = .ramLo) :
    busDecode s a = selRam (translate s a) := by
  rw [busDecode, h]
  rfl

theorem busDecode_upper {s : State} {a : Addr} (h : windowOf s.cfg.win a = .upper) :
    busDecode s a = upperSelect s a := by
  rw [busDecode, h]

theorem busDecode_fexx {s : State} {a : Addr} (h : windowOf s.cfg.win a = .fexx) :
    busDecode s a =
      if s.fields.mc3 then selRam (directAddr s.cfg a) else upperSelect s a := by
  rw [busDecode, h]

theorem busDecode_io {s : State} {a : Addr} (h : windowOf s.cfg.win a = .io) :
    busDecode s a = selOther .io := by
  rw [busDecode, h]

/-- The windows of registers, banks, palette and SAM decode to the block itself. -/
theorem busDecode_internal {s : State} {a : Addr} {w : Window} (h : windowOf s.cfg.win a = w)
    (hw : w = .reg ∨ w = .mmu ∨ w = .pal ∨ w = .sam) : busDecode s a = selOther .internal := by
  rw [busDecode, h]
  rcases hw with rfl | rfl | rfl | rfl <;> rfl

theorem busDecode_vec {s : State} {a : Addr} (h : windowOf s.cfg.win a = .vec) :
    busDecode s a = selOther .romInt := by
  rw [busDecode, h]

/-- A cycle that the block answers itself moves no data outside it. -/
theorem platformTransfer_internal (rnw : Bool) (d : Byte) (s : State) :
    platformTransfer rnw d (selOther .internal) s = s := rfl

/-! Flushed writes. -/

/-- With the fetch port connected a register write flushes the line, then writes
(`42_registers.md` R238). -/
theorem writeReg_connected {s : State} (h : s.cfg.vfetchConnected = true) (n : BitVec 4) (d : Byte) :
    ∃ l, flushLine s = .next (afterPaint l s) ∧ Flushed s l ∧
      writeReg n d s = .next (writeRegNow n d (afterPaint l s)) := by
  obtain ⟨l, hl, hf⟩ := flushLine_connected h
  exact ⟨l, hl, hf, by rw [writeReg, hl, andThen_next]⟩

theorem writePal_connected {s : State} (h : s.cfg.vfetchConnected = true) (i : BitVec 4) (d : Byte) :
    ∃ l, flushLine s = .next (afterPaint l s) ∧ Flushed s l ∧
      writePal i d s = .next (storePal i d (afterPaint l s)) := by
  obtain ⟨l, hl, hf⟩ := flushLine_connected h
  exact ⟨l, hl, hf, by rw [writePal, hl, andThen_next]⟩

theorem writeSam_connected {s : State} (h : s.cfg.vfetchConnected = true) (b : BitVec 4) (v : Bool) :
    ∃ l, flushLine s = .next (afterPaint l s) ∧ Flushed s l ∧
      writeSam b v s = .next (storeSam b v (afterPaint l s)) := by
  obtain ⟨l, hl, hf⟩ := flushLine_connected h
  exact ⟨l, hl, hf, by rw [writeSam, hl, andThen_next]⟩

theorem writeSnoop_connected {s : State} (h : s.cfg.vfetchConnected = true) (i : Nat)
    (d : Byte) :
    ∃ l, flushLine s = .next (afterPaint l s) ∧ Flushed s l ∧
      writeSnoop i d s = .next (storeSnoop i d (afterPaint l s)) := by
  obtain ⟨l, hl, hf⟩ := flushLine_connected h
  exact ⟨l, hl, hf, by rw [writeSnoop, hl, andThen_next]⟩

/-! The windows by address. -/

/-- A cycle outside the internal windows has no internal effect, but for a snooped write
(`41_bus_decode.md` R195 step 6, R206). -/
theorem windowEffect_plain {rnw : Bool} {a : Addr} {d : Byte} {s : State} {w : Window}
    (hw : windowOf s.cfg.win a = w) (hs : snoopedWrite s.cfg.win rnw a = false)
    (h : w = .ramLo ∨ w = .upper ∨ w = .fexx ∨ w = .io ∨ w = .vec) :
    windowEffect rnw a d s = .next s := by
  rw [windowEffect, hw]
  rcases h with rfl | rfl | rfl | rfl | rfl <;> simp [hs]

/-- Under the default map the windows lie where `20_memory.md` R88 puts them. -/
theorem windowOf_default (a : Addr) :
    windowOf defaultWindows a =
      if a < 0x8000 then .ramLo else if a < 0xFE00 then .upper else if a < 0xFF00 then .fexx
      else if a < 0xFF90 then .io else if a < 0xFFA0 then .reg else if a < 0xFFB0 then .mmu
      else if a < 0xFFC0 then .pal else if a < 0xFFE0 then .sam else .vec := by
  simp only [windowOf, defaultWindows, BitVec.lt_def]
  rfl

end Sys2Proof.Machine
end

