-- ==== Sys2Proof/Laws/Signal.lean ====
section
/-! SUPPORT. The reals of the signal path (`47_composite.md` R392): what the operations on sums of
tones compute, and that every comparison which ends without the free value of assumption 4 is the
comparison of the real numbers. -/

namespace Sys2Proof.Machine

/-! Sums of tones under any reading of the angles. -/

/-- The value of a list of tones when an angle reads as `f`. -/
def evalTones {R : Type} [Field R] (f : Rat → R) (l : List Tone) : R :=
  (l.map fun t => (t.coef : R) * f t.angle).sum

variable {R : Type} [Field R] [CharZero R] (f : Rat → R)

omit [CharZero R] in
@[simp] theorem evalTones_nil : evalTones f [] = 0 := rfl

omit [CharZero R] in
@[simp] theorem evalTones_cons (t : Tone) (l : List Tone) :
    evalTones f (t :: l) = (t.coef : R) * f t.angle + evalTones f l := by
  simp [evalTones]

omit [CharZero R] in
@[simp] theorem evalTones_append (l m : List Tone) :
    evalTones f (l ++ m) = evalTones f l + evalTones f m := by
  simp [evalTones]

omit [CharZero R] in
@[simp] theorem evalTones_consTone (t : Tone) (l : List Tone) :
    evalTones f (consTone t l) = (t.coef : R) * f t.angle + evalTones f l := by
  unfold consTone
  split
  · rename_i h; simp [h]
  · simp

@[simp] theorem evalTones_insertTone (t : Tone) (l : List Tone) :
    evalTones f (insertTone t l) = (t.coef : R) * f t.angle + evalTones f l := by
  induction l with
  | nil => simp [insertTone]
  | cons u l ih =>
    rw [insertTone]
    split
    · simp
    · split
      · rename_i h; simp [h]; ring
      · simp [ih]; ring

/-- Adding tones one by one adds their sum. -/
theorem evalTones_foldr (l m : List Tone) :
    evalTones f (l.foldr insertTone m) = evalTones f l + evalTones f m := by
  induction l with
  | nil => simp
  | cons t l ih => simp [ih]; ring

@[simp] theorem evalTones_mergeTones (l : List Tone) :
    evalTones f (mergeTones l) = evalTones f l := by
  simp [mergeTones, evalTones_foldr]

/-! The cosine. -/

theorem tonesReal_eq (l : List Tone) :
    tonesReal l = evalTones (fun d => Real.cos (radians d)) l := rfl

theorem radians_add (d e : Rat) : radians (d + e) = radians d + radians e := by
  simp [radians]; ring

theorem radians_sub (d e : Rat) : radians (d - e) = radians d - radians e := by
  simp [radians]; ring

theorem radians_neg (d : Rat) : radians (-d) = -radians d := by
  simp [radians]; ring

theorem radians_turns (n : ℤ) : radians (360 * (n : Rat)) = n * (2 * Real.pi) := by
  simp [radians]; ring

/-- Whole turns leave the cosine. -/
theorem cos_reduceAngle (d : Rat) :
    Real.cos (radians (reduceAngle d)) = Real.cos (radians d) := by
  rw [reduceAngle, radians_sub, radians_turns, Real.cos_sub_int_mul_two_pi]

/-- Folding into `[0, 90]` keeps the tone. -/
theorem foldAngle_real (e c : Rat) :
    ((foldAngle e c).coef : ℝ) * Real.cos (radians (foldAngle e c).angle) =
      c * Real.cos (radians e) := by
  have h180 : radians 180 = Real.pi := by simp [radians]
  have h360 : radians 360 = 2 * Real.pi := by simp [radians]; ring
  unfold foldAngle
  split_ifs
  · rfl
  · simp [radians_sub, h180, Real.cos_pi_sub]
  · simp [radians_sub, h180, Real.cos_sub_pi]
  · simp [radians_sub, h360, Real.cos_two_pi_sub]

theorem simplify_real (t : Tone) :
    (t.simplify.coef : ℝ) * Real.cos (radians t.simplify.angle) =
      t.coef * Real.cos (radians t.angle) := by
  have h90 : radians 90 = Real.pi / 2 := by simp [radians]; ring
  have h60 : radians 60 = Real.pi / 3 := by simp [radians]; ring
  have h0 : radians 0 = 0 := by simp [radians]
  unfold Tone.simplify
  split_ifs with h h'
  · simp [h, h90]
  · simp [h', h60, h0]; ring
  · rfl

/-- The one form of a tone is that tone. -/
theorem toneOf_real (d c : Rat) :
    ((toneOf d c).coef : ℝ) * Real.cos (radians (toneOf d c).angle) =
      c * Real.cos (radians d) := by
  rw [toneOf, simplify_real, foldAngle_real, cos_reduceAngle]

/-! The operations. -/

@[simp] theorem zero_real : Amp.zero.real = 0 := rfl

@[simp] theorem ofRat_real (q : Rat) : (Amp.ofRat q).real = q := by
  simp [Amp.ofRat, Amp.real, tonesReal_eq, radians]

@[simp] theorem add_real (a b : Amp) : (a.add b).real = a.real + b.real := by
  simp [Amp.add, Amp.real, tonesReal_eq, evalTones_foldr]

@[simp] theorem scale_real (q : Rat) (a : Amp) : (a.scale q).real = q * a.real := by
  unfold Amp.scale Amp.real tonesReal
  split_ifs with h
  · simp [h]
  · simp only [List.map_map]
    induction a.tones with
    | nil => simp
    | cons t l ih => simp [ih]; ring

@[simp] theorem neg_real (a : Amp) : a.neg.real = -a.real := by simp [Amp.neg]

@[simp] theorem sum_real (l : List Amp) : (Amp.sum l).real = (l.map Amp.real).sum := by
  unfold Amp.sum
  induction l with
  | nil => rfl
  | cons a l ih => simp [ih]

@[simp] theorem cosDeg_real (d : Rat) : (cosDeg d).real = Real.cos (radians d) := by
  simp [cosDeg, Amp.real, tonesReal_eq, toneOf_real]

@[simp] theorem sinDeg_real (d : Rat) : (sinDeg d).real = Real.sin (radians d) := by
  have h90 : radians 90 = Real.pi / 2 := by simp [radians]; ring
  rw [sinDeg, cosDeg_real, radians_sub, h90, Real.cos_sub_pi_div_two]

/-- The product of two tones (`47_composite.md` R392, the angle-sum formulas). -/
theorem toneProduct_real (t u : Tone) :
    tonesReal (toneProduct t u) =
      (t.coef * Real.cos (radians t.angle)) * (u.coef * Real.cos (radians u.angle)) := by
  simp only [tonesReal_eq, toneProduct, evalTones_cons, evalTones_nil, toneOf_real, radians_add,
    radians_sub, Real.cos_add, Real.cos_sub]
  push_cast
  ring

@[simp] theorem mul_real (a b : Amp) : (a.mul b).real = a.real * b.real := by
  have h1 : ∀ (t : Tone) (l : List Tone),
      tonesReal (l.flatMap fun u => toneProduct t u) =
        (t.coef * Real.cos (radians t.angle)) * tonesReal l := by
    intro t l
    induction l with
    | nil => simp [tonesReal]
    | cons u l ih =>
      rw [List.flatMap_cons, tonesReal_eq, evalTones_append, ← tonesReal_eq, ← tonesReal_eq, ih,
        toneProduct_real, tonesReal_eq (u :: l), evalTones_cons, ← tonesReal_eq]
      ring
  have h2 : ∀ l : List Tone,
      tonesReal (l.flatMap fun t => b.tones.flatMap fun u => toneProduct t u) =
        tonesReal l * tonesReal b.tones := by
    intro l
    induction l with
    | nil => simp [tonesReal]
    | cons t l ih =>
      rw [List.flatMap_cons, tonesReal_eq, evalTones_append, ← tonesReal_eq, ← tonesReal_eq, ih,
        h1, tonesReal_eq (t :: l), evalTones_cons, ← tonesReal_eq]
      ring
  rw [Amp.mul, Amp.real, tonesReal_eq, evalTones_mergeTones, ← tonesReal_eq, h2]
  rfl

/-! Enclosures. -/

theorem rootBelow_le (n : Nat) : (rootBelow n : ℝ) ≤ Real.sqrt n := by
  apply Real.le_sqrt_of_sq_le
  unfold rootBelow
  split
  · rename_i h
    rw [pow_two]
    exact_mod_cast h
  · simp

theorem le_rootAbove (n : Nat) : Real.sqrt n ≤ rootAbove n := by
  apply Real.sqrt_le_iff.2
  refine ⟨by positivity, ?_⟩
  unfold rootAbove
  split
  · rename_i h
    rw [pow_two]
    exact_mod_cast h
  · rw [pow_two]
    have h : n ≤ n * n := by nlinarith [Nat.zero_le n]
    exact_mod_cast h

/-- The half-angle formula on scaled bounds. -/
theorem halfCos_bounds {p : Nat} {lo hi : ℤ} {x : ℝ} (hx : 0 ≤ Real.cos (x / 2))
    (hl : (lo : ℝ) ≤ 2 ^ p * Real.cos x) (hh : 2 ^ p * Real.cos x ≤ hi) :
    (rootBelow ((2 ^ p + lo).toNat * 2 ^ p / 2) : ℝ) ≤ 2 ^ p * Real.cos (x / 2) ∧
      2 ^ p * Real.cos (x / 2) ≤ rootAbove (((2 ^ p + hi).toNat * 2 ^ p + 1) / 2) := by
  have hp : (0 : ℝ) < 2 ^ p := by positivity
  have hc : -1 ≤ Real.cos x := Real.neg_one_le_cos x
  have e : (2 : ℝ) ^ p * Real.cos (x / 2) =
      Real.sqrt ((2 ^ p + 2 ^ p * Real.cos x) * 2 ^ p / 2) := by
    symm
    have hs : ((2 : ℝ) ^ p + 2 ^ p * Real.cos x) * 2 ^ p / 2 = (2 ^ p * Real.cos (x / 2)) ^ 2 := by
      have := Real.cos_sq (x / 2)
      rw [show 2 * (x / 2) = x by ring] at this
      rw [mul_pow, this]
      ring
    rw [hs, Real.sqrt_sq (by positivity)]
  rw [e]
  constructor
  · refine (rootBelow_le _).trans (Real.sqrt_le_sqrt ?_)
    have h1 : (((2 ^ p + lo).toNat * 2 ^ p / 2 : ℕ) : ℝ) ≤
        ((2 ^ p + lo).toNat : ℝ) * 2 ^ p / 2 := by
      refine (Nat.cast_div_le).trans ?_
      push_cast
      exact le_refl _
    refine h1.trans ?_
    have h2 : ((2 ^ p + lo).toNat : ℝ) ≤ 2 ^ p + 2 ^ p * Real.cos x := by
      rcases le_total 0 ((2 : ℤ) ^ p + lo) with h | h
      · have h3 : (((2 ^ p + lo).toNat : ℤ) : ℝ) = ((2 ^ p + lo : ℤ) : ℝ) := by
          rw [Int.toNat_of_nonneg h]
        rw [Int.cast_natCast] at h3
        rw [h3]
        push_cast
        linarith
      · rw [Int.toNat_of_nonpos h]
        simp only [Nat.cast_zero]
        nlinarith
    have : ((2 ^ p + lo).toNat : ℝ) * 2 ^ p ≤ (2 ^ p + 2 ^ p * Real.cos x) * 2 ^ p :=
      mul_le_mul_of_nonneg_right h2 hp.le
    linarith
  · refine le_trans (Real.sqrt_le_sqrt ?_) (le_rootAbove _)
    have h2 : (2 : ℝ) ^ p + 2 ^ p * Real.cos x ≤ ((2 ^ p + hi).toNat : ℝ) := by
      have h3 : ((2 ^ p + hi : ℤ) : ℝ) ≤ (((2 ^ p + hi).toNat : ℤ) : ℝ) := by
        exact_mod_cast Int.self_le_toNat _
      rw [Int.cast_natCast] at h3
      push_cast at h3
      linarith
    have h4 : (2 ^ p + 2 ^ p * Real.cos x) * 2 ^ p ≤ ((2 ^ p + hi).toNat : ℝ) * 2 ^ p :=
      mul_le_mul_of_nonneg_right h2 hp.le
    have h5 : (2 ^ p + hi).toNat * 2 ^ p ≤ 2 * (((2 ^ p + hi).toNat * 2 ^ p + 1) / 2) := by omega
    have h6 : ((2 ^ p + hi).toNat : ℝ) * 2 ^ p ≤
        2 * ((((2 ^ p + hi).toNat * 2 ^ p + 1) / 2 : ℕ) : ℝ) := by exact_mod_cast h5
    linarith

/-- The integers of `dyadicCos` enclose the scaled cosine. -/
theorem dyadicCos_bounds (p k : Nat) {m : Nat} (hm : m ≤ 2 ^ k) :
    ((dyadicCos p k m).1 : ℝ) ≤ 2 ^ p * Real.cos (m * (Real.pi / 2) / 2 ^ k) ∧
      2 ^ p * Real.cos (m * (Real.pi / 2) / 2 ^ k) ≤ (dyadicCos p k m).2 := by
  induction k generalizing m with
  | zero =>
    have h : m = 0 ∨ m = 1 := by simp at hm; omega
    rcases h with rfl | rfl <;> simp [dyadicCos]
  | succ k ih =>
    have hpi := Real.pi_pos
    have e : (m : ℝ) * (Real.pi / 2) / 2 ^ (k + 1) = (m * (Real.pi / 2) / 2 ^ k) / 2 := by
      rw [pow_succ]; field_simp
    have hle : (m : ℝ) ≤ 2 ^ (k + 1) := by exact_mod_cast hm
    have hx : 0 ≤ Real.cos ((m * (Real.pi / 2) / 2 ^ k) / 2) := by
      rw [← e]
      apply Real.cos_nonneg_of_neg_pi_div_two_le_of_le
      · have : 0 ≤ (m : ℝ) * (Real.pi / 2) / 2 ^ (k + 1) := by positivity
        linarith
      · rw [div_le_iff₀ (by positivity)]
        nlinarith
    rw [e, dyadicCos]
    simp only
    split
    · rename_i h
      exact halfCos_bounds hx (ih h).1 (ih h).2
    · rename_i h
      have h' : 2 ^ (k + 1) - m ≤ 2 ^ k := by rw [pow_succ] at *; omega
      have hc : Real.cos ((2 ^ (k + 1) - m : ℕ) * (Real.pi / 2) / 2 ^ k) =
          -Real.cos (m * (Real.pi / 2) / 2 ^ k) := by
        rw [← Real.cos_pi_sub, Nat.cast_sub hm]
        congr 1
        push_cast
        rw [pow_succ]
        field_simp
      have := ih h'
      rw [hc] at this
      refine halfCos_bounds hx ?_ ?_
      · push_cast; linarith [this.2]
      · push_cast; linarith [this.1]

theorem gridSpan_bounds {p k m : Nat} {x : ℝ} (hm : m + 1 ≤ 2 ^ k)
    (h1 : m * (Real.pi / 2) / 2 ^ k ≤ x) (h2 : x ≤ (m + 1 : ℕ) * (Real.pi / 2) / 2 ^ k) :
    ((gridSpan p k m).lo : ℝ) ≤ Real.cos x ∧ Real.cos x ≤ (gridSpan p k m).hi := by
  have hpi := Real.pi_pos
  have hm' : ((m + 1 : ℕ) : ℝ) ≤ 2 ^ k := by exact_mod_cast hm
  have h3 : ((m + 1 : ℕ) : ℝ) * (Real.pi / 2) / 2 ^ k ≤ Real.pi := by
    rw [div_le_iff₀ (by positivity)]
    nlinarith
  have h0 : 0 ≤ (m : ℝ) * (Real.pi / 2) / 2 ^ k := by positivity
  have c1 := Real.cos_le_cos_of_nonneg_of_le_pi (h0.trans h1) h3 h2
  have c2 := Real.cos_le_cos_of_nonneg_of_le_pi h0 (h2.trans h3) h1
  have b1 := (dyadicCos_bounds p k hm).1
  have b2 := (dyadicCos_bounds p k (m := m) (by omega)).2
  have hp : (0 : ℝ) < 2 ^ p := by positivity
  simp only [gridSpan]
  push_cast
  constructor
  · rw [div_le_iff₀ hp]; nlinarith
  · rw [le_div_iff₀ hp]; nlinarith

/-- The bounds of a cosine hold for every angle. -/
theorem cosSpan_bounds (k : Nat) (d : Rat) :
    ((cosSpan k d).lo : ℝ) ≤ Real.cos (radians d) ∧
      Real.cos (radians d) ≤ (cosSpan k d).hi := by
  unfold cosSpan
  split_ifs with h0 h
  · subst h0; simp [radians]
  · have hpi := Real.pi_pos
    have hq : 0 ≤ d / 90 * 2 ^ k := by
      have := h.1
      positivity
    have hf : (((d / 90 * 2 ^ k).floor.toNat : ℤ)) = (d / 90 * 2 ^ k).floor :=
      Int.toNat_of_nonneg (Rat.le_floor_iff.2 (by simpa using hq))
    have hl : (((d / 90 * 2 ^ k).floor.toNat : ℚ)) ≤ d / 90 * 2 ^ k := by
      have := Rat.le_floor_iff.1 (le_refl (d / 90 * 2 ^ k).floor)
      rw [← hf] at this
      exact_mod_cast this
    have hu : d / 90 * 2 ^ k < ((d / 90 * 2 ^ k).floor.toNat : ℚ) + 1 := by
      by_contra hc
      have h1 : (((d / 90 * 2 ^ k).floor.toNat + 1 : ℤ) : ℚ) ≤ d / 90 * 2 ^ k := by
        push_cast
        linarith
      have h2 := Rat.le_floor_iff.2 h1
      omega
    have hm : (d / 90 * 2 ^ k).floor.toNat + 1 ≤ 2 ^ k := by
      have h1 : ((d / 90 * 2 ^ k).floor.toNat : ℚ) < 2 ^ k := by
        refine hl.trans_lt ?_
        have : d / 90 < 1 := by linarith [h.2]
        have h2 : (0 : ℚ) < 2 ^ k := by positivity
        nlinarith
      have h2 : (d / 90 * 2 ^ k).floor.toNat < 2 ^ k := by exact_mod_cast h1
      omega
    have e : radians d = ((d / 90 * 2 ^ k : ℚ) : ℝ) * (Real.pi / 2) / 2 ^ k := by
      push_cast
      rw [radians]
      field_simp
      ring
    generalize (d / 90 * 2 ^ k).floor.toNat = m at *
    apply gridSpan_bounds hm
    · rw [e]
      have : (m : ℝ) ≤ ((d / 90 * 2 ^ k : ℚ) : ℝ) := by exact_mod_cast hl
      gcongr
    · rw [e]
      have : ((d / 90 * 2 ^ k : ℚ) : ℝ) ≤ ((m + 1 : ℕ) : ℝ) := by exact_mod_cast hu.le
      gcongr
  · simp [Real.neg_one_le_cos, Real.cos_le_one]

theorem span_bounds (k : Nat) (t : Tone) :
    ((t.span k).lo : ℝ) ≤ t.coef * Real.cos (radians t.angle) ∧
      t.coef * Real.cos (radians t.angle) ≤ (t.span k).hi := by
  obtain ⟨h1, h2⟩ := cosSpan_bounds k t.angle
  unfold Tone.span
  simp only
  split
  · rename_i h
    have : (0 : ℝ) ≤ t.coef := by exact_mod_cast h
    push_cast
    constructor <;> nlinarith
  · rename_i h
    have : (t.coef : ℝ) ≤ 0 := by exact_mod_cast (not_le.1 h).le
    push_cast
    constructor <;> nlinarith

/-- The bounds of a sum of tones hold. -/
theorem spanOf_bounds (k : Nat) (l : List Tone) :
    ((spanOf k l).lo : ℝ) ≤ tonesReal l ∧ tonesReal l ≤ (spanOf k l).hi := by
  induction l with
  | nil => simp [spanOf, tonesReal]
  | cons t l ih =>
    obtain ⟨h1, h2⟩ := span_bounds k t
    rw [tonesReal_eq, evalTones_cons, ← tonesReal_eq]
    simp only [spanOf]
    push_cast
    constructor <;> linarith [ih.1, ih.2]

/-! The test for zero. -/

/-- The character that an angle stands for. -/
noncomputable def unitOf (d : Rat) : ℂ := Complex.exp (radians d * Complex.I)

theorem unitOf_add (d e : Rat) : unitOf (d + e) = unitOf d * unitOf e := by
  simp [unitOf, radians_add, add_mul, Complex.exp_add]

theorem unitOf_turns (n : ℤ) : unitOf (360 * (n : Rat)) = 1 := by
  rw [unitOf, radians_turns]
  push_cast
  rw [mul_assoc]
  exact Complex.exp_int_mul_two_pi_mul_I n

theorem unitOf_reduceAngle (d : Rat) : unitOf (reduceAngle d) = unitOf d := by
  have h := unitOf_add (reduceAngle d) (360 * ((d / 360).floor : Rat))
  rw [unitOf_turns, mul_one, reduceAngle, sub_add_cancel] at h
  rw [reduceAngle, ← h]

/-- The sum of characters of a sum of cosines. -/
theorem eval_chars (l : List Tone) : evalTones unitOf (chars l) = (tonesReal l : ℂ) := by
  rw [chars, evalTones_mergeTones]
  induction l with
  | nil => simp [tonesReal]
  | cons t l ih =>
    have hr : tonesReal (t :: l) = t.coef * Real.cos (radians t.angle) + tonesReal l := by
      rw [tonesReal_eq, evalTones_cons, ← tonesReal_eq]
    have h : (Real.cos (radians t.angle) : ℂ) = (unitOf t.angle + unitOf (-t.angle)) / 2 := by
      rw [Complex.ofReal_cos, Complex.cos.eq_1, unitOf, unitOf, radians_neg]
      push_cast
      ring_nf
    rw [List.flatMap_cons, evalTones_append, ih, hr]
    simp only [evalTones_cons, evalTones_nil, unitOf_reduceAngle]
    push_cast at h ⊢
    rw [h]
    ring

/-- Multiplication by `1 - x^(n/q)`. -/
theorem eval_dropRoots (l : List Tone) (q : Nat) :
    evalTones unitOf (dropRoots l q) = evalTones unitOf l * (1 - unitOf (360 / (q : Rat))) := by
  rw [dropRoots, evalTones_foldr]
  have h : evalTones unitOf
      (l.map fun t => ⟨reduceAngle (t.angle + 360 / (q : Rat)), -t.coef⟩) =
      -(evalTones unitOf l * unitOf (360 / (q : Rat))) := by
    induction l with
    | nil => simp
    | cons t l ih =>
      simp only [List.map_cons, evalTones_cons, ih, unitOf_reduceAngle, unitOf_add]
      push_cast
      ring
  rw [h]
  ring

/-- A fraction of a turn is not a turn. -/
theorem unitOf_ne_one {q : Nat} (hq : 2 ≤ q) : unitOf (360 / (q : Rat)) ≠ 1 := by
  have hq0 : (q : ℝ) ≠ 0 := by positivity
  intro h
  rw [unitOf, Complex.exp_eq_one_iff] at h
  obtain ⟨n, hn⟩ := h
  have e : (radians (360 / (q : Rat)) : ℂ) = 2 * Real.pi / q := by
    simp [radians]
    ring
  have hpi : (Real.pi : ℂ) ≠ 0 := by exact_mod_cast Real.pi_ne_zero
  have hqc : (q : ℂ) ≠ 0 := by exact_mod_cast (by omega : q ≠ 0)
  rw [e] at hn
  have h2 : (1 : ℂ) = n * q := by
    have hI := Complex.I_ne_zero
    field_simp at hn
    linear_combination hn
  have h3 : (1 : ℤ) = n * q := by exact_mod_cast h2
  have h4 : (q : ℤ) ∣ 1 := ⟨n, by rw [h3]; ring⟩
  have h5 := Int.le_of_dvd one_pos h4
  omega

theorem factorsFrom_ge {k q n : Nat} (hq : 2 ≤ q) : ∀ r ∈ factorsFrom k q n, 2 ≤ r := by
  induction k generalizing q n with
  | zero =>
    intro r hr
    rw [factorsFrom] at hr
    split at hr
    · cases hr
    · simp only [List.mem_singleton] at hr; omega
  | succ k ih =>
    intro r hr
    rw [factorsFrom] at hr
    split_ifs at hr
    · cases hr
    · rcases List.mem_cons.1 hr with rfl | hr
      · exact hq
      · exact ih (by omega) r hr
    · simp only [List.mem_singleton] at hr; omega
    · exact ih (by omega) r hr

/-- A sum that the test calls 0 is 0. -/
theorem isZeroSum_sound {l : List Tone} (h : isZeroSum l = true) : tonesReal l = 0 := by
  have hz : ∀ (qs : List Nat) (m : List Tone), (∀ q ∈ qs, 2 ≤ q) →
      evalTones unitOf (qs.foldl dropRoots m) = 0 → evalTones unitOf m = 0 := by
    intro qs
    induction qs with
    | nil => intro m _ h; exact h
    | cons q qs ih =>
      intro m hq h
      have h1 := ih (dropRoots m q) (fun r hr => hq r (List.mem_cons_of_mem _ hr)) h
      rw [eval_dropRoots] at h1
      rcases mul_eq_zero.1 h1 with h2 | h2
      · exact h2
      · exact absurd (sub_eq_zero.1 h2).symm (unitOf_ne_one (hq q (List.mem_cons_self ..)))
  have h0 : evalTones unitOf (chars l) = 0 := by
    refine hz (factorsFrom (orderOf l) 2 (orderOf l)) _ (factorsFrom_ge (le_refl 2)) ?_
    rw [List.isEmpty_iff.1 h, evalTones_nil]
  rw [eval_chars] at h0
  exact_mod_cast h0

/-! Comparison. -/

theorem signAt_sound {k : Nat} {l : List Tone} {b : Bool} (h : signAt k l = some b) :
    b = true ↔ 0 ≤ tonesReal l := by
  obtain ⟨h1, h2⟩ := spanOf_bounds k l
  unfold signAt at h
  split_ifs at h with ha hb
  · cases h
    have : (0 : ℝ) ≤ (spanOf k l).lo := by exact_mod_cast ha
    simp only [true_iff]
    linarith
  · cases h
    have : ((spanOf k l).hi : ℝ) < 0 := by exact_mod_cast hb
    simp only [Bool.false_eq_true, false_iff, not_le]
    linarith

theorem searchSign_sound {n k : Nat} {l : List Tone} {b : Bool} (h : searchSign n k l = some b) :
    b = true ↔ 0 ≤ tonesReal l := by
  induction n generalizing k with
  | zero => exact signAt_sound h
  | succ n ih =>
    rw [searchSign] at h
    split at h
    · rename_i c hc
      cases h
      exact signAt_sound hc
    · exact ih h

/-- A decided sign is the sign. -/
theorem nonneg?_sound {l : List Tone} {b : Bool} (h : nonneg? l = some b) :
    b = true ↔ 0 ≤ tonesReal l := by
  unfold nonneg? at h
  split at h
  · rename_i c hc
    cases h
    exact signAt_sound hc
  · split at h
    · rename_i hz
      cases h
      simp [isZeroSum_sound hz]
    · exact searchSign_sound h

/-- A comparison that ends without the free value is the comparison of the reals. -/
theorem atLeast_sound {q : Rat} {a : Amp} (h : a.decided q = true) :
    a.atLeast q = true ↔ (q : ℝ) ≤ a.real := by
  unfold Amp.decided at h
  obtain ⟨b, hb⟩ := Option.isSome_iff_exists.1 h
  have hs := nonneg?_sound hb
  have e : tonesReal (a.add (.ofRat (-q))).tones = a.real - q := by
    have := add_real a (.ofRat (-q))
    rw [ofRat_real] at this
    rw [← Amp.real, this]
    push_cast
    ring
  rw [e] at hs
  simp only [Amp.atLeast, hb, hs, sub_nonneg]

end Sys2Proof.Machine
end

