-- ==== Sys2Proof/Tests/Slice0.lean ====
section
/-! SUPPORT. Tests: the smoke tests of `WellFormed`, words written out from the spec's encodings, the
vectors of `95_test_vectors.md` and the examples of the rules (each expected value is the spec's or
computed by hand from the cited rule), and a witness for every statement with hypotheses. -/

namespace Sys2Proof.Tests

open Sys2Proof Sys2Proof.Machine

/- The tests are many and small: one thread each would exceed the checker's memory. -/
set_option Elab.async false

/-- The default window map. -/
abbrev dm : WindowMap := defaultWindows

/-! Well-formedness: one ill-formed term for each check. -/

theorem test_wf_ramLo_above_window : (Instr.busRamLo true 0x8000 0).wellFormed dm = false := by decide
theorem test_wf_read_with_data : (Instr.busRamLo true 0x7FFF 1).wellFormed dm = false := by decide
theorem test_wf_upper_below_window : (Instr.busUpper true 0x7FFF 0).wellFormed dm = false := by decide
theorem test_wf_upper_above_window : (Instr.busUpper true 0xFE00 0).wellFormed dm = false := by decide
theorem test_wf_upper_read_with_data : (Instr.busUpper true 0x8000 7).wellFormed dm = false := by decide
theorem test_wf_fexx_below_window : (Instr.busFexx false 0xFDFF 0).wellFormed dm = false := by decide
theorem test_wf_fexx_above_window : (Instr.busFexx false 0xFF00 0).wellFormed dm = false := by decide
theorem test_wf_fexx_read_with_data : (Instr.busFexx true 0xFE00 1).wellFormed dm = false := by decide
theorem test_wf_io_below_window : (Instr.busIo true 0xFEFF 0).wellFormed dm = false := by decide
theorem test_wf_io_above_window : (Instr.busIo true 0xFF90 0).wellFormed dm = false := by decide
theorem test_wf_io_snooped_write : (Instr.busIo false 0xFF23 0).wellFormed dm = false := by decide
theorem test_wf_io_read_with_data : (Instr.busIo true 0xFF22 1).wellFormed dm = false := by decide
theorem test_wf_vec_below_window : (Instr.busVec true 0xFFDF 0).wellFormed dm = false := by decide
theorem test_wf_vec_read_with_data : (Instr.busVec true 0xFFFE 1).wellFormed dm = false := by decide
theorem test_wf_pending_is_not_rdx :
    (Instr.regRdX 0xFF92).wellFormed dm = false ∧
    (Instr.regRdX 0xFF93).wellFormed dm = false := by decide
theorem test_wf_snoop_address :
    (Instr.snoopWr 0xFF24 0).wellFormed dm = false ∧
    (Instr.snoopWr 0xFF21 0).wellFormed dm = false := by decide
theorem test_wf_register_addresses :
    [Instr.regWr0 0 0xFF91, .regWr1 0 0xFF90, .regWr2 0 0xFF93, .regWr3 0 0xFF92, .regWr4 0 0xFF95,
      .regWr5 0 0xFFA5, .regWr6 0 0xFF97, .regWr7 0 0xFF96, .regWr8 0 0xFF89, .regWr9 0 0xFF98,
      .regWr10 0 0xFF9B, .regWr11 0 0xFF9A, .regWr12 0 0xFF9D, .regWr13 0 0xFF9C,
      .regWr14 0 0xFF9F, .regWr15 0 0xFF8F, .regRd2 0xFF93, .regRd3 0xFF92,
      .regRdX 0xFFA0].all (fun i => !i.wellFormed dm) = true := by decide
theorem test_wf_window_addresses :
    [Instr.mmuWr 0xFF9F 0, .mmuRd 0xFFB0, .palWr 0xFFAF 0, .palRd 0xFFC0, .samClr 0xFFC1 0,
      .samClr 0xFFE0 0, .samSet 0xFFC0 0, .samSet 0xFFBF 0,
      .samRd 0xFFE0].all (fun i => !i.wellFormed dm) = true := by decide
theorem test_wf_cycle_read_with_data :
    (Instr.memoryCycle true 0xFF92 1).wellFormed dm = false := by decide
theorem test_wf_row_lengths :
    (Instr.renderPalette .normal 2 [0]).wellFormed dm = false ∧
    (Instr.renderArt2 .normal 2 [0]).wellFormed dm = false ∧
    (Instr.renderArt5 .normal 2 [0]).wellFormed dm = false ∧
    (Instr.renderSim .normal 2 [0]).wellFormed dm = false ∧
    (Instr.voRenderRow .normal 2 [0]).wellFormed dm = false := by decide

/-! Words written out from `30_encoding.md` R121 to R125 (`{RnW, A[15:0]}`, the event codes, the call
and identity codes), for every constructor. -/

theorem test_decode_external_cycles :
    decode dm (.bus 0b1_0010_1010_1011_1100#17 0) = .ok (.busRamLo true 0x2ABC 0) ∧
    decode dm (.bus 0b1_1100_0001_0010_0011#17 0) = .ok (.busUpper true 0xC123 0) ∧
    decode dm (.bus 0b0_1111_1110_0001_0000#17 9) = .ok (.busFexx false 0xFE10 9) ∧
    decode dm (.bus 0b1_1111_1111_0010_0010#17 0) = .ok (.busIo true 0xFF22 0) ∧
    decode dm (.bus 0b0_1111_1111_0010_0001#17 1) = .ok (.busIo false 0xFF21 1) ∧
    decode dm (.bus 0b0_1111_1111_0010_0100#17 1) = .ok (.busIo false 0xFF24 1) ∧
    decode dm (.bus 0b1_1111_1111_1111_1110#17 0) = .ok (.busVec true 0xFFFE 0) := by decide

theorem test_decode_snoop :
    decode dm (.bus 0b0_1111_1111_0010_0010#17 0xF8) = .ok (.snoopWr 0xFF22 0xF8) ∧
    decode dm (.bus 0b0_1111_1111_0010_0011#17 0x35) = .ok (.snoopWr 0xFF23 0x35) := by decide

theorem test_decode_register_writes :
    decode dm (.bus 0b0_1111_1111_1001_0000#17 1) = .ok (.regWr0 1 0xFF90) ∧
    decode dm (.bus 0b0_1111_1111_1001_0001#17 2) = .ok (.regWr1 2 0xFF91) ∧
    decode dm (.bus 0b0_1111_1111_1001_0010#17 3) = .ok (.regWr2 3 0xFF92) ∧
    decode dm (.bus 0b0_1111_1111_1001_0011#17 4) = .ok (.regWr3 4 0xFF93) ∧
    decode dm (.bus 0b0_1111_1111_1001_0100#17 5) = .ok (.regWr4 5 0xFF94) ∧
    decode dm (.bus 0b0_1111_1111_1001_0101#17 6) = .ok (.regWr5 6 0xFF95) ∧
    decode dm (.bus 0b0_1111_1111_1001_0110#17 7) = .ok (.regWr6 7 0xFF96) ∧
    decode dm (.bus 0b0_1111_1111_1001_0111#17 8) = .ok (.regWr7 8 0xFF97) ∧
    decode dm (.bus 0b0_1111_1111_1001_1000#17 9) = .ok (.regWr8 9 0xFF98) ∧
    decode dm (.bus 0b0_1111_1111_1001_1001#17 10) = .ok (.regWr9 10 0xFF99) ∧
    decode dm (.bus 0b0_1111_1111_1001_1010#17 11) = .ok (.regWr10 11 0xFF9A) ∧
    decode dm (.bus 0b0_1111_1111_1001_1011#17 12) = .ok (.regWr11 12 0xFF9B) ∧
    decode dm (.bus 0b0_1111_1111_1001_1100#17 13) = .ok (.regWr12 13 0xFF9C) ∧
    decode dm (.bus 0b0_1111_1111_1001_1101#17 14) = .ok (.regWr13 14 0xFF9D) ∧
    decode dm (.bus 0b0_1111_1111_1001_1110#17 15) = .ok (.regWr14 15 0xFF9E) ∧
    decode dm (.bus 0b0_1111_1111_1001_1111#17 16) = .ok (.regWr15 16 0xFF9F) := by decide

theorem test_decode_register_reads :
    decode dm (.bus 0b1_1111_1111_1001_0010#17 0) = .ok (.regRd2 0xFF92) ∧
    decode dm (.bus 0b1_1111_1111_1001_0011#17 0) = .ok (.regRd3 0xFF93) ∧
    decode dm (.bus 0b1_1111_1111_1001_1000#17 0) = .ok (.regRdX 0xFF98) := by decide

theorem test_decode_bank_palette_sam :
    decode dm (.bus 0b0_1111_1111_1010_0011#17 0xFA) = .ok (.mmuWr 0xFFA3 0xFA) ∧
    decode dm (.bus 0b1_1111_1111_1010_0011#17 0) = .ok (.mmuRd 0xFFA3) ∧
    decode dm (.bus 0b0_1111_1111_1011_0101#17 0xC9) = .ok (.palWr 0xFFB5 0xC9) ∧
    decode dm (.bus 0b1_1111_1111_1011_0101#17 0) = .ok (.palRd 0xFFB5) ∧
    decode dm (.bus 0b0_1111_1111_1101_0100#17 0) = .ok (.samClr 0xFFD4 0) ∧
    decode dm (.bus 0b0_1111_1111_1100_0101#17 0) = .ok (.samSet 0xFFC5 0) ∧
    decode dm (.bus 0b1_1111_1111_1101_1110#17 0) = .ok (.samRd 0xFFDE) := by decide

theorem test_decode_events :
    readInternal (.event 0b00 912 0) = .ok (.evHsFall 912 0) ∧
    readInternal (.event 0b01 992 1) = .ok (.evHsRise 992 1) ∧
    readInternal (.event 0b10 1680 2) = .ok (.evHBord 1680 2) ∧
    readInternal (.event 0b11 1088 3) = .ok (.evTimer 1088 3) := by decide

theorem test_decode_calls :
    decode dm (.call 0x00 [.nat 1, .nat 250]) = .ok (.schedule .hsRise 250) ∧
    decode dm (.call 0x01 [.nat 3]) = .ok (.cancel .timer) ∧
    decode dm (.call 0x02 [.nat 8]) = .ok (.advanceTo 8) ∧
    decode dm (.call 0x03 [.nat 0, .nat 0xFF9A, .nat 0x12]) = .ok (.memoryCycle false 0xFF9A 0x12) ∧
    decode dm (.call 0x04 []) = .ok .reset ∧
    decode dm (.call 0x05 [.nat 8, .nat 0x88]) = .ok (.setRegister 8 0x88) ∧
    decode dm (.call 0x06 [.nat 3]) = .ok (.getRegister 3) ∧
    decode dm (.call 0x07 [.nat 8, .nat 0x38]) = .ok (.setMmuBank 8 0x38) := by decide

theorem test_decode_composite_calls :
    decode dm (.call 0x08 [.nat 63, .rat 1, .rat 0, .rat 0]) = .ok (.setPaletteEntry 63 1 0 0) ∧
    decode dm (.call 0x09 [.nat 2, .rat 180]) = .ok (.setBurst 2 180) ∧
    decode dm (.call 0x0A [.rat 90]) = .ok (.setHue 90) := by decide +kernel

theorem test_decode_row_calls :
    decode dm (.call 0x10 [.nat 0, .nat 1, .bytes [63]]) = .ok (.renderPalette .none 1 [63]) ∧
    decode dm (.call 0x11 [.nat 1, .nat 1, .bytes [63]]) = .ok (.renderArt2 .normal 1 [63]) ∧
    decode dm (.call 0x12 [.nat 2, .nat 1, .bytes [63]]) = .ok (.renderArt5 .shifted 1 [63]) ∧
    decode dm (.call 0x13 [.nat 1, .nat 1, .bytes [63]]) = .ok (.renderSim .normal 1 [63]) ∧
    decode dm (.call 0x18 [.nat 1, .nat 1, .bytes [63]]) = .ok (.voRenderRow .normal 1 [63]) := by
  decide

theorem test_decode_procedures :
    readInternal (.proc 0x20 []) = .ok .recompute ∧
    readInternal (.proc 0x21 [.nat 10, .nat 0x12]) = .ok (.regWrite 10 0x12) ∧
    readInternal (.proc 0x22 []) = .ok .flush ∧
    readInternal (.proc 0x23 [.nat 744]) = .ok (.renderTo 744) ∧
    readInternal (.proc 0x24 []) = .ok .cell ∧
    readInternal (.proc 0x25 [.nat 0x10]) = .ok (.raise 0x10) ∧
    readInternal (.proc 0x26 []) = .ok .updateLevels ∧
    readInternal (.proc 0x27 []) = .ok .timerLoad ∧
    readInternal (.proc 0x28 []) = .ok .timerClock ∧
    readInternal (.proc 0x29 []) = .ok .timerExpire ∧
    readInternal (.proc 0x2A []) = .ok .finishLine ∧
    readInternal (.proc 0x2B []) = .ok .rowAdvance ∧
    readInternal (.proc 0x2C []) = .ok .verticalStep ∧
    readInternal (.proc 0x2D []) = .ok .lineCounters ∧
    readInternal (.proc 0x2E [.nat 912]) = .ok (.scheduleLine 912) := by decide

theorem test_decode_refused_by_name :
    decode dm (.call 0x0B []) = .error (.noSuchCode 0x0B) ∧
    decode dm (.call 0x04 [.nat 0]) = .error (.wrongOperands 0x04) ∧
    decode dm (.call 0x10 [.nat 3, .nat 0, .bytes []]) = .error (.wrongOperands 0x10) ∧
    readInternal (.proc 0x25 [.nat 64]) = .error (.wrongOperands 0x25) := by decide

/-- R120: no call and no request from outside names a procedure or an event. -/
theorem test_decode_internal_refused :
    decode dm (.call 0x22 []) = .error (.noSuchCode 0x22) ∧
    decode dm (.proc 0x22 []) = .error .internalOnly ∧
    decode dm (.event 0b00 912 0) = .error .internalOnly ∧
    readInternal (.call 0x04 []) = .error .outsideOnly := by decide

theorem test_table_words :
    decodeTableWord 24 0x0FF22 = some (.snoopWr 0xFF22 0) ∧
    decodeTableWord 24 0x1FF92 = some (.regRd2 0xFF92) ∧
    decodeTableWord 8 0x2E = some (.scheduleLine 0) ∧
    decodeTableWord 8 0x0B = none := by decide

/-- `A_SAM + 2*b + s` (`43_mmu_palette_sam.md` R270, R271). -/
theorem test_sam_addresses : ∀ (b : BitVec 4) (v : BitVec 1),
    samBitOf (0xFFC0 + 2 * b.setWidth 16 + v.setWidth 16) = b ∧
    samValueOf (0xFFC0 + 2 * b.setWidth 16 + v.setWidth 16) = (v == 1) := by decide

/-! Helpers. -/

/-- What a next state holds; nothing for a fault or a refusal. -/
def got {α : Type} (r : Res) (f : State → α) : Option α :=
  match r with
  | .next t => some (f t)
  | .fault _ | .refused _ => none

/-- The fault of an answer. -/
def faultOf : Res → Option Fault
  | .fault e => some e
  | .next _ | .refused _ => none

/-- S0 of `95_test_vectors.md`. -/
def s0 : State := State.reset

/-- S0 with some registers' bytes stored and everything derived recomputed. -/
def withRegs (f : Vector Byte 16 → Vector Byte 16) (s : State) : State :=
  recomputeAll { s with reg := f s.reg }

/-- A small geometry: borders of 2 positions, an active area of 32. -/
def smallParams : Params :=
  { defaultParams with
    nVis := 36, rbHeadroom := 4, pVis := 4, tSl := 50
    lb := ⟨2, 2⟩, aaw := ⟨32, 32⟩, rb := ⟨2, 2⟩ }

/-- The state after reset with the small geometry, in an active line that nothing was painted on. -/
def smallActive : State :=
  { State.resetWith smallParams with
    vstate := .active
    line := { (State.resetWith smallParams).line with
      lbRem := 2, aaRem := 32, vramRem := 32, rbRem := 2 } }

/-! The scheduler (`95_test_vectors.md` 2.1). -/

/-- V1 -/
theorem test_schedule_updates :
    got (exec (.schedule .hsRise 250) { s0 with queue := [⟨100, .hsRise, 4⟩], seqNext := 5 })
      (fun t => (t.queue, t.seqNext)) = some ([⟨250, .hsRise, 5⟩], 6) := by decide

/-- V5 -/
theorem test_schedule_new_stamp :
    got (exec (.schedule .hsRise 10)
        { s0 with queue := [⟨10, .hsRise, 0⟩, ⟨10, .hBord, 1⟩], seqNext := 2 })
      (·.queue) = some [⟨10, .hBord, 1⟩, ⟨10, .hsRise, 2⟩] := by decide

/-- V2 -/
theorem test_cancel :
    got (exec (.cancel .timer) { s0 with queue := [⟨10, .timer, 1⟩, ⟨12, .hsFall, 0⟩] })
      (·.queue) = some [⟨12, .hsFall, 0⟩] := by decide

/-- V3, with sync low and HBORD enabled for IRQ so that both handlers notify. -/
theorem test_advance_order :
    got (exec (.advanceTo 8)
        { withRegs (fun r => (r.set 0 0x20).set 2 0x10) s0 with
          hsLevel := false
          queue := [⟨5, .hsRise, 0⟩, ⟨5, .hBord, 1⟩, ⟨9, .hsFall, 2⟩] })
      (fun t => (t.queue, t.now, t.trace)) =
    some ([⟨9, .hsFall, 2⟩], 8, [(5, .irq true), (5, .hs true)]) := by decide +kernel

/-- V6 -/
theorem test_advance_to_past :
    faultOf (exec (.advanceTo 499) { s0 with now := 500 }) = some .advanceToPast := by decide

/-! Bus cycles (`95_test_vectors.md` 2.2 and P1). -/

/-- V10, V11, V13 to V15, V17, V18, V20a, V20c, V21 to V23: the decoder. -/
theorem test_decode_map :
    busDecode s0 0x7FFF = ⟨.ram, true, some 0x77FFF⟩ ∧
    busDecode { s0 with
        fields := { s0.fields with mmuen := true }, bank := s0.bank.set 1 0x39 } 0x2ABC =
      ⟨.ram, true, some 0x72ABC⟩ ∧
    busDecode { s0 with
        fields := { s0.fields with mmuen := true, tr := true }, bank := s0.bank.set 9 0x3A }
        0x2ABC = ⟨.ram, true, some 0x74ABC⟩ ∧
    busDecode s0 0xBFFF = ⟨.romInt, false, none⟩ ∧ busDecode s0 0xC000 = ⟨.romExt, false, none⟩ ∧
    busDecode { s0 with fields := { s0.fields with mc1 := true } } 0xC000 =
      ⟨.romInt, false, none⟩ ∧
    busDecode { s0 with fields := { s0.fields with mc1 := true, mc0 := true } } 0x8000 =
      ⟨.romExt, false, none⟩ ∧
    busDecode { s0 with
        fields := { s0.fields with mc3 := true, mmuen := true }, bank := s0.bank.set 7 0 } 0xFE10 =
      ⟨.ram, true, some 0x7FE10⟩ ∧
    busDecode { s0 with
        fields := { s0.fields with ty := true, mmuen := true }, bank := s0.bank.set 7 0x3F } 0xFE00 =
      ⟨.ram, true, some 0x7FE00⟩ ∧
    busDecode s0 0xFF8F = ⟨.io, false, none⟩ ∧ busDecode s0 0xFFDF = ⟨.internal, false, none⟩ ∧
    busDecode { s0 with fields := { s0.fields with ty := true } } 0xFFE0 =
      ⟨.romInt, false, none⟩ := by decide +kernel

/-- R88, D5, D6, D9: the windows move with the configuration: a ROM window from 0x4000 with its
midpoint at 0x8000, no 0xFE window, no vectors. -/
theorem test_moved_windows :
    let s := { s0 with cfg := { s0.cfg with
      win := { dm with romLo := 0x4000, fexx := 0xFF00, vec := 0x10000 } } }
    busDecode s 0x3FFF = ⟨.ram, true, some 0x73FFF⟩ ∧
    busDecode s 0x7FFF = ⟨.romInt, false, none⟩ ∧ busDecode s 0x8000 = ⟨.romExt, false, none⟩ ∧
    busDecode { s with fields := { s.fields with mc3 := true } } 0xFE10 =
      ⟨.romExt, false, none⟩ ∧
    busDecode s 0xFFFE = ⟨.internal, false, none⟩ ∧
    decode s.cfg.win (.bus 0b1_1111_1111_1111_1110#17 0) = .ok (.samRd 0xFFFE) := by decide +kernel

/-- R177: the cycle's callback schedules an event that is due within the cycle; the next callback
stays for the next crossing. -/
theorem test_cycle_callback :
    got (exec (.busRamLo true 0x2000 0)
        { withRegs (fun r => (r.set 0 0x20).set 2 0x10) s0 with
          callbacks := [[(.hBord, 5)], [(.timer, 9)]] })
      (fun t => (t.pendingIrq, t.trace.head?, t.callbacks)) =
    some (0x10, some (5, .irq true), [[(.timer, 9)]]) := by decide +kernel

/-- P1 step 7: the byte goes to the translated address, and the cycle is announced. -/
theorem test_ramLo_write :
    got (exec (.busRamLo false 0x2ABC 0x55)
        { s0 with fields := { s0.fields with mmuen := true }, bank := s0.bank.set 1 5 })
      (fun t => (t.now, t.ram, t.trace)) =
    some (16, [(0x0AABC, 0x55)],
      [(0, .cycle false 0x2ABC ⟨.ram, true, some 0x0AABC⟩ 16)]) := by decide +kernel

/-- P1 step 15: a read at the fast rate. -/
theorem test_ramLo_read_fast :
    got (exec (.busRamLo true 0x2000 0)
        { s0 with fields := { s0.fields with r1 := true }, ram := [(0x72000, 0x99)] })
      (fun t => (t.now, t.readData)) = some (8, 0x99) := by decide +kernel

/-- V19: RAM in the upper window. -/
theorem test_upper_ram :
    got (exec (.busUpper true 0xFDFF 0)
        { s0 with fields := { s0.fields with ty := true }, ram := [(0x7FDFF, 0x42)] })
      (·.readData) = some 0x42 := by decide +kernel

/-- P1 step 10: a ROM cycle writes nothing. -/
theorem test_upper_rom_write :
    got (exec (.busUpper false 0xC123 0x55) s0) (fun t => (t.ram, t.now, t.draws)) =
      some ([], 16, 1) := by decide +kernel

/-- V20a -/
theorem test_fexx_untranslated :
    got (exec (.busFexx false 0xFE10 0x77)
        { s0 with
          fields := { s0.fields with mc3 := true, mmuen := true }, bank := s0.bank.set 7 0 })
      (·.ram) = some [(0x7FE10, 0x77)] := by decide +kernel

/-- V20b -/
theorem test_fexx_rom :
    got (exec (.busFexx true 0xFE10 0) s0) (fun t => t.trace) =
      some [(0, .cycle true 0xFE10 ⟨.romExt, false, none⟩ 16)] := by decide +kernel

/-- R199: `RD 0xFF00`. -/
theorem test_io_read :
    got (exec (.busIo true 0xFF00 0) s0) (fun t => (t.trace, t.reg == s0.reg)) =
      some ([(0, .cycle true 0xFF00 ⟨.io, false, none⟩ 16)], true) := by decide +kernel

/-- P1 step 13. -/
theorem test_vec_read :
    got (exec (.busVec true 0xFFFE 0) { s0 with fields := { s0.fields with ty := true } })
      (·.trace) = some [(0, .cycle true 0xFFFE ⟨.romInt, false, none⟩ 16)] := by decide +kernel

/-- R205: `WR 0xFF22, 0xF8`. -/
theorem test_snoop :
    got (exec (.snoopWr 0xFF22 0xF8) s0)
      (fun t => (t.snoop0, t.fields.ag, t.fields.gm, t.fields.css, t.now)) =
    some (0xF8, true, 7, true, 16) := by decide +kernel

/-- R205: the second latch has no effect. -/
theorem test_snoop_second :
    got (exec (.snoopWr 0xFF23 0x35) s0) (fun t => (t.snoop0, t.snoop1, t.fields == s0.fields)) =
      some (0, 0x35, true) := by decide +kernel

/-! The register window (`95_test_vectors.md` 2.3). -/

/-- V31a -/
theorem test_regWr0_level :
    got (exec (.regWr0 0x20 0xFF90) { s0 with pendingIrq := 0x20 })
      (fun t => (t.irqLevel, t.pendingIrq, t.trace.head?)) =
    some (true, 0x20, some (16, .irq true)) := by decide +kernel

/-- P2 step 3: `TINS` changed and the reload value is 0. -/
theorem test_regWr1_tins :
    got (exec (.regWr1 0x20 0xFF91) { s0 with timerRunning := true, timerCounter := 5 })
      (fun t => (t.fields.tins, t.timerRunning, t.timerCounter)) = some (true, false, 0) := by
  decide +kernel

/-- R223: `TR` alone does not load the timer. -/
theorem test_regWr1_tr :
    got (exec (.regWr1 0x01 0xFF91) { s0 with timerRunning := true, timerCounter := 5 })
      (fun t => (t.fields.tr, t.timerRunning, t.timerCounter)) = some (true, true, 5) := by
  decide +kernel

/-- V31b -/
theorem test_regWr2_clears :
    got (exec (.regWr2 0x10 0xFF92)
        { withRegs (fun r => (r.set 0 0x20).set 2 0x30) s0 with
          pendingIrq := 0x30, irqLevel := true })
      (fun t => (t.pendingIrq, t.fields.irqEn, t.irqLevel)) = some (0x10, 0x10, true) := by
  decide +kernel

/-- V31b with `IRQ_DISABLE_CLEARS_PENDING = false`. -/
theorem test_regWr2_keeps :
    got (exec (.regWr2 0x10 0xFF92)
        { s0 with cfg := { s0.cfg with irqDisableClearsPending := false }, pendingIrq := 0x30 })
      (·.pendingIrq) = some 0x30 := by decide +kernel

/-- R225: `WR 0xFF93, 0x20`, which sets no pending bit. -/
theorem test_regWr3 :
    got (exec (.regWr3 0x20 0xFF93) { s0 with pendingFirq := 0x10 })
      (fun t => (t.fields.firqEn, t.pendingFirq, t.pendingIrq)) = some (0x20, 0, 0) := by
  decide +kernel

/-- V58: the write of register 4 loads the timer at the end of its cycle. -/
theorem test_regWr4_loads :
    got (exec (.regWr4 0x00 0xFF94)
        { withRegs (fun r => (r.set 1 0x20).set 5 0x10) s0 with
          now := 1000, queue := [⟨2000, .hsFall, 0⟩] })
      (fun t => (t.fields.timerReload, t.timerCounter, t.timerRunning, t.queue)) =
    some (0x010, 18, true, [⟨1088, .timer, 1⟩, ⟨2000, .hsFall, 0⟩]) := by decide +kernel

/-- V59c: the write of register 5 loads nothing. -/
theorem test_regWr5_no_load :
    got (exec (.regWr5 0x20 0xFF95)
        { withRegs (fun r => r.set 5 0x10) s0 with timerRunning := true, timerCounter := 7 })
      (fun t => (t.timerCounter, t.fields.timerReload)) = some (7, 0x020) := by decide +kernel

/-- V31f -/
theorem test_regWr6 :
    got (exec (.regWr6 0xAA 0xFF96) s0) (fun t => (t.reg[6], t.fields == s0.fields)) =
      some (0xAA, true) := by decide +kernel

/-- R229 -/
theorem test_regWr7 :
    got (exec (.regWr7 0x55 0xFF97) s0) (fun t => (t.reg[7], t.fields == s0.fields)) =
      some (0x55, true) := by decide +kernel

/-- S7 -/
theorem test_regWr8 :
    got (exec (.regWr8 0x88 0xFF98) s0) (fun t => (t.mode.mode, t.fields.h50, fieldLines t.fields)) =
      some (.nativeGfx, true, 312) := by decide +kernel

/-- R231: `WR 0xFF99, 0x08` in graphics. -/
theorem test_regWr9 :
    got (exec (.regWr9 0x08 0xFF99) (withRegs (fun r => r.set 8 0x80) s0))
      (fun t => (t.mode.bpr, t.mode.r, t.mode.wide)) = some (32, 1, false) := by decide +kernel

/-- V39 -/
theorem test_regWr10 :
    got (exec (.regWr10 0xFF 0xFF9A) s0) (fun t => (t.mode.border, t.reg[10])) = some (63, 0xFF) := by
  decide +kernel

/-- R233 -/
theorem test_regWr11 :
    got (exec (.regWr11 0x03 0xFF9B) s0) (fun t => (t.reg[11], t.fields == s0.fields)) =
      some (0x03, true) := by decide +kernel

/-- R234, R32: only four bits are the scroll. -/
theorem test_regWr12 :
    got (exec (.regWr12 0xF3 0xFF9C) s0) (·.fields.vsc) = some 3 := by decide +kernel

/-- R235 -/
theorem test_regWr13 :
    got (exec (.regWr13 0xD8 0xFF9D) s0) (fun t => (t.fields.y, videoStart t, t.base)) =
      some (0xD800, 0x6C000, 0) := by decide +kernel

/-- R236 -/
theorem test_regWr14 :
    got (exec (.regWr14 0x80 0xFF9E) s0) (fun t => (t.fields.y, videoStart t)) =
      some (0x0080, 0x400) := by decide +kernel

/-- V38 -/
theorem test_regWr15 :
    got (exec (.regWr15 0x84 0xFF9F) s0) (fun t => (t.fields.hven, t.fields.x, t.mode.rowStride)) =
      some (true, 4, 256) := by decide +kernel

/-- V34, V35, V36, V37, V39c to V39h: the mode record. -/
theorem test_recompute_modes :
    (withRegs (fun r => (r.set 8 0x80).set 9 0x1E) s0).mode =
      ⟨.nativeGfx, true, 160, 3, some 1, 160, false, 0, .normal⟩ ∧
    (withRegs (fun r => (r.set 8 0x03).set 9 0x15) s0).mode =
      ⟨.nativeText, true, 160, 2, some 8, 160, true, 0, .normal⟩ ∧
    (withRegs (fun r => r.set 8 0x07) s0).mode.nlpr = none ∧
    (withRegs (fun r => r.set 8 0x20) s0).mode.burstSel = .shifted ∧
    (withRegs (fun r => r.set 8 0x30) s0).mode.burstSel = .none ∧
    (withRegs (fun r => r.set 0 0x80) { s0 with snoop0 := 0xF8 }).mode =
      ⟨.legacyRg, false, 32, 1, some 12, 32, false, 63, .normal⟩ ∧
    (withRegs (fun r => r.set 0 0x80) { s0 with snoop0 := 0x80 }).mode.border = 18 ∧
    (withRegs (fun r => r.set 0 0x80) { s0 with sam := 1 }).mode =
      ⟨.legacyText, false, 16, 0, some 3, 16, false, 0, .normal⟩ ∧
    (withRegs (fun r => (r.set 4 0xFA).set 5 0xBC) s0).fields.timerReload = 0xABC := by
  decide +kernel

/-- V32: the call. -/
theorem test_recompute_call :
    got (exec .recompute { s0 with mode := ⟨.legacyCg, true, 1, 2, none, 3, true, 4, .none⟩ })
      (·.mode) = some ⟨.nativeText, false, 32, 1, some 1, 32, false, 0, .normal⟩ := by
  decide +kernel

/-- V73 -/
theorem test_regRd2 :
    got (exec (.regRd2 0xFF92)
        { withRegs (fun r => r.set 0 0x20) s0 with
          pendingIrq := 0x28, irqLevel := true, pendingFirq := 0x01 })
      (fun t => ((t.readData, t.pendingIrq, t.pendingFirq), t.irqLevel, t.trace.head?)) =
    some ((0x28, 0, 0x01), false, some (16, .irq false)) := by decide +kernel

/-- V74: an event that fires inside the reading cycle is reported. -/
theorem test_regRd2_newly_arrived :
    got (exec (.regRd2 0xFF92)
        { withRegs (fun r => (r.set 0 0x20).set 2 0x10) s0 with
          now := 1670, queue := [⟨1680, .hBord, 2⟩, ⟨1824, .hsFall, 3⟩] })
      (fun t => (t.readData, t.pendingIrq, t.trace.take 2)) =
    some (0x10, 0, [(1686, .irq false), (1680, .irq true)]) := by decide +kernel

/-- R241 -/
theorem test_regRd3 :
    got (exec (.regRd3 0xFF93) { s0 with pendingFirq := 0x10, pendingIrq := 0x08 })
      (fun t => (t.readData, t.pendingFirq, t.pendingIrq)) = some (0x10, 0, 0x08) := by
  decide +kernel

/-- V29: an undriven read changes nothing of the block. -/
theorem test_regRdX :
    got (exec (.regRdX 0xFF98) { s0 with pendingIrq := 0x08 })
      (fun t => (t.reg == s0.reg, t.pendingIrq, t.now)) = some (true, 0x08, 16) := by
  decide +kernel

/-- V31c -/
theorem test_setRegister :
    got (exec (.setRegister 8 0x88) s0) (fun t => (t.reg[8], t.now)) = some (0x88, 0) := by
  decide +kernel

/-- V31e -/
theorem test_setRegister_bad :
    faultOf (exec (.setRegister 16 0) s0) = some .badIndex := by decide +kernel

/-- V31c: the stored byte. -/
theorem test_getRegister :
    got (exec (.getRegister 8) (withRegs (fun r => r.set 8 0x88) s0))
      (fun t => (t.readData, t.now)) = some (0x88, 0) := by decide +kernel

/-- V31d -/
theorem test_getRegister_pending :
    got (exec (.getRegister 3) { s0 with pendingFirq := 0x10 })
      (fun t => (t.readData, t.pendingFirq)) = some (0x10, 0) := by decide +kernel

/-- R250: `RegWrite` of register 10. -/
theorem test_regWrite :
    got (exec (.regWrite 10 0x12) s0) (fun t => (t.reg[10], t.mode.border, t.now)) =
      some (0x12, 0x12, 0) := by decide +kernel

/-! The bank, palette and SAM windows (`95_test_vectors.md` 2.3, 2.4). -/

/-- V30 -/
theorem test_mmuWr :
    got (exec (.mmuWr 0xFFA3 0xFA) s0) (fun t => (t.bank[3], t.now)) = some (0x3A, 16) := by
  decide +kernel

/-- V30 -/
theorem test_mmuRd :
    got (exec (.mmuRd 0xFFA3) { s0 with bank := s0.bank.set 3 0x3A }) (·.readData) = some 0x3A := by
  decide +kernel

/-- R262: an eight-bit page is masked to `BANK_W` bits. -/
theorem test_setMmuBank :
    got (exec (.setMmuBank 8 0xF8) s0) (fun t => (t.bank[8], t.now)) = some (0x38, 0) := by
  decide +kernel

/-- R450 -/
theorem test_setMmuBank_bad :
    faultOf (exec (.setMmuBank 16 0) s0) = some .badIndex := by decide +kernel

/-- V31 -/
theorem test_palWr :
    got (exec (.palWr 0xFFB5 0xC9) s0) (fun t => (t.pal[5], t.now)) = some (0x09, 16) := by
  decide +kernel

/-- V31 -/
theorem test_palRd :
    got (exec (.palRd 0xFFB5) { s0 with pal := s0.pal.set 5 0x09 }) (·.readData) = some 0x09 := by
  decide +kernel

/-- V45 -/
theorem test_samClr :
    got (exec (.samClr 0xFFDE 0x55)
        (recomputeAll { s0 with sam := 0x8001 }))
      (fun t => (t.sam, t.fields.ty)) = some (0x0001, false) := by decide +kernel

/-- P1 step 14: this cycle still takes the slow time. -/
theorem test_samSet :
    got (exec (.samSet 0xFFD9 0x00) { s0 with sam := 0x8000 })
      (fun t => (t.sam, t.fields.r1, t.now)) = some (0x9000, true, 16) := by decide +kernel

/-- V46 -/
theorem test_samRd :
    got (exec (.samRd 0xFFC0) { s0 with sam := 0x1234 }) (fun t => (t.sam, t.now)) =
      some (0x1234, 16) := by decide +kernel

/-- R195: the write of register 10 as a call. -/
theorem test_memoryCycle :
    got (exec (.memoryCycle false 0xFF9A 0x12) s0) (fun t => (t.now, t.mode.border, t.trace)) =
      some (16, 0x12, [(0, .cycle false 0xFF9A ⟨.internal, false, none⟩ 16)]) := by decide +kernel

/-- P1 step 2 as a call. -/
theorem test_memoryCycle_read :
    got (exec (.memoryCycle true 0xFFA1 0) { s0 with bank := s0.bank.set 1 5 })
      (·.readData) = some 5 := by decide +kernel

/-! Interrupts (`95_test_vectors.md` 2.10). -/

/-- V75 -/
theorem test_raise_firq_only :
    got (exec (.raise 0x10)
        (withRegs (fun r => ((r.set 0 0x30).set 2 0x08).set 3 0x10) s0))
      (fun t => (t.pendingIrq, t.pendingFirq, t.trace)) =
    some (0, 0x10, [(0, .firq true)]) := by decide +kernel

/-- V79 -/
theorem test_raise_merges :
    got (exec (.raise 0x10)
        { withRegs (fun r => (r.set 0 0x20).set 2 0x10) s0 with
          pendingIrq := 0x10, irqLevel := true })
      (fun t => (t.pendingIrq, t.trace)) = some (0x10, []) := by decide +kernel

/-- V78, first half. -/
theorem test_updateLevels :
    got (exec .updateLevels { s0 with pendingIrq := 0x10, irqLevel := true })
      (fun t => (t.irqLevel, t.pendingIrq, t.trace)) =
    some (false, 0x10, [(0, .irq false)]) := by decide +kernel

/-! The timer (`95_test_vectors.md` 2.6). -/

/-- V59a -/
theorem test_timerLoad_fast :
    got (exec .timerLoad
        { withRegs (fun r => ((r.set 1 0x20).set 4 0x0F).set 5 0xFF) s0 with queue := [] })
      (fun t => (t.timerCounter, t.queue)) = some (4097, [⟨16388, .timer, 1⟩]) := by
  decide +kernel

/-- V59b -/
theorem test_timerLoad_stops :
    got (exec .timerLoad
        { s0 with
          timerRunning := true, timerCounter := 9, blink := true, queue := [⟨50, .timer, 0⟩] })
      (fun t => (t.timerRunning, t.timerCounter, t.blink, t.queue)) =
    some (false, 0, true, []) := by decide +kernel

/-- V59: a clock that does not expire. -/
theorem test_timerClock :
    got (exec .timerClock { s0 with timerRunning := true, timerCounter := 3 })
      (fun t => (t.timerCounter, t.blink)) = some (2, false) := by decide +kernel

/-- V59: the clock that expires. -/
theorem test_timerClock_expires :
    got (exec .timerClock
        { withRegs (fun r => r.set 5 1) s0 with timerRunning := true, timerCounter := 1 })
      (fun t => (t.timerCounter, t.blink, t.timerRunning)) = some (3, true, true) := by
  decide +kernel

/-- V59g -/
theorem test_timerExpire :
    got (exec .timerExpire
        { withRegs (fun r => (r.set 0 0x20).set 2 0x20) s0 with
          timerRunning := true, timerCounter := 18 })
      (fun t => ((t.blink, t.timerRunning, t.timerCounter), t.pendingIrq, t.trace)) =
    some ((true, false, 0), 0x20, [(0, .irq true)]) := by decide +kernel

/-- P2 step 7: re-scheduled from the entry's own tick. -/
theorem test_evTimer :
    got (exec (.evTimer 152 1)
        { withRegs (fun r => (r.set 1 0x20).set 5 0x10) s0 with
          now := 160, timerRunning := true, timerCounter := 18, queue := [], seqNext := 2 })
      (fun t => (t.blink, t.queue)) = some (true, [⟨224, .timer, 2⟩]) := by decide +kernel

/-- R336: nothing in the slow mode. -/
theorem test_evTimer_slow :
    got (exec (.evTimer 152 1) { s0 with timerRunning := true, timerCounter := 18 })
      (fun t => (t.blink, t.timerCounter)) = some (false, 18) := by decide +kernel

/-! The raster (`95_test_vectors.md` 2.5). -/

/-- The state before the fall of V20. -/
def s20 : State :=
  { s0 with
    now := 34656, vstate := .topBorder, scanline := 37, lcount := 24, lineStart := 33744
    queue := [], seqNext := 112, line := { s0.line with lbRem := 744 } }

/-- V20 -/
theorem test_evHsFall :
    got (exec (.evHsFall 34656 111) s20)
      (fun t => ((t.vstate, t.scanline, t.lcount, t.row), t.lineStart, t.hsLevel, t.queue)) =
    some ((.active, 38, 0, 0), 34656, false,
      [⟨34736, .hsRise, 112⟩, ⟨35424, .hBord, 113⟩, ⟨35568, .hsFall, 114⟩]) := by decide +kernel

/-- V20, steps 1 and 7. -/
theorem test_evHsFall_line :
    got (exec (.evHsFall 34656 111) s20)
      (fun t => ((t.line.beamPos, t.line.lbRem, t.line.aaRem), (t.line.vramRem, t.line.rbRem),
        t.line.fetchK, t.trace.length)) = some ((0, 116, 512), (32, 116), 0, 2) := by decide +kernel

/-- R305 -/
theorem test_evHsRise :
    got (exec (.evHsRise 9200 2) { s0 with now := 9200, hsLevel := false })
      (fun t => (t.hsLevel, t.trace)) = some (true, [(9200, .hs true)]) := by decide

/-- P4 step 4: the border point of the last active line. -/
theorem test_evHBord_last_active :
    got (exec (.evHBord 209616 0)
        { withRegs (fun r => (r.set 0 0x20).set 2 0x08) s0 with
          now := 209616, vstate := .active, lcount := 191 })
      (fun t => (t.pendingIrq, t.trace)) = some (0x08, [(209616, .irq true)]) := by decide +kernel

/-- R290 against R231: after a mid-line write of `LPF` (1, 200 lines) the line of the old target (192)
raises VBORD in the one reading and not in the other. -/
theorem test_evHBord_lpf_write :
    let s := { withRegs (fun r => (r.set 2 0x08).set 9 0x20) s0 with vstate := .active, lcount := 191 }
    let v (b : Bool) := { s with cfg := { s.cfg with lpfPerLine := b } }
    s.fields.lpf = 1 ∧ s.line.lpf = 0 ∧
    got (exec (.evHBord 0 0) (v true)) (·.pendingIrq) = some 0x08 ∧
    got (exec (.evHBord 0 0) (v false)) (·.pendingIrq) = some 0 := by decide +kernel

/-- R465: an ordinary line, and the slow timer's clock. -/
theorem test_evHBord_other_line :
    got (exec (.evHBord 1680 2)
        { withRegs (fun r => r.set 2 0x18) s0 with
          vstate := .active, lcount := 190, timerRunning := true, timerCounter := 3 })
      (fun t => (t.pendingIrq, t.timerCounter)) = some (0x10, 2) := by decide +kernel

/-- V82: line 0 is delivered. -/
theorem test_finishLine :
    got (exec .finishLine (State.resetWith smallParams)) (·.trace) =
      some [(0, .renderRow (List.replicate 36 0) 36 .normal)] := by decide +kernel

/-- V57f, R303: a field that is not displayed, and a suppressed line. -/
theorem test_finishLine_held_back :
    got (exec .finishLine { s0 with frameCtr := 1 }) (·.trace) = some [] ∧
    got (exec .finishLine { withRegs (fun r => r.set 8 0x08) s0 with scanline := 24 }) (·.trace) =
      some [] := by decide +kernel

/-- V53 -/
theorem test_rowAdvance_wraps :
    got (exec .rowAdvance { s0 with vstate := .active, base := 0x7FFF0 })
      (fun t => (t.row, t.base)) = some (0, 0x00010) := by decide +kernel

/-- V50: a row above the lines per row wraps at 16 without moving the base. -/
theorem test_rowAdvance_above :
    got (exec .rowAdvance
        { s0 with vstate := .active, row := 15, mode := { s0.mode with nlpr := some 2 } })
      (fun t => (t.row, t.base)) = some (0, 0) := by decide +kernel

/-- V55c -/
theorem test_verticalStep_field :
    got (exec .verticalStep
        { withRegs (fun r => r.set 13 0xD8) s0 with
          cfg := { s0.cfg with frameskip := 1 }, vstate := .vsync, lcount := 3, scanline := 262
          fsLevel := false, voLine := 262 })
      (fun t => ((t.frameCtr, t.vstate, t.scanline), t.base, t.voLine, t.trace)) =
    some ((1, .vblank, 0), 0x6C000, 0, [(0, .fs true)]) := by decide +kernel

/-- V49's seed: `VSC = 5` with `ROWMASK[3] = 7`. -/
theorem test_verticalStep_seed :
    got (exec .verticalStep
        { withRegs (fun r => (r.set 8 3).set 12 0x0D) s0 with
          vstate := .topBorder, lcount := 25, scanline := 38 })
      (fun t => (t.vstate, t.row)) = some (.active, 5) := by decide +kernel

/-- R300: a border line. -/
theorem test_lineCounters :
    got (exec .lineCounters { s0 with vstate := .bottomBorder, mode := { s0.mode with nlpr := some 9 } })
      (fun t => ((t.line.lbRem, t.line.aaRem), (t.line.vramRem, t.line.rbRem), t.line.nlpr)) =
    some ((744, 0), (0, 0), some 9) := by decide +kernel

/-- V8, V55b: a line of wide timing. -/
theorem test_scheduleLine :
    got (exec (.scheduleLine 912)
        { s0 with queue := [], mode := { s0.mode with wide := true } })
      (fun t => (t.queue, t.seqNext)) =
    some ([⟨992, .hsRise, 1⟩, ⟨1744, .hBord, 2⟩, ⟨1824, .hsFall, 3⟩], 4) := by decide +kernel

/-! Painting (`95_test_vectors.md` 2.7). -/

/-- V57e -/
theorem test_beam :
    beamTarget { s0 with now := 140 } = 0 ∧ beamTarget { s0 with now := 500 } = 360 ∧
    beamTarget { s0 with now := 884 } = 744 ∧ beamTarget { s0 with now := 900 } = 744 := by
  decide +kernel

/-- P5 step 2, small: the flush paints the border up to the beam with the old colour. -/
theorem test_flush :
    got (exec .flush
        { State.resetWith smallParams with
          now := 10, mode := { s0.mode with border := 42 }
          line := { (State.resetWith smallParams).line with lbRem := 36 } })
      (fun t => (t.line.beamPos, t.line.lbRem, t.line.buf.take 6)) =
    some (6, 30, [42, 42, 42, 42, 42, 42]) := by decide +kernel

/-- V57f -/
theorem test_flush_not_displayed :
    got (exec .flush { s0 with now := 500, frameCtr := 1 }) (·.line.beamPos) = some 0 := by
  decide +kernel

/-- P3, small: two cells of the one-bit legacy mode, black and white, and the right border. -/
theorem test_renderTo_legacy :
    got (exec (.renderTo 36)
        { smallActive with
          mode := { s0.mode with mode := .legacyRg, border := 18 }
          pal := (s0.pal.set 8 0).set 9 63, ram := [(1, 0xFF)] })
      (fun t => (t.line.buf.take 36, t.line.vramRem, t.line.fetchK)) =
    some ([18, 18] ++ List.replicate 16 0 ++ List.replicate 16 63 ++ [18, 18], 30, 2) := by
  decide +kernel

/-- V57: a cell is atomic. -/
theorem test_renderTo_whole_cell :
    got (exec (.renderTo 5) smallActive)
      (fun t => (t.line.beamPos, t.line.lbRem, t.line.aaRem, t.line.vramRem)) =
    some (18, 0, 16, 31) := by decide +kernel

/-- V61 at one position for each pixel (`r = 2`): `c = 0xA5`, fetched at `B + 2*X`. -/
theorem test_cell :
    got (exec .cell
        { smallActive with
          base := 0x6C000, fields := { s0.fields with x := 4 }
          mode := { s0.mode with mode := .nativeGfx, r := 2 }
          pal := (s0.pal.set 0 7).set 1 8, ram := [(0x6C008, 0xA5)] })
      (fun t => (t.line.buf.take 8, t.line.beamPos)) =
    some ([8, 7, 8, 7, 7, 8, 7, 8], 8) := by decide +kernel

/-- R177: one callback for each fetched byte. -/
theorem test_fetch_callbacks :
    got (exec (.renderTo 36)
        { smallActive with callbacks := [[(.timer, 7)], [], [(.hsRise, 1)]] })
      (fun t => (t.queue, t.callbacks)) =
    some ([⟨7, .timer, 1⟩, ⟨50, .hsFall, 0⟩], [[(.hsRise, 1)]]) := by decide +kernel

/-- R18: an oracle may answer any byte, whatever the RAM array holds; the fetch is counted. -/
theorem test_cell_oracle :
    got (exec .cell { smallActive with
        cfg := { smallParams with vfetch := .oracle }, ram := [(0, 0xA5)] })
      (fun t => (t.line.fetchK, t.line.cells.map (·.charAddr), t.line.picks)) =
    some (1, [none], 1) := by decide +kernel

/-- R18: the byte is the oracle's free one, not the array's. -/
theorem test_cell_oracle_byte :
    got (exec .cell { smallActive with
        cfg := { smallParams with vfetch := .oracle }, ram := [(0, 0xA5)] })
      (fun t => t.line.cells.map (·.char)) = some [Config.videoByte 0 0] := rfl

/-- R503: the underline's `nlpr` is the one of the line's start; R352's reading by parameter. -/
theorem test_underline_sampled :
    let s := { smallActive with
      mode := { s0.mode with nlpr := some 2 }
      line := { smallActive.line with nlpr := some 8 } }
    (cellCtx s).nlpr = some 8 ∧
    (cellCtx { s with cfg := { smallParams with nlprPerLine := false } }).nlpr = some 2 := by
  decide +kernel

/-- V57g -/
theorem test_cell_not_connected :
    faultOf (exec .cell
      { smallActive with cfg := { smallParams with vfetch := .absent } }) =
    some .noVideoFetch := by decide +kernel

/-- A context whose palette holds slot `i` at entry `i`, with one glyph row 0x3C for every mode. -/
def ctx (m : RenderMode) : CellCtx where
  mode := m
  r := 2
  attr := true
  cres := 0
  css := false
  nlpr := some 8
  row := 7
  blink := true
  pal := Vector.ofFn fun i => BitVec.ofNat 6 i.val

/-- The glyph rows of V64 to V66. -/
def glyphs : Params :=
  { defaultParams with fontHi := [⟨1, 7, 0x3C⟩], fontLegacy := [⟨1, 7, 0x3C⟩] }

/-- V62, V63 -/
theorem test_pixels_native_gfx :
    pixels glyphs { ctx .nativeGfx with cres := 1 } 0x1B 0 = (⟨0, 0, 1, 1⟩, ⟨2, 2, 3, 3⟩) ∧
    pixels glyphs { ctx .nativeGfx with cres := 3 } 0x7E 0 = (solidQuad 7, solidQuad 14) := by
  decide +kernel

/-- V64, V65, V65a to V65c -/
theorem test_pixels_native_text :
    pixels glyphs { ctx .nativeText with attr := false } 1 0 = (⟨0, 0, 1, 1⟩, ⟨1, 1, 0, 0⟩) ∧
    pixels glyphs (ctx .nativeText) 1 0x0A = (⟨2, 2, 9, 9⟩, ⟨9, 9, 2, 2⟩) ∧
    pixels glyphs (ctx .nativeText) 1 0x4A = (solidQuad 9, solidQuad 9) ∧
    pixels glyphs (ctx .nativeText) 1 0x8A = (solidQuad 2, solidQuad 2) ∧
    pixels glyphs (ctx .nativeText) 1 0xCA = (solidQuad 2, solidQuad 2) := by decide +kernel

/-- V66, V66a, V67, V67a -/
theorem test_pixels_legacy_text :
    pixels glyphs (ctx .legacyText) 0x01 0 = (⟨12, 12, 13, 13⟩, ⟨13, 13, 12, 12⟩) ∧
    pixels glyphs (ctx .legacyText) 0x41 0 = (⟨13, 13, 12, 12⟩, ⟨12, 12, 13, 13⟩) ∧
    pixels glyphs { ctx .legacyText with row := 0 } 0xF5 0 = (solidQuad 8, solidQuad 7) ∧
    pixels glyphs { ctx .legacyText with row := 6 } 0x9A 0 = (solidQuad 1, solidQuad 8) ∧
    pixels { glyphs with legacy := { glyphs.legacy with sgFg := Vector.replicate 8 3 } }
      { ctx .legacyText with row := 6 } 0x9A 0 = (solidQuad 3, solidQuad 8) := by
  decide +kernel

/-- V68, V69a -/
theorem test_pixels_legacy_graphics :
    pixels glyphs { ctx .legacyCg with css := true } 0x1B 0 = (⟨4, 4, 5, 5⟩, ⟨6, 6, 7, 7⟩) ∧
    pixels glyphs { ctx .legacyRg with css := true } 0x81 0 =
      (⟨11, 10, 10, 10⟩, ⟨10, 10, 10, 11⟩) := by decide +kernel

/-- `Expand` (section 2.7). -/
theorem test_expand :
    expand ⟨1, 2, 3, 4⟩ 0 = [1, 1, 1, 1, 2, 2, 2, 2, 3, 3, 3, 3, 4, 4, 4, 4] ∧
    expand ⟨1, 2, 3, 4⟩ 1 = [1, 1, 2, 2, 3, 3, 4, 4] ∧ expand ⟨1, 2, 3, 4⟩ 3 = [1, 3] := by
  decide

/-- V69b to V69e: fetch addresses. -/
theorem test_fetch_addresses :
    fetchAddr { s0 with base := 0x6C000, fields := { s0.fields with x := 4 } } 1 = 0x6C009 ∧
    fetchAddr { s0 with base := 0x6C000, fields := { s0.fields with x := 0x7F, hven := true } } 2 =
      0x6C000 ∧
    fetchAddr { s0 with base := 0x400, fields := { s0.fields with x := 9, coco := true } } 3 =
      0x403 ∧
    fetchAddr { s0 with base := 0x7FFFF, fields := { s0.fields with coco := true } } 1 = 0 := by
  decide +kernel

/-! Composite and the renderer (`95_test_vectors.md` 2.8, 2.9). -/

/-- The colours of R433: 0 black, 63 white, 1 with `y = 0.5`, `U = 0.1`, `V = 0.2`. -/
def painted : State :=
  { s0 with
    colour := [(0, ⟨0, 0, 0⟩),
      (1, ⟨1 / 2, (1 / 10) / (872021 / 1000000), (2 / 10) / (1229951 / 1000000)⟩),
      (63, ⟨1, 0, 0⟩)] }

/-- R395 -/
theorem test_setPaletteEntry :
    got (exec (.setPaletteEntry 63 1 0 0) s0) (·.colour) = some [(63, ⟨1, 0, 0⟩)] := by
  decide +kernel

/-- V60p -/
theorem test_setPaletteEntry_bad :
    faultOf (exec (.setPaletteEntry 256 0 0 0) s0) = some .badIndex := by decide +kernel

/-- Rational values of a table. -/
def amps (l : List Rat) : List Amp := l.map .ofRat

/-- R397: `set_burst(2, 180)` and V60p. -/
theorem test_setBurst :
    got (exec (.setBurst 2 180) s0) (fun t => (t.burst.map (·.demU), t.burst.map (·.modU))) =
      some ([amps [0, 2, 0, -2], amps [0, 2, 0, -2], amps [0, -2, 0, 2]],
        List.replicate 3 (amps [0, 1, 0, -1])) ∧
    faultOf (exec (.setBurst 3 0) s0) = some .badIndex := by decide +kernel

/-- V60d: the tables after `set_hue(90)`. -/
theorem test_setHue :
    got (exec (.setHue 90) s0) (fun t => (t.hue, t.burst.map (·.demU), t.burst.map (·.demV))) =
      some (90, List.replicate 3 (amps [2, 0, -2, 0]), List.replicate 3 (amps [0, -2, 0, 2])) := by
  decide +kernel

/-- V60b -/
theorem test_renderPalette :
    got (exec (.renderPalette .normal 2 [0, 63]) painted) (·.rowOut) =
      some [⟨0, 0, 0⟩, ⟨255, 255, 255⟩] := by decide +kernel

/-- V60o -/
theorem test_renderPalette_unset :
    faultOf (exec (.renderPalette .normal 1 [7]) painted) = some .unsetColour := by decide +kernel

/-- R411, V60m: the table at a black and white neighbourhood, the plain pixel elsewhere. -/
theorem test_renderArt2 :
    got (exec (.renderArt2 .normal 3 [63, 0, 1])
        { painted with
          cfg := { painted.cfg with
            art2 := [⟨.normal, 0, 1, ⟨9, 8, 7⟩⟩, ⟨.normal, 1, 2, ⟨6, 5, 4⟩⟩] } })
      (·.rowOut) = some [⟨9, 8, 7⟩, ⟨6, 5, 4⟩, ⟨186, 88, 179⟩] := by decide +kernel

/-- R412, R413: outside the row counts as black. -/
theorem test_renderArt5 :
    got (exec (.renderArt5 .normal 2 [63, 0])
        { painted with
          cfg := { painted.cfg with
            art5 := [⟨.normal, 0, 2, ⟨9, 8, 7⟩⟩, ⟨.normal, 1, 4, ⟨6, 5, 4⟩⟩] } })
      (·.rowOut) = some [⟨9, 8, 7⟩, ⟨6, 5, 4⟩] := by decide +kernel

/-- R433 (a), V60c -/
theorem test_renderSim_constant :
    got (exec (.renderSim .normal 4 [1, 1, 1, 1]) painted) (·.rowOut[3]?) =
      some (some ⟨186, 88, 179⟩) := by decide +kernel

/-- R433 (b) and (e), V60g, V60j -/
theorem test_renderSim_false_colour :
    got (exec (.renderSim .normal 4 [63, 63, 0, 0]) painted) (·.rowOut[3]?) =
      some (some ⟨255, 3, 255⟩) ∧
    got (exec (.renderSim .none 4 [63, 63, 0, 0]) painted) (·.rowOut[3]?) =
      some (some ⟨128, 128, 128⟩) := by decide +kernel

/-- V60a -/
theorem test_quantise :
    [-7 / 100, 0, 1 / 4, 1 / 2, 3 / 4, 1, 107 / 100].map (fun v => quantise defaultParams (.ofRat v))
      = [0, 0, 64, 128, 191, 255, 255] := by decide +kernel

/-- R423 with another monotone `GAMMA`: two rises, at 0.2 and 0.5. -/
theorem test_quantise_levels :
    [0, 1 / 5, 1 / 4, 1 / 2, 2].map
      (fun v => quantise { defaultParams with gamma := .levels [1 / 2, 1 / 5] } (.ofRat v)) =
      [0, 1, 1, 2, 2] := by decide +kernel

/-- R392: the angle-sum formulas hold of the sines and cosines: squares of 45 and 30 degrees, and
`cos 36 - cos 72 = 1/2`, to the digit. -/
theorem test_exact_reals :
    (sinDeg 45).mul (sinDeg 45) = .ofRat (1 / 2) ∧
    ((cosDeg 30).mul (cosDeg 30)).add (.ofRat (1 / 4)) = .ofRat 1 ∧
    ((cosDeg 36).add (cosDeg 72).neg).atLeast (1 / 2) = true ∧
    (cosDeg 36).atLeast (809016994 / 1000000000) = true ∧
    (cosDeg 36).atLeast (809016995 / 1000000000) = false := by decide +kernel

/-- R406 at hue 45, by hand: `u = v = 0.2121, 0.0707` of `(0.5, 0.1, 0.2)`. -/
theorem test_renderPalette_hue :
    got (exec (.renderPalette .normal 1 [1]) (rebuildHue 45 painted)) (·.rowOut) =
      some [⟨148, 96, 237⟩] := by decide +kernel

/-- R430 with `TMAX = 8` and `BOX(8)`: the constant row decodes to the plain pixel of R433 (a). -/
theorem test_renderSim_eight_phases :
    got (exec (.renderSim .normal 8 (List.replicate 8 1))
        (rebuildHue 0 { painted with
          cfg := { painted.cfg with tmax := 8, lpY := boxFilter 8, lpC := boxFilter 8 } }))
      (·.rowOut[7]?) = some (some ⟨186, 88, 179⟩) := by decide +kernel

/-- V70: a row above the viewport is only counted. -/
theorem test_voRenderRow_skips :
    got (exec (.voRenderRow .normal 1 [63]) { painted with voLine := 37 })
      (fun t => (t.target, t.voLine)) = some ([], 38) := by decide +kernel

/-- V71, V72, small: columns from 1 on of the third row of the viewport. -/
theorem test_voRenderRow_stores :
    got (exec (.voRenderRow .none 4 [0, 63, 0, 63])
        { painted with
          voLine := 7, cfg := { painted.cfg with vpX := 1, vpY := 5, vpW := 2, vpH := 3, pitch := 10 } })
      (fun t => (t.target, t.voLine)) = some ([(20, 0x00FFFFFF), (21, 0)], 8) := by decide +kernel

/-! Reset (`95_test_vectors.md` 2.11). -/

/-- V80 -/
theorem test_reset :
    got (exec .reset
        { withRegs (fun r => (r.set 0 0x20).set 8 0x88) s0 with
          now := 5000, irqLevel := true, pendingIrq := 0x08, hsLevel := false, seqNext := 9
          timerRunning := true, timerCounter := 4, blink := true, scanline := 7, base := 5
          queue := [⟨5001, .timer, 3⟩, ⟨5002, .hsRise, 4⟩, ⟨5003, .hsFall, 5⟩] })
      (fun t => ((t.reg == zeroRegs, t.queue), (t.now, t.lineStart), t.timerRunning, t.trace)) =
    some ((true, [⟨5912, .hsFall, 9⟩]), (5000, 5000), false,
      [(5000, .irq false), (5000, .hs true)]) := by decide +kernel

/-- S0's mode record (`10_state.md` R34). -/
theorem test_reset_mode :
    got (exec .reset (powerOn defaultParams)) (·.mode) =
      some ⟨.nativeText, false, 32, 1, some 1, 32, false, 0, .normal⟩ := by decide +kernel

/-- S0 with one request in the inbox. -/
def oneRequest (r : Request) : State := { s0 with inbox := [r] }

/-- S0 with one of the block's own operations to be run. -/
def oneInternal (r : Request) : State := { s0 with internal := some r }

/-- V8 as a step: the first operation of the inbox is run. -/
theorem test_step :
    got (step { s0 with inbox := [.call 0x02 [.nat 912], .call 0x04 []] })
      (fun t => (t.queue, t.scanline, t.now, t.inbox)) =
    some ([⟨992, .hsRise, 1⟩, ⟨1680, .hBord, 2⟩, ⟨1824, .hsFall, 3⟩], 1, 912, [.call 0x04 []]) := by
  decide +kernel

/-- A table word placed is the next operation run. -/
theorem test_withFetchWord :
    got (step (s0.withFetchWord 24 0x0FF9A)) (fun t => (t.now, t.inbox)) = some (16, []) := by
  decide +kernel

/-- A table word of an internal procedure is the block's own operation, run before the inbox. -/
theorem test_withFetchWord_internal :
    got (step ((oneRequest (.call 0x04 [])).withFetchWord 8 0x2C)) (fun t => (t.internal, t.inbox)) =
    some (none, [.call 0x04 []]) := by
  decide +kernel

/-- R120: a procedure in the inbox is refused by name. -/
theorem test_step_refuses_internal :
    step (oneRequest (.proc 0x22 [])) = .refused (.notAnOperation .internalOnly) := rfl

/-! Witnesses: for every statement with hypotheses a state and operands that meet them together, for
each clause at a boundary of its range. -/

/-- An answer that holds something is a next state. -/
theorem next_of {r : Res} (h : got r (fun _ => true) = some true) : ∃ t, r = .next t := by
  cases r with
  | next t => exact ⟨t, rfl⟩
  | fault _ => cases h
  | refused _ => cases h

/-- An answer with a fault is that fault. -/
theorem fault_of {r : Res} {e : Fault} (h : faultOf r = some e) : r = .fault e := by
  cases r with
  | next _ => cases h
  | fault _ => cases h; rfl
  | refused _ => cases h

/-- S0 with derived fields `f`. -/
def withFields (f : Fields → Fields) : State := { s0 with fields := f s0.fields }

theorem witness_EncodeThenDecode :
    (Instr.busRamLo false 0x7FFF 0xFF).wellFormed dm = true ∧
    (Instr.busUpper true 0x8000 0).wellFormed dm = true ∧
    (Instr.busUpper false 0xFDFF 1).wellFormed dm = true ∧
    (Instr.busFexx true 0xFEFF 0).wellFormed dm = true ∧
    (Instr.busIo true 0xFF22 0).wellFormed dm = true ∧
    (Instr.busIo false 0xFF8F 1).wellFormed dm = true ∧
    (Instr.busVec true 0xFFFF 0).wellFormed dm = true ∧
    (Instr.regRdX 0xFF9F).wellFormed dm = true ∧ (Instr.samSet 0xFFDF 0).wellFormed dm = true ∧
    (Instr.snoopWr 0xFF23 1).wellFormed dm = true ∧
    (Instr.memoryCycle true 0xFFFF 0).wellFormed dm = true ∧
    (Instr.renderSim .shifted 2 [0, 255]).wellFormed dm = true ∧
    (encode (.renderSim .shifted 2 [0, 255])).internal = false ∧
    (Instr.raise 63).wellFormed dm = true ∧ (encode (.raise 63)).internal = true ∧
    (encode (.evTimer 0 0)).internal = true := by decide

theorem witness_DecodingIsFaithful :
    decode dm (.call 0x13 [.nat 2, .nat 2, .bytes [0, 255]]) =
      .ok (.renderSim .shifted 2 [0, 255]) ∧
    readInternal (.proc 0x25 [.nat 63]) = .ok (.raise 63) := by decide

theorem witness_StepRunsTheDecodedOperation :
    (oneRequest (.call 0x04 [])).inbox = [.call 0x04 []] ∧ decode dm (.call 0x04 []) = .ok .reset ∧
    s0.inbox = [] ∧ (oneRequest (.call 0x0B [])).inbox = [.call 0x0B []] ∧
    decode dm (.call 0x0B []) = .error (.noSuchCode 0x0B) ∧ s0.internal = none ∧
    (oneInternal (.proc 0x22 [])).internal = some (.proc 0x22 []) ∧
    readInternal (.proc 0x22 []) = .ok .flush ∧
    (oneInternal (.proc 0x2F [])).internal = some (.proc 0x2F []) ∧
    readInternal (.proc 0x2F []) = .error (.noSuchCode 0x2F) := by decide

theorem witness_ScheduleReplacesTheEntry : QueueOk s0 := by decide

theorem witness_AdvanceFiresTheHead_past :
    499 < { s0 with now := 500 }.now ∧ s0.now ≤ 0 ∧ nothingDue s0 0 = true ∧ s0.now ≤ 911 ∧
    nothingDue s0 911 = true := by decide

theorem witness_AdvanceFiresTheHead :
    timedOk s0.cfg = true ∧ s0.now ≤ 912 ∧ s0.queue = [⟨912, .hsFall, 0⟩] ∧
    ∃ t, exec (QEntry.operation ⟨912, .hsFall, 0⟩)
      { s0 with queue := [], now := max s0.now 912 } = .next t :=
  ⟨by decide, by decide, by decide, next_of (by decide +kernel)⟩

/-- The head's handler may fault: its line needs a byte and the port is not connected. -/
theorem witness_AdvanceFiresTheHead_fault :
    timedOk smallActive.cfg = true ∧ smallActive.queue = [⟨50, .hsFall, 0⟩] ∧
    exec (QEntry.operation ⟨50, .hsFall, 0⟩)
      { smallActive with
        cfg := { smallParams with vfetch := .absent }, queue := []
        now := max smallActive.now 50 } = .fault .noVideoFetch :=
  ⟨by decide, by decide, fault_of (by decide +kernel)⟩

theorem witness_AdvanceEndsAtTheTarget :
    (timedOk s0.cfg = true ∧ s0.cfg.vfetchConnected = true ∧ s0.cfg.voConnected = false ∧
      s0.now ≤ 912) ∧ ∃ t, exec (.advanceTo 912) s0 = .next t :=
  ⟨by decide, next_of (by decide +kernel)⟩

theorem witness_NoOperationIsStuck : timedOk s0.cfg = true := by decide

theorem witness_CallbacksScheduleAsCallsDo :
    let s := { smallActive with callbacks := [[(.timer, 7)]] }
    s.callbacks = ((.timer, 7) :: []) :: [] ∧
    (∃ t, exec (.renderTo 3) s = .next t) ∧ (∃ t, exec (.renderTo 2) s = .next t) ∧
    got (exec (.renderTo 3) s) (·.line.fetchK) = some 1 ∧
    got (exec (.renderTo 2) s) (·.line.fetchK) = some 0 :=
  ⟨rfl, next_of (by decide +kernel), next_of (by decide +kernel), by decide +kernel,
    by decide +kernel⟩

theorem witness_StepsKeepTimeAndParameters : ∃ t, step (oneRequest (.call 0x02 [.nat 912])) = .next t :=
  next_of (by decide +kernel)

theorem witness_RamCyclesMoveTheByte :
    quietCycle s0 = true ∧ windowOf s0.cfg.win 0x7FFF = .ramLo ∧ translate s0 0x7FFF = 0x77FFF ∧
    Memory.wf s0.ram = true ∧ s0.fields.mmuen = false ∧
    (withFields fun f => { f with mmuen := true }).fields.mmuen = true := by decide +kernel

theorem witness_RamCyclesMoveTheByte_upper :
    let s := withFields fun f => { f with ty := true }
    quietCycle s = true ∧ windowOf s.cfg.win 0x8000 = .upper ∧ windowOf s.cfg.win 0xFDFF = .upper ∧
    s.fields.ty = true ∧ translate s 0xFDFF = 0x7FDFF := by decide +kernel

theorem witness_RamCyclesMoveTheByte_fexx :
    let s := withFields fun f => { f with mc3 := true }
    let u := withFields fun f => { f with ty := true }
    quietCycle s = true ∧ windowOf s.cfg.win 0xFE00 = .fexx ∧ windowOf s.cfg.win 0xFEFF = .fexx ∧
    s.fields.mc3 = true ∧ (s.cfg.directBase ||| (0xFEFF : Addr).toNat) = 0x7FEFF ∧
    quietCycle u = true ∧ u.fields.mc3 = false ∧ u.fields.ty = true := by decide +kernel

theorem witness_OtherCyclesOnlyTakeTime :
    quietCycle s0 = true ∧ s0.fields.ty = false ∧ s0.fields.mc3 = false ∧
    windowOf s0.cfg.win 0x8000 = .upper ∧ windowOf s0.cfg.win 0xFEFF = .fexx ∧
    windowOf s0.cfg.win 0xFF00 = .io ∧ windowOf s0.cfg.win 0xFF8F = .io ∧
    snoopedWrite s0.cfg.win false 0xFF21 = false ∧ snoopedWrite s0.cfg.win false 0xFF24 = false ∧
    windowOf s0.cfg.win 0xFFE0 = .vec ∧ windowOf s0.cfg.win 0xFFFF = .vec := by decide +kernel

theorem witness_BusCyclesNeverFault :
    timedOk s0.cfg = true ∧ s0.cfg.vfetchConnected = true ∧ s0.cfg.voConnected = false := by decide

theorem witness_RegisterWindowWrites :
    (quietCycle s0 = true ∧ s0.cfg.vfetchConnected = true ∧ windowOf s0.cfg.win 0xFF90 = .reg ∧
      windowOf s0.cfg.win 0xFF9F = .reg) ∧
    ∃ t, exec (decodeCycle s0.cfg.win false 0xFF9F 0xFF) s0 = .next t :=
  ⟨by decide +kernel, next_of (by decide +kernel)⟩

theorem witness_RegWriteStoresAndRecomputes :
    (5 : BitVec 4) ≤ 5 ∧ (5 : BitVec 4) ≤ 15 ∧ s0.cfg.vfetchConnected = true := by decide

theorem witness_RegWriteInterruptEnables : s0.cfg.vfetchConnected = true := by decide

theorem witness_RegWriteTimerLoads :
    s0.cfg.vfetchConnected = true ∧ s0.reg[1].getLsbD 5 ≠ (0x20 : Byte).getLsbD 5 ∧
    s0.reg[1].getLsbD 5 = (0xDF : Byte).getLsbD 5 := by decide

theorem witness_PendingReadsClear :
    quietCycle s0 = true ∧ windowOf s0.cfg.win 0xFF92 = .reg ∧ (0xFF92 : Addr).toNat % 16 = 2 ∧
    windowOf s0.cfg.win 0xFF93 = .reg ∧ (0xFF93 : Addr).toNat % 16 = 3 ∧
    windowOf s0.cfg.win 0xFF9F = .reg ∧ windowOf s0.cfg.win 0xFFC0 = .sam ∧
    windowOf s0.cfg.win 0xFFDF = .sam := by decide +kernel

theorem witness_DirectRegisterCalls :
    s0.cfg.vfetchConnected = true ∧ 15 < 16 ∧ 16 ≤ 16 ∧ 1 ≠ 2 ∧ 4 ≠ 3 := by decide

theorem witness_BankEntriesReadAndWrite :
    quietCycle s0 = true ∧ windowOf s0.cfg.win 0xFFA0 = .mmu ∧ windowOf s0.cfg.win 0xFFAF = .mmu ∧
    15 < 16 ∧ 16 ≤ 16 := by decide +kernel

theorem witness_PaletteEntriesReadAndWrite :
    quietCycle s0 = true ∧ windowOf s0.cfg.win 0xFFB0 = .pal ∧ windowOf s0.cfg.win 0xFFBF = .pal ∧
    s0.cfg.vfetchConnected = true := by decide +kernel

theorem witness_SamBitsClearAndSet :
    quietCycle s0 = true ∧ s0.cfg.vfetchConnected = true ∧ windowOf s0.cfg.win 0xFFC0 = .sam ∧
    windowOf s0.cfg.win 0xFFDF = .sam := by decide +kernel

theorem witness_SnoopedWritesAreLatched :
    quietCycle s0 = true ∧ s0.cfg.vfetchConnected = true ∧
    windowOf s0.cfg.win 0xFF22 = .io ∧ snoopedWrite s0.cfg.win false 0xFF22 = true ∧
    windowOf s0.cfg.win 0xFF23 = .io ∧ snoopedWrite s0.cfg.win false 0xFF23 = true := by
  decide +kernel

theorem witness_WritesLeaveNothingStale :
    DerivedOk s0 ∧ (∃ t, exec (decodeRegWrite 0xFF90 0xFF) s0 = .next t) ∧
    (∃ t, exec (.regWrite 15 0xFF) s0 = .next t) ∧ (∃ t, exec (.setRegister 15 1) s0 = .next t) ∧
    (∃ t, exec (.samClr 0xFFDE 0) s0 = .next t) ∧ (∃ t, exec (.samSet 0xFFC1 0) s0 = .next t) ∧
    (∃ t, exec (.snoopWr 0xFF23 0) s0 = .next t) ∧ ∃ t, exec .reset s0 = .next t :=
  ⟨by decide +kernel, next_of (by decide +kernel), next_of (by decide +kernel),
    next_of (by decide +kernel), next_of (by decide +kernel), next_of (by decide +kernel),
    next_of (by decide +kernel), next_of (by decide +kernel)⟩

theorem witness_TimerLoadStartsOrStops :
    let f := withFields fun f => { f with timerReload := 1, tins := true }
    let g := withFields fun f => { f with timerReload := 0xFFF }
    s0.fields.timerReload = 0 ∧ f.fields.timerReload ≠ 0 ∧ f.fields.tins = true ∧
    g.fields.timerReload ≠ 0 ∧ g.fields.tins = false := by decide

theorem witness_TimerClocksAndExpires :
    s0.timerRunning = false ∧
    { s0 with timerRunning := true, timerCounter := 2 }.timerRunning = true ∧
    1 < { s0 with timerRunning := true, timerCounter := 2 }.timerCounter ∧
    { s0 with timerRunning := true, timerCounter := 1 }.timerCounter = 1 := by decide

theorem witness_TimerClocksAndExpires_event :
    let s := withFields fun f => { f with tins := true, timerReload := 1 }
    (s0.timerRunning && s0.fields.tins) = false ∧
    { s with timerRunning := true }.timerRunning = true ∧ s.fields.tins = true ∧
    s.fields.timerReload ≠ 0 ∧
    (withFields fun f => { f with tins := true }).fields.timerReload = 0 := by decide

theorem witness_RowAdvanceStepsTheRow :
    let s := { s0 with vstate := .active, row := 15 }
    let u := { s with mode := { s0.mode with nlpr := none } }
    s0.vstate ≠ .active ∧ s.vstate = .active ∧ u.mode.nlpr = none ∧ s.mode.nlpr = some 1 ∧
    (s.row.toNat + 1) % 16 ≠ 1 % 16 ∧ ({ s with row := 0 }.row.toNat + 1) % 16 = 1 % 16 := by
  decide

theorem witness_VerticalStepMovesOn_field :
    { s0 with vstate := .vsync, lcount := 2 }.lcount < s0.cfg.nVsync ∧
    s0.cfg.nVsync ≤ { s0 with vstate := .vsync, lcount := 3 }.lcount ∧
    { s0 with vstate := .vsync, lcount := 3 }.vstate = .vsync := by decide

theorem witness_VerticalStepMovesOn :
    s0.vstate ≠ .vsync ∧ 262 ≤ { s0 with scanline := 259 }.scanline + s0.cfg.nVsync ∧
    { s0 with scanline := 258 }.scanline + s0.cfg.nVsync < 262 ∧ s0.fields.h50 = false ∧
    s0.cfg.nVblank ≤ { s0 with lcount := 13 }.lcount ∧
    { s0 with lcount := 12 }.lcount < s0.cfg.nVblank ∧
    s0.cfg.tb.toList.getD s0.fields.lpf.toNat 0 ≤ { s0 with lcount := 25 }.lcount ∧
    { s0 with lcount := 24 }.lcount < s0.cfg.tb.toList.getD s0.fields.lpf.toNat 0 ∧
    s0.cfg.aa.toList.getD s0.fields.lpf.toNat none = some 192 := by decide

/-- An active area that no count ends (`LPF = 2`). -/
theorem witness_VerticalStepMovesOn_unbounded :
    let s := { withFields fun f => { f with lpf := 2 } with vstate := .active }
    s.vstate = .active ∧ s.cfg.aa.toList.getD s.fields.lpf.toNat none = none := by decide

theorem witness_LineCountersFollowTheState :
    smallActive.vstate = .active ∧ smallActive.mode.wide = false ∧ s0.vstate = .vblank ∧
    { smallActive with mode := { s0.mode with wide := true } }.mode.wide = true ∧
    { s0 with vstate := .topBorder }.vstate = .topBorder := by decide +kernel

theorem witness_LineGeometry :
    let s := { smallActive with cfg := { smallParams with tSl := 50 } }
    geometryOk s.cfg = true ∧ s.cfg.vfetchConnected = true ∧
    s.line.buf.length = s.cfg.nVis + s.cfg.rbHeadroom ∧ (∃ t, exec .lineCounters s = .next t) ∧
    s.vstate = .active ∧ s.mode.wide = false ∧ 1 < s.cfg.lb.narrow ∧
    s.cfg.lb.narrow + s.cfg.aaw.narrow ≤ 34 ∧ 34 < s.cfg.nVis ∧
    { s with mode := { s.mode with wide := true } }.mode.wide = true ∧ 1 < s.cfg.lb.wide ∧
    { s with vstate := .topBorder }.vstate = .topBorder ∧
    { s with vstate := .vsync }.vstate = .vsync :=
  ⟨by decide +kernel, by decide +kernel, by decide +kernel, next_of (by decide +kernel),
    by decide +kernel⟩

theorem witness_ScheduleLineFillsTheQueue : QueueOk s0 := by decide

theorem witness_FinishLineDeliversTheRow :
    let s := { withFields fun f => { f with h50 := true } with scanline := 24 }
    s0.cfg.vfetchConnected = true ∧ { s0 with frameCtr := 1 }.frameCtr ≠ 0 ∧ s0.frameCtr = 0 ∧
    s.fields.h50 = true ∧ s.scanline < s.cfg.palSuppress ∧
    s.cfg.palSuppress ≤ { s with scanline := 25 }.scanline ∧ s0.fields.h50 = false ∧
    s0.cfg.voConnected = false ∧ { defaultParams with voConnected := true }.voConnected = true := by
  decide

theorem witness_HsFallRunsItsEightSteps :
    s0.cfg.vfetchConnected = true ∧ s0.cfg.voConnected = false := by decide

theorem witness_RenderToPaintsUpTo :
    s0.cfg.vfetchConnected = true ∧
    exec (.renderTo 3)
      { smallActive with cfg := { smallParams with vfetch := .absent } } =
        .fault .noVideoFetch :=
  ⟨by decide, fault_of (by decide +kernel)⟩

theorem witness_SplitPaintingChangesNothing : 3 ≤ 36 ∧ ∃ t, exec (.renderTo 3) smallActive = .next t :=
  ⟨by decide, next_of (by decide +kernel)⟩

theorem witness_CellPaintsTheFetchedByte :
    smallActive.cfg.vfetchConnected = true ∧ smallActive.mode.attr = false ∧
    { smallActive with mode := { smallActive.mode with attr := true } }.mode.attr = true ∧
    1 < smallActive.line.vramRem ∧ smallActive.line.writes = [] ∧ s0.line.vramRem = 0 ∧
    smallActive.cfg.vfetch = .ram ∧
    { smallParams with vfetch := .absent }.vfetchConnected = false := by decide +kernel

theorem witness_PixelsOfEveryMode :
    7 < 2 * (16 >>> (ctx .legacyRg).r.toNat) ∧ 7 / (4 >>> (ctx .legacyRg).r.toNat) = 7 ∧
    3 < 2 * (16 >>> (3 : BitVec 2).toNat) ∧ 31 < 2 * (16 >>> (0 : BitVec 2).toNat) ∧
    (ctx .nativeGfx).cres = 0 ∧ { ctx .nativeGfx with cres := 1 }.cres = 1 ∧
    { ctx .nativeGfx with cres := 3 }.cres = 3 ∧ (ctx .nativeText).attr = true ∧
    { ctx .nativeText with attr := false }.attr = false ∧
    (0x7F : Byte).getLsbD 7 = false ∧ (0x80 : Byte).getLsbD 7 = true := by decide

theorem witness_CompositeSettersStoreAndRebuild :
    255 < 256 ∧ 256 ≤ 256 ∧ s0.burst.length = s0.cfg.nBurst ∧ 2 < s0.cfg.nBurst ∧
    s0.cfg.nBurst ≤ 3 ∧ (∃ b, s0.burst[2]? = some b) :=
  ⟨by decide, by decide, by decide, by decide, by decide, _, rfl⟩

theorem witness_BurstTablesAndTheHueLaw :
    3 < defaultParams.tmax ∧ (180 : Rat) = 180 := by decide +kernel

/-- Irrational values are decided too, and 0 is found. -/
theorem witness_OutputStageRounds :
    defaultParams.gamma = .identity ∧ outputDecided defaultParams (.ofRat (1 / 2)) = true ∧
    outputDecided defaultParams (sinDeg 45) = true ∧
    (Amp.ofRat (1 / 2)).real ≤ (Amp.ofRat 1).real ∧
    outputDecided defaultParams (.ofRat 1) = true := by
  refine ⟨rfl, by decide +kernel, by decide +kernel, ?_, by decide +kernel⟩
  simp [Amp.real, tonesReal, Amp.ofRat, consTone, radians]
  norm_num

theorem witness_RenderLineAnswersSetColours :
    coloursSet painted [0, 63] = true ∧ coloursSet painted [0, 7] = false := by decide +kernel

theorem witness_PalettePixels :
    (∃ t, exec (.renderPalette .shifted 1 [1]) painted = .next t) ∧
    ([1] : List Byte)[0]? = some 1 ∧ (storeFind painted.colour 1).isSome = true ∧
    (∃ d, painted.burst[BurstSel.shifted.index]? = some d ∧
      painted.cfg.phase0 + d.offset + painted.hue = 0) ∧
    (∃ d, painted.burst[BurstSel.shifted.index]? = some d ∧
      painted.cfg.phase0 + d.offset + { painted with hue := 90 }.hue = 90) ∧
    BurstSel.shifted ≠ .none :=
  ⟨next_of (by decide +kernel), by decide, by decide +kernel, ⟨_, rfl, by decide +kernel⟩,
    ⟨_, rfl, by decide +kernel⟩, by decide⟩

theorem witness_GreyAndFallBackPixels :
    (∃ t, exec (.renderSim .none 2 [0, 63]) painted = .next t) ∧
    ([0, 1] : List Byte)[1]? = some 1 ∧ (1 : Byte) ≠ painted.cfg.cidxBlack ∧
    (1 : Byte) ≠ painted.cfg.cidxWhite ∧
    ∃ t, exec (.renderPalette .normal 2 [0, 1]) painted = .next t :=
  ⟨next_of (by decide +kernel), by decide, by decide, by decide, next_of (by decide +kernel)⟩

theorem witness_GreyAndFallBackPixels_table :
    let c := { painted.cfg with
      art2 := [⟨.normal, 0, 1, ⟨9, 8, 7⟩⟩], art5 := [⟨.normal, 0, 2, ⟨9, 8, 7⟩⟩] }
    (0 : Byte) = c.cidxBlack ∧ (63 : Byte) = c.cidxWhite ∧ (0 + c.t0) % c.tmax = 0 ∧
    (∃ e ∈ c.art2, e.sel = .normal ∧ e.phase = 0 ∧ e.key = 2 * 0 + 1) ∧
    (∃ e ∈ c.art5, e.sel = .normal ∧ e.phase = 0 ∧ e.key = 4 * 0 + 2 * 1 + 0) ∧
    BurstSel.normal ≠ .none := by decide +kernel

theorem witness_SimulatedPixels :
    (∃ t, exec (.renderSim .normal 2 [0, 63]) painted = .next t) ∧ 1 < [0, 63].length ∧
    ∃ d, painted.burst[BurstSel.normal.index]? = some d :=
  ⟨next_of (by decide +kernel), by decide, _, rfl⟩

/-- The box filter of four positions removes both harmonics. -/
theorem boxFilter_rejects (j : Nat) (h : j = 1 ∨ j = 2) :
    filterRejects defaultParams (boxFilter 4) j := by
  have h1 : Real.cos (2 * Real.pi * 4⁻¹) = 0 ∧ Real.sin (2 * Real.pi * 4⁻¹) = 1 := by
    rw [show 2 * Real.pi * 4⁻¹ = Real.pi / 2 by ring]
    simp
  have h2 : Real.cos (2 * Real.pi * ((1 + 1) / 4)) = -1 ∧
      Real.sin (2 * Real.pi * ((1 + 1) / 4)) = 0 := by
    rw [show 2 * Real.pi * ((1 + 1) / 4) = Real.pi by ring]
    simp
  have h3 : Real.cos (2 * Real.pi * ((1 + 1 + 1) / 4)) = 0 ∧
      Real.sin (2 * Real.pi * ((1 + 1 + 1) / 4)) = -1 := by
    rw [show 2 * Real.pi * ((1 + 1 + 1) / 4) = Real.pi / 2 + Real.pi by ring, Real.cos_add_pi,
      Real.sin_add_pi]
    simp
  have h4 : Real.cos (2 * Real.pi * (2 / 4)) = -1 ∧ Real.sin (2 * Real.pi * (2 / 4)) = 0 := by
    rw [show 2 * Real.pi * (2 / 4) = Real.pi by ring]
    simp
  have h5 : Real.cos (2 * Real.pi * (2 * (1 + 1) / 4)) = 1 ∧
      Real.sin (2 * Real.pi * (2 * (1 + 1) / 4)) = 0 := by
    rw [show 2 * Real.pi * (2 * (1 + 1) / 4) = 2 * Real.pi by ring]
    simp
  have h6 : Real.cos (2 * Real.pi * (2 * (1 + 1 + 1) / 4)) = -1 ∧
      Real.sin (2 * Real.pi * (2 * (1 + 1 + 1) / 4)) = 0 := by
    rw [show 2 * Real.pi * (2 * (1 + 1 + 1) / 4) = Real.pi + 2 * Real.pi by ring,
      Real.cos_add_two_pi, Real.sin_add_two_pi]
    simp
  rcases h with rfl | rfl
  · simp [filterRejects, boxFilter, defaultParams, h1, h2, h3, List.mapIdx_cons]
  · simp [filterRejects, boxFilter, defaultParams, h4, h5, h6, List.mapIdx_cons]

theorem witness_ConstantRowDecodesToThePlainPixel :
    0 < painted.cfg.tmax ∧ painted.cfg.lpY.taps.sum = 1 ∧ painted.cfg.lpC.taps.sum = 1 ∧
    filterRejects painted.cfg painted.cfg.lpY 1 ∧ filterRejects painted.cfg painted.cfg.lpC 1 ∧
    filterRejects painted.cfg painted.cfg.lpC 2 ∧
    painted.cfg.lpY.taps.length ≤ 3 + painted.cfg.lpY.advance + 1 ∧
    3 + painted.cfg.lpY.advance < 4 ∧
    painted.cfg.lpC.taps.length ≤ 3 + painted.cfg.lpC.advance + 1 ∧
    3 + painted.cfg.lpC.advance < 4 ∧ (storeFind painted.colour 1).isSome = true ∧
    painted.burst[BurstSel.normal.index]? = some (buildBurst painted.cfg painted.hue 0) ∧
    (∃ t, exec (.renderSim .normal 4 (List.replicate 4 1)) painted = .next t) ∧
    (∃ t, exec (.renderPalette .normal 4 (List.replicate 4 1)) painted = .next t) ∧
    pixelDecided painted.cfg (.ofRat (1 / 2)) (.ofRat (1 / 10)) (.ofRat (2 / 10)) = true :=
  ⟨by decide +kernel, by decide +kernel, by decide +kernel, boxFilter_rejects 1 (.inl rfl),
    boxFilter_rejects 1 (.inl rfl), boxFilter_rejects 2 (.inr rfl), by decide +kernel,
    by decide +kernel, by decide +kernel, by decide +kernel, by decide +kernel, rfl,
    next_of (by decide +kernel), next_of (by decide +kernel), by decide +kernel⟩

theorem witness_VoRenderStoresTheViewport :
    { painted with voLine := 37 }.voLine < painted.cfg.vpY ∧
    painted.cfg.vpY + painted.cfg.vpH ≤ { painted with voLine := 230 }.voLine ∧
    painted.cfg.vpY ≤ { painted with voLine := 38 }.voLine ∧
    { painted with voLine := 229 }.voLine < painted.cfg.vpY + painted.cfg.vpH ∧
    coloursSet painted [0, 63] = true ∧ coloursSet painted [7] = false := by decide +kernel

theorem witness_StepsKeepFieldsAndLevels :
    DerivedOk (oneInternal (.proc 0x25 [.nat 0x10])) ∧ LevelsOk (oneInternal (.proc 0x25 [.nat 0x10])) ∧
    ∃ t, step (oneInternal (.proc 0x25 [.nat 0x10])) = .next t :=
  ⟨by decide +kernel, by decide +kernel, next_of (by decide +kernel)⟩

theorem witness_StepsKeepQueueAndMemories :
    QueueOk (oneInternal (.proc 0x2E [.nat 0])) ∧ MemoryOk (oneInternal (.proc 0x2E [.nat 0])) ∧
    ∃ t, step (oneInternal (.proc 0x2E [.nat 0])) = .next t :=
  ⟨by decide +kernel, by decide +kernel, next_of (by decide +kernel)⟩

/-- The invariants hold for arbitrary bank values: here all entries are the greatest. -/
theorem witness_StepsKeepTheRanges :
    RangesOk { oneInternal (.proc 0x2C []) with bank := Vector.replicate 16 63 } ∧
    ∃ t, step { oneInternal (.proc 0x2C []) with bank := Vector.replicate 16 63 } = .next t :=
  ⟨by decide +kernel, next_of (by decide +kernel)⟩

theorem witness_StepsKeepTheLineAndDeliverColours :
    let s := { State.resetWith smallParams with internal := some (.proc 0x2A []) }
    fitsOk s.cfg = true ∧ LineOk s ∧ RowsOk s ∧ ∃ t, step s = .next t :=
  ⟨by decide +kernel, by decide +kernel, by decide +kernel, next_of (by decide +kernel)⟩

theorem witness_StepsTellTheOutputs :
    OutputsTold (oneInternal (.event 0 912 0)) ∧ ∃ t, step (oneInternal (.event 0 912 0)) = .next t :=
  ⟨by decide +kernel, next_of (by decide +kernel)⟩

/-- Each kind of register does change under its own operations. -/
theorem witness_OnlyWritesChangeTheRegisters :
    got (exec (.regWr6 1 0xFF96) s0) (fun t => t.reg == s0.reg) = some false ∧
    got (exec (.mmuWr 0xFFA0 1) { s0 with bank := Vector.replicate 16 0 })
      (fun t => t.bank == Vector.replicate 16 0) = some false ∧
    got (exec (.palWr 0xFFBF 1) { s0 with pal := Vector.replicate 16 0 })
      (fun t => t.pal == Vector.replicate 16 0) = some false ∧
    got (exec (.samSet 0xFFDF 0) s0) (·.sam) = some 0x8000 ∧
    got (exec (.memoryCycle false 0xFF23 1) s0) (·.snoop1) = some 1 ∧
    (∀ i ∈ [Instr.regWr6 1 0xFF96, .mmuWr 0xFFA0 1, .palWr 0xFFBF 1, .samSet 0xFFDF 0,
      .memoryCycle false 0xFF23 1], i.wellFormed s0.cfg.win = true) := by decide +kernel

end Sys2Proof.Tests
end

section
/-! What a step and a flushed write do: the one inversion of each, and the induction over a step. -/

namespace Sys2Proof.Machine

/-- Everything a step that answers can have done: wait with nothing to run, run the block's own
operation, or run the first request of the inbox. -/
theorem step_eq_next {s t : State} (h : step s = .next t) :
    (s.internal = none ∧ s.inbox = [] ∧ t = s) ∨
    (∃ r i, s.internal = some r ∧ readInternal r = .ok i ∧ exec i (takeInternal s) = .next t) ∨
    ∃ r rest i, s.internal = none ∧ s.inbox = r :: rest ∧ decode s.cfg.win r = .ok i ∧
      exec i (takeRequest rest s) = .next t := by
  unfold step runRead at h
  split at h
  · next r hr =>
    split at h
    · next i hi => exact .inr (.inl ⟨r, i, hr, hi, h⟩)
    · cases h
  · next hr =>
    split at h
    · next hb => cases h; exact .inl ⟨hr, hb, rfl⟩
    · next r rest hb =>
      split at h
      · next i hi => exact .inr (.inr ⟨r, rest, i, hr, hb, hi, h⟩)
      · cases h

/-- A property that taking a request and every operation keep, every step keeps. -/
theorem step_keeps {P : State → Prop} (internal : ∀ s, P s → P (takeInternal s))
    (request : ∀ rest s, P s → P (takeRequest rest s))
    (operation : ∀ i s t, P s → exec i s = .next t → P t)
    {s t : State} (hs : P s) (h : step s = .next t) : P t := by
  rcases step_eq_next h with ⟨_, _, rfl⟩ | ⟨_, i, _, _, hi⟩ | ⟨_, rest, i, _, _, _, hi⟩
  · exact hs
  · exact operation i _ t (internal s hs) hi
  · exact operation i _ t (request rest s hs) hi

/-- What a write after its flush did when it answered (`46_pixel_generation.md` R350). -/
theorem flushed_eq_next {g : State → State} {s t : State}
    (h : andThen (flushLine s) (fun u => .next (g u)) = .next t) :
    ∃ l, Flushed s l ∧ t = g (afterPaint l s) := by
  obtain ⟨u, hu, ht⟩ := andThen_eq_next h
  obtain ⟨l, rfl, hl⟩ := flushLine_spec hu
  cases ht
  exact ⟨l, hl, rfl⟩

end Sys2Proof.Machine
end

section
/-! The outputs and what is told of them (`00_scope.md` R13). The notifications of an output are only
ever extended by driving it (`setHs`, `setFs`, `setIrq`, `updateLevels`), each time by one exactly
where the level changes; the notices of cycles and rows concern no output, and every other update
leaves the trace and the four levels as they are. -/

namespace Sys2Proof.Machine

/-! One output. -/

/-- Driving an output to a level, with its notice on a change only, keeps its notifications told. -/
theorem outputTold_driven {start level l : Bool} {f : Notice → Option Bool} {n : Notice}
    {s t : State} (ht : t.trace = levelTrace (level != l) n s) (hn : f n = some l)
    (h : outputTold start level f s = true) : outputTold start l f t = true := by
  unfold outputTold at *
  by_cases hl : level = l
  · subst hl
    simpa [ht, levelTrace] using h
  · have hnot : (!l) = level := by cases l <;> cases level <;> simp_all
    have hc : (level != l) = true := by simpa using hl
    simpa [ht, levelTrace, notified, hc, hn, toggles, hnot] using h

/-- A notice that is not of this output leaves its notifications as they were. -/
theorem outputTold_other {start level changed : Bool} {f : Notice → Option Bool} {n : Notice}
    {s t : State} (ht : t.trace = levelTrace changed n s) (hn : f n = none)
    (h : outputTold start level f s = true) : outputTold start level f t = true := by
  unfold outputTold at *
  cases changed <;> simpa [ht, levelTrace, notified, hn] using h

/-! The four outputs under the shared operations. -/

/-- What is told, and the levels it is told of. -/
def State.outputs (s : State) : List (Nat × Notice) × Bool × Bool × Bool × Bool :=
  (s.trace, s.hsLevel, s.fsLevel, s.irqLevel, s.firqLevel)

/-- Whether the outputs are told depends on the levels and the trace only. -/
theorem outputsTold_congr {s t : State} (h : OutputsTold s) (e : t.outputs = s.outputs) :
    OutputsTold t := by
  simp only [State.outputs, Prod.mk.injEq] at e
  obtain ⟨htrace, hhs, hfs, hirq, hfirq⟩ := e
  simpa only [OutputsTold, outputTold, htrace, hhs, hfs, hirq, hfirq] using h

/-- A notice of no output keeps the outputs told. -/
theorem emit_told {n : Notice} {s : State} (hhs : hsOf n = none) (hfs : fsOf n = none)
    (hirq : irqOf n = none) (hfirq : firqOf n = none) (h : OutputsTold s) :
    OutputsTold (emit n s) := by
  obtain ⟨ths, tfs, tirq, tfirq⟩ := h
  have e : (emit n s).trace = levelTrace true n s := rfl
  exact ⟨outputTold_other e hhs ths, outputTold_other e hfs tfs, outputTold_other e hirq tirq,
    outputTold_other e hfirq tfirq⟩

theorem setHs_told (l : Bool) {s : State} (h : OutputsTold s) : OutputsTold (setHs l s) := by
  obtain ⟨ths, tfs, tirq, tfirq⟩ := h
  have e := setHs_trace l s
  exact ⟨outputTold_driven e rfl ths, outputTold_other e rfl tfs, outputTold_other e rfl tirq,
    outputTold_other e rfl tfirq⟩

theorem setFs_told (l : Bool) {s : State} (h : OutputsTold s) : OutputsTold (setFs l s) := by
  obtain ⟨ths, tfs, tirq, tfirq⟩ := h
  have e := setFs_trace l s
  exact ⟨outputTold_other e rfl ths, outputTold_driven e rfl tfs, outputTold_other e rfl tirq,
    outputTold_other e rfl tfirq⟩

theorem setIrq_told (l : Bool) {s : State} (h : OutputsTold s) : OutputsTold (setIrq l s) := by
  obtain ⟨ths, tfs, tirq, tfirq⟩ := h
  have e := setIrq_trace l s
  exact ⟨outputTold_other e rfl ths, outputTold_other e rfl tfs, outputTold_driven e rfl tirq,
    outputTold_other e rfl tfirq⟩

/-- `UpdateLevels()` drives IRQ as `setIrq` does, then FIRQ (`60_exceptions.md` R458). -/
theorem updateLevels_told {s : State} (h : OutputsTold s) : OutputsTold (updateLevels s) := by
  obtain ⟨ths, tfs, tirq, tfirq⟩ :=
    setIrq_told (computeLevel s.fields.ien s.pendingIrq) h
  have e := updateLevels_trace s
  rw [levelsTrace] at e
  exact ⟨outputTold_other e rfl ths, outputTold_other e rfl tfs, outputTold_other e rfl tirq,
    outputTold_driven e rfl tfirq⟩

theorem raiseIrq_told (m : IrqMask) {s : State} (h : OutputsTold s) : OutputsTold (raiseIrq m s) :=
  updateLevels_told (outputsTold_congr (t := latchSources m s) h rfl)

theorem readIrqPending_told {s : State} (h : OutputsTold s) : OutputsTold (readIrqPending s) :=
  updateLevels_told (outputsTold_congr (t := takeIrq s) h rfl)

theorem readFirqPending_told {s : State} (h : OutputsTold s) : OutputsTold (readFirqPending s) :=
  updateLevels_told (outputsTold_congr (t := takeFirq s) h rfl)

/-! The timer. -/

theorem expireTimer_told {s : State} (h : OutputsTold s) : OutputsTold (expireTimer s) :=
  outputsTold_congr (raiseIrq_told irqTimer (outputsTold_congr (t := toggleBlink s) h rfl)) rfl

theorem clockTimer_told {s : State} (h : OutputsTold s) : OutputsTold (clockTimer s) := by
  have hc : OutputsTold (countTimer true (s.timerCounter - 1) s) := outputsTold_congr h rfl
  unfold clockTimer expireAtZero
  split_ifs
  · exact expireTimer_told hc
  · exact hc
  · exact h

theorem onTimer_told (tick : Nat) {s : State} (h : OutputsTold s) : OutputsTold (onTimer tick s) := by
  unfold onTimer rearmTimer
  split_ifs
  · exact outputsTold_congr (expireTimer_told h) rfl
  · exact expireTimer_told h
  · exact h

theorem loadTimer_outputs (s : State) : (loadTimer s).outputs = s.outputs := by
  unfold loadTimer
  split_ifs <;> rfl

/-! The raster. -/

theorem advanceRow_outputs (s : State) : (advanceRow s).outputs = s.outputs := by
  unfold advanceRow
  split_ifs <;> rfl

theorem startCounters_outputs (s : State) : (startCounters s).outputs = s.outputs := by
  unfold startCounters
  split <;> rfl

theorem stepVertical_told {s : State} (h : OutputsTold s) : OutputsTold (stepVertical s) := by
  unfold stepVertical
  split_ifs
  · exact outputsTold_congr (t := startField s) (setFs_told true h) rfl
  · exact h
  · exact setFs_told false (outputsTold_congr (t := enterState .vsync s) h rfl)
  · exact outputsTold_congr h rfl
  · exact outputsTold_congr h rfl
  · exact outputsTold_congr h rfl
  · exact h

/-- The steps of a horizontal-sync fall after the delivery, in order: only the sync fall and the
vertical step drive an output (`44_raster.md` R295). -/
theorem nextLine_told (tick : Nat) {s : State} (h : OutputsTold s) : OutputsTold (nextLine tick s) := by
  have hrow : OutputsTold (advanceRow s) := outputsTold_congr h (advanceRow_outputs s)
  have hline : OutputsTold (beginLine tick (advanceRow s)) :=
    outputsTold_congr (setHs_told false hrow) rfl
  have hcounters := outputsTold_congr (stepVertical_told hline) (startCounters_outputs _)
  exact outputsTold_congr hcounters rfl

theorem onHBord_told {s : State} (h : OutputsTold s) : OutputsTold (onHBord s) := by
  have hpulse : OutputsTold (vbordPulse (raiseIrq irqHBord s)) := by
    unfold vbordPulse
    split
    · exact raiseIrq_told _ (raiseIrq_told _ h)
    · exact raiseIrq_told _ h
  unfold onHBord slowClock
  split
  · exact hpulse
  · exact clockTimer_told hpulse

theorem announceRow_told {s : State} (h : OutputsTold s) : OutputsTold (announceRow s) :=
  outputsTold_congr
    (emit_told (n := .renderRow (deliveredRow s) s.cfg.nVis s.mode.burstSel) rfl rfl rfl rfl h) rfl

theorem voRow_outputs {sel : BurstSel} {n : Nat} {buf : List Byte} {s t : State}
    (h : voRow sel n buf s = .next t) : t.outputs = s.outputs := by
  unfold voRow at h
  split at h
  · split at h <;> cases h
    rfl
  · cases h; rfl

theorem deliverRow_told {s t : State} (hs : OutputsTold s) (h : deliverRow s = .next t) :
    OutputsTold t := by
  unfold deliverRow at h
  split_ifs at h
  · cases h; exact hs
  · exact outputsTold_congr (announceRow_told hs) (voRow_outputs h)
  · cases h; exact announceRow_told hs

theorem renderToPos_outputs {p : Nat} {s t : State} (h : renderToPos p s = .next t) :
    t.outputs = s.outputs := by
  obtain ⟨l, rfl, _⟩ := renderToPos_spec h
  rfl

theorem flushLine_outputs {s t : State} (h : flushLine s = .next t) : t.outputs = s.outputs := by
  obtain ⟨l, rfl, _⟩ := flushLine_spec h
  rfl

theorem paintOneCell_outputs {s t : State} (h : paintOneCell s = .next t) :
    t.outputs = s.outputs := by
  unfold paintOneCell withLine at h
  split at h <;> cases h
  rfl

theorem completeLine_told {s t : State} (hs : OutputsTold s) (h : completeLine s = .next t) :
    OutputsTold t := by
  unfold completeLine at h
  split at h
  · obtain ⟨u, hu, ht⟩ := andThen_eq_next h
    exact deliverRow_told (outputsTold_congr hs (renderToPos_outputs hu)) ht
  · cases h; exact hs

theorem onHsFall_told {tick : Nat} {s t : State} (hs : OutputsTold s)
    (h : onHsFall tick s = .next t) : OutputsTold t := by
  obtain ⟨u, hu, ht⟩ := andThen_eq_next h
  cases ht
  exact nextLine_told tick (completeLine_told hs hu)

theorem fire_told {ev : EventId} {tick : Nat} {s t : State} (hs : OutputsTold s)
    (h : fire ev tick s = .next t) : OutputsTold t := by
  cases ev with
  | hsFall => exact onHsFall_told hs h
  | hsRise => cases h; exact setHs_told true hs
  | hBord => cases h; exact onHBord_told hs
  | timer => cases h; exact onTimer_told tick hs

theorem advance_told {target : Nat} {s t : State} (hs : OutputsTold s)
    (h : advance target s = .next t) : OutputsTold t :=
  advance_induct (P := OutputsTold) (fun _ _ _ _ hu => outputsTold_congr hu rfl)
    (fun _ _ _ _ hu hf => fire_told hu hf) (fun _ _ hu => outputsTold_congr hu rfl) h hs

/-! The bus cycle and its effects. -/

theorem platformTransfer_outputs (rnw : Bool) (d : Byte) (b : BusSelect) (s : State) :
    (platformTransfer rnw d b s).outputs = s.outputs := by
  unfold platformTransfer
  split
  · split <;> rfl
  · split_ifs <;> rfl

/-- A cycle keeps the outputs told where its effect does. -/
theorem busCycle_told {rnw : Bool} {a : Addr} {d : Byte} {f : State → Res} {s t : State}
    (effect : ∀ u v, OutputsTold u → f u = .next v → OutputsTold v) (hs : OutputsTold s)
    (h : busCycle rnw a d f s = .next t) : OutputsTold t := by
  obtain ⟨u, hu, ht⟩ := andThen_eq_next h
  have hannounce : OutputsTold (announceCycle rnw a s) :=
    outputsTold_congr
      (emit_told (n := .cycle rnw a (busDecode s a) (cycleTicks s)) rfl rfl rfl rfl hs) rfl
  exact effect _ t
    (outputsTold_congr (advance_told hannounce hu) (platformTransfer_outputs _ _ _ _)) ht

/-- A cycle whose effect only updates the state. -/
theorem busCycle_update_told {rnw : Bool} {a : Addr} {d : Byte} {g : State → State} {s t : State}
    (hs : OutputsTold s) (h : busCycle rnw a d (fun u => .next (g u)) s = .next t)
    (update : ∀ u, OutputsTold u → OutputsTold (g u)) : OutputsTold t :=
  busCycle_told (fun u v hu hv => by cases hv; exact update u hu) hs h

theorem extraEffect_told (n : BitVec 4) (old d : Byte) {s : State} (h : OutputsTold s) :
    OutputsTold (extraEffect n old d s) := by
  unfold extraEffect extraInit1
  split_ifs
  · exact updateLevels_told h
  · exact h
  · exact outputsTold_congr h (loadTimer_outputs s)
  · exact updateLevels_told (outputsTold_congr (t := maskIrq d s) h rfl)
  · exact updateLevels_told (outputsTold_congr (t := maskFirq d s) h rfl)
  · exact outputsTold_congr h (loadTimer_outputs s)
  · exact h

theorem writeReg_told {n : BitVec 4} {d : Byte} {s t : State} (hs : OutputsTold s)
    (h : writeReg n d s = .next t) : OutputsTold t := by
  obtain ⟨l, _, rfl⟩ := flushed_eq_next h
  exact extraEffect_told _ _ _ (outputsTold_congr (t := storeReg n d (afterPaint l s)) hs rfl)

theorem writePal_outputs {i : BitVec 4} {d : Byte} {s t : State} (h : writePal i d s = .next t) :
    t.outputs = s.outputs := by
  obtain ⟨l, _, rfl⟩ := flushed_eq_next h
  rfl

theorem writeSam_outputs {b : BitVec 4} {v : Bool} {s t : State} (h : writeSam b v s = .next t) :
    t.outputs = s.outputs := by
  obtain ⟨l, _, rfl⟩ := flushed_eq_next h
  rfl

theorem writeSnoop_outputs {i : Nat} {d : Byte} {s t : State} (h : writeSnoop i d s = .next t) :
    t.outputs = s.outputs := by
  obtain ⟨l, _, rfl⟩ := flushed_eq_next h
  rfl

theorem readRegBus_told (n : BitVec 4) {s : State} (h : OutputsTold s) :
    OutputsTold (readRegBus n s) := by
  unfold readRegBus
  split_ifs
  · exact readIrqPending_told h
  · exact readFirqPending_told h
  · exact outputsTold_congr h rfl

theorem readRegister_told (n : BitVec 4) {s : State} (h : OutputsTold s) :
    OutputsTold (readRegister n s) := by
  unfold readRegister
  split_ifs
  · exact readIrqPending_told h
  · exact readFirqPending_told h
  · exact outputsTold_congr h rfl

theorem windowEffect_told {rnw : Bool} {a : Addr} {d : Byte} {s t : State} (hs : OutputsTold s)
    (h : windowEffect rnw a d s = .next t) : OutputsTold t := by
  unfold windowEffect at h
  cases hw : windowOf s.cfg.win a <;> simp only [hw] at h
  case ramLo | upper | fexx | vec => cases h; exact hs
  case io =>
    split at h
    · exact outputsTold_congr hs (writeSnoop_outputs h)
    · cases h; exact hs
  case reg =>
    split at h
    · cases h; exact readRegBus_told _ hs
    · exact writeReg_told hs h
  case mmu => cases rnw <;> cases h <;> exact outputsTold_congr hs rfl
  case pal =>
    split at h
    · cases h; exact outputsTold_congr hs rfl
    · exact outputsTold_congr hs (writePal_outputs h)
  case sam =>
    split at h
    · cases h; exact outputsTold_congr hs rfl
    · exact outputsTold_congr hs (writeSam_outputs h)

/-! The calls. -/

theorem resetBlock_told {s : State} (h : OutputsTold s) : OutputsTold (resetBlock s) := by
  have hclear : OutputsTold (clearState s) := outputsTold_congr h rfl
  have hsync := setFs_told true (setHs_told true hclear)
  exact updateLevels_told
    (outputsTold_congr (t := recomputeAll (resetQueue (setFs true (setHs true (clearState s)))))
      hsync rfl)

theorem withRow_outputs {s t : State} {row : Option (List Rgb)} (h : withRow s row = .next t) :
    t.outputs = s.outputs := by
  unfold withRow at h
  split at h <;> cases h
  rfl

/-- Every operation keeps the outputs told. -/
theorem exec_told {i : Instr} {s t : State} (hs : OutputsTold s) (h : exec i s = .next t) :
    OutputsTold t := by
  cases i with
  | busRamLo rnw a d | busUpper rnw a d | busFexx rnw a d | busIo rnw a d | busVec rnw a d =>
    exact busCycle_update_told (g := id) hs h fun _ hu => hu
  | snoopWr a d =>
    exact busCycle_told (fun _ _ hu hv => outputsTold_congr hu (writeSnoop_outputs hv)) hs h
  | regWr0 d a | regWr1 d a | regWr2 d a | regWr3 d a | regWr4 d a | regWr5 d a | regWr6 d a
  | regWr7 d a | regWr8 d a | regWr9 d a | regWr10 d a | regWr11 d a | regWr12 d a
  | regWr13 d a | regWr14 d a | regWr15 d a =>
    exact busCycle_told (fun _ _ hu hv => writeReg_told hu hv) hs h
  | regRd2 a => exact busCycle_update_told hs h fun _ hu => readIrqPending_told hu
  | regRd3 a => exact busCycle_update_told hs h fun _ hu => readFirqPending_told hu
  | regRdX a | mmuRd a | palRd a | samRd a | mmuWr a d =>
    exact busCycle_update_told hs h fun _ hu => outputsTold_congr hu rfl
  | palWr a d =>
    exact busCycle_told (fun _ _ hu hv => outputsTold_congr hu (writePal_outputs hv)) hs h
  | samClr a d | samSet a d =>
    exact busCycle_told (fun _ _ hu hv => outputsTold_congr hu (writeSam_outputs hv)) hs h
  | evHsFall tick seq => exact onHsFall_told hs h
  | evHsRise tick seq => cases h; exact setHs_told true hs
  | evHBord tick seq => cases h; exact onHBord_told hs
  | evTimer tick seq => cases h; exact onTimer_told tick hs
  | schedule ev tick => cases h; exact outputsTold_congr hs rfl
  | cancel ev => cases h; exact outputsTold_congr hs rfl
  | advanceTo target => exact advance_told hs h
  | memoryCycle rnw a d => exact busCycle_told (fun _ _ hu hv => windowEffect_told hu hv) hs h
  | reset => cases h; exact resetBlock_told hs
  | setRegister index value =>
    simp only [exec, execSetRegister] at h
    split at h
    · exact writeReg_told hs h
    · cases h
  | getRegister index =>
    simp only [exec, execGetRegister] at h
    split at h <;> cases h
    exact readRegister_told _ hs
  | setMmuBank index page =>
    simp only [exec, execSetMmuBank] at h
    split at h <;> cases h
    exact outputsTold_congr hs rfl
  | setPaletteEntry index y pb pr =>
    simp only [exec, execSetPaletteEntry, setColour] at h
    split at h <;> cases h
    exact outputsTold_congr hs rfl
  | setBurst index offset =>
    simp only [exec, execSetBurst, rebuildBurst] at h
    split at h <;> cases h
    exact outputsTold_congr hs rfl
  | setHue degrees => cases h; exact outputsTold_congr hs rfl
  | renderPalette sel n buf | renderArt2 sel n buf | renderArt5 sel n buf | renderSim sel n buf =>
    exact outputsTold_congr hs (withRow_outputs h)
  | voRenderRow sel n buf => exact outputsTold_congr hs (voRow_outputs h)
  | recompute => cases h; exact outputsTold_congr hs rfl
  | regWrite n d => exact writeReg_told hs h
  | flush => exact outputsTold_congr hs (flushLine_outputs h)
  | renderTo p => exact outputsTold_congr hs (renderToPos_outputs h)
  | cell => exact outputsTold_congr hs (paintOneCell_outputs h)
  | raise m => cases h; exact raiseIrq_told m hs
  | updateLevels => cases h; exact updateLevels_told hs
  | timerLoad => cases h; exact outputsTold_congr hs (loadTimer_outputs s)
  | timerClock => cases h; exact clockTimer_told hs
  | timerExpire => cases h; exact expireTimer_told hs
  | finishLine => exact completeLine_told hs h
  | rowAdvance => cases h; exact outputsTold_congr hs (advanceRow_outputs s)
  | verticalStep => cases h; exact stepVertical_told hs
  | lineCounters => cases h; exact outputsTold_congr hs (startCounters_outputs s)
  | scheduleLine tick => cases h; exact outputsTold_congr hs rfl

/-- Settles O59: each operation keeps the outputs told, and taking it from where it waits touches no
output. -/
theorem stepsTellTheOutputs : Obligations.StepsTellTheOutputs := by
  unfold Obligations.StepsTellTheOutputs
  exact fun _ _ hs h => step_keeps (P := OutputsTold) (fun _ hu => outputsTold_congr hu rfl)
    (fun _ _ hu => outputsTold_congr hu rfl) (fun _ _ _ hu hi => exec_told hu hi) hs h

end Sys2Proof.Machine
end

section
/-! Which operations change the registers, the bank and palette entries, the SAM bits and the snooped
latches (`00_scope.md` R19, `41_bus_decode.md` R206). Events, transfers, painting and reads leave all
of these files as they are; each write changes its own file only; so every well-formed operation other
than `reset` changes at most the file it is a writer of. -/

namespace Sys2Proof.Machine

/-! The files of the state. -/

/-- What the operations of the internal windows write: the stored values of `10_state.md` R23 and
R35 to R38. -/
structure WindowFiles where
  reg : Vector Byte 16
  bank : Vector Nat 16
  pal : Vector Colour 16
  sam : BitVec 16
  snoop0 : Byte
  snoop1 : Byte

/-- The files as they stand in a state. -/
def State.files (s : State) : WindowFiles :=
  ⟨s.reg, s.bank, s.pal, s.sam, s.snoop0, s.snoop1⟩

/-- No event and no callback writes a file (`40_scheduler.md` R172). -/
theorem EventFrame.files {s t : State} (h : EventFrame s t) : t.files = s.files := by
  rw [h]
  rfl

/-! Updates that write no file. -/

theorem platformTransfer_files (rnw : Bool) (d : Byte) (b : BusSelect) (s : State) :
    (platformTransfer rnw d b s).files = s.files := by
  unfold platformTransfer
  split
  · split <;> rfl
  · split_ifs <;> rfl

theorem platformTransfer_cfg (rnw : Bool) (d : Byte) (b : BusSelect) (s : State) :
    (platformTransfer rnw d b s).cfg = s.cfg := by
  unfold platformTransfer
  split
  · split <;> rfl
  · split_ifs <;> rfl

theorem renderToPos_frame {p : Nat} {s t : State} (h : renderToPos p s = .next t) :
    EventFrame s t := by
  obtain ⟨l, rfl, _⟩ := renderToPos_spec h
  exact afterPaint_frame l s

theorem flushLine_frame {s t : State} (h : flushLine s = .next t) : EventFrame s t := by
  obtain ⟨l, rfl, _⟩ := flushLine_spec h
  exact afterPaint_frame l s

theorem paintOneCell_frame {s t : State} (h : paintOneCell s = .next t) : EventFrame s t := by
  unfold paintOneCell withLine at h
  split at h <;> cases h
  exact afterPaint_frame _ s

theorem loadTimer_frame (s : State) : EventFrame s (loadTimer s) := by
  unfold loadTimer
  split_ifs <;> rfl

/-- What a register's write does beyond storing it lies within what events may change. -/
theorem extraEffect_frame (n : BitVec 4) (old d : Byte) (s : State) :
    EventFrame s (extraEffect n old d s) := by
  unfold extraEffect extraInit1
  split_ifs
  · exact updateLevels_frame s
  · rfl
  · exact loadTimer_frame s
  · exact (show EventFrame s (maskIrq d s) from rfl).trans (updateLevels_frame _)
  · exact (show EventFrame s (maskFirq d s) from rfl).trans (updateLevels_frame _)
  · exact loadTimer_frame s
  · rfl

theorem readRegBus_files (n : BitVec 4) (s : State) : (readRegBus n s).files = s.files := by
  unfold readRegBus
  split_ifs <;> rfl

theorem readRegister_files (n : BitVec 4) (s : State) : (readRegister n s).files = s.files := by
  unfold readRegister
  split_ifs <;> rfl

theorem withRow_files {s t : State} {row : Option (List Rgb)} (h : withRow s row = .next t) :
    t.files = s.files := by
  unfold withRow at h
  split at h <;> cases h
  rfl

/-! Writes: each changes its own file only. -/

theorem writeReg_files {n : BitVec 4} {d : Byte} {s t : State} (h : writeReg n d s = .next t) :
    t.files = { s.files with reg := t.files.reg } := by
  obtain ⟨l, _, rfl⟩ := flushed_eq_next h
  rw [writeRegNow, (extraEffect_frame _ _ _ _).files]
  rfl

theorem writePal_files {i : BitVec 4} {d : Byte} {s t : State} (h : writePal i d s = .next t) :
    t.files = { s.files with pal := t.files.pal } := by
  obtain ⟨l, _, rfl⟩ := flushed_eq_next h
  rfl

theorem writeSam_files {b : BitVec 4} {v : Bool} {s t : State} (h : writeSam b v s = .next t) :
    t.files = { s.files with sam := t.files.sam } := by
  obtain ⟨l, _, rfl⟩ := flushed_eq_next h
  rfl

theorem writeSnoop_files {i : Nat} {d : Byte} {s t : State} (h : writeSnoop i d s = .next t) :
    t.files = { s.files with snoop0 := t.files.snoop0, snoop1 := t.files.snoop1 } := by
  obtain ⟨l, _, rfl⟩ := flushed_eq_next h
  rfl

/-! The writers of each file. -/

/-- The operations that write a register: the write of its address, `RegWrite`, `set_register`, and
`memory_cycle` at its address. -/
def WritesReg (m : WindowMap) (i : Instr) : Prop :=
  (∃ a d, i = decodeRegWrite a d) ∨ (∃ n d, i = .regWrite n d) ∨ (∃ k v, i = .setRegister k v) ∨
    ∃ a d, windowOf m a = .reg ∧ i = .memoryCycle false a d

/-- The operations that write a bank entry. -/
def WritesBank (m : WindowMap) (i : Instr) : Prop :=
  (∃ a d, i = .mmuWr a d) ∨ (∃ k p, i = .setMmuBank k p) ∨
    ∃ a d, windowOf m a = .mmu ∧ i = .memoryCycle false a d

/-- The operations that write a palette entry. -/
def WritesPal (m : WindowMap) (i : Instr) : Prop :=
  (∃ a d, i = .palWr a d) ∨ ∃ a d, windowOf m a = .pal ∧ i = .memoryCycle false a d

/-- The operations that write a SAM bit. -/
def WritesSam (m : WindowMap) (i : Instr) : Prop :=
  (∃ a d, i = .samClr a d ∨ i = .samSet a d) ∨
    ∃ a d, windowOf m a = .sam ∧ i = .memoryCycle false a d

/-- The operations that write a snooped latch. -/
def WritesSnoop (m : WindowMap) (i : Instr) : Prop :=
  (∃ a d, i = .snoopWr a d) ∨
    ∃ a d, windowOf m a = .io ∧ snoopedWrite m false a = true ∧ i = .memoryCycle false a d

/-- What an operation does to the files: nothing, all of `reset`, or a change of the one file that
it is a writer of. -/
inductive FileChange (m : WindowMap) (i : Instr) (f g : WindowFiles) : Prop
  | none (same : g = f)
  | reset (isReset : i = .reset)
  | reg (writer : WritesReg m i) (others : g = { f with reg := g.reg })
  | bank (writer : WritesBank m i) (others : g = { f with bank := g.bank })
  | pal (writer : WritesPal m i) (others : g = { f with pal := g.pal })
  | sam (writer : WritesSam m i) (others : g = { f with sam := g.sam })
  | snoop (writer : WritesSnoop m i)
      (others : g = { f with snoop0 := g.snoop0, snoop1 := g.snoop1 })

section
variable {m : WindowMap} {i : Instr} {f g : WindowFiles}

theorem FileChange.of_reg_ne (c : FileChange m i f g) (h : g.reg ≠ f.reg) :
    i = .reset ∨ WritesReg m i := by
  cases c with
  | reset e => exact .inl e
  | reg w _ => exact .inr w
  | none e | bank _ e | pal _ e | sam _ e | snoop _ e => exact absurd (congrArg WindowFiles.reg e) h

theorem FileChange.of_bank_ne (c : FileChange m i f g) (h : g.bank ≠ f.bank) :
    i = .reset ∨ WritesBank m i := by
  cases c with
  | reset e => exact .inl e
  | bank w _ => exact .inr w
  | none e | reg _ e | pal _ e | sam _ e | snoop _ e => exact absurd (congrArg WindowFiles.bank e) h

theorem FileChange.of_pal_ne (c : FileChange m i f g) (h : g.pal ≠ f.pal) :
    i = .reset ∨ WritesPal m i := by
  cases c with
  | reset e => exact .inl e
  | pal w _ => exact .inr w
  | none e | reg _ e | bank _ e | sam _ e | snoop _ e => exact absurd (congrArg WindowFiles.pal e) h

theorem FileChange.of_sam_ne (c : FileChange m i f g) (h : g.sam ≠ f.sam) :
    i = .reset ∨ WritesSam m i := by
  cases c with
  | reset e => exact .inl e
  | sam w _ => exact .inr w
  | none e | reg _ e | bank _ e | pal _ e | snoop _ e => exact absurd (congrArg WindowFiles.sam e) h

theorem FileChange.of_snoop_ne (c : FileChange m i f g)
    (h : g.snoop0 ≠ f.snoop0 ∨ g.snoop1 ≠ f.snoop1) : i = .reset ∨ WritesSnoop m i := by
  cases c with
  | reset e => exact .inl e
  | snoop w _ => exact .inr w
  | none e | reg _ e | bank _ e | pal _ e | sam _ e =>
    have h0 : g.snoop0 = f.snoop0 := by rw [e]
    have h1 : g.snoop1 = f.snoop1 := by rw [e]
    exact h.elim (absurd h0) (absurd h1)

end

/-! The cycles. -/

/-- A cycle does to the files what its effect does: its events and its transfer write none. -/
theorem busCycle_files {rnw : Bool} {a : Addr} {d : Byte} {f : State → Res} {s t : State}
    (h : busCycle rnw a d f s = .next t) :
    ∃ u, u.files = s.files ∧ u.cfg = s.cfg ∧ f u = .next t := by
  obtain ⟨u, hframe, _, _, ht⟩ := busCycle_spec h
  exact ⟨_, (platformTransfer_files ..).trans hframe.files,
    (platformTransfer_cfg ..).trans hframe.cfg, ht⟩

/-- A cycle whose effect only updates the state, and no file of it, writes no file. -/
theorem busCycle_update_files {rnw : Bool} {a : Addr} {d : Byte} {g : State → State} {s t : State}
    (h : busCycle rnw a d (fun u => .next (g u)) s = .next t)
    (update : ∀ u, (g u).files = u.files) : t.files = s.files := by
  obtain ⟨u, hfiles, _, ht⟩ := busCycle_files h
  cases ht
  exact (update u).trans hfiles

/-- A cycle that writes a register changes no other file. -/
theorem regWriteCycle_files {n : BitVec 4} {a : Addr} {d : Byte} {s t : State}
    (h : regWriteCycle n a d s = .next t) : t.files = { s.files with reg := t.files.reg } := by
  obtain ⟨u, hfiles, _, ht⟩ := busCycle_files h
  exact hfiles ▸ writeReg_files ht

theorem indexOf_of_isRegister {m : WindowMap} {n : BitVec 4} {a : Addr}
    (h : isRegister m n a = true) : indexOf a = n := by
  simp only [isRegister, Bool.and_eq_true, beq_iff_eq] at h
  exact h.2

/-- The effect of `memory_cycle` changes the file of the address's window only, and in a write only
(`41_bus_decode.md` R206). -/
theorem windowEffect_change {rnw : Bool} {a : Addr} {d : Byte} {s t : State}
    (h : windowEffect rnw a d s = .next t) :
    FileChange s.cfg.win (.memoryCycle rnw a d) s.files t.files := by
  unfold windowEffect at h
  cases hw : windowOf s.cfg.win a <;> simp only [hw] at h
  case ramLo | upper | fexx | vec => cases h; exact .none rfl
  case io =>
    split at h
    · next hsnoop =>
      have hrnw : rnw = false := by cases rnw <;> simp_all [snoopedWrite]
      subst hrnw
      exact .snoop (.inr ⟨a, d, hw, hsnoop, rfl⟩) (writeSnoop_files h)
    · cases h; exact .none rfl
  case reg =>
    cases rnw
    · exact .reg (.inr (.inr (.inr ⟨a, d, hw, rfl⟩))) (writeReg_files h)
    · cases h; exact .none (readRegBus_files _ s)
  case mmu =>
    cases rnw <;> cases h
    · exact .bank (.inr (.inr ⟨a, d, hw, rfl⟩)) rfl
    · exact .none rfl
  case pal =>
    cases rnw
    · exact .pal (.inr ⟨a, d, hw, rfl⟩) (writePal_files h)
    · cases h; exact .none rfl
  case sam =>
    cases rnw
    · exact .sam (.inr ⟨a, d, hw, rfl⟩) (writeSam_files h)
    · cases h; exact .none rfl

/-! Every operation. -/

/-- What each well-formed operation does to the files. -/
theorem exec_change {i : Instr} {s t : State} (hwf : i.wellFormed s.cfg.win = true)
    (h : exec i s = .next t) : FileChange s.cfg.win i s.files t.files := by
  cases i with
  | busRamLo rnw a d | busUpper rnw a d | busFexx rnw a d | busIo rnw a d | busVec rnw a d =>
    exact .none (busCycle_update_files (g := id) h fun _ => rfl)
  | snoopWr a d =>
    obtain ⟨u, hfiles, _, ht⟩ := busCycle_files h
    exact .snoop (.inl ⟨a, d, rfl⟩) (hfiles ▸ writeSnoop_files ht)
  | regWr0 d a | regWr1 d a | regWr2 d a | regWr3 d a | regWr4 d a | regWr5 d a | regWr6 d a
  | regWr7 d a | regWr8 d a | regWr9 d a | regWr10 d a | regWr11 d a | regWr12 d a
  | regWr13 d a | regWr14 d a | regWr15 d a =>
    have hindex := indexOf_of_isRegister hwf
    exact .reg (.inl ⟨a, d, by rw [decodeRegWrite, hindex]; rfl⟩) (regWriteCycle_files h)
  | regRd2 a | regRd3 a | regRdX a | mmuRd a | palRd a | samRd a =>
    exact .none (busCycle_update_files h fun _ => rfl)
  | mmuWr a d =>
    obtain ⟨u, hfiles, _, ht⟩ :=
      busCycle_files (f := fun u => .next (writeBank (indexOf a) d.toNat u)) h
    cases ht
    exact .bank (.inl ⟨a, d, rfl⟩) (by rw [← hfiles]; rfl)
  | palWr a d =>
    obtain ⟨u, hfiles, _, ht⟩ := busCycle_files h
    exact .pal (.inl ⟨a, d, rfl⟩) (hfiles ▸ writePal_files ht)
  | samClr a d =>
    obtain ⟨u, hfiles, _, ht⟩ := busCycle_files h
    exact .sam (.inl ⟨a, d, .inl rfl⟩) (hfiles ▸ writeSam_files ht)
  | samSet a d =>
    obtain ⟨u, hfiles, _, ht⟩ := busCycle_files h
    exact .sam (.inl ⟨a, d, .inr rfl⟩) (hfiles ▸ writeSam_files ht)
  | evHsFall tick seq => exact .none (onHsFall_frame h).files
  | evHsRise tick seq => cases h; exact .none rfl
  | evHBord tick seq => cases h; exact .none (onHBord_frame s).files
  | evTimer tick seq => cases h; exact .none (onTimer_frame tick s).files
  | schedule ev tick => cases h; exact .none rfl
  | cancel ev => cases h; exact .none rfl
  | advanceTo target =>
    obtain ⟨_, hframe, _, _⟩ := advance_spec h
    exact .none hframe.files
  | memoryCycle rnw a d =>
    obtain ⟨u, hfiles, hcfg, ht⟩ := busCycle_files h
    exact hfiles ▸ hcfg ▸ windowEffect_change ht
  | reset => exact .reset rfl
  | setRegister index value =>
    simp only [exec, execSetRegister] at h
    split at h
    · exact .reg (.inr (.inr (.inl ⟨index, value, rfl⟩))) (writeReg_files h)
    · cases h
  | getRegister index =>
    simp only [exec, execGetRegister] at h
    split at h <;> cases h
    exact .none (readRegister_files _ s)
  | setMmuBank index page =>
    simp only [exec, execSetMmuBank] at h
    split at h <;> cases h
    exact .bank (.inr (.inl ⟨index, page, rfl⟩)) rfl
  | setPaletteEntry index y pb pr =>
    simp only [exec, execSetPaletteEntry, setColour] at h
    split at h <;> cases h
    exact .none rfl
  | setBurst index offset =>
    simp only [exec, execSetBurst, rebuildBurst] at h
    split at h <;> cases h
    exact .none rfl
  | setHue degrees => cases h; exact .none rfl
  | renderPalette sel n buf | renderArt2 sel n buf | renderArt5 sel n buf | renderSim sel n buf =>
    exact .none (withRow_files h)
  | voRenderRow sel n buf => exact .none (voRow_frame h).files
  | recompute => cases h; exact .none rfl
  | regWrite n d => exact .reg (.inr (.inl ⟨n, d, rfl⟩)) (writeReg_files h)
  | flush => exact .none (flushLine_frame h).files
  | renderTo p => exact .none (renderToPos_frame h).files
  | cell => exact .none (paintOneCell_frame h).files
  | raise m => cases h; exact .none (raiseIrq_frame m s).files
  | updateLevels => cases h; exact .none (updateLevels_frame s).files
  | timerLoad => cases h; exact .none (loadTimer_frame s).files
  | timerClock => cases h; exact .none (clockTimer_frame s).files
  | timerExpire => cases h; exact .none (expireTimer_frame s).files
  | finishLine => exact .none (completeLine_frame h).files
  | rowAdvance => cases h; exact .none (advanceRow_frame s).files
  | verticalStep => cases h; exact .none (stepVertical_frame s).files
  | lineCounters => cases h; exact .none (startCounters_frame s).files
  | scheduleLine tick => cases h; exact .none (scheduleRaster_frame tick s).files

/-- Settles O60: an operation changes at most the file it is a writer of, unless it is `reset`. -/
theorem onlyWritesChangeTheRegisters : Obligations.OnlyWritesChangeTheRegisters := by
  unfold Obligations.OnlyWritesChangeTheRegisters
  intro i s t hwf h
  have change := exec_change hwf h
  exact ⟨change.of_reg_ne, change.of_bank_ne, change.of_pal_ne, change.of_sam_ne,
    change.of_snoop_ne⟩

end Sys2Proof.Machine
end

section
/-! What an operation is made of. Every operation that answers is a run of a few kinds of update, each
of which touches little of what the invariants of the state speak of; so an invariant that each kind
keeps, every operation keeps. -/

namespace Sys2Proof.Machine

/-! The updates. -/

/-- `t` differs from `s` only in registers and what is derived from them, interrupt masks and levels,
the line counts, and the data that reads and `render_line` calls hand on: nothing that time, the
queue, the memories, the ranges or the line depend on. -/
def Unwatched (s t : State) : Prop :=
  t = { s with
    reg := t.reg, fields := t.fields, mode := t.mode, pal := t.pal, sam := t.sam
    snoop0 := t.snoop0, snoop1 := t.snoop1, pendingIrq := t.pendingIrq
    pendingFirq := t.pendingFirq, irqLevel := t.irqLevel, firqLevel := t.firqLevel
    blink := t.blink, lcount := t.lcount, scanline := t.scanline, lineStart := t.lineStart
    row := t.row, hsLevel := t.hsLevel, hue := t.hue, burst := t.burst, voLine := t.voLine
    readData := t.readData, rowOut := t.rowOut, draws := t.draws }

/-- One round of painting on a line of `s`, within the visible span (`46_pixel_generation.md` R352,
R353). -/
def PaintRound (s : State) (l l' : Line) : Prop :=
  ∃ p n px, p ≤ s.cfg.nVis ∧ Round s p l l' n px

/-- The kinds of update that operations are made of. -/
inductive Update (s : State) : State → Prop
  | unwatched {t : State} (same : Unwatched s t) : Update s t
  /-- A notice that delivers no row. -/
  | notify (n : Notice) (noRow : ∀ c, rowNoticeOk c n = true) : Update s (emit n s)
  /-- The notice that delivers the row, which is painted to its end (`44_raster.md` R302). -/
  | deliver (painted : s.cfg.nVis ≤ s.line.beamPos) :
      Update s (emit (.renderRow (deliveredRow s) s.cfg.nVis s.mode.burstSel) s)
  /-- Time moves forward (`10_state.md` R20). -/
  | time (n : Nat) (forward : s.now ≤ n) : Update s (setNow n s)
  | take (e : QEntry) (q : List QEntry) (head : s.queue = e :: q) : Update s (takeEntry e q s)
  | schedule (ev : EventId) (tick : Nat) : Update s (scheduleEvent ev tick s)
  | cancel (ev : EventId) : Update s (cancelEvent ev s)
  | callback (n : Nat) : Update s (crossings n s)
  | ram (z : Nat) (d : Byte) : Update s (ramWrite z d s)
  | colour (index : Nat) (k : Ycc) : Update s (storeColour index k s)
  | pixels (out : List Rgb) : Update s (storeRow out s)
  | bank (i : BitVec 4) (page : Nat) : Update s (writeBank i page s)
  /-- The timer's count set, never above what a reload gives or the count before, and never to 0 with
  the timer running (`45_timer.md` R332 to R334). -/
  | timer (running : Bool) (n : Nat)
      (range : n ≤ max s.timerCounter (4095 + s.cfg.timerOffset))
      (counts : running = true → 1 ≤ n) : Update s (countTimer running n s)
  | nextRow : Update s (nextRow s)
  /-- From one field state other than `VSYNC` to another (`44_raster.md` R296). -/
  | enter (v : VState) (fromState : s.vstate ≠ .vsync) (toState : v ≠ .vsync) :
      Update s (enterState v s)
  | enterVsync : Update s { enterState .vsync s with fsLevel := false }
  | startField : Update s { fieldVars s with fsLevel := true }
  /-- The line of a horizontal-sync fall: with a geometry that fills the visible span, its counters
  stay within it (`44_raster.md` R280, R300). -/
  | startLine (lb aa vram rb : Nat) (fits : fitsOk s.cfg = true → lb + aa + rb ≤ s.cfg.nVis) :
      Update s (startLine lb aa vram rb s)
  | paint {l : Line} (rounds : Relation.ReflTransGen (PaintRound s) s.line l) :
      Update s (setLine l s)
  | clear : Update s { clearState s with fsLevel := true }

/-- Any number of updates. -/
abbrev Updates : State → State → Prop := Relation.ReflTransGen Update

/-- A property that every kind of update keeps, any number of them keep. -/
theorem Updates.keep {P : State → Prop} (update : ∀ s t, Update s t → P s → P t) {s t : State}
    (h : Updates s t) (hs : P s) : P t := by
  induction h with
  | refl => exact hs
  | tail _ hu ih => exact update _ _ hu ih

/-! The outputs. -/

theorem levelTrace_updates (changed : Bool) {n : Notice} (noRow : ∀ c, rowNoticeOk c n = true)
    (s : State) : Updates s { s with trace := levelTrace changed n s } := by
  cases changed
  · exact .refl
  · exact .single (.notify n noRow)

theorem setHs_updates (l : Bool) (s : State) : Updates s (setHs l s) :=
  (levelTrace_updates (s.hsLevel != l) (n := .hs l) (fun _ => rfl) s).tail (.unwatched rfl)

theorem setIrq_updates (l : Bool) (s : State) : Updates s (setIrq l s) :=
  (levelTrace_updates (s.irqLevel != l) (n := .irq l) (fun _ => rfl) s).tail (.unwatched rfl)

theorem updateLevels_updates (s : State) : Updates s (updateLevels s) :=
  let irq := computeLevel s.fields.ien s.pendingIrq
  let firq := computeLevel s.fields.fen s.pendingFirq
  ((setIrq_updates irq s).trans
    (levelTrace_updates (s.firqLevel != firq) (n := .firq firq) (fun _ => rfl) _)).tail
    (.unwatched rfl)

theorem raiseIrq_updates (m : IrqMask) (s : State) : Updates s (raiseIrq m s) :=
  .head (.unwatched (t := latchSources m s) rfl) (updateLevels_updates _)

theorem readIrqPending_updates (s : State) : Updates s (readIrqPending s) :=
  .head (.unwatched (t := takeIrq s) rfl) (updateLevels_updates _)

theorem readFirqPending_updates (s : State) : Updates s (readFirqPending s) :=
  .head (.unwatched (t := takeFirq s) rfl) (updateLevels_updates _)

/-! The timer. -/

theorem reloadCount_le (s : State) : reloadCount s ≤ 4095 + s.cfg.timerOffset := by
  have := s.fields.timerReload.isLt
  unfold reloadCount
  omega

theorem reloadCount_pos {s : State} (h : s.fields.timerReload ≠ 0) : 1 ≤ reloadCount s := by
  have : s.fields.timerReload.toNat ≠ 0 := fun e => h (BitVec.eq_of_toNat_eq (by simpa using e))
  unfold reloadCount
  omega

theorem loadedTimer_updates {s : State} (h : s.fields.timerReload ≠ 0) :
    Updates s (countTimer true (reloadCount s) s) :=
  .single (.timer true _ (le_max_of_le_right (reloadCount_le s)) fun _ => reloadCount_pos h)

theorem loadTimer_updates (s : State) : Updates s (loadTimer s) := by
  unfold loadTimer
  split_ifs with h0
  · exact .head (.timer false 0 (Nat.zero_le _) (by simp)) (.single (.cancel .timer))
  · exact (loadedTimer_updates h0).tail (.schedule _ _)
  · exact (loadedTimer_updates h0).tail (.cancel _)

theorem reloadTimer_updates (s : State) : Updates s (reloadTimer s) := by
  refine .single (.timer _ _ ?_ ?_)
  · split_ifs
    · exact Nat.zero_le _
    · exact le_max_of_le_right (reloadCount_le s)
  · split_ifs with h0
    · simp
    · exact fun _ => reloadCount_pos h0

theorem expireTimer_updates (s : State) : Updates s (expireTimer s) :=
  (Relation.ReflTransGen.head (.unwatched (t := toggleBlink s) rfl)
    (raiseIrq_updates irqTimer _)).trans (reloadTimer_updates _)

/-- An expiry overwrites the count, so the clock that brought a running timer to 0 leaves no trace of
its own. -/
theorem expireTimer_countTimer {s : State} (h : s.timerRunning = true) (n : Nat) :
    expireTimer (countTimer true n s) = expireTimer s := by
  simp only [expireTimer, reloadTimer, raiseIrq_eq, toggleBlink, countTimer, reloadCount, h]
  rfl

theorem clockTimer_updates (s : State) : Updates s (clockTimer s) := by
  unfold clockTimer expireAtZero
  split_ifs with hrun hzero
  · rw [expireTimer_countTimer hrun]
    exact expireTimer_updates s
  · refine .single (.timer true _ ?_ fun _ => ?_)
    · exact le_max_of_le_left (Nat.sub_le ..)
    · exact Nat.one_le_iff_ne_zero.2 hzero
  · exact .refl

theorem onTimer_updates (tick : Nat) (s : State) : Updates s (onTimer tick s) := by
  unfold onTimer rearmTimer
  split_ifs
  · exact (expireTimer_updates s).tail (.schedule _ _)
  · exact expireTimer_updates s
  · exact .refl

/-! Painting and delivery. -/

/-- The part of a cell that fits holds colour values (`46_pixel_generation.md` R346). -/
theorem cellPixels_take_colour (c : Params) (x : CellCtx) (ch att : Byte) (n : Nat) :
    ((cellPixels c x ch att).take n).all isColour = true := by
  have hcell := cellPixels_colour c x ch att
  rw [List.all_eq_true] at hcell ⊢
  exact fun b hb => hcell b (List.mem_of_mem_take hb)

/-- `Cell()` is a round that asks for no position. -/
theorem cellStep_round {s : State} {l l' : Line} (h : cellStep s l = some l') :
    PaintRound s l l' := by
  obtain ⟨ch, att, c, hpos, hwidth, e⟩ := cellStep_spec h
  have hlength := cellPixels_length s.cfg (cellCtx s) ch att
  refine ⟨0, min (cellWidth s.mode.r) l.aaRem,
    (cellPixels s.cfg (cellCtx s) ch att).take (min (cellWidth s.mode.r) l.aaRem),
    Nat.zero_le _, ?_⟩
  rw [e]
  refine ⟨?_, cellPixels_take_colour _ _ _ _ _, rfl, rfl, ⟨by omega, .inl ?_⟩, rfl, rfl, rfl,
    .inr ⟨c, rfl, ?_⟩⟩
  · rw [List.length_take, hlength]
    exact Nat.min_eq_left (Nat.min_le_left _ _)
  · simp only
    omega
  · rw [hpos, hwidth]

theorem paintLoop_rounds {s : State} {p k : Nat} {l l' : Line} (hp : p ≤ s.cfg.nVis)
    (h : paintLoop s p k l = some l') : Relation.ReflTransGen (PaintRound s) l l' := by
  refine paintLoop_induct (P := Relation.ReflTransGen (PaintRound s) l) ?_ h .refl
  intro m m' _ hm h1
  obtain ⟨n, px, r⟩ := paintStep_round h1
  exact hm.tail ⟨p, n, px, hp, r⟩

/-- A painter that answers has painted rounds and run its callbacks. -/
theorem withLine_updates {s t : State} {o : Option Line} (h : withLine s o = .next t)
    (rounds : ∀ l, o = some l → Relation.ReflTransGen (PaintRound s) s.line l) : Updates s t := by
  unfold withLine at h
  split at h <;> cases h
  exact .head (.paint (rounds _ rfl)) (.single (.callback _))

theorem renderToPos_updates {p : Nat} {s t : State} (h : renderToPos p s = .next t) :
    Updates s t :=
  withLine_updates h fun _ hl => paintLoop_rounds (Nat.min_le_right _ _) hl

theorem paintOneCell_updates {s t : State} (h : paintOneCell s = .next t) : Updates s t :=
  withLine_updates h fun _ hl => .single (cellStep_round hl)

theorem flushLine_updates {s t : State} (h : flushLine s = .next t) : Updates s t := by
  unfold flushLine at h
  split at h
  · exact renderToPos_updates h
  · cases h; exact .refl

theorem voRow_updates {sel : BurstSel} {n : Nat} {buf : List Byte} {s t : State}
    (h : voRow sel n buf s = .next t) : Updates s t := by
  unfold voRow at h
  split at h
  · split at h <;> cases h
    exact .single (.pixels _)
  · cases h; exact .single (.unwatched rfl)

theorem announceRow_updates {s : State} (painted : s.cfg.nVis ≤ s.line.beamPos) :
    Updates s (announceRow s) :=
  .head (.deliver painted) (.single (.callback 1))

theorem deliverRow_updates {s t : State} (painted : s.cfg.nVis ≤ s.line.beamPos)
    (h : deliverRow s = .next t) : Updates s t := by
  unfold deliverRow at h
  split_ifs at h
  · cases h; exact .refl
  · exact (announceRow_updates painted).trans (voRow_updates h)
  · cases h; exact announceRow_updates painted

/-- `RenderTo(N_VIS)` paints the row to its end. -/
theorem renderToPos_nVis_painted {s t : State} (h : renderToPos s.cfg.nVis s = .next t) :
    t.cfg.nVis ≤ t.line.beamPos := by
  obtain ⟨l, rfl, hreach, _⟩ := renderToPos_spec h
  rwa [Nat.min_self] at hreach

theorem completeLine_updates {s t : State} (h : completeLine s = .next t) : Updates s t := by
  unfold completeLine at h
  split at h
  · obtain ⟨u, hu, ht⟩ := andThen_eq_next h
    exact (renderToPos_updates hu).trans (deliverRow_updates (renderToPos_nVis_painted hu) ht)
  · cases h; exact .refl

/-! The raster. -/

theorem advanceRow_updates (s : State) : Updates s (advanceRow s) := by
  unfold advanceRow
  split_ifs
  · exact .single .nextRow
  · exact .single (.unwatched rfl)
  · exact .refl

theorem stepVertical_updates (s : State) : Updates s (stepVertical s) := by
  unfold stepVertical
  split_ifs with hv
  · exact (levelTrace_updates (s.fsLevel != true) (n := .fs true) (fun _ => rfl) s).tail .startField
  · exact .refl
  · exact (levelTrace_updates (s.fsLevel != false) (n := .fs false) (fun _ => rfl) s).tail
      .enterVsync
  · exact .single (.enter .topBorder hv (by decide))
  · exact .head (.enter .active hv (by decide)) (.single (.unwatched rfl))
  · exact .single (.enter .bottomBorder hv (by decide))
  · exact .refl

/-- Borders and active area together are the visible span (`44_raster.md` R280). -/
theorem geometry_fits {c : Params} (h : fitsOk c = true) (wide : Bool) :
    perWidth c.lb wide + perWidth c.aaw wide + perWidth c.rb wide = c.nVis := by
  simp only [fitsOk, Bool.and_eq_true, beq_iff_eq] at h
  obtain ⟨hnarrow, hwide⟩ := h
  cases wide
  · exact hnarrow
  · exact hwide

theorem startCounters_updates (s : State) : Updates s (startCounters s) := by
  unfold startCounters
  split
  · exact .single (.startLine _ _ _ _ fun h => Nat.le_of_eq (geometry_fits h s.mode.wide))
  · exact .single (.startLine _ _ _ _ fun _ => Nat.le_refl _)
  · exact .single (.startLine _ _ _ _ fun _ => Nat.le_refl _)
  · exact .single (.startLine _ _ _ _ fun _ => Nat.zero_le _)
  · exact .single (.startLine _ _ _ _ fun _ => Nat.zero_le _)

theorem scheduleRaster_updates (tick : Nat) (s : State) : Updates s (scheduleRaster tick s) :=
  .head (.schedule _ _) (.head (.schedule _ _) (.single (.schedule _ _)))

theorem beginLine_updates (tick : Nat) (s : State) : Updates s (beginLine tick s) :=
  (setHs_updates false s).tail (.unwatched rfl)

theorem nextLine_updates (tick : Nat) (s : State) : Updates s (nextLine tick s) :=
  ((((advanceRow_updates s).trans (beginLine_updates tick _)).trans (stepVertical_updates _)).trans
    (startCounters_updates _)).trans (scheduleRaster_updates tick _)

theorem onHsFall_updates {tick : Nat} {s t : State} (h : onHsFall tick s = .next t) :
    Updates s t := by
  obtain ⟨u, hu, ht⟩ := andThen_eq_next h
  cases ht
  exact (completeLine_updates hu).trans (nextLine_updates tick u)

theorem vbordPulse_updates (s : State) : Updates s (vbordPulse s) := by
  unfold vbordPulse
  split
  · exact raiseIrq_updates _ s
  · exact .refl

theorem slowClock_updates (s : State) : Updates s (slowClock s) := by
  unfold slowClock
  split
  · exact .refl
  · exact clockTimer_updates s

theorem onHBord_updates (s : State) : Updates s (onHBord s) :=
  ((raiseIrq_updates _ s).trans (vbordPulse_updates _)).trans (slowClock_updates _)

theorem fire_updates {ev : EventId} {tick : Nat} {s t : State} (h : fire ev tick s = .next t) :
    Updates s t := by
  cases ev with
  | hsFall => exact onHsFall_updates h
  | hsRise => cases h; exact setHs_updates true s
  | hBord => cases h; exact onHBord_updates s
  | timer => cases h; exact onTimer_updates tick s

/-- The loop of `advance_to` takes entries, fires them and ends at its target, which time has not
passed before (`40_scheduler.md` R176). -/
theorem advanceLoop_updates {target k : Nat} {s t : State} (hn : s.now ≤ target)
    (h : advanceLoop target k s = .next t) : Updates s t := by
  induction k generalizing s with
  | zero =>
    rw [advanceLoop] at h
    split at h
    · cases h; exact .single (.time target hn)
    · split at h <;> cases h
      exact .single (.time target hn)
  | succ k ih =>
    rw [advanceLoop] at h
    split at h
    · cases h; exact .single (.time target hn)
    · next e q hq =>
      split at h
      · cases h; exact .single (.time target hn)
      · next he =>
        obtain ⟨u, hu, ht⟩ := andThen_eq_next h
        have hnow : u.now ≤ target := by
          rw [fire_now hu]
          exact Nat.max_le.2 ⟨hn, Nat.le_of_not_lt he⟩
        exact (Relation.ReflTransGen.head (.take e q hq) (fire_updates hu)).trans (ih hnow ht)

theorem advance_updates {target : Nat} {s t : State} (h : advance target s = .next t) :
    Updates s t := by
  unfold advance at h
  split at h
  · cases h
  · next hn => exact advanceLoop_updates (Nat.le_of_not_lt hn) h

/-! The bus cycle and its effects. -/

theorem platformTransfer_updates (rnw : Bool) (d : Byte) (b : BusSelect) (s : State) :
    Updates s (platformTransfer rnw d b s) := by
  unfold platformTransfer
  split
  · split
    · exact .single (.unwatched rfl)
    · exact .single (.ram _ d)
  · split_ifs
    · exact .refl
    · exact .single (.unwatched rfl)
    · exact .refl

theorem cycleAdvance_updates {rnw : Bool} {a : Addr} {s t : State}
    (h : cycleAdvance rnw a s = .next t) : Updates s t :=
  .head (.notify (.cycle rnw a (busDecode s a) (cycleTicks s)) fun _ => rfl)
    (.head (.callback 1) (advance_updates h))

/-- A cycle is made of updates where its effect is. -/
theorem busCycle_updates {rnw : Bool} {a : Addr} {d : Byte} {f : State → Res} {s t : State}
    (effect : ∀ u v, f u = .next v → Updates u v) (h : busCycle rnw a d f s = .next t) :
    Updates s t := by
  obtain ⟨u, hu, ht⟩ := andThen_eq_next h
  exact ((cycleAdvance_updates hu).trans (platformTransfer_updates _ _ _ _)).trans (effect _ _ ht)

/-- A cycle whose effect only updates the state. -/
theorem busCycle_updates_of_update {rnw : Bool} {a : Addr} {d : Byte} {g : State → State}
    {s t : State} (h : busCycle rnw a d (fun u => .next (g u)) s = .next t)
    (update : ∀ u, Updates u (g u)) : Updates s t :=
  busCycle_updates (fun u v hv => by cases hv; exact update u) h

/-- A flush, then an update. -/
theorem flushed_updates {g : State → State} {s t : State}
    (h : andThen (flushLine s) (fun u => .next (g u)) = .next t)
    (update : ∀ u, Updates u (g u)) : Updates s t := by
  obtain ⟨u, hu, ht⟩ := andThen_eq_next h
  cases ht
  exact (flushLine_updates hu).trans (update u)

theorem extraEffect_updates (n : BitVec 4) (old d : Byte) (s : State) :
    Updates s (extraEffect n old d s) := by
  unfold extraEffect extraInit1
  split_ifs
  · exact updateLevels_updates s
  · exact .refl
  · exact loadTimer_updates s
  · exact .head (.unwatched (t := maskIrq d s) rfl) (updateLevels_updates _)
  · exact .head (.unwatched (t := maskFirq d s) rfl) (updateLevels_updates _)
  · exact loadTimer_updates s
  · exact .refl

theorem writeReg_updates {n : BitVec 4} {d : Byte} {s t : State} (h : writeReg n d s = .next t) :
    Updates s t :=
  flushed_updates h fun u =>
    .head (.unwatched (t := storeReg n d u) rfl) (extraEffect_updates _ _ _ _)

theorem writePal_updates {i : BitVec 4} {d : Byte} {s t : State} (h : writePal i d s = .next t) :
    Updates s t := flushed_updates h fun _ => .single (.unwatched rfl)

theorem writeSam_updates {b : BitVec 4} {v : Bool} {s t : State} (h : writeSam b v s = .next t) :
    Updates s t := flushed_updates h fun _ => .single (.unwatched rfl)

theorem writeSnoop_updates {i : Nat} {d : Byte} {s t : State} (h : writeSnoop i d s = .next t) :
    Updates s t := flushed_updates h fun _ => .single (.unwatched rfl)

theorem readRegBus_updates (n : BitVec 4) (s : State) : Updates s (readRegBus n s) := by
  unfold readRegBus
  split_ifs
  · exact readIrqPending_updates s
  · exact readFirqPending_updates s
  · exact .single (.unwatched rfl)

theorem readRegister_updates (n : BitVec 4) (s : State) : Updates s (readRegister n s) := by
  unfold readRegister
  split_ifs
  · exact readIrqPending_updates s
  · exact readFirqPending_updates s
  · exact .single (.unwatched rfl)

theorem windowEffect_updates {rnw : Bool} {a : Addr} {d : Byte} {s t : State}
    (h : windowEffect rnw a d s = .next t) : Updates s t := by
  unfold windowEffect at h
  cases hw : windowOf s.cfg.win a <;> simp only [hw] at h
  case ramLo | upper | fexx | vec => cases h; exact .refl
  case io =>
    split at h
    · exact writeSnoop_updates h
    · cases h; exact .refl
  case reg =>
    split at h
    · cases h; exact readRegBus_updates _ s
    · exact writeReg_updates h
  case mmu =>
    cases rnw <;> cases h
    · exact .single (.bank _ _)
    · exact .single (.unwatched rfl)
  case pal =>
    split at h
    · cases h; exact .single (.unwatched rfl)
    · exact writePal_updates h
  case sam =>
    split at h
    · cases h; exact .single (.unwatched rfl)
    · exact writeSam_updates h

/-! The calls. -/

theorem withRow_updates {s t : State} {row : Option (List Rgb)} (h : withRow s row = .next t) :
    Updates s t := by
  unfold withRow at h
  split at h <;> cases h
  exact .single (.unwatched rfl)

/-- `reset()` drives the sync outputs, clears, schedules and recomputes
(`70_reset_and_hazards.md` R490). -/
theorem resetBlock_updates (s : State) : Updates s (resetBlock s) := by
  have hsync : Updates s (setFs true (setHs true (clearState s))) :=
    ((setHs_updates true s).trans
      (levelTrace_updates (s.fsLevel != true) (n := .fs true) (fun _ => rfl) _)).tail .clear
  have hqueue : ∀ u, Updates u (resetQueue u) := fun u =>
    .head (.cancel _) (.head (.cancel _) (.head (.cancel _) (.single (.schedule _ _))))
  exact ((hsync.trans (hqueue _)).tail (.unwatched (t := recomputeAll _) rfl)).trans
    (updateLevels_updates _)

/-- Every operation that answers is made of the updates. -/
theorem exec_updates {i : Instr} {s t : State} (h : exec i s = .next t) : Updates s t := by
  cases i with
  | busRamLo rnw a d | busUpper rnw a d | busFexx rnw a d | busIo rnw a d | busVec rnw a d =>
    exact busCycle_updates_of_update (g := id) h fun _ => .refl
  | snoopWr a d => exact busCycle_updates (fun _ _ hv => writeSnoop_updates hv) h
  | regWr0 d a | regWr1 d a | regWr2 d a | regWr3 d a | regWr4 d a | regWr5 d a | regWr6 d a
  | regWr7 d a | regWr8 d a | regWr9 d a | regWr10 d a | regWr11 d a | regWr12 d a
  | regWr13 d a | regWr14 d a | regWr15 d a =>
    exact busCycle_updates (fun _ _ hv => writeReg_updates hv) h
  | regRd2 a => exact busCycle_updates_of_update h readIrqPending_updates
  | regRd3 a => exact busCycle_updates_of_update h readFirqPending_updates
  | regRdX a | mmuRd a | palRd a | samRd a =>
    exact busCycle_updates_of_update h fun _ => .single (.unwatched rfl)
  | mmuWr a d => exact busCycle_updates_of_update h fun _ => .single (.bank _ _)
  | palWr a d => exact busCycle_updates (fun _ _ hv => writePal_updates hv) h
  | samClr a d | samSet a d => exact busCycle_updates (fun _ _ hv => writeSam_updates hv) h
  | evHsFall tick seq => exact onHsFall_updates h
  | evHsRise tick seq => cases h; exact setHs_updates true s
  | evHBord tick seq => cases h; exact onHBord_updates s
  | evTimer tick seq => cases h; exact onTimer_updates tick s
  | schedule ev tick => cases h; exact .single (.schedule ev tick)
  | cancel ev => cases h; exact .single (.cancel ev)
  | advanceTo target => exact advance_updates h
  | memoryCycle rnw a d => exact busCycle_updates (fun _ _ hv => windowEffect_updates hv) h
  | reset => cases h; exact resetBlock_updates s
  | setRegister index value =>
    simp only [exec, execSetRegister] at h
    split at h
    · exact writeReg_updates h
    · cases h
  | getRegister index =>
    simp only [exec, execGetRegister] at h
    split at h <;> cases h
    exact readRegister_updates _ s
  | setMmuBank index page =>
    simp only [exec, execSetMmuBank] at h
    split at h <;> cases h
    exact .single (.bank _ page)
  | setPaletteEntry index y pb pr =>
    simp only [exec, execSetPaletteEntry, setColour] at h
    split at h <;> cases h
    exact .single (.colour index _)
  | setBurst index offset =>
    simp only [exec, execSetBurst, rebuildBurst] at h
    split at h <;> cases h
    exact .single (.unwatched rfl)
  | setHue degrees => cases h; exact .single (.unwatched rfl)
  | renderPalette sel n buf | renderArt2 sel n buf | renderArt5 sel n buf | renderSim sel n buf =>
    exact withRow_updates h
  | voRenderRow sel n buf => exact voRow_updates h
  | recompute => cases h; exact .single (.unwatched rfl)
  | regWrite n d => exact writeReg_updates h
  | flush => exact flushLine_updates h
  | renderTo p => exact renderToPos_updates h
  | cell => exact paintOneCell_updates h
  | raise m => cases h; exact raiseIrq_updates m s
  | updateLevels => cases h; exact updateLevels_updates s
  | timerLoad => cases h; exact loadTimer_updates s
  | timerClock => cases h; exact clockTimer_updates s
  | timerExpire => cases h; exact expireTimer_updates s
  | finishLine => exact completeLine_updates h
  | rowAdvance => cases h; exact advanceRow_updates s
  | verticalStep => cases h; exact stepVertical_updates s
  | lineCounters => cases h; exact startCounters_updates s
  | scheduleLine tick => cases h; exact scheduleRaster_updates tick s

/-- An invariant that taking a request and every kind of update keep, every step keeps. -/
theorem step_keeps_of_update {P : State → Prop} (internal : ∀ s, P s → P (takeInternal s))
    (request : ∀ rest s, P s → P (takeRequest rest s))
    (update : ∀ s t, Update s t → P s → P t) {s t : State} (hs : P s) (h : step s = .next t) :
    P t :=
  step_keeps internal request (fun _ _ _ hu hi => (exec_updates hi).keep update hu) hs h

end Sys2Proof.Machine
end

section
/-! Time, the parameters and the notifications: what every operation leaves (`10_state.md` R20,
`00_scope.md` R13, R18). -/

namespace Sys2Proof.Machine

/-- From `s` to `t` time has not gone back, the parameters and the block's own operation are as they
were, and the notifications are those of `s` with more before them. -/
structure Progress (s t : State) : Prop where
  now : s.now ≤ t.now
  cfg : t.cfg = s.cfg
  internal : t.internal = s.internal
  trace : s.trace <:+ t.trace

theorem Progress.refl (s : State) : Progress s s := ⟨Nat.le_refl _, rfl, rfl, List.suffix_rfl⟩

theorem Progress.trans {s t u : State} (h : Progress s t) (k : Progress t u) : Progress s u :=
  ⟨h.now.trans k.now, k.cfg.trans h.cfg, k.internal.trans h.internal, h.trace.trans k.trace⟩

theorem emit_progress (n : Notice) (s : State) : Progress s (emit n s) :=
  ⟨Nat.le_refl _, rfl, rfl, List.suffix_cons _ _⟩

theorem Update.progress {s t : State} (h : Update s t) : Progress s t := by
  cases h with
  | unwatched same => rw [same]; exact ⟨Nat.le_refl _, rfl, rfl, List.suffix_rfl⟩
  | notify n _ => exact emit_progress n s
  | deliver _ => exact emit_progress _ s
  | time n forward => exact ⟨forward, rfl, rfl, List.suffix_rfl⟩
  | take e q _ => exact ⟨Nat.le_max_left _ _, rfl, rfl, List.suffix_rfl⟩
  | _ => exact ⟨Nat.le_refl _, rfl, rfl, List.suffix_rfl⟩

theorem Updates.progress {s t : State} (h : Updates s t) : Progress s t :=
  h.keep (P := Progress s) (fun _ _ hu hs => hs.trans hu.progress) (.refl s)

/-- Settles O12: operations only make progress, and what stands in `internal` was taken out before it
ran. -/
theorem stepsKeepTimeAndParameters : Obligations.StepsKeepTimeAndParameters := by
  unfold Obligations.StepsKeepTimeAndParameters
  intro s t h
  have told : ∀ {l : List (Nat × Notice)}, s.trace <:+ l → ∃ new, l = new ++ s.trace :=
    fun ⟨new, e⟩ => ⟨new, e.symm⟩
  rcases step_eq_next h with ⟨hnone, _, rfl⟩ | ⟨_, i, _, _, hi⟩ | ⟨_, rest, i, hnone, _, _, hi⟩
  · exact ⟨Nat.le_refl _, rfl, hnone, told List.suffix_rfl⟩
  · obtain ⟨hnow, hcfg, hinternal, htrace⟩ := (exec_updates hi).progress
    exact ⟨hnow, hcfg, hinternal, told htrace⟩
  · obtain ⟨hnow, hcfg, hinternal, htrace⟩ := (exec_updates hi).progress
    exact ⟨hnow, hcfg, hinternal.trans hnone, told htrace⟩

end Sys2Proof.Machine
end

section
/-! The queue's order and the canonical memories (`10_state.md` R21, R22, `40_scheduler.md` R178). -/

namespace Sys2Proof.Machine

/-- The queue without its head is in order. -/
theorem takeEntry_queueOk {e : QEntry} {q : List QEntry} {s : State} (head : s.queue = e :: q)
    (h : QueueOk s) : QueueOk (takeEntry e q s) := by
  obtain ⟨hsorted, hstamps⟩ := h
  rw [head] at hsorted hstamps
  exact ⟨((queueSorted_cons e q).1 hsorted).2, fun f hf => hstamps f (List.mem_cons_of_mem _ hf)⟩

theorem Update.queueOk {s t : State} (h : Update s t) (hs : QueueOk s) : QueueOk t := by
  cases h with
  | unwatched same => rw [same]; exact hs
  | take e q head => exact takeEntry_queueOk head hs
  | schedule ev tick => exact scheduleEvent_queueOk ev tick hs
  | cancel ev => exact cancelEvent_queueOk ev hs
  | callback n => exact crossings_queueOk n hs
  | _ => exact hs

theorem storePixels_wf (pf : PixelFormat) (out : List Rgb) (i : Nat) {m : Store Nat}
    (h : Store.wf m = true) : Store.wf (storePixels pf m i out) = true := by
  induction out generalizing m i with
  | nil => exact h
  | cons p ps ih => exact ih (i + 1) (storeSet_wf m i _ h)

theorem Update.memoryOk {s t : State} (h : Update s t) (hs : MemoryOk s) : MemoryOk t := by
  obtain ⟨hram, hcolour, htarget⟩ := hs
  cases h with
  | unwatched same => rw [same]; exact ⟨hram, hcolour, htarget⟩
  | ram z d => exact ⟨memWrite_wf _ z d hram, hcolour, htarget⟩
  | colour index k => exact ⟨hram, storeSet_wf _ index k hcolour, htarget⟩
  | pixels out => exact ⟨hram, hcolour, storePixels_wf _ _ _ htarget⟩
  | _ => exact ⟨hram, hcolour, htarget⟩

/-- Settles O56: only taking the head, `schedule`, `cancel` and the callbacks touch the queue, only
the writes of RAM, of a colour and of a rendered row touch a memory, and each keeps its form. -/
theorem stepsKeepQueueAndMemories : Obligations.StepsKeepQueueAndMemories := by
  unfold Obligations.StepsKeepQueueAndMemories
  intro s t h
  have queue : QueueOk s → QueueOk t := fun hs =>
    step_keeps_of_update (P := QueueOk) (fun _ hu => hu) (fun _ _ hu => hu)
      (fun _ _ hu => hu.queueOk) hs h
  have memories : MemoryOk s → MemoryOk t := fun hs =>
    step_keeps_of_update (P := MemoryOk) (fun _ hu => hu) (fun _ _ hu => hu)
      (fun _ _ hu => hu.memoryOk) hs h
  exact ⟨queue, memories⟩

end Sys2Proof.Machine
end

section
/-! The ranges of entries and counters, and frame sync (`10_state.md` R35, R41, R46, R48,
`44_raster.md` R312). -/

namespace Sys2Proof.Machine

theorem mem_set16 {α : Type} {t : Vector α 16} {i : BitVec 4} {v x : α}
    (h : x ∈ (set16 t i v).toList) : x ∈ t.toList ∨ x = v := by
  rw [set16, Vector.toList_set] at h
  exact List.mem_or_eq_of_mem_set h

theorem drawnBank_lt {c : Params} {n v : Nat} (h : v ∈ (drawnBank c n).toList) :
    v < 2 ^ c.bankW := by
  rw [drawnBank, Vector.toList_ofFn, List.mem_ofFn] at h
  obtain ⟨i, rfl⟩ := h
  exact Nat.mod_lt _ (Nat.two_pow_pos _)

theorem wrapPhys_lt (c : Params) (z : Nat) : wrapPhys c z < 2 ^ c.physW :=
  Nat.mod_lt _ (Nat.two_pow_pos _)

theorem videoStart_lt (s : State) : videoStart s < 2 ^ s.cfg.physW := by
  simp only [videoStart]
  split <;> exact wrapPhys_lt _ _

theorem nextFrameCtr_le {s : State} (h : s.frameCtr ≤ s.cfg.frameskip) :
    nextFrameCtr s ≤ s.cfg.frameskip := by
  unfold nextFrameCtr
  split
  · exact Nat.le_refl _
  · exact (Nat.sub_le ..).trans h

/-- Frame sync is high in `VBLANK` (`44_raster.md` R312). -/
theorem vblank_fs_high : (true = false) ↔ VState.vblank = .vsync := by decide

theorem Update.rangesOk {s t : State} (h : Update s t) (hs : RangesOk s) : RangesOk t := by
  obtain ⟨hbank, hbase, hframe, htimer, hrun, hsync⟩ := hs
  cases h with
  | unwatched same => rw [same]; exact ⟨hbank, hbase, hframe, htimer, hrun, hsync⟩
  | bank i page =>
    refine ⟨fun v hv => ?_, hbase, hframe, htimer, hrun, hsync⟩
    rcases mem_set16 hv with hv | rfl
    · exact hbank v hv
    · exact Nat.mod_lt _ (Nat.two_pow_pos _)
  | timer running n range counts =>
    exact ⟨hbank, hbase, hframe, range.trans (Nat.max_le.2 ⟨htimer, Nat.le_refl _⟩), counts, hsync⟩
  | nextRow => exact ⟨hbank, wrapPhys_lt _ _, hframe, htimer, hrun, hsync⟩
  | enter v fromState toState =>
    have high : s.fsLevel ≠ false := fun low => fromState (hsync.1 low)
    exact ⟨hbank, hbase, hframe, htimer, hrun, iff_of_false high toState⟩
  | enterVsync => exact ⟨hbank, hbase, hframe, htimer, hrun, iff_of_true rfl rfl⟩
  | startField =>
    exact ⟨hbank, videoStart_lt s, nextFrameCtr_le hframe, htimer, hrun, vblank_fs_high⟩
  | clear =>
    exact ⟨fun v hv => drawnBank_lt hv, Nat.two_pow_pos _, Nat.zero_le _, Nat.zero_le _,
      fun run => absurd run Bool.false_ne_true, vblank_fs_high⟩
  | _ => exact ⟨hbank, hbase, hframe, htimer, hrun, hsync⟩

/-- Settles O57: the updates that touch a bank entry, the timer, the row's base or the field state
keep each within its range. -/
theorem stepsKeepTheRanges : Obligations.StepsKeepTheRanges := by
  unfold Obligations.StepsKeepTheRanges
  exact fun _ _ hs h => step_keeps_of_update (P := RangesOk) (fun _ hu => hu) (fun _ _ hu => hu)
    (fun _ _ hu => hu.rangesOk) hs h

end Sys2Proof.Machine
end

section
/-! The line and the delivered rows (`10_state.md` R49, R50, `46_pixel_generation.md` R346). -/

namespace Sys2Proof.Machine

/-- `LineOk` of a line alone, under the parameters. -/
def Line.Ok (c : Params) (l : Line) : Prop :=
  l.buf.length = c.nVis + c.rbHeadroom ∧
  l.beamPos + l.lbRem + l.aaRem + l.rbRem ≤ c.nVis ∧
  (l.buf.take l.beamPos).all isColour = true ∧
  ∀ p ∈ l.cells, p.pos + p.width ≤ l.beamPos

/-- The line's part of the invariants is about the line and the parameters only. -/
theorem lineOk_iff (s : State) : LineOk s ↔ s.line.Ok s.cfg := Iff.rfl

/-! Painting. -/

/-- A round paints colour values from the beam on, and what it paints it takes from the counters or
finds within the visible span. -/
theorem Round.line_ok {s : State} {p n : Nat} {px : List Byte} {l l' : Line}
    (r : Round s p l l' n px) (hp : p ≤ s.cfg.nVis) (h : l.Ok s.cfg) : l'.Ok s.cfg := by
  obtain ⟨hlength, hspan, hpainted, hcells⟩ := h
  have hcounts := r.counts.2
  have hbeam := r.beam
  have hspan' : l'.beamPos + l'.lbRem + l'.aaRem + l'.rbRem ≤ s.cfg.nVis := by omega
  have hfit : l.beamPos + px.length ≤ l.buf.length := by rw [r.size]; omega
  refine ⟨?_, hspan', ?_, fun c hc => ?_⟩
  · rw [r.buf, splice_length hfit, hlength]
  · rw [r.buf, hbeam, ← r.size, splice_take_end (by omega), List.all_append, hpainted, r.colour]
    rfl
  · have old : ∀ c ∈ l.cells, c.pos + c.width ≤ l'.beamPos := fun c hc => by
      have := hcells c hc
      omega
    rcases r.cells with e | ⟨new, e, hnew⟩ <;> rw [e] at hc
    · exact old c hc
    · rcases List.mem_cons.1 hc with rfl | hc
      · exact Nat.le_of_eq hnew
      · exact old c hc

theorem paintRounds_line_ok {s : State} {l l' : Line}
    (h : Relation.ReflTransGen (PaintRound s) l l') (hl : l.Ok s.cfg) : l'.Ok s.cfg := by
  induction h with
  | refl => exact hl
  | tail _ hround ih =>
    obtain ⟨p, n, px, hp, r⟩ := hround
    exact r.line_ok hp ih

/-! Late writes. -/

/-- Repainting a cell within the painted part leaves the buffer's size, and colour values in that
part. -/
theorem repaint_ok (c : Params) {p : PaintedCell} {buf : List Byte} {n : Nat}
    (hp : p.pos + p.width ≤ n) (hn : n ≤ buf.length) (hb : (buf.take n).all isColour = true) :
    (repaint c p buf).length = buf.length ∧ ((repaint c p buf).take n).all isColour = true := by
  have hwidth : ((cellPixels c p.ctx p.char p.attr).take p.width).length ≤ p.width :=
    List.length_take_le _ _
  exact ⟨splice_length (by omega),
    splice_take_colour hn (by omega) hb (cellPixels_take_colour _ _ _ _ _)⟩

/-- A late write repaints cells where they were painted: what lies within the painted part stays
there, and the part holds colour values. -/
theorem lateWrite_ok (c : Params) (z : Nat) (d : Byte) {n : Nat} (ps : List PaintedCell)
    (buf : List Byte) (picks : Nat) (hps : ∀ p ∈ ps, p.pos + p.width ≤ n) (hn : n ≤ buf.length)
    (hb : (buf.take n).all isColour = true) :
    (∀ p ∈ (lateWrite c z d ps (buf, picks)).1, p.pos + p.width ≤ n) ∧
      (lateWrite c z d ps (buf, picks)).2.1.length = buf.length ∧
      ((lateWrite c z d ps (buf, picks)).2.1.take n).all isColour = true := by
  induction ps generalizing buf picks with
  | nil => exact ⟨hps, rfl, hb⟩
  | cons p ps ih =>
    obtain ⟨hp, hps⟩ := List.forall_mem_cons.1 hps
    rw [lateWrite]
    split_ifs with hshows hlate
    · have hp' : (p.withByte z d).pos + (p.withByte z d).width ≤ n := hp
      obtain ⟨hlength, hcolour⟩ := repaint_ok c hp' hn hb
      obtain ⟨hcells, hlength', hcolour'⟩ := ih _ (picks + 1) hps (hlength ▸ hn) hcolour
      exact ⟨List.forall_mem_cons.2 ⟨hp', hcells⟩, hlength'.trans hlength, hcolour'⟩
    · obtain ⟨hcells, hrest⟩ := ih buf (picks + 1) hps hn hb
      exact ⟨List.forall_mem_cons.2 ⟨hp, hcells⟩, hrest⟩
    · obtain ⟨hcells, hrest⟩ := ih buf picks hps hn hb
      exact ⟨List.forall_mem_cons.2 ⟨hp, hcells⟩, hrest⟩

theorem lineAfterWrite_ok {c : Params} (now z : Nat) (old d : Byte) {l : Line} (h : l.Ok c) :
    (lineAfterWrite c now z old d l).Ok c := by
  obtain ⟨hlength, hspan, hpainted, hcells⟩ := h
  obtain ⟨hcells', hlength', hpainted'⟩ :=
    lateWrite_ok c z d l.cells l.buf l.picks hcells (by omega) hpainted
  exact ⟨hlength'.trans hlength, hspan, hpainted', hcells'⟩

/-! Lines without painted positions. -/

/-- A line of which nothing is painted yet is well formed where its counters fit. -/
theorem unpainted_line_ok {c : Params} {l : Line} (hlength : l.buf.length = c.nVis + c.rbHeadroom)
    (hbeam : l.beamPos = 0) (hcells : l.cells = []) (hfits : l.lbRem + l.aaRem + l.rbRem ≤ c.nVis) :
    l.Ok c := by
  refine ⟨hlength, by omega, by simp [hbeam], by simp [hcells]⟩

/-! The delivered rows. -/

/-- A row delivered when it is painted to its end has `N_VIS` bytes, all colour values
(`44_raster.md` R302). -/
theorem deliveredRow_noticeOk {s : State} (painted : s.cfg.nVis ≤ s.line.beamPos)
    (h : s.line.Ok s.cfg) :
    rowNoticeOk s.cfg (.renderRow (deliveredRow s) s.cfg.nVis s.mode.burstSel) = true := by
  obtain ⟨hlength, hspan, hpainted, _⟩ := h
  have hbeam : s.line.beamPos = s.cfg.nVis := by omega
  have hcolour : (deliveredRow s).all isColour = true := by rwa [hbeam] at hpainted
  have hsize : (deliveredRow s).length = s.cfg.nVis :=
    List.length_take_of_le (by omega)
  simp only [rowNoticeOk, hsize, hcolour, beq_self_eq_true, Bool.and_self]

theorem emit_rowsOk {n : Notice} {s : State} (hn : rowNoticeOk s.cfg n = true) (h : RowsOk s) :
    RowsOk (emit n s) :=
  List.forall_mem_cons.2 ⟨hn, h⟩

/-! The updates. -/

/-- The geometry fills the visible span, the line is well formed and so is every row delivered. -/
structure PictureOk (s : State) : Prop where
  fits : fitsOk s.cfg = true
  line : s.line.Ok s.cfg
  rows : RowsOk s

theorem Update.pictureOk {s t : State} (h : Update s t) (hs : PictureOk s) : PictureOk t := by
  obtain ⟨hfits, hline, hrows⟩ := hs
  have hlength : s.line.buf.length = s.cfg.nVis + s.cfg.rbHeadroom := hline.1
  cases h with
  | unwatched same => rw [same]; exact ⟨hfits, hline, hrows⟩
  | notify n noRow => exact ⟨hfits, hline, emit_rowsOk (noRow _) hrows⟩
  | deliver painted =>
    exact ⟨hfits, hline, emit_rowsOk (deliveredRow_noticeOk painted hline) hrows⟩
  | ram z d => exact ⟨hfits, lineAfterWrite_ok _ _ _ _ hline, hrows⟩
  | startLine lb aa vram rb fits =>
    exact ⟨hfits, unpainted_line_ok hlength rfl rfl (fits hfits), hrows⟩
  | paint rounds =>
    have painted := paintRounds_line_ok rounds hline
    exact ⟨hfits, painted, hrows⟩
  | clear => exact ⟨hfits, unpainted_line_ok hlength rfl rfl (Nat.zero_le _), hrows⟩
  | _ => exact ⟨hfits, hline, hrows⟩

/-- Settles O58: painting, late writes and the starts of a line keep the line, and the one update that
delivers a row delivers the painted line. -/
theorem stepsKeepTheLineAndDeliverColours : Obligations.StepsKeepTheLineAndDeliverColours := by
  unfold Obligations.StepsKeepTheLineAndDeliverColours
  intro s t hfits hline hrows h
  obtain ⟨_, hline', hrows'⟩ := step_keeps_of_update (P := PictureOk)
    (fun _ ⟨f, l, r⟩ => ⟨f, l, r⟩) (fun _ _ ⟨f, l, r⟩ => ⟨f, l, r⟩)
    (fun _ _ hu => hu.pictureOk) ⟨hfits, (lineOk_iff s).1 hline, hrows⟩ h
  exact ⟨(lineOk_iff t).2 hline', hrows'⟩

end Sys2Proof.Machine
end

section
/-! RAM cycles (`20_memory.md` R92, `41_bus_decode.md` R195 to R198): the address in arithmetic, the
windows that select RAM, and the transfer once RAM is selected at `z`. -/

namespace Sys2Proof.Machine

/-! Translation. -/

/-- The table entry `{TR, A[15:13]}` is eight entries up with `TR`, one entry for each 8 KiB of the
CPU address space. -/
theorem bankIndex_toNat (tr : Bool) (a : Addr) :
    (bankIndex tr a).toNat = (if tr then 8 else 0) + a.toNat / 8192 := by
  have hpage : (bits a 13 3).toNat = a.toNat / 8192 := by
    have := a.isLt
    rw [bits, BitVec.extractLsb'_toNat, Nat.shiftRight_eq_div_pow]
    omega
  have hentry : a.toNat / 8192 < 2 ^ 3 := by have := a.isLt; omega
  rw [bankIndex, BitVec.toNat_append, hpage, ← Nat.shiftLeft_add_eq_or_of_lt hentry]
  cases tr <;> rfl

theorem pageOffset_toNat (a : Addr) : (bits a 0 13).toNat = a.toNat % 8192 :=
  BitVec.extractLsb'_toNat ..

theorem at16_eq_getD {α : Type} (t : Vector α 16) (i : BitVec 4) (default : α) :
    at16 t i = t.toList.getD i.toNat default := by
  rw [at16, List.getD_eq_getElem _ _ (by simpa using i.isLt), Vector.getElem_toList]

theorem translate_mapped {s : State} {a : Addr} (h : s.fields.mmuen = true) :
    translate s a =
      s.bank.toList.getD ((if s.fields.tr then 8 else 0) + a.toNat / 8192) 0 * 8192 +
        a.toNat % 8192 := by
  rw [translate, if_pos h, pageOffset_toNat, at16_eq_getD _ _ 0, bankIndex_toNat]

theorem translate_direct {s : State} {a : Addr} (h : s.fields.mmuen = false) :
    translate s a = directAddr s.cfg a := by
  rw [translate, h, if_neg Bool.false_ne_true]

/-! The windows that select RAM (`41_bus_decode.md` R190, R196 to R198). -/

theorem upperSelect_ram {s : State} {a : Addr} (ty : s.fields.ty = true) :
    upperSelect s a = selRam (translate s a) := by
  rw [upperSelect, if_pos ty, ramSelect]

theorem busDecode_upper_ram {s : State} {a : Addr} (h : windowOf s.cfg.win a = .upper)
    (ty : s.fields.ty = true) : busDecode s a = selRam (translate s a) := by
  rw [busDecode_upper h, upperSelect_ram ty]

theorem busDecode_fexx_direct {s : State} {a : Addr} (h : windowOf s.cfg.win a = .fexx)
    (mc3 : s.fields.mc3 = true) : busDecode s a = selRam (directAddr s.cfg a) := by
  rw [busDecode_fexx h, if_pos mc3]

theorem busDecode_fexx_ram {s : State} {a : Addr} (h : windowOf s.cfg.win a = .fexx)
    (mc3 : s.fields.mc3 = false) (ty : s.fields.ty = true) :
    busDecode s a = selRam (translate s a) := by
  rw [busDecode_fexx h, mc3, if_neg Bool.false_ne_true, upperSelect_ram ty]

/-! The transfer (`41_bus_decode.md` R195 step 5). -/

/-- A quiet write cycle that selects RAM writes the byte at the end of the cycle. -/
theorem plainCycle_ram_write {s : State} {a : Addr} {z : Nat} (d : Byte)
    (quiet : quietCycle s = true) (select : busDecode s a = selRam z) :
    plainCycle false a d s = .next (ramWrite z d (afterCycle false a s)) := by
  rw [plainCycle, busCycle_quiet _ _ _ _ quiet, select]
  rfl

/-- A quiet read cycle that selects RAM reads the byte that stood there before the cycle. -/
theorem plainCycle_ram_read {s : State} {a : Addr} {z : Nat} (d : Byte)
    (quiet : quietCycle s = true) (select : busDecode s a = selRam z) :
    plainCycle true a d s = .next { afterCycle true a s with readData := memRead s.ram z } := by
  rw [plainCycle, busCycle_quiet _ _ _ _ quiet, select]
  rfl

/-- Both directions of a quiet cycle that selects RAM, for operations that are cycles without an
internal effect. -/
theorem ramCycles_of_select {s : State} {a : Addr} {d : Byte} {z : Nat} {w r : Instr}
    (quiet : quietCycle s = true) (write : exec w s = plainCycle false a d s)
    (read : exec r s = plainCycle true a 0 s) (select : busDecode s a = selRam z) :
    busDecode s a = ⟨.ram, true, some z⟩ ∧
    (Memory.wf s.ram = true →
      ∃ t, exec w s = .next t ∧ RamWritten z d (afterCycle false a s) t) ∧
    exec r s = .next { afterCycle true a s with readData := memRead s.ram z } := by
  refine ⟨select, fun hwf => ⟨ramWrite z d (afterCycle false a s), ?_, ?_⟩, ?_⟩
  · rw [write, plainCycle_ram_write d quiet select]
  · exact ramWrite_spec z d hwf
  · rw [read, plainCycle_ram_read 0 quiet select]

/-- Settles O13: each of the four windows decodes to RAM at its address, and a quiet cycle that
selects RAM at an address moves the byte there. -/
theorem ramCyclesMoveTheByte : Obligations.RamCyclesMoveTheByte := by
  unfold Obligations.RamCyclesMoveTheByte
  refine fun s a => ⟨translate_mapped, translate_direct, fun d z w r quiet cycle => ?_⟩
  rcases cycle with ⟨hwin, rfl, rfl, rfl⟩ | ⟨hwin, ty, rfl, rfl, rfl⟩ |
    ⟨hwin, mc3, rfl, rfl, rfl⟩ | ⟨hwin, mc3, ty, rfl, rfl, rfl⟩
  · exact ramCycles_of_select quiet rfl rfl (busDecode_ramLo hwin)
  · exact ramCycles_of_select quiet rfl rfl (busDecode_upper_ram hwin ty)
  · exact ramCycles_of_select quiet rfl rfl (busDecode_fexx_direct hwin mc3)
  · exact ramCycles_of_select quiet rfl rfl (busDecode_fexx_ram hwin mc3 ty)

end Sys2Proof.Machine
end

section
/-! Bus cycles under the encoder and the decoder (`30_encoding.md` R121 to R123): the BUS17 word,
the sixteen registers, and the operation that each window gives a cycle. -/

namespace Sys2Proof

/-! The BUS17 word (`30_encoding.md` R121). -/

@[simp] theorem wordRnw_busWord (rnw : Bool) (a : Addr) : wordRnw (busWord rnw a) = rnw := by
  rw [wordRnw, busWord, BitVec.getLsbD_append]
  cases rnw <;> rfl

@[simp] theorem wordAddr_busWord (rnw : Bool) (a : Addr) : wordAddr (busWord rnw a) = a := by
  rw [wordAddr, busWord, ← BitVec.setWidth_eq_extractLsb' (by omega), BitVec.setWidth_append,
    dif_pos (by omega)]
  simp

/-- No bit of the word is dropped: it is its `RnW` above its address. -/
@[simp] theorem busWord_word (w : BitVec 17) : busWord (wordRnw w) (wordAddr w) = w := by
  refine BitVec.eq_of_getLsbD_eq fun i hi => ?_
  rw [busWord, BitVec.getLsbD_append]
  split
  · next low => simp [wordAddr, low]
  · next high =>
    obtain rfl : i = 16 := by omega
    simp [wordRnw]

theorem decode_busReq (m : WindowMap) (rnw : Bool) (a : Addr) (d : Byte) :
    decode m (busReq rnw a d) = .ok (decodeCycle m rnw a d) := by
  simp [busReq, decode, decodeBus]

/-! The register window (`30_encoding.md` R122, R123). -/

theorem indexOf_toNat (a : Addr) : (indexOf a).toNat = a.toNat % 16 := BitVec.extractLsb'_toNat ..

/-- The sixteen writes of the register window, in the order of their registers. -/
def registerWrites (a : Addr) (d : Byte) : List Instr :=
  [.regWr0 d a, .regWr1 d a, .regWr2 d a, .regWr3 d a, .regWr4 d a, .regWr5 d a, .regWr6 d a,
    .regWr7 d a, .regWr8 d a, .regWr9 d a, .regWr10 d a, .regWr11 d a, .regWr12 d a, .regWr13 d a,
    .regWr14 d a, .regWr15 d a]

/-- The write of register `n`. -/
def registerWrite (n : BitVec 4) (a : Addr) (d : Byte) : Instr :=
  (registerWrites a d).getD n.toNat .reset

theorem decodeRegWrite_eq (a : Addr) (d : Byte) :
    decodeRegWrite a d = registerWrite (indexOf a) a d := by
  unfold decodeRegWrite
  generalize indexOf a = n
  obtain ⟨k⟩ := n
  fin_cases k <;> rfl

theorem encode_registerWrite (n : BitVec 4) (a : Addr) (d : Byte) :
    encode (registerWrite n a d) = busReq false a d := by
  obtain ⟨k⟩ := n
  fin_cases k <;> rfl

theorem registerWrite_wellFormed (m : WindowMap) (n : BitVec 4) (a : Addr) (d : Byte) :
    (registerWrite n a d).wellFormed m = isRegister m n a := by
  obtain ⟨k⟩ := n
  fin_cases k <;> rfl

theorem isRegister_iff {m : WindowMap} {n : BitVec 4} {a : Addr} :
    isRegister m n a = true ↔ windowOf m a = .reg ∧ indexOf a = n := by
  simp [isRegister, inWindow]

theorem encode_decodeRegRead (a : Addr) : encode (decodeRegRead a) = busReq true a 0 := by
  unfold decodeRegRead
  split_ifs <;> rfl

theorem decodeRegRead_wellFormed {m : WindowMap} {a : Addr} (h : windowOf m a = .reg) :
    (decodeRegRead a).wellFormed m = true := by
  unfold decodeRegRead
  split_ifs with h2 h3
  · exact isRegister_iff.2 ⟨h, h2⟩
  · exact isRegister_iff.2 ⟨h, h3⟩
  · simp only [Instr.wellFormed, inWindow, Bool.and_eq_true, beq_iff_eq, bne_iff_ne]
    exact ⟨⟨h, h2⟩, h3⟩

/-! The operation of a cycle (`30_encoding.md` R123). -/

/-- The data byte that a cycle's request carries: a read has none of the CPU's. -/
def cycleData (rnw : Bool) (d : Byte) : Byte := if rnw then 0 else d

theorem dataFits_iff {rnw : Bool} {d : Byte} : dataFits rnw d = true ↔ cycleData rnw d = d := by
  cases rnw
  · exact iff_of_true rfl rfl
  · exact beq_iff_eq.trans eq_comm

theorem cycleData_fits (rnw : Bool) (d : Byte) : dataFits rnw (cycleData rnw d) = true := by
  cases rnw <;> simp [dataFits, cycleData]

/-- Only a write is snooped (`41_bus_decode.md` R205). -/
theorem write_of_snooped {m : WindowMap} {rnw : Bool} {a : Addr}
    (h : snoopedWrite m rnw a = true) : rnw = false := by
  cases rnw
  · rfl
  · cases h

section
variable {m : WindowMap} {rnw : Bool} {a : Addr} {d : Byte}

theorem decodeCycle_ramLo (h : windowOf m a = .ramLo) :
    decodeCycle m rnw a d = .busRamLo rnw a (cycleData rnw d) := by
  rw [decodeCycle, h]
  rfl

theorem decodeCycle_upper (h : windowOf m a = .upper) :
    decodeCycle m rnw a d = .busUpper rnw a (cycleData rnw d) := by
  rw [decodeCycle, h]
  rfl

theorem decodeCycle_fexx (h : windowOf m a = .fexx) :
    decodeCycle m rnw a d = .busFexx rnw a (cycleData rnw d) := by
  rw [decodeCycle, h]
  rfl

theorem decodeCycle_vec (h : windowOf m a = .vec) :
    decodeCycle m rnw a d = .busVec rnw a (cycleData rnw d) := by
  rw [decodeCycle, h]
  rfl

theorem decodeCycle_io (h : windowOf m a = .io) (plain : snoopedWrite m rnw a = false) :
    decodeCycle m rnw a d = .busIo rnw a (cycleData rnw d) := by
  rw [decodeCycle, h, plain]
  rfl

theorem decodeCycle_snooped (h : windowOf m a = .io) (snooped : snoopedWrite m false a = true) :
    decodeCycle m false a d = .snoopWr a d := by
  simp [decodeCycle, h, snooped]

theorem decodeCycle_regWrite (h : windowOf m a = .reg) :
    decodeCycle m false a d = registerWrite (indexOf a) a d := by
  rw [← decodeRegWrite_eq, decodeCycle, h]
  rfl

theorem decodeCycle_regRead (h : windowOf m a = .reg) :
    decodeCycle m true a d = decodeRegRead a := by
  rw [decodeCycle, h]
  rfl

theorem decodeCycle_mmu (h : windowOf m a = .mmu) :
    decodeCycle m rnw a d = if rnw then .mmuRd a else .mmuWr a d := by
  rw [decodeCycle, h]

theorem decodeCycle_pal (h : windowOf m a = .pal) :
    decodeCycle m rnw a d = if rnw then .palRd a else .palWr a d := by
  rw [decodeCycle, h]

theorem decodeCycle_sam (h : windowOf m a = .sam) :
    decodeCycle m rnw a d =
      if rnw then .samRd a else if samValueOf a then .samSet a d else .samClr a d := by
  rw [decodeCycle, h]

end

/-- The decoder keeps the word of a cycle, and the data byte of a write (`30_encoding.md` R121,
R123). -/
theorem encode_decodeCycle (m : WindowMap) (rnw : Bool) (a : Addr) (d : Byte) :
    encode (decodeCycle m rnw a d) = busReq rnw a (cycleData rnw d) := by
  cases hw : windowOf m a with
  | ramLo => rw [decodeCycle_ramLo hw]; rfl
  | upper => rw [decodeCycle_upper hw]; rfl
  | fexx => rw [decodeCycle_fexx hw]; rfl
  | vec => rw [decodeCycle_vec hw]; rfl
  | io =>
    cases hs : snoopedWrite m rnw a with
    | false => rw [decodeCycle_io hw hs]; rfl
    | true =>
      obtain rfl := write_of_snooped hs
      rw [decodeCycle_snooped hw hs]; rfl
  | reg =>
    cases rnw with
    | false => rw [decodeCycle_regWrite hw, encode_registerWrite]; rfl
    | true => rw [decodeCycle_regRead hw, encode_decodeRegRead]; rfl
  | mmu => rw [decodeCycle_mmu hw]; cases rnw <;> rfl
  | pal => rw [decodeCycle_pal hw]; cases rnw <;> rfl
  | sam =>
    rw [decodeCycle_sam hw]
    cases rnw
    · cases samValueOf a <;> rfl
    · rfl

theorem decodeCycle_wellFormed (m : WindowMap) (rnw : Bool) (a : Addr) (d : Byte) :
    (decodeCycle m rnw a d).wellFormed m = true := by
  cases hw : windowOf m a with
  | ramLo => simp [decodeCycle_ramLo hw, Instr.wellFormed, inWindow, hw, cycleData_fits]
  | upper => simp [decodeCycle_upper hw, Instr.wellFormed, inWindow, hw, cycleData_fits]
  | fexx => simp [decodeCycle_fexx hw, Instr.wellFormed, inWindow, hw, cycleData_fits]
  | vec => simp [decodeCycle_vec hw, Instr.wellFormed, inWindow, hw, cycleData_fits]
  | io =>
    cases hs : snoopedWrite m rnw a with
    | false => simp [decodeCycle_io hw hs, Instr.wellFormed, inWindow, hw, hs, cycleData_fits]
    | true =>
      obtain rfl := write_of_snooped hs
      simp [decodeCycle_snooped hw hs, Instr.wellFormed, inWindow, hw, hs]
  | reg =>
    cases rnw with
    | false =>
      rw [decodeCycle_regWrite hw, registerWrite_wellFormed]
      exact isRegister_iff.2 ⟨hw, rfl⟩
    | true => rw [decodeCycle_regRead hw, decodeRegRead_wellFormed hw]
  | mmu => cases rnw <;> simp [decodeCycle_mmu hw, Instr.wellFormed, inWindow, hw]
  | pal => cases rnw <;> simp [decodeCycle_pal hw, Instr.wellFormed, inWindow, hw]
  | sam =>
    rw [decodeCycle_sam hw]
    cases rnw <;> cases hv : samValueOf a <;> simp [Instr.wellFormed, inWindow, hw, hv]

end Sys2Proof
end

section
/-! The tables of calls, events and procedures (`30_encoding.md` R120, R124, R125): the operands
that come back from their numbers, and the kind of operation that each code names. -/

namespace Sys2Proof

/-! Operands (`30_encoding.md` R125): an event, a burst selector and a row come back from the
numbers that name them. -/

@[simp] theorem eventOfNat_number (e : EventId) : eventOfNat e.number = some e := by
  cases e <;> rfl

@[simp] theorem burstOfNat_index (b : BurstSel) : burstOfNat b.index = some b := by
  cases b <;> rfl

theorem rowCall_encoded (mk : BurstSel → Nat → List Byte → Instr) (sel : BurstSel) {n : Nat}
    {buf : List Byte} (h : n = buf.length) :
    rowCall mk [.nat sel.index, .nat n, .bytes buf] = some (mk sel n buf) := by
  simp [rowCall, h]

/-! What a table names: every operation of it is one of a kind. -/

/-- Whatever operands it is given, the shape names operations with `P` only. -/
def Names (P : Instr → Prop) (f : List Operand → Option Instr) : Prop :=
  ∀ ops i, f ops = some i → P i

section
variable {P : Instr → Prop}

theorem names_plainCall {i : Instr} (h : P i) : Names P (plainCall i) := by
  intro ops j hj
  cases ops with
  | nil => cases hj; exact h
  | cons _ _ => cases hj

theorem names_natCall {g : Nat → Option Instr} (h : ∀ n i, g n = some i → P i) :
    Names P (natCall g) := by
  intro ops j hj
  unfold natCall at hj
  split at hj
  · exact h _ _ hj
  · cases hj

theorem names_nat2Call {g : Nat → Nat → Option Instr} (h : ∀ m n i, g m n = some i → P i) :
    Names P (nat2Call g) := by
  intro ops j hj
  unfold nat2Call at hj
  split at hj
  · exact h _ _ _ hj
  · cases hj

/-- A row call names rows of the length they claim. -/
theorem names_rowCall {mk : BurstSel → Nat → List Byte → Instr}
    (h : ∀ sel buf, P (mk sel buf.length buf)) : Names P (rowCall mk) := by
  intro ops j hj
  unfold rowCall at hj
  split at hj
  · split at hj
    · split_ifs at hj with hn
      subst hn
      cases hj
      exact h _ _
    · cases hj
  · cases hj

/-- What a code names is named by its shape. -/
theorem names_of_readShape {table : Nat → Option (List Operand → Option Instr)}
    (names : ∀ c f, table c = some f → Names P f) {c : Byte} {ops : List Operand} {i : Instr}
    (h : readShape table c ops = .ok i) : P i := by
  unfold readShape at h
  split at h
  · cases h
  · next f hf =>
    split at h <;> cases h
    next hi => exact names _ f hf ops i hi

end

theorem readShape_of_code {table : Nat → Option (List Operand → Option Instr)} {c : Byte}
    {f : List Operand → Option Instr} {ops : List Operand} {i : Instr}
    (code : table c.toNat = some f) (operands : f ops = some i) :
    readShape table c ops = .ok i := by
  simp [readShape, code, operands]

/-- A well-formed operation that is issued from outside (`30_encoding.md` R120). -/
def Instr.Issued (m : WindowMap) (i : Instr) : Prop :=
  i.wellFormed m = true ∧ (encode i).internal = false

/-- A well-formed operation of the block's own (`30_encoding.md` R120). -/
def Instr.Own (m : WindowMap) (i : Instr) : Prop :=
  i.wellFormed m = true ∧ (encode i).internal = true

/-- Every call code names calls only (`30_encoding.md` R125). -/
theorem callShape_names (m : WindowMap) {c : Nat} {f : List Operand → Option Instr}
    (h : callShape c = some f) : Names (Instr.Issued m) f := by
  unfold callShape at h
  split at h <;> cases h
  case h_1 =>
    refine names_nat2Call fun e t i hi => ?_
    obtain ⟨ev, -, rfl⟩ := Option.map_eq_some_iff.1 hi
    exact ⟨rfl, rfl⟩
  case h_2 =>
    refine names_natCall fun e i hi => ?_
    obtain ⟨ev, -, rfl⟩ := Option.map_eq_some_iff.1 hi
    exact ⟨rfl, rfl⟩
  case h_3 | h_7 => exact names_natCall fun n i hi => by cases hi; exact ⟨rfl, rfl⟩
  case h_4 =>
    intro ops i hi
    beta_reduce at hi
    split at hi
    · next rnw a d =>
      split_ifs at hi with _ read
      · cases hi
        exact ⟨by simp [Instr.wellFormed, dataFits], rfl⟩
      · cases hi
        exact ⟨by simp [Instr.wellFormed, dataFits, read], rfl⟩
    · cases hi
  case h_5 => exact names_plainCall ⟨rfl, rfl⟩
  case h_6 =>
    refine names_nat2Call fun n v i hi => ?_
    split_ifs at hi
    cases hi
    exact ⟨rfl, rfl⟩
  case h_8 => exact names_nat2Call fun n p i hi => by cases hi; exact ⟨rfl, rfl⟩
  case h_9 | h_10 | h_11 =>
    intro ops i hi
    beta_reduce at hi
    split at hi <;> cases hi
    exact ⟨rfl, rfl⟩
  case h_12 | h_13 | h_14 | h_15 | h_16 =>
    exact names_rowCall fun sel buf => ⟨beq_self_eq_true _, rfl⟩

/-- Every identity code names internal procedures only (`30_encoding.md` R120). -/
theorem procShape_names (m : WindowMap) {c : Nat} {f : List Operand → Option Instr}
    (h : procShape c = some f) : Names (Instr.Own m) f := by
  unfold procShape at h
  split at h <;> cases h
  case h_2 =>
    refine names_nat2Call fun n v i hi => ?_
    split_ifs at hi
    cases hi
    exact ⟨rfl, rfl⟩
  case h_4 | h_15 => exact names_natCall fun n i hi => by cases hi; exact ⟨rfl, rfl⟩
  case h_6 =>
    refine names_natCall fun n i hi => ?_
    split_ifs at hi
    cases hi
    exact ⟨rfl, rfl⟩
  all_goals exact names_plainCall ⟨rfl, rfl⟩

/-- Every event code names a handler (`30_encoding.md` R124). -/
theorem decodeEvent_own (m : WindowMap) (c : BitVec 2) (tick seq : Nat) :
    (decodeEvent c tick seq).Own m := by
  unfold decodeEvent
  split <;> exact ⟨rfl, rfl⟩

end Sys2Proof
end

section
/-! Decoding after encoding, and encoding after decoding, of every operation (`30_encoding.md`
R120). -/

namespace Sys2Proof

/-! What the decoder accepts. -/

theorem decode_issued {m : WindowMap} {r : Request} {i : Instr} (h : decode m r = .ok i) :
    i.Issued m := by
  cases r with
  | bus w d =>
    cases h
    refine ⟨decodeCycle_wellFormed .., ?_⟩
    rw [decodeBus, encode_decodeCycle]
    rfl
  | call c ops => exact names_of_readShape (fun _ _ => callShape_names m) h
  | event | proc => cases h

theorem readInternal_own (m : WindowMap) {r : Request} {i : Instr} (h : readInternal r = .ok i) :
    i.Own m := by
  cases r with
  | event c tick seq => cases h; exact decodeEvent_own m c tick seq
  | proc c ops => exact names_of_readShape (fun _ _ => procShape_names m) h
  | bus | call => cases h

/-- A request of the block's own is refused from outside (`30_encoding.md` R120). -/
theorem decode_of_internal (m : WindowMap) {r : Request} (h : r.internal = true) :
    decode m r = .error .internalOnly := by
  cases r with
  | event | proc => rfl
  | bus | call => cases h

/-! What is written is read back. -/

theorem inWindow_iff {m : WindowMap} {w : Window} {a : Addr} :
    inWindow m w a = true ↔ windowOf m a = w := beq_iff_eq

/-- A cycle whose operation carries its data byte as it is. -/
theorem decode_plainCycle {m : WindowMap} {w : Window} {rnw : Bool} {a : Addr} {d : Byte}
    {mk : Byte → Instr} (wf : (inWindow m w a && dataFits rnw d) = true)
    (cycle : windowOf m a = w → decodeCycle m rnw a d = mk (cycleData rnw d)) :
    decode m (busReq rnw a d) = .ok (mk d) := by
  obtain ⟨hw, fits⟩ := (Bool.and_eq_true ..).mp wf
  rw [decode_busReq, cycle (inWindow_iff.1 hw), dataFits_iff.1 fits]

/-- A cycle that only its window names. -/
theorem decode_windowCycle {m : WindowMap} {w : Window} {rnw : Bool} {a : Addr} {d : Byte}
    {i : Instr} (wf : inWindow m w a = true)
    (cycle : windowOf m a = w → decodeCycle m rnw a d = i) :
    decode m (busReq rnw a d) = .ok i := by
  rw [decode_busReq, cycle (inWindow_iff.1 wf)]

theorem decode_registerWrite {m : WindowMap} {n : BitVec 4} {a : Addr} (d : Byte)
    (h : isRegister m n a = true) :
    decode m (busReq false a d) = .ok (registerWrite n a d) := by
  obtain ⟨hw, rfl⟩ := isRegister_iff.1 h
  rw [decode_busReq, decodeCycle_regWrite hw]

theorem decode_callReq (m : WindowMap) {c : Nat} {f : List Operand → Option Instr}
    {ops : List Operand} {i : Instr} (byte : c < 256) (code : callShape c = some f)
    (operands : f ops = some i) : decode m (callReq c ops) = .ok i :=
  readShape_of_code (by rwa [BitVec.toNat_ofNat, Nat.mod_eq_of_lt byte]) operands

theorem readInternal_procReq {c : Nat} {f : List Operand → Option Instr} {ops : List Operand}
    {i : Instr} (byte : c < 256) (code : procShape c = some f) (operands : f ops = some i) :
    readInternal (procReq c ops) = .ok i :=
  readShape_of_code (by rwa [BitVec.toNat_ofNat, Nat.mod_eq_of_lt byte]) operands

theorem decode_rowReq (m : WindowMap) {c : Nat} {mk : BurstSel → Nat → List Byte → Instr}
    {sel : BurstSel} {n : Nat} {buf : List Byte} (byte : c < 256)
    (code : callShape c = some (rowCall mk)) (wf : (n == buf.length) = true) :
    decode m (rowReq c sel n buf) = .ok (mk sel n buf) :=
  decode_callReq m byte code (rowCall_encoded mk sel (beq_iff_eq.1 wf))

/-- What is issued from outside reads back by the decoder. -/
theorem decode_encode {m : WindowMap} {i : Instr} (wf : i.wellFormed m = true)
    (issued : (encode i).internal = false) : decode m (encode i) = .ok i := by
  cases i with
  | busRamLo rnw a d => exact decode_plainCycle (mk := .busRamLo rnw a) wf decodeCycle_ramLo
  | busUpper rnw a d => exact decode_plainCycle (mk := .busUpper rnw a) wf decodeCycle_upper
  | busFexx rnw a d => exact decode_plainCycle (mk := .busFexx rnw a) wf decodeCycle_fexx
  | busVec rnw a d => exact decode_plainCycle (mk := .busVec rnw a) wf decodeCycle_vec
  | busIo rnw a d =>
    simp only [Instr.wellFormed, Bool.and_eq_true, Bool.not_eq_true'] at wf
    obtain ⟨⟨hw, plain⟩, fits⟩ := wf
    exact decode_plainCycle (mk := .busIo rnw a) (Bool.and_eq_true_iff.2 ⟨hw, fits⟩)
      (decodeCycle_io · plain)
  | snoopWr a d =>
    obtain ⟨hw, snooped⟩ := Bool.and_eq_true_iff.1 wf
    exact decode_windowCycle hw (decodeCycle_snooped · snooped)
  | regWr0 d a | regWr1 d a | regWr2 d a | regWr3 d a | regWr4 d a | regWr5 d a | regWr6 d a
  | regWr7 d a | regWr8 d a | regWr9 d a | regWr10 d a | regWr11 d a | regWr12 d a
  | regWr13 d a | regWr14 d a | regWr15 d a => exact decode_registerWrite d wf
  | regRd2 a =>
    obtain ⟨hw, h2⟩ := isRegister_iff.1 wf
    rw [encode, decode_busReq, decodeCycle_regRead hw, decodeRegRead, if_pos h2]
  | regRd3 a =>
    obtain ⟨hw, h3⟩ := isRegister_iff.1 wf
    rw [encode, decode_busReq, decodeCycle_regRead hw, decodeRegRead, if_neg (by simp [h3]),
      if_pos h3]
  | regRdX a =>
    simp only [Instr.wellFormed, Bool.and_eq_true, bne_iff_ne] at wf
    obtain ⟨⟨hw, h2⟩, h3⟩ := wf
    rw [encode, decode_busReq, decodeCycle_regRead (inWindow_iff.1 hw), decodeRegRead, if_neg h2,
      if_neg h3]
  | mmuWr a d | mmuRd a => exact decode_windowCycle wf decodeCycle_mmu
  | palWr a d | palRd a => exact decode_windowCycle wf decodeCycle_pal
  | samRd a => exact decode_windowCycle wf decodeCycle_sam
  | samClr a d =>
    simp only [Instr.wellFormed, Bool.and_eq_true, Bool.not_eq_true'] at wf
    obtain ⟨hw, value⟩ := wf
    exact decode_windowCycle hw fun h => by simp [decodeCycle_sam h, value]
  | samSet a d =>
    obtain ⟨hw, value⟩ := Bool.and_eq_true_iff.1 wf
    exact decode_windowCycle hw fun h => by simp [decodeCycle_sam h, value]
  | schedule ev t => exact decode_callReq m (by decide) rfl (by simp [nat2Call])
  | cancel ev => exact decode_callReq m (by decide) rfl (by simp [natCall])
  | memoryCycle rnw a d =>
    refine decode_callReq m (by decide) rfl ?_
    have range : rnw.toNat < 2 ∧ a.toNat < 65536 ∧ d.toNat < 256 :=
      ⟨rnw.toNat_lt, a.isLt, d.isLt⟩
    have data : cycleData rnw d = d := dataFits_iff.1 wf
    cases rnw <;> simp_all [cycleData]
  | setRegister n v =>
    exact decode_callReq m (by decide) rfl (by simp [nat2Call, v.isLt])
  | advanceTo t | reset | getRegister n | setMmuBank n p | setPaletteEntry n y pb pr
  | setBurst n o | setHue h => exact decode_callReq m (by decide) rfl rfl
  | renderPalette sel n buf | renderArt2 sel n buf | renderArt5 sel n buf | renderSim sel n buf
  | voRenderRow sel n buf => exact decode_rowReq m (by decide) rfl wf
  | evHsFall | evHsRise | evHBord | evTimer | recompute | regWrite | flush | renderTo | cell
  | raise | updateLevels | timerLoad | timerClock | timerExpire | finishLine | rowAdvance
  | verticalStep | lineCounters | scheduleLine => cases issued

/-- What is the block's own reads back by its code. -/
theorem readInternal_encode {i : Instr} (own : (encode i).internal = true) :
    readInternal (encode i) = .ok i := by
  cases i with
  | evHsFall | evHsRise | evHBord | evTimer => rfl
  | regWrite n d =>
    exact readInternal_procReq (by decide) rfl (by simp [nat2Call, n.isLt, d.isLt])
  | raise s => exact readInternal_procReq (by decide) rfl (by simp [natCall, s.isLt])
  | recompute | flush | renderTo | cell | updateLevels | timerLoad | timerClock | timerExpire
  | finishLine | rowAdvance | verticalStep | lineCounters | scheduleLine =>
    exact readInternal_procReq (by decide) rfl rfl
  | _ => cases own

/-- Settles O1: what is issued from outside reads back by the decoder, what is the block's own by
its code, and the decoder refuses the latter. -/
theorem encodeThenDecode : Obligations.EncodeThenDecode := by
  unfold Obligations.EncodeThenDecode
  exact fun m _ wf => ⟨decode_encode wf, fun own =>
    ⟨readInternal_encode own, decode_of_internal m own⟩⟩

/-- Settles O2: a BUS17 word is the word of its operation, and each table names operations of its
own kind only. -/
theorem decodingIsFaithful : Obligations.DecodingIsFaithful := by
  unfold Obligations.DecodingIsFaithful
  refine fun m => ⟨fun w d => ?_, fun _ _ => decode_issued, fun _ _ => readInternal_own m⟩
  rw [decodeBus, encode_decodeCycle, busReq, busWord_word]
  rfl

/-- Settles O3: each request written out evaluates to its operation or its refusal. -/
theorem tableWordsDecode : Obligations.TableWordsDecode := by
  unfold Obligations.TableWordsDecode
  exact ⟨rfl, rfl, rfl, rfl, rfl, rfl, rfl, rfl, rfl, rfl, rfl, rfl⟩

end Sys2Proof
end

section
/-! One step, by what waits to be run (`40_scheduler.md` R180, `30_encoding.md` R120; log 1, 3). -/

namespace Sys2Proof.Machine

theorem step_of_internal {s : State} {r : Request} (h : s.internal = some r) :
    step s = runRead (readInternal r) (takeInternal s) := by
  rw [step, h]

theorem step_of_request {s : State} {r : Request} {rest : List Request} (own : s.internal = none)
    (h : s.inbox = r :: rest) : step s = runRead (decode s.cfg.win r) (takeRequest rest s) := by
  rw [step, own, h]

theorem step_idle {s : State} (own : s.internal = none) (h : s.inbox = []) : step s = .next s := by
  rw [step, own, h]

theorem runRead_ok (i : Instr) (s : State) : runRead (.ok i) s = exec i s := rfl

theorem runRead_error (e : DecodeError) (s : State) :
    runRead (.error e) s = .refused (.notAnOperation e) := rfl

/-- Settles O4: with nothing waiting a step does nothing, else it runs what it read or refuses it by
name. -/
theorem stepRunsTheDecodedOperation : Obligations.StepRunsTheDecodedOperation := by
  unfold Obligations.StepRunsTheDecodedOperation
  refine ⟨fun s r rest i own inbox read => ?_, fun s => step_idle,
    fun s r rest e own inbox read => ?_, fun s r i own read => ?_, fun s r e own read => ?_⟩
  · rw [step_of_request own inbox, read, runRead_ok]
    rfl
  · rw [step_of_request own inbox, read, runRead_error]
  · rw [step_of_internal own, read, runRead_ok]
    rfl
  · rw [step_of_internal own, read, runRead_error]

end Sys2Proof.Machine
end

section
/-! The writes of the register window (`41_bus_decode.md` R195, `42_registers.md` R238): each is the
cycle of its register, which moves no data outside the block. -/

namespace Sys2Proof.Machine

theorem exec_registerWrite (n : BitVec 4) (a : Addr) (d : Byte) (s : State) :
    exec (registerWrite n a d) s = regWriteCycle n a d s := by
  obtain ⟨k⟩ := n
  fin_cases k <;> rfl

/-- The notification of a cycle of an internal window, and its callback. -/
theorem announceCycle_reg {s : State} {a : Addr} (rnw : Bool) (h : windowOf s.cfg.win a = .reg) :
    announceCycle rnw a s = crossings 1 { s with
      trace := (s.now, .cycle rnw a ⟨.internal, false, none⟩ (cycleTicks s)) :: s.trace } := by
  rw [announceCycle, busDecode_internal h (.inl rfl)]
  rfl

/-- A register write is the first half of its cycle, then `RegWrite`. -/
theorem regWriteCycle_eq {n : BitVec 4} {a : Addr} {d : Byte} {s : State}
    (h : windowOf s.cfg.win a = .reg) :
    regWriteCycle n a d s = andThen (cycleAdvance false a s) (writeReg n d) := by
  rw [regWriteCycle, busCycle, busDecode_internal h (.inl rfl)]
  rfl

theorem andThen_eq_next_iff {r : Res} {f : State → Res} {t : State} :
    andThen r f = .next t ↔ ∃ u, r = .next u ∧ f u = .next t :=
  ⟨andThen_eq_next, fun ⟨_, hr, hf⟩ => by rw [hr, andThen_next, hf]⟩

/-- With no event due and the fetch port connected a register write answers, with what `RegWrite`
gives at the end of its cycle. -/
theorem regWriteCycle_quiet {n : BitVec 4} {a : Addr} {d : Byte} {s : State}
    (h : windowOf s.cfg.win a = .reg) (quiet : quietCycle s = true)
    (port : s.cfg.vfetchConnected = true) :
    ∃ t, regWriteCycle n a d s = .next t ∧ writeReg n d (afterCycle false a s) = .next t := by
  obtain ⟨l, _, _, written⟩ := writeReg_connected (s := afterCycle false a s) port n d
  exact ⟨_, by rw [regWriteCycle_eq h, cycleAdvance_quiet false a quiet, andThen_next, written],
    written⟩

/-- Settles O16: the decoder names the write of register `A[3:0]`, which is the first half of the
cycle followed by `RegWrite`. -/
theorem registerWindowWrites : Obligations.RegisterWindowWrites := by
  unfold Obligations.RegisterWindowWrites
  intro a d s hw
  have cycle : exec (decodeCycle s.cfg.win false a d) s = regWriteCycle (indexOf a) a d s := by
    rw [decodeCycle_regWrite hw, exec_registerWrite]
  refine ⟨?_, fun t => ?_, fun quiet port => ?_⟩
  · rw [decodeCycle_regWrite hw, registerWrite, indexOf_toNat]
    rfl
  · rw [cycle, regWriteCycle_eq hw, andThen_eq_next_iff, cycleAdvance, announceCycle_reg false hw]
    rfl
  · rw [cycle]
    exact regWriteCycle_quiet hw quiet port

end Sys2Proof.Machine
end

section
/-! The queue under calls of `schedule` and `cancel` (`40_scheduler.md` R174, R175). -/

namespace Sys2Proof.Machine

/-- After a call of `schedule` the queue holds its entry, and the entries of the other events. -/
theorem mem_enqueue {ev : EventId} {tick : Nat} {p : List QEntry × Nat} {e : QEntry} :
    e ∈ (enqueue ev tick p).1 ↔ e = ⟨tick, ev, p.2⟩ ∨ (e ∈ p.1 ∧ e.ev ≠ ev) := by
  rw [enqueue_fst, mem_queueInsert, mem_queueRemove]

theorem queueRemove_sublist (ev : EventId) (q : List QEntry) : (queueRemove ev q).Sublist q :=
  List.filter_sublist

/-- A second removal finds nothing to remove. -/
theorem queueRemove_queueRemove (ev : EventId) (q : List QEntry) :
    queueRemove ev (queueRemove ev q) = queueRemove ev q := by
  simp [queueRemove]

theorem exec_schedule (ev : EventId) (tick : Nat) (s : State) :
    exec (.schedule ev tick) s = .next (scheduleEvent ev tick s) := rfl

theorem exec_cancel (ev : EventId) (s : State) :
    exec (.cancel ev) s = .next (cancelEvent ev s) := rfl

/-- Settles O6: the entry takes the place of the event's old one, at its place in the order. -/
theorem scheduleReplacesTheEntry : Obligations.ScheduleReplacesTheEntry := by
  unfold Obligations.ScheduleReplacesTheEntry
  intro ev tick s hs
  exact ⟨_, exec_schedule ev tick s, (scheduleEvent_queueOk ev tick hs).1, fun _ => mem_enqueue⟩

/-- Settles O7: cancelling filters the queue by the event. -/
theorem cancelRemovesTheEntry : Obligations.CancelRemovesTheEntry := by
  unfold Obligations.CancelRemovesTheEntry
  intro ev s
  refine ⟨_, exec_cancel ev s, queueRemove_sublist ev s.queue, fun _ => mem_queueRemove, ?_⟩
  rw [exec_cancel, cancelEvent, queueRemove_queueRemove]

end Sys2Proof.Machine
end

section
/-! The faults of the operations (`60_exceptions.md` R450): what a handler, a flushed write and a bus
cycle can fault with, and that with positive periods nothing gets stuck in the scheduler. -/

namespace Sys2Proof.Machine

/-! Painting and delivery. -/

/-- The faults of painting and delivering a line: a cell that finds no fetch port, and a row with an
unset colour. -/
def Fault.OfPicture (e : Fault) : Prop := e = .noVideoFetch ∨ e = .unsetColour

theorem Fault.OfPicture.ne_advanceToPast {e : Fault} (h : e.OfPicture) : e ≠ .advanceToPast := by
  rcases h with rfl | rfl <;> decide

theorem Fault.OfPicture.ne_schedulerStuck {e : Fault} (h : e.OfPicture) : e ≠ .schedulerStuck := by
  rcases h with rfl | rfl <;> decide

theorem withLine_fault {s : State} {o : Option Line} {e : Fault} (h : withLine s o = .fault e) :
    e = .noVideoFetch := by
  cases o <;> cases h
  rfl

theorem flushLine_fault {s : State} {e : Fault} (h : flushLine s = .fault e) :
    e = .noVideoFetch := by
  unfold flushLine at h
  split at h
  · exact (renderToPos_fault h).1
  · cases h

theorem voRow_fault {sel : BurstSel} {n : Nat} {buf : List Byte} {s : State} {e : Fault}
    (h : voRow sel n buf s = .fault e) : e = .unsetColour := by
  unfold voRow at h
  split at h
  · split at h <;> cases h
    rfl
  · cases h

theorem deliverRow_fault {s : State} {e : Fault} (h : deliverRow s = .fault e) :
    e = .unsetColour := by
  unfold deliverRow at h
  split_ifs at h
  exact voRow_fault h

theorem completeLine_fault {s : State} {e : Fault} (h : completeLine s = .fault e) :
    e.OfPicture := by
  unfold completeLine at h
  split at h
  · rcases andThen_eq_fault h with hpaint | ⟨_, _, hrow⟩
    · exact .inl (renderToPos_fault hpaint).1
    · exact .inr (deliverRow_fault hrow)
  · cases h

theorem onHsFall_fault {tick : Nat} {s : State} {e : Fault} (h : onHsFall tick s = .fault e) :
    e.OfPicture := by
  rcases andThen_eq_fault h with hline | ⟨_, _, hnext⟩
  · exact completeLine_fault hline
  · cases hnext

/-- Of the handlers only that of the horizontal-sync fall faults, with its line's faults. -/
theorem fire_fault {ev : EventId} {tick : Nat} {s : State} {e : Fault}
    (h : fire ev tick s = .fault e) : e.OfPicture := by
  cases ev with
  | hsFall => exact onHsFall_fault h
  | hsRise | hBord | timer => cases h

/-! `advance_to`. -/

/-- A queue in which something is due has a head that is. -/
theorem due_head {s : State} {target : Nat} (h : ¬ nothingDue s target = true) :
    ∃ e q, s.queue = e :: q ∧ e.tick ≤ target := by
  unfold nothingDue at h
  split at h
  · exact absurd rfl h
  · next e q hq => exact ⟨e, q, hq, by simpa using h⟩

/-- The loop of `advance_to` faults by a fired event, or for want of fuel. -/
theorem advanceLoop_fault {target k : Nat} {s : State} {e : Fault}
    (h : advanceLoop target k s = .fault e) : e.OfPicture ∨ e = .schedulerStuck := by
  induction k generalizing s with
  | zero =>
    rw [advanceLoop] at h
    split at h
    · cases h
    · split at h <;> cases h
      exact .inr rfl
  | succ k ih =>
    by_cases hd : nothingDue s target = true
    · rw [advanceLoop_quiet _ hd] at h
      cases h
    · obtain ⟨_, _, hq, he⟩ := due_head hd
      rw [advanceLoop_due k hq he] at h
      rcases andThen_eq_fault h with hfire | ⟨_, _, hloop⟩
      · exact .inl (fire_fault hfire)
      · exact ih hloop

/-- `advance_to` is the contract violation below `now`, and only there (`40_scheduler.md` R176). -/
theorem advance_past_iff (target : Nat) (s : State) :
    advance target s = .fault .advanceToPast ↔ target < s.now := by
  unfold advance
  split
  · next hpast => exact iff_of_true rfl hpast
  · next hfuture =>
    refine iff_of_false (fun h => ?_) hfuture
    rcases advanceLoop_fault h with hline | hstuck
    · exact hline.ne_advanceToPast rfl
    · cases hstuck

theorem advance_not_stuck {target : Nat} {s : State} (hc : timedOk s.cfg = true) :
    advance target s ≠ .fault .schedulerStuck := by
  unfold advance
  split
  · nofun
  · exact advanceLoop_not_stuck hc (Nat.le_refl _)

/-! The bus cycle and its effects. -/

/-- A cycle gets stuck in its effect at most. -/
theorem busCycle_not_stuck {rnw : Bool} {a : Addr} {d : Byte} {f : State → Res} {s : State}
    (hc : timedOk s.cfg = true) (effect : ∀ u, f u ≠ .fault .schedulerStuck) :
    busCycle rnw a d f s ≠ .fault .schedulerStuck := fun h => by
  rcases andThen_eq_fault h with hadvance | ⟨u, _, heffect⟩
  · exact advance_not_stuck (s := announceCycle rnw a s) hc hadvance
  · exact effect _ heffect

theorem busCycle_update_not_stuck {rnw : Bool} {a : Addr} {d : Byte} {s : State}
    (hc : timedOk s.cfg = true) (g : State → State) :
    busCycle rnw a d (fun u => .next (g u)) s ≠ .fault .schedulerStuck :=
  busCycle_not_stuck hc fun _ => nofun

/-- A write after its flush faults as the flush does. -/
theorem flushed_fault {g : State → State} {s : State} {e : Fault}
    (h : andThen (flushLine s) (fun u => .next (g u)) = .fault e) : e = .noVideoFetch := by
  rcases andThen_eq_fault h with hflush | ⟨_, _, hwrite⟩
  · exact flushLine_fault hflush
  · cases hwrite

theorem flushed_not_stuck (g : State → State) (s : State) :
    andThen (flushLine s) (fun u => .next (g u)) ≠ .fault .schedulerStuck :=
  fun h => nomatch flushed_fault h

theorem writeReg_not_stuck (n : BitVec 4) (d : Byte) (s : State) :
    writeReg n d s ≠ .fault .schedulerStuck := flushed_not_stuck (writeRegNow n d) s

theorem windowEffect_not_stuck (rnw : Bool) (a : Addr) (d : Byte) (s : State) :
    windowEffect rnw a d s ≠ .fault .schedulerStuck := by
  unfold windowEffect
  cases windowOf s.cfg.win a
  case ramLo | upper | fexx | vec | mmu => nofun
  case io =>
    dsimp only
    split
    · exact flushed_not_stuck _ s
    · nofun
  case reg | pal | sam =>
    dsimp only
    split
    · nofun
    · exact flushed_not_stuck _ s

theorem withRow_not_stuck (s : State) (row : Option (List Rgb)) :
    withRow s row ≠ .fault .schedulerStuck := by
  cases row <;> nofun

/-- With positive periods no operation gets stuck in the scheduler: only cycles and `advance_to` run
its loop, and every other fault is of painting, of a row or of an index. -/
theorem exec_not_stuck {s : State} (hc : timedOk s.cfg = true) (i : Instr) :
    exec i s ≠ .fault .schedulerStuck := by
  cases i with
  | busRamLo | busUpper | busFexx | busIo | busVec => exact busCycle_update_not_stuck hc id
  | regRd2 | regRd3 | regRdX | mmuWr | mmuRd | palRd | samRd => exact busCycle_update_not_stuck hc _
  | snoopWr | palWr | samClr | samSet => exact busCycle_not_stuck hc (flushed_not_stuck _)
  | regWr0 | regWr1 | regWr2 | regWr3 | regWr4 | regWr5 | regWr6 | regWr7 | regWr8 | regWr9 | regWr10
  | regWr11 | regWr12 | regWr13 | regWr14 | regWr15 =>
    exact busCycle_not_stuck hc (writeReg_not_stuck _ _)
  | memoryCycle rnw a d => exact busCycle_not_stuck hc (windowEffect_not_stuck rnw a d)
  | advanceTo target => exact advance_not_stuck hc
  | setRegister index value =>
    simp only [exec, execSetRegister]
    split
    · exact writeReg_not_stuck _ value s
    · nofun
  | getRegister index =>
    simp only [exec, execGetRegister]
    split <;> nofun
  | setMmuBank index page =>
    simp only [exec, execSetMmuBank]
    split <;> nofun
  | setPaletteEntry index y pb pr =>
    simp only [exec, execSetPaletteEntry, setColour]
    split <;> nofun
  | setBurst index offset =>
    simp only [exec, execSetBurst, rebuildBurst]
    split <;> nofun
  | renderPalette | renderArt2 | renderArt5 | renderSim => exact withRow_not_stuck s _
  | voRenderRow => exact fun h => nomatch voRow_fault h
  | regWrite n d => exact writeReg_not_stuck n d s
  | flush => exact fun h => nomatch flushLine_fault h
  | renderTo | cell => exact fun h => nomatch withLine_fault h
  | evHsFall => exact fun h => (onHsFall_fault h).ne_schedulerStuck rfl
  | finishLine => exact fun h => (completeLine_fault h).ne_schedulerStuck rfl
  | evHsRise | evHBord | evTimer | schedule | cancel | reset | setHue | recompute | raise | updateLevels
  | timerLoad | timerClock | timerExpire | rowAdvance | verticalStep | lineCounters | scheduleLine =>
    nofun

/-- Settles O10: the fuel of `advance_to` is never short with positive periods (log 25), and nothing
else faults so. -/
theorem noOperationIsStuck : Obligations.NoOperationIsStuck := by
  unfold Obligations.NoOperationIsStuck
  exact fun i _ hc => exec_not_stuck hc i

end Sys2Proof.Machine
end

section
/-! One round of `advance_to`, without its fuel (`40_scheduler.md` R176). -/

namespace Sys2Proof.Machine

theorem exec_advanceTo (target : Nat) (s : State) :
    exec (.advanceTo target) s = advance target s := rfl

/-- A queue entry's operation is its handler, run with the entry's tick. -/
theorem exec_operation (e : QEntry) (s : State) : exec e.operation s = fire e.ev e.tick s := by
  unfold QEntry.operation
  cases e.ev <;> rfl

/-- Taking a due head out and firing it takes fuel. -/
theorem advanceFuel_fired {target : Nat} {s t : State} {e : QEntry} {q : List QEntry}
    (hc : timedOk s.cfg = true) (hq : s.queue = e :: q) (he : e.tick ≤ target)
    (h : fire e.ev e.tick (takeEntry e q s) = .next t) :
    advanceFuel target t < advanceFuel target s := by
  have hweight := fire_weight (s := takeEntry e q s) hc he h
  have htake := advanceFuel_take target hq
  omega

theorem advanceFuel_pos {target : Nat} {s : State} {e : QEntry} {q : List QEntry}
    (hq : s.queue = e :: q) (he : e.tick ≤ target) : 0 < advanceFuel target s := by
  rw [advanceFuel_take target hq]
  exact Nat.add_pos_left (weight_pos he) _

theorem fired_cfg {s t : State} {e : QEntry} {q : List QEntry}
    (h : fire e.ev e.tick (takeEntry e q s) = .next t) : t.cfg = s.cfg := (fire_frame h).cfg

/-- Sequences that go on alike from the state the first part leaves are alike. -/
theorem andThen_congr {r : Res} {f g : State → Res} (h : ∀ t, r = .next t → f t = g t) :
    andThen r f = andThen r g := by
  cases r with
  | next t => exact h t rfl
  | fault | refused => rfl

/-- With positive periods all fuel that is enough gives the same answer. -/
theorem advanceLoop_fuel {target k m : Nat} {s : State} (hc : timedOk s.cfg = true)
    (hk : advanceFuel target s ≤ k) (hm : advanceFuel target s ≤ m) :
    advanceLoop target k s = advanceLoop target m s := by
  induction k generalizing m s with
  | zero =>
    by_cases hd : nothingDue s target = true
    · rw [advanceLoop_quiet _ hd, advanceLoop_quiet _ hd]
    · obtain ⟨_, _, hq, he⟩ := due_head hd
      have := advanceFuel_pos hq he
      omega
  | succ k ih =>
    by_cases hd : nothingDue s target = true
    · rw [advanceLoop_quiet _ hd, advanceLoop_quiet _ hd]
    · obtain ⟨_, _, hq, he⟩ := due_head hd
      have := advanceFuel_pos hq he
      obtain ⟨m, rfl⟩ : ∃ n, m = n + 1 := ⟨m - 1, by omega⟩
      rw [advanceLoop_due k hq he, advanceLoop_due m hq he]
      refine andThen_congr fun t ht => ?_
      have := advanceFuel_fired hc hq he ht
      exact ih (fired_cfg ht ▸ hc) (by omega) (by omega)

/-- With the head due `advance_to` takes it out, moves time to it, fires it and starts again. -/
theorem advance_due {target : Nat} {s : State} {e : QEntry} {q : List QEntry}
    (hc : timedOk s.cfg = true) (hn : s.now ≤ target) (hq : s.queue = e :: q)
    (he : e.tick ≤ target) :
    advance target s = andThen (fire e.ev e.tick (takeEntry e q s)) (advance target) := by
  obtain ⟨k, hk⟩ : ∃ k, advanceFuel target s = k + 1 :=
    ⟨_, (Nat.succ_pred_eq_of_pos (advanceFuel_pos hq he)).symm⟩
  rw [advance, if_neg (by omega), hk, advanceLoop_due k hq he]
  refine andThen_congr fun t ht => ?_
  have hnow : t.now = max s.now e.tick := fire_now ht
  have hfuel := advanceFuel_fired hc hq he ht
  rw [advance, if_neg (by omega)]
  exact advanceLoop_fuel (fired_cfg ht ▸ hc) (by omega) (Nat.le_refl _)

/-- Settles O8: the three ways `advance_to` begins. -/
theorem advanceFiresTheHead : Obligations.AdvanceFiresTheHead := by
  unfold Obligations.AdvanceFiresTheHead
  intro target s
  refine ⟨advance_past_iff target s, advance_quiet, fun e q hc hn hq he => ?_⟩
  simp only [exec_operation, exec_advanceTo, advance_due hc hn hq he]
  exact ⟨fun t ht => congrArg (andThen · (advance target)) ht,
    fun f hf => congrArg (andThen · (advance target)) hf⟩

/-- Settles O9: where nothing can fault the loop ends (`advance_answers`), and it ends only with
nothing due (`advance_spec`). -/
theorem advanceEndsAtTheTarget : Obligations.AdvanceEndsAtTheTarget := by
  unfold Obligations.AdvanceEndsAtTheTarget
  refine fun target s => ⟨advance_answers, fun t ht => ?_⟩
  obtain ⟨_, frame, now, quiet⟩ := advance_spec ht
  exact ⟨now, quiet, frame⟩

end Sys2Proof.Machine
end

section
/-! Calls of `schedule` inside callbacks (`40_scheduler.md` R177; log 40): the first call of the next
callback acts as the same call made before, in a bus cycle and in a painting that fetches. -/

namespace Sys2Proof.Machine

/-- The next callback's first call of `schedule`, made now instead. -/
def callNow (ev : EventId) (tick : Nat) (later : List (List (EventId × Nat))) (s : State) : State :=
  scheduleEvent ev tick { s with callbacks := later }

section
variable {s : State} {ev : EventId} {tick : Nat} {c : List (EventId × Nat)}
  {cs : List (List (EventId × Nat))}

/-- Where control crosses into a collaborator, a call made right before is as the callback's first. -/
theorem crossings_callNow (h : s.callbacks = ((ev, tick) :: c) :: cs) (n : Nat) :
    crossings (n + 1) s = crossings (n + 1) (callNow ev tick (c :: cs) s) := by
  simp only [crossings, callNow, scheduleEvent, h, List.take_succ_cons, List.drop_succ_cons,
    List.flatten_cons, List.cons_append, enqueueAll_cons]

/-! A bus cycle. -/

theorem announceCycle_callNow (h : s.callbacks = ((ev, tick) :: c) :: cs) (rnw : Bool) (a : Addr) :
    announceCycle rnw a s = announceCycle rnw a (callNow ev tick (c :: cs) s) :=
  crossings_callNow (s := emit (.cycle rnw a (busDecode s a) (cycleTicks s)) s) h 0

theorem busCycle_callNow (h : s.callbacks = ((ev, tick) :: c) :: cs) (rnw : Bool) (a : Addr)
    (d : Byte) (f : State → Res) :
    busCycle rnw a d f s = busCycle rnw a d f (callNow ev tick (c :: cs) s) := by
  rw [busCycle, cycleAdvance, announceCycle_callNow h]
  rfl

end

/-- What the decoder names for a cycle is a bus cycle, with a data byte and an effect that the window
map, the address and the byte fix (`30_encoding.md` R123). -/
theorem decodeCycle_busCycle (m : WindowMap) (rnw : Bool) (a : Addr) (d : Byte) :
    ∃ byte effect, ∀ s : State, s.cfg.win = m →
      exec (decodeCycle m rnw a d) s = busCycle rnw a byte effect s := by
  cases hw : windowOf m a with
  | ramLo => rw [decodeCycle_ramLo hw]; exact ⟨_, _, fun _ _ => rfl⟩
  | upper => rw [decodeCycle_upper hw]; exact ⟨_, _, fun _ _ => rfl⟩
  | fexx => rw [decodeCycle_fexx hw]; exact ⟨_, _, fun _ _ => rfl⟩
  | vec => rw [decodeCycle_vec hw]; exact ⟨_, _, fun _ _ => rfl⟩
  | io =>
    cases hs : snoopedWrite m rnw a with
    | false => rw [decodeCycle_io hw hs]; exact ⟨_, _, fun _ _ => rfl⟩
    | true =>
      obtain rfl := write_of_snooped hs
      rw [decodeCycle_snooped hw hs]
      exact ⟨d, writeSnoop (snoopIndexOf m a) d, fun s hm => by subst hm; rfl⟩
  | reg =>
    cases rnw with
    | false =>
      rw [decodeCycle_regWrite hw]
      exact ⟨_, _, fun s _ => exec_registerWrite (indexOf a) a d s⟩
    | true =>
      rw [decodeCycle_regRead hw, decodeRegRead]
      split_ifs
      · exact ⟨0, fun t => .next (readIrqPending t), fun _ _ => rfl⟩
      · exact ⟨0, fun t => .next (readFirqPending t), fun _ _ => rfl⟩
      · exact ⟨0, fun t => .next (readUndriven t), fun _ _ => rfl⟩
  | mmu =>
    rw [decodeCycle_mmu hw]
    cases rnw with
    | false => exact ⟨d, fun t => .next (writeBank (indexOf a) d.toNat t), fun _ _ => rfl⟩
    | true => exact ⟨0, fun t => .next (readBank (indexOf a) t), fun _ _ => rfl⟩
  | pal =>
    rw [decodeCycle_pal hw]
    cases rnw with
    | false => exact ⟨d, writePal (indexOf a) d, fun _ _ => rfl⟩
    | true => exact ⟨0, fun t => .next (readPal (indexOf a) t), fun _ _ => rfl⟩
  | sam =>
    rw [decodeCycle_sam hw]
    cases rnw with
    | false =>
      exact ⟨d, writeSam (samBitOf a) (samValueOf a), fun _ _ => by cases samValueOf a <;> rfl⟩
    | true => exact ⟨0, fun t => .next (readUndriven t), fun _ _ => rfl⟩

section
variable {s : State} {ev : EventId} {tick : Nat} {c : List (EventId × Nat)}
  {cs : List (List (EventId × Nat))}

theorem exec_decodeCycle_callNow (h : s.callbacks = ((ev, tick) :: c) :: cs) (rnw : Bool) (a : Addr)
    (d : Byte) :
    exec (decodeCycle s.cfg.win rnw a d) s =
      exec (decodeCycle s.cfg.win rnw a d) (callNow ev tick (c :: cs) s) := by
  obtain ⟨byte, effect, hcycle⟩ := decodeCycle_busCycle s.cfg.win rnw a d
  rw [hcycle s rfl, hcycle (callNow ev tick (c :: cs) s) rfl, busCycle_callNow h]

/-! A painting. -/

/-- Painting reads nothing of the queue and the callbacks (log 40). -/
theorem paintLoop_callNow (s : State) (ev : EventId) (tick : Nat) (later : List (List (EventId × Nat)))
    (p k : Nat) (l : Line) : paintLoop (callNow ev tick later s) p k l = paintLoop s p k l := by
  have round : ∀ l, paintStep (callNow ev tick later s) p l = paintStep s p l := fun _ => rfl
  induction k generalizing l with
  | zero => rfl
  | succ k ih => simp only [paintLoop, round, ih]

theorem afterPaint_callNow (h : s.callbacks = ((ev, tick) :: c) :: cs) {l : Line}
    (fetched : s.line.fetchK < l.fetchK) :
    afterPaint l s = afterPaint l (callNow ev tick (c :: cs) s) := by
  obtain ⟨n, hn⟩ : ∃ n, l.fetchK - s.line.fetchK = n + 1 := ⟨l.fetchK - s.line.fetchK - 1, by omega⟩
  have hu : l.fetchK - (callNow ev tick (c :: cs) s).line.fetchK = n + 1 := hn
  rw [afterPaint_eq, afterPaint_eq, hn, hu]
  exact crossings_callNow (s := setLine l s) h n

theorem renderToPos_callNow (h : s.callbacks = ((ev, tick) :: c) :: cs) {p : Nat} {t : State}
    (ht : renderToPos p s = .next t) (fetched : s.line.fetchK < t.line.fetchK) :
    renderToPos p (callNow ev tick (c :: cs) s) = .next t := by
  unfold renderToPos withLine at ht
  split at ht
  · next l painted =>
    cases ht
    rw [afterPaint_callNow (l := l) h fetched]
    exact congrArg (withLine _) ((paintLoop_callNow ..).trans painted)
  · cases ht

end

/-- Painting without a fetch leaves the queue as it is: no callback ran. -/
theorem afterPaint_unfetched {l : Line} {s : State} (h : l.fetchK ≤ s.line.fetchK) :
    afterPaint l s = setLine l s := by
  rw [afterPaint_eq, Nat.sub_eq_zero_of_le h, crossings_zero]

/-- Settles O11: the callback's first call is made at its first crossing, before anything reads the
queue, so it may as well have been made right before the operation. -/
theorem callbacksScheduleAsCallsDo : Obligations.CallbacksScheduleAsCallsDo := by
  unfold Obligations.CallbacksScheduleAsCallsDo
  intro s ev tick c cs h
  refine ⟨callNow ev tick (c :: cs) s, rfl, fun rnw a d =>
    ⟨exec_decodeCycle_callNow h rnw a d, busCycle_callNow h rnw a d _⟩, fun p t ht => ?_⟩
  obtain ⟨l, rfl, _⟩ := renderToPos_spec ht
  refine ⟨rfl, renderToPos_callNow h ht, fun unfetched => ?_⟩
  rw [afterPaint_unfetched (l := l) unfetched]
  exact ⟨rfl, rfl⟩

end Sys2Proof.Machine
end

section
/-! The end of a line (`44_raster.md` R302, R303). -/

namespace Sys2Proof.Machine

theorem rowSuppressed_iff (s : State) :
    rowSuppressed s = true ↔ s.fields.h50 = true ∧ s.scanline < s.cfg.palSuppress := by
  simp [rowSuppressed]

theorem deliverRow_suppressed {s : State} (h50 : s.fields.h50 = true)
    (first : s.scanline < s.cfg.palSuppress) : deliverRow s = .next s := by
  rw [deliverRow, if_pos ((rowSuppressed_iff s).2 ⟨h50, first⟩)]

/-- A row that is not held back is announced, and goes through `vo_render.row` where that is
connected. -/
theorem deliverRow_delivered {s : State}
    (h : s.fields.h50 = false ∨ s.cfg.palSuppress ≤ s.scanline) :
    deliverRow s =
      if s.cfg.voConnected then
        exec (.voRenderRow s.mode.burstSel s.cfg.nVis (deliveredRow s)) (announceRow s)
      else .next (announceRow s) := by
  have shown : ¬ rowSuppressed s = true := by
    rw [rowSuppressed_iff]
    rintro ⟨h50, first⟩
    rcases h with h | h
    · simp [h] at h50
    · omega
  rw [deliverRow, if_neg shown]
  rfl

theorem exec_finishLine_hidden {s : State} (h : s.frameCtr ≠ 0) :
    exec .finishLine s = .next s := if_neg h

theorem exec_finishLine_shown {s : State} (h : s.frameCtr = 0) :
    exec .finishLine s = andThen (exec (.renderTo s.cfg.nVis) s) deliverRow := if_pos h

/-- Settles O37: a line of a displayed field is painted to its end, which leaves everything but the
line, the queue and the callbacks, and its row delivered. -/
theorem finishLineDeliversTheRow : Obligations.FinishLineDeliversTheRow := by
  unfold Obligations.FinishLineDeliversTheRow
  refine fun s port => ⟨exec_finishLine_hidden, fun shown => ?_⟩
  obtain ⟨l, painted, _⟩ := renderToPos_connected port s.cfg.nVis
  have finished : exec .finishLine s = deliverRow (afterPaint l s) := by
    rw [exec_finishLine_shown shown]
    exact congrArg (andThen · deliverRow) painted
  refine ⟨afterPaint l s, painted, fun h50 first => ?_, fun delivered => ?_⟩
  · exact finished.trans (deliverRow_suppressed h50 first)
  · rw [finished, deliverRow_delivered (s := afterPaint l s) delivered]
    exact ⟨fun vo => if_neg (by simp [vo]), fun vo => if_pos vo⟩

end Sys2Proof.Machine
end

section
/-! Derived fields and output levels (`41_bus_decode.md` R207, `60_exceptions.md` R458). Events
change no register, so they leave the derived fields right; what changes a pending mask ends with
`UpdateLevels()`, and so does the write of register 0, the only one that the interrupt enables come
from. -/

namespace Sys2Proof.Machine

/-! No derived field is stale. -/

theorem recomputeAll_derivedOk (s : State) : DerivedOk (recomputeAll s) := ⟨rfl, rfl⟩

/-- No event and no callback touches a register or what is derived from them. -/
theorem EventFrame.derivedOk {s t : State} (h : EventFrame s t) (hs : DerivedOk s) :
    DerivedOk t := by
  rw [h]
  exact hs

/-- `RegWrite` leaves nothing stale, whatever was stale before. -/
theorem writeRegNow_derivedOk (n : BitVec 4) (d : Byte) (s : State) :
    DerivedOk (writeRegNow n d s) :=
  (extraEffect_frame n (regByte s n) d (storeReg n d s)).derivedOk (recomputeAll_derivedOk _)

theorem resetBlock_derivedOk (s : State) : DerivedOk (resetBlock s) :=
  (updateLevels_frame _).derivedOk (recomputeAll_derivedOk _)

/-! The output levels follow the masks. -/

theorem updateLevels_levelsOk (s : State) : LevelsOk (updateLevels s) := ⟨rfl, rfl⟩

theorem expireTimer_levelsOk (s : State) : LevelsOk (expireTimer s) := ⟨rfl, rfl⟩

section
variable {s t : State}

theorem clockTimer_levelsOk (h : LevelsOk s) : LevelsOk (clockTimer s) := by
  unfold clockTimer expireAtZero
  split_ifs
  · exact expireTimer_levelsOk _
  · exact h
  · exact h

theorem onTimer_levelsOk (tick : Nat) (h : LevelsOk s) : LevelsOk (onTimer tick s) := by
  unfold onTimer rearmTimer
  split_ifs
  · exact expireTimer_levelsOk s
  · exact expireTimer_levelsOk s
  · exact h

theorem loadTimer_levelsOk (h : LevelsOk s) : LevelsOk (loadTimer s) := by
  unfold loadTimer
  split_ifs <;> exact h

theorem onHBord_levelsOk (s : State) : LevelsOk (onHBord s) := by
  have pulse : LevelsOk (vbordPulse (raiseIrq irqHBord s)) := by
    unfold vbordPulse
    split <;> exact updateLevels_levelsOk _
  unfold onHBord slowClock
  split
  · exact pulse
  · exact clockTimer_levelsOk pulse

theorem advanceRow_levelsOk (h : LevelsOk s) : LevelsOk (advanceRow s) := by
  unfold advanceRow
  split_ifs <;> exact h

theorem stepVertical_levelsOk (h : LevelsOk s) : LevelsOk (stepVertical s) := by
  unfold stepVertical
  split_ifs <;> exact h

theorem startCounters_levelsOk (h : LevelsOk s) : LevelsOk (startCounters s) := by
  unfold startCounters
  split <;> exact h

/-- A horizontal-sync fall raises no interrupt (`44_raster.md` R295). -/
theorem nextLine_levelsOk (tick : Nat) (h : LevelsOk s) : LevelsOk (nextLine tick s) := by
  have begun : ∀ u : State, LevelsOk u → LevelsOk (beginLine tick u) := fun _ hu => hu
  have scheduled : ∀ u : State, LevelsOk u → LevelsOk (scheduleRaster tick u) := fun _ hu => hu
  have vertical := stepVertical_levelsOk (begun _ (advanceRow_levelsOk h))
  exact scheduled _ (startCounters_levelsOk vertical)

theorem voRow_levelsOk {sel : BurstSel} {n : Nat} {buf : List Byte} (hs : LevelsOk s)
    (h : voRow sel n buf s = .next t) : LevelsOk t := by
  unfold voRow at h
  split at h
  · split at h <;> cases h
    exact hs
  · cases h; exact hs

theorem deliverRow_levelsOk (hs : LevelsOk s) (h : deliverRow s = .next t) : LevelsOk t := by
  unfold deliverRow at h
  split_ifs at h
  · cases h; exact hs
  · exact voRow_levelsOk (s := announceRow s) hs h
  · cases h; exact hs

theorem withLine_levelsOk {o : Option Line} (hs : LevelsOk s) (h : withLine s o = .next t) :
    LevelsOk t := by
  unfold withLine at h
  split at h <;> cases h
  exact hs

theorem flushLine_levelsOk (hs : LevelsOk s) (h : flushLine s = .next t) : LevelsOk t := by
  obtain ⟨l, rfl, _⟩ := flushLine_spec h
  exact hs

theorem completeLine_levelsOk (hs : LevelsOk s) (h : completeLine s = .next t) : LevelsOk t := by
  unfold completeLine at h
  split at h
  · obtain ⟨u, hu, ht⟩ := andThen_eq_next h
    exact deliverRow_levelsOk (withLine_levelsOk hs hu) ht
  · cases h; exact hs

theorem onHsFall_levelsOk {tick : Nat} (hs : LevelsOk s) (h : onHsFall tick s = .next t) :
    LevelsOk t := by
  obtain ⟨u, hu, ht⟩ := andThen_eq_next h
  cases ht
  exact nextLine_levelsOk tick (completeLine_levelsOk hs hu)

theorem fire_levelsOk {ev : EventId} {tick : Nat} (hs : LevelsOk s)
    (h : fire ev tick s = .next t) : LevelsOk t := by
  cases ev with
  | hsFall => exact onHsFall_levelsOk hs h
  | hsRise => cases h; exact hs
  | hBord => cases h; exact onHBord_levelsOk s
  | timer => cases h; exact onTimer_levelsOk tick hs

theorem advance_levelsOk {target : Nat} (hs : LevelsOk s) (h : advance target s = .next t) :
    LevelsOk t :=
  advance_induct (P := LevelsOk) (fun _ _ _ _ hu => hu) (fun _ _ _ _ hu hf => fire_levelsOk hu hf)
    (fun _ _ hu => hu) h hs

/-- Beyond register 0, what a write does besides storing keeps the levels right
(`42_registers.md` R223 to R226). -/
theorem extraEffect_levelsOk (n : BitVec 4) (old d : Byte) (h : LevelsOk s) :
    LevelsOk (extraEffect n old d s) := by
  unfold extraEffect extraInit1
  split_ifs
  · exact updateLevels_levelsOk s
  · exact h
  · exact loadTimer_levelsOk h
  · exact updateLevels_levelsOk _
  · exact updateLevels_levelsOk _
  · exact loadTimer_levelsOk h
  · exact h

end

/-! Both together. -/

/-- No derived field is stale and the output levels are `compute_levels`. -/
structure UpToDate (s : State) : Prop where
  fields : DerivedOk s
  levels : LevelsOk s

/-- The masks and the levels they drive. -/
def State.interrupts (s : State) : IrqMask × IrqMask × Bool × Bool :=
  (s.pendingIrq, s.pendingFirq, s.irqLevel, s.firqLevel)

section
variable {s t : State}

/-- What events may change keeps the state up to date where it keeps the levels right. -/
theorem UpToDate.of_frame (hs : UpToDate s) (frame : EventFrame s t)
    (levels : LevelsOk s → LevelsOk t) : UpToDate t :=
  ⟨frame.derivedOk hs.fields, levels hs.levels⟩

theorem updateLevels_upToDate (h : DerivedOk s) : UpToDate (updateLevels s) :=
  ⟨(updateLevels_frame s).derivedOk h, updateLevels_levelsOk s⟩

/-- Both interrupt enables come from register 0, so recomputing after a change of other registers
keeps the levels right (`42_registers.md` R220). -/
theorem recomputeAll_upToDate (hs : UpToDate s) (masks : t.interrupts = s.interrupts)
    (reg0 : t.reg[0] = s.reg[0]) : UpToDate (recomputeAll t) := by
  obtain ⟨⟨hfields, _⟩, hirq, hfirq⟩ := hs
  simp only [State.interrupts, Prod.mk.injEq] at masks
  obtain ⟨epi, epf, eirq, efirq⟩ := masks
  have ien : (recomputeAll t).fields.ien = s.fields.ien := by
    rw [hfields]
    exact congrArg (bit · 5) reg0
  have fen : (recomputeAll t).fields.fen = s.fields.fen := by
    rw [hfields]
    exact congrArg (bit · 4) reg0
  refine ⟨recomputeAll_derivedOk t, ?_, ?_⟩
  · rw [ien, recomputeAll_irqLevel, recomputeAll_pendingIrq, eirq, epi, hirq]
  · rw [fen, recomputeAll_firqLevel, recomputeAll_pendingFirq, efirq, epf, hfirq]

theorem set16_zero_of_ne {α : Type} (v : Vector α 16) {n : BitVec 4} (x : α) (h : n ≠ 0) :
    (set16 v n x)[0] = v[0] :=
  Vector.getElem_set_ne _ _ fun e => h (BitVec.eq_of_toNat_eq e)

theorem writeRegNow_upToDate (n : BitVec 4) (d : Byte) (hs : UpToDate s) :
    UpToDate (writeRegNow n d s) := by
  refine ⟨writeRegNow_derivedOk n d s, ?_⟩
  by_cases hn : n = 0
  · subst hn
    exact updateLevels_levelsOk _
  · have stored : UpToDate (storeReg n d s) :=
      recomputeAll_upToDate hs (t := setReg n d s) rfl (set16_zero_of_ne s.reg d hn)
    exact extraEffect_levelsOk n _ d stored.levels

/-- A write that flushes first. -/
theorem flushed_upToDate {g : State → State}
    (h : andThen (flushLine s) (fun u => .next (g u)) = .next t)
    (update : ∀ u, UpToDate u → UpToDate (g u)) (hs : UpToDate s) : UpToDate t := by
  obtain ⟨u, hu, ht⟩ := andThen_eq_next h
  cases ht
  exact update u (hs.of_frame (flushLine_frame hu) fun hl => flushLine_levelsOk hl hu)

theorem writeReg_upToDate {n : BitVec 4} {d : Byte} (hs : UpToDate s)
    (h : writeReg n d s = .next t) : UpToDate t :=
  flushed_upToDate h (fun _ hu => writeRegNow_upToDate n d hu) hs

theorem writePal_upToDate {i : BitVec 4} {d : Byte} (hs : UpToDate s)
    (h : writePal i d s = .next t) : UpToDate t :=
  flushed_upToDate h (fun _ ⟨hf, hl⟩ => ⟨hf, hl⟩) hs

theorem writeSam_upToDate {b : BitVec 4} {v : Bool} (hs : UpToDate s)
    (h : writeSam b v s = .next t) : UpToDate t :=
  flushed_upToDate h (fun u hu => recomputeAll_upToDate hu (t := setSam b v u) rfl rfl) hs

theorem writeSnoop_upToDate {i : Nat} {d : Byte} (hs : UpToDate s)
    (h : writeSnoop i d s = .next t) : UpToDate t :=
  flushed_upToDate h (fun u hu => recomputeAll_upToDate hu (t := setSnoop i d u) rfl rfl) hs

theorem readIrqPending_upToDate (hs : UpToDate s) : UpToDate (readIrqPending s) :=
  updateLevels_upToDate (s := takeIrq s) hs.fields

theorem readFirqPending_upToDate (hs : UpToDate s) : UpToDate (readFirqPending s) :=
  updateLevels_upToDate (s := takeFirq s) hs.fields

theorem readRegBus_upToDate (n : BitVec 4) (hs : UpToDate s) : UpToDate (readRegBus n s) := by
  unfold readRegBus
  split_ifs
  · exact readIrqPending_upToDate hs
  · exact readFirqPending_upToDate hs
  · exact ⟨hs.fields, hs.levels⟩

theorem readRegister_upToDate (n : BitVec 4) (hs : UpToDate s) : UpToDate (readRegister n s) := by
  unfold readRegister
  split_ifs
  · exact readIrqPending_upToDate hs
  · exact readFirqPending_upToDate hs
  · exact ⟨hs.fields, hs.levels⟩

theorem windowEffect_upToDate {rnw : Bool} {a : Addr} {d : Byte} (hs : UpToDate s)
    (h : windowEffect rnw a d s = .next t) : UpToDate t := by
  unfold windowEffect at h
  cases hw : windowOf s.cfg.win a <;> simp only [hw] at h
  case ramLo | upper | fexx | vec => cases h; exact hs
  case io =>
    split at h
    · exact writeSnoop_upToDate hs h
    · cases h; exact hs
  case reg =>
    split at h
    · cases h; exact readRegBus_upToDate _ hs
    · exact writeReg_upToDate hs h
  case mmu => cases rnw <;> cases h <;> exact ⟨hs.fields, hs.levels⟩
  case pal =>
    split at h
    · cases h; exact ⟨hs.fields, hs.levels⟩
    · exact writePal_upToDate hs h
  case sam =>
    split at h
    · cases h; exact ⟨hs.fields, hs.levels⟩
    · exact writeSam_upToDate hs h

theorem platformTransfer_upToDate (rnw : Bool) (d : Byte) (b : BusSelect) (hs : UpToDate s) :
    UpToDate (platformTransfer rnw d b s) := by
  unfold platformTransfer
  split
  · split <;> exact ⟨hs.fields, hs.levels⟩
  · split_ifs <;> exact ⟨hs.fields, hs.levels⟩

theorem advance_upToDate {target : Nat} (hs : UpToDate s) (h : advance target s = .next t) :
    UpToDate t :=
  hs.of_frame (advance_spec h).2.1 fun hl => advance_levelsOk hl h

/-- A cycle keeps the state up to date where its effect does. -/
theorem busCycle_upToDate {rnw : Bool} {a : Addr} {d : Byte} {f : State → Res}
    (effect : ∀ u v, UpToDate u → f u = .next v → UpToDate v) (hs : UpToDate s)
    (h : busCycle rnw a d f s = .next t) : UpToDate t := by
  obtain ⟨u, hu, ht⟩ := andThen_eq_next h
  have announced : UpToDate (announceCycle rnw a s) := ⟨hs.fields, hs.levels⟩
  exact effect _ t (platformTransfer_upToDate _ _ _ (advance_upToDate announced hu)) ht

/-- A cycle whose effect only updates the state. -/
theorem busCycle_update_upToDate {rnw : Bool} {a : Addr} {d : Byte} {g : State → State}
    (hs : UpToDate s) (h : busCycle rnw a d (fun u => .next (g u)) s = .next t)
    (update : ∀ u, UpToDate u → UpToDate (g u)) : UpToDate t :=
  busCycle_upToDate (fun u v hu hv => by cases hv; exact update u hu) hs h

theorem withRow_upToDate {row : Option (List Rgb)} (hs : UpToDate s)
    (h : withRow s row = .next t) : UpToDate t := by
  unfold withRow at h
  split at h <;> cases h
  exact ⟨hs.fields, hs.levels⟩

/-- Every operation keeps the state up to date. -/
theorem exec_upToDate {i : Instr} (hs : UpToDate s) (h : exec i s = .next t) : UpToDate t := by
  cases i with
  | busRamLo rnw a d | busUpper rnw a d | busFexx rnw a d | busIo rnw a d | busVec rnw a d =>
    exact busCycle_update_upToDate (g := id) hs h fun _ hu => hu
  | snoopWr a d => exact busCycle_upToDate (fun _ _ hu hv => writeSnoop_upToDate hu hv) hs h
  | regWr0 d a | regWr1 d a | regWr2 d a | regWr3 d a | regWr4 d a | regWr5 d a | regWr6 d a
  | regWr7 d a | regWr8 d a | regWr9 d a | regWr10 d a | regWr11 d a | regWr12 d a
  | regWr13 d a | regWr14 d a | regWr15 d a =>
    exact busCycle_upToDate (fun _ _ hu hv => writeReg_upToDate hu hv) hs h
  | regRd2 a => exact busCycle_update_upToDate hs h fun _ hu => readIrqPending_upToDate hu
  | regRd3 a => exact busCycle_update_upToDate hs h fun _ hu => readFirqPending_upToDate hu
  | regRdX a | mmuRd a | palRd a | samRd a | mmuWr a d =>
    exact busCycle_update_upToDate hs h fun _ ⟨hf, hl⟩ => ⟨hf, hl⟩
  | palWr a d => exact busCycle_upToDate (fun _ _ hu hv => writePal_upToDate hu hv) hs h
  | samClr a d | samSet a d =>
    exact busCycle_upToDate (fun _ _ hu hv => writeSam_upToDate hu hv) hs h
  | evHsFall tick seq => exact hs.of_frame (onHsFall_frame h) fun hl => onHsFall_levelsOk hl h
  | evHBord tick seq =>
    cases h; exact hs.of_frame (onHBord_frame s) fun _ => onHBord_levelsOk s
  | evTimer tick seq => cases h; exact hs.of_frame (onTimer_frame tick s) (onTimer_levelsOk tick)
  | advanceTo target => exact advance_upToDate hs h
  | memoryCycle rnw a d =>
    exact busCycle_upToDate (fun _ _ hu hv => windowEffect_upToDate hu hv) hs h
  | reset => cases h; exact updateLevels_upToDate (recomputeAll_derivedOk _)
  | setRegister index value =>
    simp only [exec, execSetRegister] at h
    split at h
    · exact writeReg_upToDate hs h
    · cases h
  | getRegister index =>
    simp only [exec, execGetRegister] at h
    split at h <;> cases h
    exact readRegister_upToDate _ hs
  | setMmuBank index page =>
    simp only [exec, execSetMmuBank] at h
    split at h <;> cases h
    exact ⟨hs.fields, hs.levels⟩
  | setPaletteEntry index y pb pr =>
    simp only [exec, execSetPaletteEntry, setColour] at h
    split at h <;> cases h
    exact ⟨hs.fields, hs.levels⟩
  | setBurst index offset =>
    simp only [exec, execSetBurst, rebuildBurst] at h
    split at h <;> cases h
    exact ⟨hs.fields, hs.levels⟩
  | renderPalette sel n buf | renderArt2 sel n buf | renderArt5 sel n buf | renderSim sel n buf =>
    exact withRow_upToDate hs h
  | voRenderRow sel n buf => exact hs.of_frame (voRow_frame h) fun hl => voRow_levelsOk hl h
  | recompute => cases h; exact recomputeAll_upToDate hs (t := s) rfl rfl
  | regWrite n d => exact writeReg_upToDate hs h
  | flush => exact hs.of_frame (flushLine_frame h) fun hl => flushLine_levelsOk hl h
  | renderTo p => exact hs.of_frame (renderToPos_frame h) fun hl => withLine_levelsOk hl h
  | cell => exact hs.of_frame (paintOneCell_frame h) fun hl => withLine_levelsOk hl h
  | raise m => cases h; exact updateLevels_upToDate (s := latchSources m s) hs.fields
  | updateLevels => cases h; exact updateLevels_upToDate hs.fields
  | timerLoad => cases h; exact hs.of_frame (loadTimer_frame s) loadTimer_levelsOk
  | timerClock => cases h; exact hs.of_frame (clockTimer_frame s) clockTimer_levelsOk
  | timerExpire =>
    cases h; exact hs.of_frame (expireTimer_frame s) fun _ => expireTimer_levelsOk s
  | finishLine => exact hs.of_frame (completeLine_frame h) fun hl => completeLine_levelsOk hl h
  | rowAdvance => cases h; exact hs.of_frame (advanceRow_frame s) advanceRow_levelsOk
  | verticalStep => cases h; exact hs.of_frame (stepVertical_frame s) stepVertical_levelsOk
  | lineCounters => cases h; exact hs.of_frame (startCounters_frame s) startCounters_levelsOk
  | evHsRise | schedule | cancel | setHue | scheduleLine =>
    cases h
    exact ⟨hs.fields, hs.levels⟩

end

/-- Settles O55: each operation keeps the state up to date, and taking it from where it waits
touches neither a register nor an output. -/
theorem stepsKeepFieldsAndLevels : Obligations.StepsKeepFieldsAndLevels := by
  unfold Obligations.StepsKeepFieldsAndLevels
  intro s t fields levels h
  obtain ⟨fields', levels'⟩ := step_keeps (P := UpToDate)
    (fun _ ⟨hf, hl⟩ => ⟨hf, hl⟩) (fun _ _ ⟨hf, hl⟩ => ⟨hf, hl⟩)
    (fun _ _ _ hu hi => exec_upToDate hu hi) ⟨fields, levels⟩ h
  exact ⟨fields', levels'⟩

end Sys2Proof.Machine
end

section
/-! `memory_cycle` and the operations of the windows (`41_bus_decode.md` R195 step 6, R206): two
dispatches of the same cycle. The effect of `memory_cycle` looks its window up at the end of the
cycle, in the window map that no cycle changes. -/

namespace Sys2Proof.Machine

/-- Effects that agree under the parameters of the state make the same cycle. -/
theorem busCycle_congr {rnw : Bool} {a : Addr} {d : Byte} {f g : State → Res} {s : State}
    (h : ∀ u : State, u.cfg = s.cfg → f u = g u) : busCycle rnw a d f s = busCycle rnw a d g s := by
  refine andThen_congr fun t ht => h _ ?_
  have frame : EventFrame (announceCycle rnw a s) t := (advance_spec ht).2.1
  exact (platformTransfer_cfg _ _ _ _).trans frame.cfg

section
variable {rnw : Bool} {a : Addr} {d : Byte} {s : State}

/-! The effect in each window (R206). -/

theorem windowEffect_outside {w : Window} (hw : windowOf s.cfg.win a = w)
    (h : w = .ramLo ∨ w = .upper ∨ w = .fexx ∨ w = .vec) : windowEffect rnw a d s = .next s := by
  rw [windowEffect, hw]
  rcases h with rfl | rfl | rfl | rfl <;> rfl

theorem windowEffect_snooped (hw : windowOf s.cfg.win a = .io)
    (hs : snoopedWrite s.cfg.win rnw a = true) :
    windowEffect rnw a d s = writeSnoop (snoopIndexOf s.cfg.win a) d s := by
  rw [windowEffect, hw]
  exact if_pos hs

theorem windowEffect_reg (hw : windowOf s.cfg.win a = .reg) :
    windowEffect rnw a d s =
      if rnw then .next (readRegBus (indexOf a) s) else writeReg (indexOf a) d s := by
  rw [windowEffect, hw]

theorem windowEffect_mmu (hw : windowOf s.cfg.win a = .mmu) :
    windowEffect rnw a d s =
      .next (if rnw then readBank (indexOf a) s else writeBank (indexOf a) d.toNat s) := by
  rw [windowEffect, hw]

theorem windowEffect_pal (hw : windowOf s.cfg.win a = .pal) :
    windowEffect rnw a d s =
      if rnw then .next (readPal (indexOf a) s) else writePal (indexOf a) d s := by
  rw [windowEffect, hw]

theorem windowEffect_sam (hw : windowOf s.cfg.win a = .sam) :
    windowEffect rnw a d s =
      if rnw then .next (readUndriven s) else writeSam (samBitOf a) (samValueOf a) s := by
  rw [windowEffect, hw]

/-- `memory_cycle` is the cycle with the effect that its window has under the parameters. -/
theorem exec_memoryCycle_of_effect {f : State → Res}
    (h : ∀ u : State, u.cfg = s.cfg → windowEffect rnw a d u = f u) :
    exec (.memoryCycle rnw a d) s = busCycle rnw a d f s := busCycle_congr h

theorem exec_memoryCycle_outside (h : windowOf s.cfg.win a = .ramLo ∨
      windowOf s.cfg.win a = .upper ∨ windowOf s.cfg.win a = .fexx ∨ windowOf s.cfg.win a = .vec) :
    exec (.memoryCycle rnw a d) s = plainCycle rnw a d s :=
  exec_memoryCycle_of_effect fun _ hu => windowEffect_outside rfl (hu ▸ h)

/-! The reads and writes that the decoder names by a sub-field of the address. -/

theorem exec_decodeRegRead (a : Addr) (s : State) :
    exec (decodeRegRead a) s = busCycle true a 0 (fun u => .next (readRegBus (indexOf a) u)) s := by
  unfold decodeRegRead readRegBus
  split_ifs <;> rfl

theorem exec_samWrite (a : Addr) (d : Byte) (s : State) :
    exec (if samValueOf a then .samSet a d else .samClr a d) s =
      busCycle false a d (writeSam (samBitOf a) (samValueOf a)) s := by
  cases samValueOf a <;> rfl

end

/-- Settles O5: window by window, the effect of `memory_cycle` is the one of the operation that the
decoder names. -/
theorem memoryCycleIsItsWindowOperation : Obligations.MemoryCycleIsItsWindowOperation := by
  unfold Obligations.MemoryCycleIsItsWindowOperation
  intro rnw a d s
  change exec (.memoryCycle rnw a (cycleData rnw d)) s = _
  cases hw : windowOf s.cfg.win a with
  | ramLo =>
    rw [decodeCycle_ramLo hw, exec_memoryCycle_outside (.inl hw)]
    rfl
  | upper =>
    rw [decodeCycle_upper hw, exec_memoryCycle_outside (.inr (.inl hw))]
    rfl
  | fexx =>
    rw [decodeCycle_fexx hw, exec_memoryCycle_outside (.inr (.inr (.inl hw)))]
    rfl
  | vec =>
    rw [decodeCycle_vec hw, exec_memoryCycle_outside (.inr (.inr (.inr hw)))]
    rfl
  | io =>
    cases hs : snoopedWrite s.cfg.win rnw a with
    | false =>
      rw [decodeCycle_io hw hs]
      exact exec_memoryCycle_of_effect fun _ hu =>
        windowEffect_plain rfl (hu ▸ hs) (.inr (.inr (.inr (.inl (hu ▸ hw)))))
    | true =>
      obtain rfl := write_of_snooped hs
      rw [decodeCycle_snooped hw hs]
      exact exec_memoryCycle_of_effect fun u hu => by
        rw [windowEffect_snooped (hu ▸ hw) (hu ▸ hs), hu]; rfl
  | reg =>
    cases rnw with
    | false =>
      rw [decodeCycle_regWrite hw, exec_registerWrite]
      exact exec_memoryCycle_of_effect fun _ hu => windowEffect_reg (hu ▸ hw)
    | true =>
      rw [decodeCycle_regRead hw, exec_decodeRegRead]
      exact exec_memoryCycle_of_effect fun _ hu => windowEffect_reg (hu ▸ hw)
  | mmu =>
    rw [decodeCycle_mmu hw]
    cases rnw <;> exact exec_memoryCycle_of_effect fun _ hu => windowEffect_mmu (hu ▸ hw)
  | pal =>
    rw [decodeCycle_pal hw]
    cases rnw <;> exact exec_memoryCycle_of_effect fun _ hu => windowEffect_pal (hu ▸ hw)
  | sam =>
    rw [decodeCycle_sam hw]
    cases rnw with
    | false =>
      rw [if_neg Bool.false_ne_true, exec_samWrite]
      exact exec_memoryCycle_of_effect fun _ hu => windowEffect_sam (hu ▸ hw)
    | true => exact exec_memoryCycle_of_effect fun _ hu => windowEffect_sam (hu ▸ hw)

end Sys2Proof.Machine
end

section
/-! Cycles that select a ROM or a peripheral, and the snooped writes among them
(`41_bus_decode.md` R190, R197 to R200, R205). -/

namespace Sys2Proof.Machine

section
variable {s : State} {a : Addr} {sel : Sel}

/-! The windows that select a ROM (R197, R198). -/

theorem romSelect_eq (s : State) (a : Addr) :
    romSelect s a = selOther (if s.fields.mc1 then (if s.fields.mc0 then .romExt else .romInt)
      else if a.toNat < s.cfg.win.romLo + 0x4000 then .romInt else .romExt) := by
  unfold romSelect
  cases s.fields.mc1 <;> cases s.fields.mc0 <;> rfl

theorem busDecode_upper_rom (hw : windowOf s.cfg.win a = .upper) (ty : s.fields.ty = false) :
    busDecode s a = romSelect s a := by
  rw [busDecode_upper hw, upperSelect, ty, if_neg Bool.false_ne_true]

theorem busDecode_fexx_rom (hw : windowOf s.cfg.win a = .fexx) (mc3 : s.fields.mc3 = false)
    (ty : s.fields.ty = false) : busDecode s a = romSelect s a := by
  rw [busDecode_fexx hw, mc3, if_neg Bool.false_ne_true, upperSelect, ty, if_neg Bool.false_ne_true]

/-! The transfer (R195 step 5). -/

/-- A device outside keeps a write to itself. -/
theorem platformTransfer_write_outside (d : Byte) (s : State) :
    platformTransfer false d (selOther sel) s = s := by
  simp only [platformTransfer, selOther, Bool.false_eq_true, if_false, ite_self]

/-- A device outside answers a read. -/
theorem platformTransfer_read_outside (d : Byte) (s : State) (outside : sel ≠ .internal) :
    platformTransfer true d (selOther sel) s = readExternal s := by
  simp only [platformTransfer, selOther, if_neg outside, if_true]

/-- A quiet write cycle that selects a device outside only takes its time. -/
theorem plainCycle_write_outside (d : Byte) (quiet : quietCycle s = true)
    (select : busDecode s a = selOther sel) :
    plainCycle false a d s = .next (afterCycle false a s) := by
  rw [plainCycle, busCycle_quiet _ _ _ _ quiet, select, platformTransfer_write_outside]

/-- A quiet read cycle that selects a device outside takes its time and a byte from there. -/
theorem plainCycle_read_outside (d : Byte) (quiet : quietCycle s = true)
    (select : busDecode s a = selOther sel) (outside : sel ≠ .internal) :
    plainCycle true a d s = .next (readExternal (afterCycle true a s)) := by
  rw [plainCycle, busCycle_quiet _ _ _ _ quiet, select, platformTransfer_read_outside _ _ outside]

/-- Both directions, for operations that are cycles without an internal effect. -/
theorem outsideCycles_of_select {d : Byte} {w r : Instr} (quiet : quietCycle s = true)
    (write : exec w s = plainCycle false a d s) (read : exec r s = plainCycle true a 0 s)
    (select : busDecode s a = selOther sel) (outside : sel ≠ .internal) :
    busDecode s a = ⟨sel, false, none⟩ ∧ exec w s = .next (afterCycle false a s) ∧
      ∃ b, exec r s = .next { afterCycle true a s with readData := b, draws := s.draws + 1 } :=
  ⟨select, write.trans (plainCycle_write_outside d quiet select), _,
    read.trans (plainCycle_read_outside 0 quiet select outside)⟩

end

/-- Settles O14: each of the four windows selects a device outside, where a quiet cycle only takes
time and, in a read, a byte. -/
theorem otherCyclesOnlyTakeTime : Obligations.OtherCyclesOnlyTakeTime := by
  unfold Obligations.OtherCyclesOnlyTakeTime
  intro s a d quiet rom
  have outside : rom.sel ≠ .internal := by
    show (if _ then if _ then Sel.romExt else .romInt else if _ then .romInt else .romExt) ≠ _
    split_ifs <;> decide
  have rom_eq : romSelect s a = selOther rom.sel := romSelect_eq s a
  refine ⟨fun hw ty => ?_, fun hw mc3 ty => ?_, fun hw => ?_, fun hw => ?_⟩
  · have select := (busDecode_upper_rom hw ty).trans rom_eq
    exact outsideCycles_of_select quiet rfl rfl select outside
  · have select := (busDecode_fexx_rom hw mc3 ty).trans rom_eq
    exact outsideCycles_of_select quiet rfl rfl select outside
  · obtain ⟨select, write, read⟩ := outsideCycles_of_select (d := d) (w := .busIo false a d)
      (r := .busIo true a 0) quiet rfl rfl (busDecode_io hw) (by decide)
    exact ⟨select, fun _ => write, read⟩
  · exact outsideCycles_of_select quiet rfl rfl (busDecode_vec hw) (by decide)

/-! The snooped writes (R205). -/

/-- The latch of a snooped address, by its distance from the first. -/
theorem snoopIndexOf_eq_iff {m : WindowMap} {a : Addr} (h : snoopedWrite m false a = true)
    (k : Nat) : snoopIndexOf m a = k ↔ a.toNat = m.snoopLo + k := by
  simp only [snoopedWrite, Bool.and_eq_true, decide_eq_true_eq] at h
  unfold snoopIndexOf
  omega

/-- A quiet snooped write is `SNOOP_WR` at the end of its cycle. -/
theorem exec_snoopWr_quiet {s : State} {a : Addr} (d : Byte) (quiet : quietCycle s = true)
    (hw : windowOf s.cfg.win a = .io) :
    exec (.snoopWr a d) s = writeSnoop (snoopIndexOf s.cfg.win a) d (afterCycle false a s) := by
  rw [exec, execSnoopWr, busCycle_quiet _ _ _ _ quiet, busDecode_io hw,
    platformTransfer_write_outside]

/-- Settles O25: at the end of the cycle the line is flushed, then the byte latched and everything
recomputed. -/
theorem snoopedWritesAreLatched : Obligations.SnoopedWritesAreLatched := by
  unfold Obligations.SnoopedWritesAreLatched
  intro a d x y s quiet port hw snooped hx hy
  obtain ⟨l, flushed, line, written⟩ := writeSnoop_connected (s := afterCycle false a s) port
    (snoopIndexOf s.cfg.win a) d
  refine ⟨l, flushed, line, ?_⟩
  have latch0 : (if snoopIndexOf s.cfg.win a = 0 then d else s.snoop0) = x := by
    simp only [hx, snoopIndexOf_eq_iff snooped, Nat.add_zero]
  have latch1 : (if snoopIndexOf s.cfg.win a = 1 then d else s.snoop1) = y := by
    simp only [hy, snoopIndexOf_eq_iff snooped]
  rw [exec_snoopWr_quiet d quiet hw, written, ← latch0, ← latch1]
  rfl

end Sys2Proof.Machine
end

section
/-! `Recompute()` in arithmetic (`42_registers.md` R220, R221), and the writes that end with it
(`41_bus_decode.md` R207). -/

namespace Sys2Proof.Machine

/-! Parts of a value, and table entries. -/

theorem bits_toNat {w : Nat} (v : BitVec w) (lo width : Nat) :
    (bits v lo width).toNat = v.toNat / 2 ^ lo % 2 ^ width := by
  rw [bits, BitVec.extractLsb'_toNat, Nat.shiftRight_eq_div_pow]

theorem append_byte_toNat {w : Nat} (hi : BitVec w) (lo : Byte) :
    (hi ++ lo).toNat = hi.toNat * 256 + lo.toNat := by
  rw [BitVec.toNat_append, ← Nat.shiftLeft_add_eq_or_of_lt lo.isLt, Nat.shiftLeft_eq]

theorem bit_zero {w : Nat} (v : BitVec w) : bit v 0 = (v.toNat % 2 == 1) := by
  rw [bit, BitVec.getLsbD, Nat.testBit_zero]
  rfl

/-- The top bit of a three-bit code. -/
theorem bit_two_iff (v : BitVec 3) : bit v 2 = true ↔ 4 ≤ v.toNat := by
  revert v
  decide

theorem at8_eq_getD {α : Type} (t : Vector α 8) (i : BitVec 3) (default : α) :
    at8 t i = t.toList.getD i.toNat default := by
  rw [at8, List.getD_eq_getElem _ _ (by simpa using i.isLt), Vector.getElem_toList]

/-! The mode record (R221). -/

section
variable {c : Params} {f : Fields}

theorem modeOf_legacy (h : f.coco = true) : modeOf c f = legacyMode c f := if_pos h

theorem modeOf_native (h : f.coco = false) : modeOf c f = nativeMode c f := by
  rw [modeOf, h, if_neg Bool.false_ne_true]

theorem modeOf_burstSel (c : Params) (f : Fields) : (modeOf c f).burstSel = burstSelOf f := by
  unfold modeOf
  split <;> rfl

theorem nativeMode_graphics (bp : f.bp = true) :
    (nativeMode c f).mode = .nativeGfx ∧ (nativeMode c f).attr = false ∧
      (nativeMode c f).bpr = c.gfxBpr.toList.getD f.hres.toNat 0 ∧
      (nativeMode c f).r.toNat = f.hres.toNat / 2 := by
  have code : f.hres.toNat < 8 := f.hres.isLt
  have r : (bits f.hres 1 2).toNat = f.hres.toNat / 2 := by
    rw [bits_toNat]
    omega
  simp [nativeMode, bp, at8_eq_getD _ _ 0, r]

theorem nativeMode_text (bp : f.bp = false) :
    (nativeMode c f).mode = .nativeText ∧ (nativeMode c f).attr = (f.cres.toNat % 2 == 1) ∧
      (nativeMode c f).bpr = c.textCols.toList.getD f.hres.toNat 0 * (1 + f.cres.toNat % 2) ∧
      (nativeMode c f).r = if 4 ≤ f.hres.toNat then 2 else 1 := by
  have attr : (f.cres.toNat % 2 == 1).toNat = f.cres.toNat % 2 := by
    rcases Nat.mod_two_eq_zero_or_one f.cres.toNat with h | h <;> rw [h] <;> rfl
  simp [nativeMode, bp, at8_eq_getD _ _ 0, bit_zero, bit_two_iff, attr]

end

/-! Writes leave nothing stale (`41_bus_decode.md` R207). -/

section
variable {s t : State}

theorem writeReg_derivedOk {n : BitVec 4} {d : Byte} (h : writeReg n d s = .next t) :
    DerivedOk t := by
  obtain ⟨l, _, rfl⟩ := flushed_eq_next h
  exact writeRegNow_derivedOk n d _

theorem writeSam_derivedOk {b : BitVec 4} {v : Bool} (h : writeSam b v s = .next t) :
    DerivedOk t := by
  obtain ⟨l, _, rfl⟩ := flushed_eq_next h
  exact recomputeAll_derivedOk _

theorem writeSnoop_derivedOk {i : Nat} {d : Byte} (h : writeSnoop i d s = .next t) :
    DerivedOk t := by
  obtain ⟨l, _, rfl⟩ := flushed_eq_next h
  exact recomputeAll_derivedOk _

/-- A cycle leaves nothing stale where its effect does. -/
theorem busCycle_derivedOk {rnw : Bool} {a : Addr} {d : Byte} {f : State → Res}
    (effect : ∀ u, f u = .next t → DerivedOk t) (h : busCycle rnw a d f s = .next t) :
    DerivedOk t := by
  obtain ⟨_, _, _, _, ht⟩ := busCycle_spec h
  exact effect _ ht

end

/-- Settles O26: the fields in arithmetic, the mode record by `COCO` and `BP`, and the writes, each
of which ends with `Recompute()` up to what events may change. -/
theorem writesLeaveNothingStale : Obligations.WritesLeaveNothingStale := by
  unfold Obligations.WritesLeaveNothingStale
  refine ⟨fun s => ⟨recomputeAll s, rfl, rfl, recomputeAll_derivedOk s, rfl, recomputeAll_of_ok,
    ?fields, ?mode⟩, fun s t a n k d => ?writes⟩
  case fields =>
    simp only [recomputeAll_fields, extractFields, bit, bits_toNat, append_byte_toNat,
      Nat.reducePow, Nat.div_one, true_and]
  case mode =>
    have mode_eq : (recomputeAll s).mode = modeOf s.cfg (recomputeAll s).fields := rfl
    rw [mode_eq]
    generalize (recomputeAll s).fields = f
    refine ⟨fun legacy => ?_, fun native => ?_, modeOf_burstSel s.cfg f⟩
    · rw [modeOf_legacy legacy, legacyMode]
      simp only [bit_zero, at8_eq_getD _ _ 0, beq_iff_eq, Bool.not_eq_true', true_and]
    · rw [modeOf_native native]
      exact ⟨bit_zero _, at8_eq_getD _ _ _, nativeMode_graphics, nativeMode_text, rfl, rfl⟩
  case writes =>
    simp only [List.forall_mem_cons]
    refine ⟨fun h => ?_, writeReg_derivedOk, fun h => ?_,
      busCycle_derivedOk fun _ => writeSam_derivedOk,
      busCycle_derivedOk fun _ => writeSam_derivedOk,
      busCycle_derivedOk fun _ => writeSnoop_derivedOk, fun h => ?_, List.forall_mem_nil _⟩
    · rw [decodeRegWrite_eq, exec_registerWrite] at h
      exact busCycle_derivedOk (fun _ => writeReg_derivedOk) h
    · simp only [exec, execSetRegister] at h
      split at h
      · exact writeReg_derivedOk h
      · cases h
    · cases h
      exact resetBlock_derivedOk s

end Sys2Proof.Machine
end

section
/-! What `RegWrite` does register by register (`42_registers.md` R222 to R238): the line is flushed,
the byte stored and everything derived recomputed, which `registerStored` says as one record, and then
the register's extra effect runs. -/

namespace Sys2Proof.Machine

/-! The extra effects (R222 to R237). -/

section
variable (old d : Byte) (s : State)

theorem extraEffect_init0 : extraEffect 0 old d s = levelsUpdated s := rfl

theorem extraEffect_init1_same (h : bit old 5 = bit d 5) : extraEffect 1 old d s = s := if_pos h

theorem extraEffect_init1_changed (h : bit old 5 ≠ bit d 5) :
    extraEffect 1 old d s = loadTimer s := if_neg h

theorem extraEffect_irqEnable : extraEffect 2 old d s = levelsUpdated (maskIrq d s) := rfl

theorem extraEffect_firqEnable : extraEffect 3 old d s = levelsUpdated (maskFirq d s) := rfl

theorem extraEffect_timerHigh : extraEffect 4 old d s = loadTimer s := rfl

/-- The registers from 5 on have no extra effect (R227 to R237). -/
theorem extraEffect_none {n : BitVec 4} (h : 5 ≤ n) : extraEffect n old d s = s := by
  have other (m : BitVec 4) (small : m < 5) : n ≠ m := fun e => by bv_omega
  rw [extraEffect, if_neg (other 0 (by decide)), if_neg (other 1 (by decide)),
    if_neg (other 2 (by decide)), if_neg (other 3 (by decide)), if_neg (other 4 (by decide))]

end

/-- With the fetch port connected every `RegWrite` answers: after one and the same flush its register
is stored, then its extra effect runs (R238). -/
theorem exec_regWrite_connected {s : State} (port : s.cfg.vfetchConnected = true) :
    ∃ l, exec .flush s = .next (afterPaint l s) ∧ Flushed s l ∧ ∀ n d,
      exec (.regWrite n d) s =
        .next (extraEffect n (regByte s n) d (registerStored n d s l)) := by
  obtain ⟨l, flush, flushed⟩ := flushLine_connected port
  refine ⟨l, flush, flushed, fun n d => ?_⟩
  rw [exec, execRegWrite, writeReg, flush, andThen_next]
  rfl

/-- Settles O17: from register 5 on storing is all that a write does. -/
theorem regWriteStoresAndRecomputes : Obligations.RegWriteStoresAndRecomputes := by
  unfold Obligations.RegWriteStoresAndRecomputes
  intro n d s plain port
  obtain ⟨l, flush, flushed, write⟩ := exec_regWrite_connected port
  exact ⟨l, flush, flushed, by rw [write, extraEffect_none _ _ _ plain]⟩

/-! What the fields are after a store (R220, R222, R224, R225). -/

section
variable (d : Byte) (s : State) (l : Line)

theorem set16_self {α : Type} (t : Vector α 16) (n : BitVec 4) (v : α) :
    (set16 t n v)[n.toNat]'n.isLt = v := Vector.getElem_set_self _

/-- The output enables are the bits of the byte written to register 0. -/
theorem registerStored_enables : (registerStored 0 d s l).fields.ien = d.getLsbD 5 ∧
    (registerStored 0 d s l).fields.fen = d.getLsbD 4 :=
  ⟨congrArg (bit · 5) (set16_self s.reg 0 d), congrArg (bit · 4) (set16_self s.reg 0 d)⟩

theorem registerStored_irqEn : (registerStored 2 d s l).fields.irqEn = d.extractLsb' 0 6 :=
  congrArg (bits · 0 6) (set16_self s.reg 2 d)

theorem registerStored_firqEn : (registerStored 3 d s l).fields.firqEn = d.extractLsb' 0 6 :=
  congrArg (bits · 0 6) (set16_self s.reg 3 d)

end

/-- Settles O18: register 0 lets the outputs follow the new enables; registers 2 and 3 first mask the
pending bits. -/
theorem regWriteInterruptEnables : Obligations.RegWriteInterruptEnables := by
  unfold Obligations.RegWriteInterruptEnables
  intro d s port
  obtain ⟨l, flush, flushed, write⟩ := exec_regWrite_connected port
  obtain ⟨ien, fen⟩ := registerStored_enables d s l
  refine ⟨l, flush, flushed, ?init0, ien, fen, ?irq, registerStored_irqEn d s l, ?firq,
    registerStored_firqEn d s l⟩
  case init0 => rw [write, extraEffect_init0]
  case irq =>
    rw [write, extraEffect_irqEnable]
    rfl
  case firq =>
    rw [write, extraEffect_firqEnable]
    rfl

/-- Settles O19: register 4 loads the timer in any case, register 1 by its bit 5. -/
theorem regWriteTimerLoads : Obligations.RegWriteTimerLoads := by
  unfold Obligations.RegWriteTimerLoads
  intro d s port
  obtain ⟨l, flush, flushed, write⟩ := exec_regWrite_connected port
  refine ⟨l, flush, flushed, ⟨_, write 4 d, rfl⟩, fun changed => ⟨_, write 1 d, ?_⟩, fun same => ?_⟩
  · rw [extraEffect_init1_changed (regByte s 1) d _ changed]
    rfl
  · rw [write, extraEffect_init1_same (regByte s 1) d _ same]

end Sys2Proof.Machine
end

section
/-! Reads of the register and SAM windows, and the direct register calls (`42_registers.md` R240 to
R242, R250, R251, `43_mmu_palette_sam.md` R272). -/

namespace Sys2Proof.Machine

/-! The pending reads: clearing the bits that were returned clears the whole mask. -/

theorem readIrqPending_levelsUpdated (s : State) : readIrqPending s = levelsUpdated { s with
    readData := s.pendingIrq.setWidth 8, pendingIrq := 0 } := by
  have cleared : s.pendingIrq &&& ~~~s.pendingIrq = 0 := BitVec.and_not_self ..
  rw [readIrqPending, takeIrq, cleared]
  rfl

theorem readFirqPending_levelsUpdated (s : State) : readFirqPending s = levelsUpdated { s with
    readData := s.pendingFirq.setWidth 8, pendingFirq := 0 } := by
  have cleared : s.pendingFirq &&& ~~~s.pendingFirq = 0 := BitVec.and_not_self ..
  rw [readFirqPending, takeFirq, cleared]
  rfl

/-- A quiet read that the block answers itself is its effect at the end of the cycle. -/
theorem readCycle_internal_quiet {s : State} {a : Addr} {w : Window} (read : State → State)
    (quiet : quietCycle s = true) (hw : windowOf s.cfg.win a = w)
    (internal : w = .reg ∨ w = .mmu ∨ w = .pal ∨ w = .sam) :
    busCycle true a 0 (fun t => .next (read t)) s = .next (read (afterCycle true a s)) := by
  rw [busCycle_quiet _ _ _ _ quiet, busDecode_internal hw internal, platformTransfer_internal]

/-- Settles O20: each read is its effect at the end of a quiet cycle, clearing a pending mask or
drawing a byte that the block does not drive. -/
theorem pendingReadsClear : Obligations.PendingReadsClear := by
  unfold Obligations.PendingReadsClear
  intro a s quiet
  refine ⟨fun hw _ => ?irq, fun hw _ => ?firq, fun hw _ _ => ⟨Config.undrivenByte s.draws, ?undriven⟩,
    fun hw => ⟨Config.undrivenByte s.draws, ?sam⟩⟩
  case irq =>
    rw [exec, execRegRd2, readCycle_internal_quiet readIrqPending quiet hw (.inl rfl),
      readIrqPending_levelsUpdated]
    rfl
  case firq =>
    rw [exec, execRegRd3, readCycle_internal_quiet readFirqPending quiet hw (.inl rfl),
      readFirqPending_levelsUpdated]
    rfl
  case undriven => exact readCycle_internal_quiet readUndriven quiet hw (.inl rfl)
  case sam => exact readCycle_internal_quiet readUndriven quiet hw (.inr (.inr (.inr rfl)))

/-! The direct calls, by index. -/

section
variable {index : Nat} {s : State}

theorem exec_setRegister_below (v : Byte) (h : index < 16) :
    exec (.setRegister index v) s = exec (.regWrite (BitVec.ofNat 4 index) v) s := if_pos h

theorem exec_setRegister_beyond (v : Byte) (h : 16 ≤ index) :
    exec (.setRegister index v) s = .fault .badIndex := if_neg (Nat.not_lt.mpr h)

theorem exec_getRegister_below (h : index < 16) :
    exec (.getRegister index) s = .next (readRegister (BitVec.ofNat 4 index) s) := if_pos h

theorem exec_getRegister_beyond (h : 16 ≤ index) :
    exec (.getRegister index) s = .fault .badIndex := if_neg (Nat.not_lt.mpr h)

theorem regByte_ofNat (s : State) (h : index < 16) :
    regByte s (BitVec.ofNat 4 index) = s.reg.toList.getD index 0 := by
  have toNat : (BitVec.ofNat 4 index).toNat = index := Nat.mod_eq_of_lt h
  rw [regByte, at16_eq_getD _ _ 0, toNat]

/-- Registers other than 2 and 3 are read as they are stored (R251). -/
theorem readRegister_stored (s : State) (h : index < 16) (irq : index ≠ 2) (firq : index ≠ 3) :
    readRegister (BitVec.ofNat 4 index) s =
      { s with readData := s.reg.toList.getD index 0 } := by
  have ne2 : BitVec.ofNat 4 index ≠ 2 := fun e => irq (by bv_omega)
  have ne3 : BitVec.ofNat 4 index ≠ 3 := fun e => firq (by bv_omega)
  rw [readRegister, if_neg ne2, if_neg ne3, readStored, regByte_ofNat s h]

end

/-- Settles O21: the calls by index, below 16 as `RegWrite` and the reads, from 16 on `BadIndex`. -/
theorem directRegisterCalls : Obligations.DirectRegisterCalls := by
  unfold Obligations.DirectRegisterCalls
  intro index v s
  refine ⟨exec_setRegister_below v, fun h port => ?answers, ?irq, ?firq, fun h irq firq => ?stored,
    fun h => ⟨exec_setRegister_beyond v h, exec_getRegister_beyond h⟩⟩
  case answers =>
    obtain ⟨_, _, _, write⟩ := exec_regWrite_connected port
    exact ⟨_, (exec_setRegister_below v h).trans (write _ v)⟩
  case irq =>
    rintro rfl
    exact congrArg Host.Outcome.next (readIrqPending_levelsUpdated s)
  case firq =>
    rintro rfl
    exact congrArg Host.Outcome.next (readFirqPending_levelsUpdated s)
  case stored => rw [exec_getRegister_below h, readRegister_stored s h irq firq]

end Sys2Proof.Machine
end

section
/-! The bank, palette and SAM windows and `set_mmu_bank` (`43_mmu_palette_sam.md` R260 to R265,
R270, R271): each write is its effect at the end of a quiet cycle, for palette and SAM after a
flush. -/

namespace Sys2Proof.Machine

/-- A quiet write that the block takes itself is its effect at the end of the cycle. -/
theorem writeCycle_internal_quiet {s : State} {a : Addr} {w : Window} (d : Byte)
    (effect : State → Res) (quiet : quietCycle s = true) (hw : windowOf s.cfg.win a = w)
    (internal : w = .reg ∨ w = .mmu ∨ w = .pal ∨ w = .sam) :
    busCycle false a d effect s = effect (afterCycle false a s) := by
  rw [busCycle_quiet _ _ _ _ quiet, busDecode_internal hw internal, platformTransfer_internal]

/-! The bank window and `set_mmu_bank` (R260 to R262). -/

section
variable {index : Nat}

theorem exec_setMmuBank_below (page : Nat) (s : State) (h : index < 16) :
    exec (.setMmuBank index page) s = .next (writeBank (BitVec.ofNat 4 index) page s) := if_pos h

theorem exec_setMmuBank_beyond (page : Nat) (s : State) (h : 16 ≤ index) :
    exec (.setMmuBank index page) s = .fault .badIndex := if_neg (Nat.not_lt.mpr h)

theorem set16_ofNat {α : Type} (t : Vector α 16) (v : α) (h : index < 16) :
    set16 t (BitVec.ofNat 4 index) v = t.set index v h := by
  have toNat : (BitVec.ofNat 4 index).toNat = index := Nat.mod_eq_of_lt h
  simp only [set16, toNat]

end

/-- Settles O22: the window's write and read are `writeBank` and `readBank` at the end of a quiet
cycle; the call is `writeBank` alone, for an index below 16. -/
theorem bankEntriesReadAndWrite : Obligations.BankEntriesReadAndWrite := by
  unfold Obligations.BankEntriesReadAndWrite
  refine fun s => ⟨fun a i d quiet hw hi => ?window, fun index page =>
    ⟨fun h => ?call, exec_setMmuBank_beyond page s⟩⟩
  case window =>
    subst hi
    exact ⟨writeCycle_internal_quiet d (fun t => .next (writeBank (indexOf a) d.toNat t)) quiet hw
      (.inr (.inl rfl)), readCycle_internal_quiet (readBank (indexOf a)) quiet hw (.inr (.inl rfl))⟩
  case call => rw [exec_setMmuBank_below page s h, writeBank, set16_ofNat _ _ h]

/-! The palette window (R264, R265). -/

/-- Settles O23: at the end of the cycle a write flushes the line and stores the entry; a read
returns it. -/
theorem paletteEntriesReadAndWrite : Obligations.PaletteEntriesReadAndWrite := by
  unfold Obligations.PaletteEntriesReadAndWrite
  intro a i d s quiet hw hi
  subst hi
  refine ⟨fun port => ?write, ?read⟩
  case write =>
    obtain ⟨l, flush, flushed, written⟩ := writePal_connected (s := afterCycle false a s) port
      (indexOf a) d
    exact ⟨l, flush, flushed, (writeCycle_internal_quiet d (writePal (indexOf a) d) quiet hw
      (.inr (.inr (.inl rfl)))).trans written⟩
  case read =>
    exact readCycle_internal_quiet (readPal (indexOf a)) quiet hw (.inr (.inr (.inl rfl)))

/-! The SAM window (R270, R271). -/

/-- `setBit16` gives its bit the value and keeps every other bit. -/
theorem getLsbD_setBit16 (w : BitVec 16) (b : BitVec 4) (v : Bool) {k : Nat} (h : k < 16) :
    (setBit16 w b v).getLsbD k = if k = b.toNat then v else w.getLsbD k := by
  have mask : (BitVec.twoPow 16 b.toNat).getLsbD k = decide (k = b.toNat) := by
    simp [BitVec.getLsbD_twoPow, b.isLt, eq_comm]
  cases v with
  | true =>
    rw [setBit16, if_pos rfl, BitVec.getLsbD_or, mask]
    by_cases same : k = b.toNat <;> simp [same]
  | false =>
    rw [setBit16, if_neg Bool.false_ne_true, BitVec.getLsbD_and, BitVec.getLsbD_not, mask]
    by_cases same : k = b.toNat <;> simp [same, h]

theorem samBitOf_toNat (a : Addr) : (samBitOf a).toNat = a.toNat / 2 % 16 := by
  rw [samBitOf, BitVec.extractLsb'_toNat, Nat.shiftRight_one]

theorem samValueOf_eq (a : Addr) : samValueOf a = (a.toNat % 2 == 1) := bit_zero a

theorem exec_samWrite_parity (a : Addr) (d : Byte) (s : State) :
    exec (if a.toNat % 2 = 1 then .samSet a d else .samClr a d) s =
      busCycle false a d (writeSam (samBitOf a) (samValueOf a)) s := by
  simpa only [samValueOf_eq, beq_iff_eq] using exec_samWrite a d s

/-- Settles O24: at the end of the cycle the line is flushed, the bit `A[4:1]` takes the value
`A[0]`, and everything derived is recomputed. -/
theorem samBitsClearAndSet : Obligations.SamBitsClearAndSet := by
  unfold Obligations.SamBitsClearAndSet
  intro a d s quiet hw port
  obtain ⟨l, flush, flushed, written⟩ := writeSam_connected (s := afterCycle false a s) port
    (samBitOf a) (samValueOf a)
  refine ⟨l, setBit16 s.sam (samBitOf a) (samValueOf a), flush, flushed, fun k hk => ?bits,
    ?run⟩
  case bits => rw [getLsbD_setBit16 _ _ _ hk, samBitOf_toNat, samValueOf_eq]
  case run =>
    rw [exec_samWrite_parity,
      writeCycle_internal_quiet d _ quiet hw (.inr (.inr (.inr rfl))), written]
    rfl

end Sys2Proof.Machine
end

section
/-! What `RenderTo` paints by its position in the line (`46_pixel_generation.md` R352, R375): from
the beam on the left border, the active area, the right border, then 0. -/

namespace Sys2Proof.Machine

/-- Where the values `px` of a round come from: the first counter that has positions left, which
gives as many as are painted, or the fill where none has. -/
inductive Drawn (border : Byte) (l l' : Line) (px : List Byte) : Prop
  | leftBorder (value : ∀ b ∈ px, b = border) (lb : l'.lbRem + px.length = l.lbRem)
      (aa : l'.aaRem = l.aaRem) (rb : l'.rbRem = l.rbRem)
  | cell (lb : l.lbRem = 0) (lb' : l'.lbRem = 0) (aa : l'.aaRem + px.length = l.aaRem)
      (rb : l'.rbRem = l.rbRem)
  | rightBorder (value : ∀ b ∈ px, b = border) (lb : l.lbRem = 0) (lb' : l'.lbRem = 0)
      (aa : l.aaRem = 0) (aa' : l'.aaRem = 0) (rb : l'.rbRem + px.length = l.rbRem)
  | fill (value : ∀ b ∈ px, b = 0) (left : l.lbRem + l.aaRem + l.rbRem = 0)
      (left' : l'.lbRem + l'.aaRem + l'.rbRem = 0)

/-- Every round draws its values from one source and splices them in at the beam. -/
theorem paintStep_drawn {s : State} {p : Nat} {l l' : Line} (h : paintStep s p l = some l') :
    ∃ px, l'.buf = splice l.buf l.beamPos px ∧ l'.beamPos = l.beamPos + px.length ∧
      Drawn (borderByte s) l l' px := by
  have value : ∀ (n : Nat) (v : Byte), ∀ b ∈ List.replicate n v, b = v := fun _ _ _ hb =>
    (List.mem_replicate.1 hb).2
  unfold paintStep at h
  split_ifs at h with lb aa rb
  · cases h
    refine ⟨_, rfl, by simp [paintRun], .leftBorder (value _ _) ?_ rfl rfl⟩
    simp only [List.length_replicate]
    omega
  · obtain ⟨ch, att, _, _, _, e⟩ := cellStep_spec h
    have size : ((cellPixels s.cfg (cellCtx s) ch att).take
        (min (cellWidth s.mode.r) l.aaRem)).length = min (cellWidth s.mode.r) l.aaRem := by
      rw [List.length_take, cellPixels_length]
      exact Nat.min_eq_left (Nat.min_le_left _ _)
    rw [e]
    refine ⟨_, rfl, by rw [size], .cell (by omega) (Nat.eq_zero_of_not_pos lb) ?_ rfl⟩
    rw [size]
    exact Nat.sub_add_cancel (Nat.min_le_right _ _)
  · cases h
    refine ⟨_, rfl, by simp [paintRun], .rightBorder (value _ _) (by omega)
      (Nat.eq_zero_of_not_pos lb) (by omega) (Nat.eq_zero_of_not_pos aa) ?_⟩
    simp only [List.length_replicate]
    omega
  · cases h
    refine ⟨_, rfl, by simp [paintRun], .fill (value _ _) (by omega) ?_⟩
    simp only [paintRun]
    omega

/-- Spliced in values that are all one, each of their positions holds it. -/
theorem splice_getElem?_of_forall_eq {buf px : List Byte} {pos j : Nat} {v : Byte}
    (fits : pos ≤ buf.length) (value : ∀ b ∈ px, b = v) (from_pos : pos ≤ j)
    (inside : j < pos + px.length) : (splice buf pos px)[j]? = some v := by
  have start : (buf.take pos).length = pos := List.length_take_of_le fits
  have bound : j - pos < px.length := by omega
  rw [splice, List.append_assoc, List.getElem?_append_right (by omega), start,
    List.getElem?_append_left bound, List.getElem?_eq_getElem bound,
    value _ (List.getElem_mem bound)]

/-- `l'` is `l` painted up to `p`, as far as the borders and the fill are concerned: the lines of
`PaintedBorders`, for any line. -/
def BordersPainted (border : Byte) (p : Nat) (l l' : Line) : Prop :=
  ∀ j, l.beamPos ≤ j → j < p →
    (j < l.beamPos + l.lbRem → l'.buf[j]? = some border) ∧
    (l.beamPos + l.lbRem + l.aaRem ≤ j → j < l.beamPos + l.lbRem + l.aaRem + l.rbRem →
      l'.buf[j]? = some border) ∧
    (l.beamPos + l.lbRem + l.aaRem + l.rbRem ≤ j → l'.buf[j]? = some 0)

theorem paintedBorders_iff (p : Nat) (s : State) (l : Line) :
    PaintedBorders p s l ↔
      (s.line.beamPos ≤ s.line.buf.length → BordersPainted (borderByte s) p s.line l) := Iff.rfl

/-- A round before a painting: its own positions hold what it drew, and for those after them it
leaves the borders where they were. -/
theorem Drawn.borders {border : Byte} {p : Nat} {l l₁ l' : Line} {px : List Byte}
    (drawn : Drawn border l l₁ px) (beam : l₁.beamPos = l.beamPos + px.length)
    (painted : ∀ v j, (∀ b ∈ px, b = v) → l.beamPos ≤ j → j < l.beamPos + px.length →
      l'.buf[j]? = some v)
    (rest : BordersPainted border p l₁ l') : BordersPainted border p l l' := by
  intro j hj hp
  rcases Nat.lt_or_ge j l₁.beamPos with now | later
  · cases drawn with
    | leftBorder value lb aa rb =>
      have hv := painted border j value hj (by omega)
      exact ⟨fun _ => hv, fun _ _ => hv, fun _ => by omega⟩
    | cell lb lb' aa rb => exact ⟨fun _ => by omega, fun _ _ => by omega, fun _ => by omega⟩
    | rightBorder value lb lb' aa aa' rb =>
      have hv := painted border j value hj (by omega)
      exact ⟨fun _ => hv, fun _ _ => hv, fun _ => by omega⟩
    | fill value left left' =>
      exact ⟨fun _ => by omega, fun _ _ => by omega, fun _ => painted 0 j value hj (by omega)⟩
  · obtain ⟨onLeft, onRight, beyond⟩ := rest j later hp
    cases drawn <;>
      exact ⟨fun _ => onLeft (by omega), fun _ _ => onRight (by omega) (by omega),
        fun _ => beyond (by omega)⟩

/-- `RenderTo`'s loop, with fuel for the positions that are left, paints the borders and the fill
where the counters put them. -/
theorem paintLoop_borders {s : State} {p k : Nat} {l l' : Line} (fuel : p ≤ l.beamPos + k)
    (fits : l.beamPos ≤ l.buf.length) (h : paintLoop s p k l = some l') :
    BordersPainted (borderByte s) p l l' := by
  induction k generalizing l with
  | zero => exact fun j hj hp => by omega
  | succ k ih =>
    rw [paintLoop] at h
    split at h
    · rename_i more
      split at h
      · cases h
      · rename_i l₁ round
        obtain ⟨_, _, r⟩ := paintStep_round round
        obtain ⟨px, buf, beam, drawn⟩ := paintStep_drawn round
        have moved : l.beamPos < l₁.beamPos := by
          have := r.counts.1 more
          have := r.beam
          omega
        have fits₁ : l₁.beamPos ≤ l₁.buf.length := by
          rw [beam, buf]
          exact splice_length_ge _ _ _ fits
        refine drawn.borders beam (fun v j value hj hlt => ?_) (ih (by omega) fits₁ h)
        have kept := (paintLoop_prefix h fits₁).2.2
        calc l'.buf[j]? = (l'.buf.take l₁.beamPos)[j]? := (List.getElem?_take_of_lt (by omega)).symm
          _ = l₁.buf[j]? := by rw [kept, List.getElem?_take_of_lt (by omega)]
          _ = some v := by rw [buf, splice_getElem?_of_forall_eq fits value hj hlt]
    · exact fun j hj hp => by omega

/-- What a painter that answers painted is the line of its answer. -/
theorem withLine_eq_next {s t : State} {o : Option Line} (h : withLine s o = .next t) :
    o = some t.line := by
  cases o with
  | none => cases h
  | some l => cases h; rfl

/-- `RenderTo(p)` paints the borders and the fill where the line's counters put them
(`46_pixel_generation.md` R352, R375). -/
theorem renderToPos_borders {p : Nat} {s t : State} (h : renderToPos p s = .next t) :
    PaintedBorders (min p s.cfg.nVis) s t.line :=
  (paintedBorders_iff _ _ _).2 fun fits => paintLoop_borders (by omega) fits (withLine_eq_next h)

/-- `RenderTo` keeps a line well formed. -/
theorem renderToPos_line_ok {p : Nat} {s t : State} (h : renderToPos p s = .next t)
    (ok : s.line.Ok s.cfg) : t.line.Ok s.cfg :=
  paintRounds_line_ok (paintLoop_rounds (Nat.min_le_right _ _) (withLine_eq_next h)) ok

end Sys2Proof.Machine
end

section
/-! The procedures of the horizontal-sync fall and the handlers, in arithmetic (`44_raster.md` R290 to
R306): one equation for each case of each of them. -/

namespace Sys2Proof.Machine

/-! Levels, tables and counts. -/

section
variable (level l : Bool) (s : State)

theorem levelTrace_driven (n : Notice) :
    levelTrace (level != l) n s = if level = l then s.trace else (s.now, n) :: s.trace := by
  by_cases same : level = l <;> simp [levelTrace, notified, same]

theorem setHs_eq : setHs l s = { s with
    hsLevel := l, trace := if s.hsLevel = l then s.trace else (s.now, .hs l) :: s.trace } := by
  rw [setHs, levelTrace_driven]

theorem setFs_eq : setFs l s = { s with
    fsLevel := l, trace := if s.fsLevel = l then s.trace else (s.now, .fs l) :: s.trace } := by
  rw [setFs, levelTrace_driven]

end

theorem at4_eq_getD {α : Type} (t : Vector α 4) (i : BitVec 2) (default : α) :
    at4 t i = t.toList.getD i.toNat default := by
  rw [at4, List.getD_eq_getElem _ _ (by simpa using i.isLt), Vector.getElem_toList]

theorem append_toNat {v w : Nat} (hi : BitVec v) (lo : BitVec w) :
    (hi ++ lo).toNat = hi.toNat * 2 ^ w + lo.toNat := by
  rw [BitVec.toNat_append, ← Nat.shiftLeft_add_eq_or_of_lt lo.isLt, Nat.shiftLeft_eq]

@[simp] theorem reached_some (count n : Nat) : reached count (some n) = decide (n ≤ count) := rfl

@[simp] theorem reached_none (count : Nat) : reached count none = false := rfl

/-! `RowAdvance` (R297). -/

section
variable {s : State}

theorem advanceRow_outside (h : s.vstate ≠ .active) : advanceRow s = s := if_neg h

theorem advanceRow_unbounded (h : s.vstate = .active) (inf : s.mode.nlpr = none) :
    advanceRow s = setRow (s.row + 1) s := by
  rw [advanceRow, if_pos h, inf]
  rfl

theorem rowWraps_iff (row : BitVec 4) (n : Nat) :
    rowWraps (row + 1) (some n) = true ↔ (row.toNat + 1) % 16 = n % 16 := by
  simp [rowWraps, ← BitVec.toNat_inj]

theorem advanceRow_within {n : Nat} (h : s.vstate = .active) (nlpr : s.mode.nlpr = some n)
    (more : (s.row.toNat + 1) % 16 ≠ n % 16) : advanceRow s = setRow (s.row + 1) s := by
  rw [advanceRow, if_pos h, nlpr, if_neg (mt (rowWraps_iff _ n).1 more)]

theorem advanceRow_wraps {n : Nat} (h : s.vstate = .active) (nlpr : s.mode.nlpr = some n)
    (last : (s.row.toNat + 1) % 16 = n % 16) : advanceRow s = nextRow s := by
  rw [advanceRow, if_pos h, nlpr, if_pos ((rowWraps_iff _ n).2 last)]

end

/-- Settles O32: after an active line the row counter steps, and wraps where the line was the last of
its row. -/
theorem rowAdvanceStepsTheRow : Obligations.RowAdvanceStepsTheRow := by
  unfold Obligations.RowAdvanceStepsTheRow
  exact fun s => ⟨fun h => congrArg Host.Outcome.next (advanceRow_outside h),
    fun h inf => congrArg Host.Outcome.next (advanceRow_unbounded h inf),
    fun _ h nlpr more => congrArg Host.Outcome.next (advanceRow_within h nlpr more),
    fun _ h nlpr last => congrArg Host.Outcome.next (advanceRow_wraps h nlpr last)⟩

/-! `VerticalStep` (R290, R296, R298, R299). -/

/-- `VideoStart()` in arithmetic (R299). -/
theorem videoStart_eq (s : State) :
    videoStart s = (if s.fields.coco then
      s.fields.y.toNat / 8192 * 65536 + s.fields.f.toNat * 512 + s.fields.y.toNat % 64 * 8
      else s.fields.y.toNat * 8) % 2 ^ s.cfg.physW := by
  have zero : (0 : BitVec 3).toNat = 0 := rfl
  have top : s.fields.y.toNat / 8192 % 8 = s.fields.y.toNat / 8192 := by
    have := s.fields.y.isLt
    omega
  by_cases coco : s.fields.coco = true
  · simp only [videoStart, wrapPhys, if_pos coco, append_toNat, bits_toNat, zero]
    congr 1
    omega
  · simp only [videoStart, wrapPhys, if_neg coco, append_toNat, zero]
    rfl

theorem rowSeed_eq (s : State) : rowSeed s =
    if s.fields.coco then 0
    else s.fields.vsc &&& s.cfg.rowmask.toList.getD s.fields.lpr.toNat 0 := by
  rw [rowSeed, at8_eq_getD _ _ 0]

/-- The start of a field, out of `VSYNC` (R296). -/
theorem startField_eq (s : State) : startField s = { s with
    fsLevel := true
    trace := if s.fsLevel = true then s.trace else (s.now, .fs true) :: s.trace
    vstate := .vblank, lcount := 0, scanline := 0, voLine := 0
    base := (if s.fields.coco then
        s.fields.y.toNat / 8192 * 65536 + s.fields.f.toNat * 512 + s.fields.y.toNat % 64 * 8
      else s.fields.y.toNat * 8) % 2 ^ s.cfg.physW
    frameCtr := if s.frameCtr = 0 then s.cfg.frameskip else s.frameCtr - 1 } := by
  rw [startField, setFs_eq, fieldVars, videoStart_eq]
  rfl

section
variable {s : State}

theorem stepVertical_vsync (h : s.vstate = .vsync) :
    stepVertical s = if s.cfg.nVsync ≤ s.lcount then startField s else s := by
  simp [stepVertical, lineTarget, h]

/-- The last `N_VSYNC` lines of the field start `VSYNC`, whatever the field state was. -/
theorem stepVertical_fieldEnd (h : s.vstate ≠ .vsync)
    (last : fieldLines s.fields ≤ s.scanline + s.cfg.nVsync) :
    stepVertical s = setFs false (enterState .vsync s) := by
  rw [stepVertical, if_neg h, if_pos last]

variable (within : s.scanline + s.cfg.nVsync < fieldLines s.fields)
include within

theorem stepVertical_vblank (h : s.vstate = .vblank) :
    stepVertical s = if s.cfg.nVblank ≤ s.lcount then enterState .topBorder s else s := by
  simp [stepVertical, lineTarget, h, Nat.not_le.mpr within]

theorem stepVertical_topBorder (h : s.vstate = .topBorder) :
    stepVertical s =
      if s.cfg.tb.toList.getD s.fields.lpf.toNat 0 +
          (if s.fields.h50 then s.cfg.palExtraTb else 0) ≤ s.lcount
      then setRow (rowSeed s) (enterState .active s) else s := by
  simp [stepVertical, lineTarget, h, Nat.not_le.mpr within, at4_eq_getD _ _ 0]

theorem stepVertical_active (h : s.vstate = .active) :
    stepVertical s =
      if reached s.lcount (s.cfg.aa.toList.getD s.fields.lpf.toNat none)
      then enterState .bottomBorder s else s := by
  simp [stepVertical, lineTarget, activeTarget, h, Nat.not_le.mpr within, at4_eq_getD _ _ none]

theorem stepVertical_bottomBorder (h : s.vstate = .bottomBorder) : stepVertical s = s := by
  simp [stepVertical, h, Nat.not_le.mpr within]

end

theorem exec_verticalStep (s : State) : exec .verticalStep s = .next (stepVertical s) := rfl

/-- Settles O33: `VSYNC` ends at its target; elsewhere the end of the field comes first, then the
target of the field state. -/
theorem verticalStepMovesOn : Obligations.VerticalStepMovesOn := by
  unfold Obligations.VerticalStepMovesOn
  intro s
  simp only [exec_verticalStep]
  refine ⟨fun vsync => ⟨fun short => ?_, fun ends => ?_⟩, fun outside => ⟨fun last => ?_,
    fun within => ⟨fun h ends => ?_, fun h short => ?_, fun h ends => ?_, fun h short => ?_,
      fun n h aa ends => ?_, fun h short => ?_, fun h => ?_⟩⟩⟩
  · rw [stepVertical_vsync vsync, if_neg (Nat.not_le.mpr short)]
  · rw [stepVertical_vsync vsync, if_pos ends, startField_eq]
  · rw [stepVertical_fieldEnd outside last, setFs_eq]
    rfl
  · rw [stepVertical_vblank within h, if_pos ends]
    rfl
  · rw [stepVertical_vblank within h, if_neg (Nat.not_le.mpr short)]
  · rw [stepVertical_topBorder within h, if_pos ends, rowSeed_eq]
    rfl
  · rw [stepVertical_topBorder within h, if_neg (Nat.not_le.mpr short)]
  · rw [stepVertical_active within h, aa, reached_some, if_pos (by simpa using ends)]
    rfl
  · rw [stepVertical_active within h, if_neg]
    cases aa : s.cfg.aa.toList.getD s.fields.lpf.toNat none with
    | none => simp
    | some n => simpa using short n aa
  · rw [stepVertical_bottomBorder within h]

/-! `LineCounters` (R300). -/

/-- The counters that `LineCounters()` gives a line: left border, active positions, bytes of video
memory and right border (R300). -/
structure Counters where
  lb : Nat
  aa : Nat
  vram : Nat
  rb : Nat

/-- The counters by field state and mode (R300). -/
def countersOf (s : State) : VState → Counters
  | .active => ⟨perWidth s.cfg.lb s.mode.wide, perWidth s.cfg.aaw s.mode.wide, s.mode.bpr,
      perWidth s.cfg.rb s.mode.wide⟩
  | .topBorder | .bottomBorder => ⟨s.cfg.nVis, 0, 0, 0⟩
  | .vblank | .vsync => ⟨0, 0, 0, 0⟩

theorem startCounters_eq (s : State) :
    startCounters s =
      startLine (countersOf s s.vstate).lb (countersOf s s.vstate).aa (countersOf s s.vstate).vram
        (countersOf s s.vstate).rb s := by
  unfold startCounters
  cases s.vstate <;> rfl

theorem exec_lineCounters (s : State) : exec .lineCounters s = .next (startCounters s) := rfl

/-- Settles O34: the counters are those of the field state, the rest of the line is forgotten or
sampled. -/
theorem lineCountersFollowTheState : Obligations.LineCountersFollowTheState := by
  unfold Obligations.LineCountersFollowTheState
  intro s
  let c := countersOf s s.vstate
  refine ⟨c.lb, c.aa, c.vram, c.rb, by rw [exec_lineCounters, startCounters_eq]; rfl,
    fun h narrow => ?_, fun h wide => ?_, fun h => ?_, fun h => ?_⟩
  · simp [c, countersOf, perWidth, h, narrow]
  · simp [c, countersOf, perWidth, h, wide]
  · rcases h with h | h <;> simp [c, countersOf, h]
  · rcases h with h | h <;> simp [c, countersOf, h]

/-! `ScheduleLine` (R301). -/

theorem scheduleRaster_eq (tick : Nat) (s : State) :
    scheduleRaster tick s = { s with
      queue := (enqueueAll
        [(.hsRise, tick + s.cfg.tWhs * s.cfg.ticksPerPixel),
          (.hBord, tick + perWidth s.cfg.pHbord s.mode.wide * s.cfg.ticksPerPixel),
          (.hsFall, tick + s.cfg.tSl * s.cfg.ticksPerPixel)] (s.queue, s.seqNext)).1
      seqNext := s.seqNext + 3 } := rfl

/-- After the three calls of a line the queue holds their entries and the timer's, which is the only
other event. -/
theorem mem_enqueueAll_line {rise bord fall : Nat} {p : List QEntry × Nat} {e : QEntry} :
    e ∈ (enqueueAll [(.hsRise, rise), (.hBord, bord), (.hsFall, fall)] p).1 ↔
      e = ⟨rise, .hsRise, p.2⟩ ∨ e = ⟨bord, .hBord, p.2 + 1⟩ ∨ e = ⟨fall, .hsFall, p.2 + 2⟩ ∨
      (e ∈ p.1 ∧ e.ev = .timer) := by
  simp only [enqueueAll_cons, enqueueAll_nil, mem_enqueue, enqueue_snd]
  constructor
  · rintro (rfl | ⟨rfl | ⟨rfl | ⟨old, notRise⟩, notBord⟩, notFall⟩)
    · exact .inr (.inr (.inl rfl))
    · exact .inr (.inl rfl)
    · exact .inl rfl
    · refine .inr (.inr (.inr ⟨old, ?_⟩))
      cases ev : e.ev with
      | timer => rfl
      | hsRise => exact absurd ev notRise
      | hBord => exact absurd ev notBord
      | hsFall => exact absurd ev notFall
  · rintro (rfl | rfl | rfl | ⟨old, timer⟩)
    · exact .inr ⟨.inr ⟨.inl rfl, nofun⟩, nofun⟩
    · exact .inr ⟨.inl rfl, nofun⟩
    · exact .inl rfl
    · exact .inr ⟨.inr ⟨.inr ⟨old, by simp [timer]⟩, by simp [timer]⟩, by simp [timer]⟩

/-- Settles O36: three calls of `schedule`, each of which keeps the queue in order. -/
theorem scheduleLineFillsTheQueue : Obligations.ScheduleLineFillsTheQueue := by
  unfold Obligations.ScheduleLineFillsTheQueue
  intro tick s ok
  exact ⟨_, congrArg Host.Outcome.next (scheduleRaster_eq tick s), (enqueueAll_ok _ ok).1,
    fun _ => mem_enqueueAll_line⟩

/-! `EV_HS_FALL` (R295). -/

theorem beginLine_eq (tick : Nat) (s : State) : beginLine tick s = { s with
    hsLevel := false
    trace := if s.hsLevel = false then s.trace else (s.now, .hs false) :: s.trace
    lineStart := tick, scanline := s.scanline + 1, lcount := s.lcount + 1 } := by
  rw [beginLine, setHs_eq]
  rfl

/-- Settles O38: the first step is the only one that could fault, and does not; the others follow in
the order of `nextLine`. -/
theorem hsFallRunsItsEightSteps : Obligations.HsFallRunsItsEightSteps := by
  unfold Obligations.HsFallRunsItsEightSteps
  intro tick seq s port vo
  obtain ⟨t, fired⟩ := fire_answers port vo .hsFall tick
  obtain ⟨a, finished, rest⟩ := andThen_eq_next fired
  cases rest
  refine ⟨a, advanceRow a, _, _, _, finished, rfl, ?_, rfl, rfl, fired⟩
  rw [← beginLine_eq, exec_verticalStep]

/-! `EV_HS_RISE` and `EV_HBORD` (R305, R306). -/

theorem vbordLine_iff (s : State) :
    vbordLine s = true ↔ s.vstate = .active ∧
      s.cfg.aa.toList.getD (borderLpf s).toNat none = some (s.lcount + s.cfg.vbordLineOffset) := by
  simp [vbordLine, activeTarget, at4_eq_getD _ _ none]

/-- The second interrupt comes on the line before the active area ends, and only there. -/
theorem vbordPulse_cases (s : State) :
    if vbordLine s = true then exec (.raise 0x08) s = .next (vbordPulse s)
    else vbordPulse s = s := by
  rw [vbordPulse]
  split_ifs <;> rfl

theorem slowClock_cases (s : State) :
    if s.fields.tins = true then slowClock s = s
    else exec .timerClock s = .next (slowClock s) := by
  rw [slowClock]
  split_ifs <;> rfl

/-- Settles O31: the border point raises, pulses and clocks in that order, and what comes before a
condition changes nothing that it reads. -/
theorem riseAndBorderHandlers : Obligations.RiseAndBorderHandlers := by
  unfold Obligations.RiseAndBorderHandlers
  intro tick seq s
  refine ⟨congrArg Host.Outcome.next (setHs_eq true s), ?_⟩
  let u := raiseIrq irqHBord s
  have fields : (vbordPulse u).fields = s.fields := (vbordPulse_frame u).fields
  refine ⟨u, vbordPulse u, slowClock (vbordPulse u), rfl, ?_, ?_, rfl⟩
  · simp only [← borderLpf_eq, ← vbordLine_iff]
    exact vbordPulse_cases u
  · rw [← fields]
    exact slowClock_cases (vbordPulse u)

/-! The composition of a line (R280, R300). -/

/-- With a geometry that R280 admits the counters of a line fit the visible span. -/
theorem countersOf_fits {s : State} (fits : fitsOk s.cfg = true) (v : VState) :
    (countersOf s v).lb + (countersOf s v).aa + (countersOf s v).rb ≤ s.cfg.nVis := by
  cases v with
  | active => exact Nat.le_of_eq (geometry_fits fits s.mode.wide)
  | topBorder | bottomBorder => exact Nat.le_refl _
  | vblank | vsync => exact Nat.zero_le _

/-- `LineCounters()` leaves a line of which nothing is painted and whose counters fit. -/
theorem startCounters_line_ok {s : State} (fits : fitsOk s.cfg = true)
    (length : s.line.buf.length = s.cfg.nVis + s.cfg.rbHeadroom) :
    (startCounters s).line.Ok s.cfg := by
  rw [startCounters_eq]
  exact unpainted_line_ok length rfl rfl (countersOf_fits fits s.vstate)

/-- A well-formed line painted to `N_VIS` ends there, with nothing left in its counters. -/
theorem Line.Ok.finished {c : Params} {l : Line} (ok : l.Ok c) (painted : c.nVis ≤ l.beamPos) :
    l.beamPos = c.nVis ∧ l.lbRem = 0 ∧ l.aaRem = 0 ∧ l.rbRem = 0 := by
  have span := ok.2.1
  omega

/-- What a started line holds once painted: border, cells, border and 0 by its counters. -/
theorem renderTo_started_borders {s u : State}
    (h : renderToPos s.cfg.nVis (startCounters s) = .next u) :
    ∀ j < s.cfg.nVis,
      let c := countersOf s s.vstate
      (j < c.lb ∨ (c.lb + c.aa ≤ j ∧ j < c.lb + c.aa + c.rb) →
        u.line.buf[j]? = some (borderByte s)) ∧
      (c.lb + c.aa + c.rb ≤ j → u.line.buf[j]? = some 0) := by
  have painted := renderToPos_borders h
  rw [startCounters_eq] at painted
  intro j inside c
  obtain ⟨left, right, beyond⟩ := painted (Nat.zero_le _) j (Nat.zero_le _)
    (Nat.lt_min.2 ⟨inside, inside⟩)
  simp only [startLine_line, Line.start, Nat.zero_add] at left right beyond
  exact ⟨fun at_border => at_border.elim left fun ⟨lo, hi⟩ => right lo hi, beyond⟩

/-- Settles O35: the line starts with counters that make up the visible span, and `RenderTo` paints
the borders and the fill where the counters put them. -/
theorem lineGeometry : Obligations.LineGeometry := by
  unfold Obligations.LineGeometry
  intro s t geometry port length started
  cases started
  obtain ⟨fits, inLine⟩ : fitsOk s.cfg = true ∧ s.cfg.pVis + s.cfg.nVis ≤ s.cfg.tSl := by
    simpa [geometryOk] using geometry
  have frame := startCounters_frame s
  have cfg : (startCounters s).cfg = s.cfg := frame.cfg
  obtain ⟨l, answer, reach, _⟩ := renderToPos_connected (s := startCounters s)
    (by rw [cfg]; exact port) s.cfg.nVis
  rw [cfg, Nat.min_self] at reach
  have ok : l.Ok s.cfg := by
    have := renderToPos_line_ok answer (by rw [cfg]; exact startCounters_line_ok fits length)
    rwa [cfg] at this
  obtain ⟨beam, lb, aa, rb⟩ := ok.finished reach
  refine ⟨l, answer, beam, lb, aa, rb, ok.1.trans length.symm, ?_, fun j inside => ?_⟩
  · rw [beam]
    exact Nat.add_le_add_left (Nat.mul_le_mul_right _ inLine) _
  obtain ⟨border, fill⟩ := renderTo_started_borders answer j inside
  have whole := geometry_fits fits s.mode.wide
  have sides (active : s.vstate = .active)
      (side : j < perWidth s.cfg.lb s.mode.wide ∨
        perWidth s.cfg.lb s.mode.wide + perWidth s.cfg.aaw s.mode.wide ≤ j) :
      l.buf[j]? = some (borderByte s) := by
    simp only [active, countersOf] at border
    exact border (side.imp_right fun lo => ⟨lo, by omega⟩)
  refine ⟨fun active narrow => ?_, fun active wide => ?_, fun v => ?_, fun v => ?_⟩
  · simpa [perWidth, narrow, borderByte] using sides active
  · simpa [perWidth, wide, borderByte] using sides active
  · rcases v with v | v <;> exact border (.inl (by simpa [v, countersOf] using inside))
  · rcases v with v | v <;> exact fill (by simp [v, countersOf])

end Sys2Proof.Machine
end

section
/-! The interval timer (`45_timer.md`): one equation for each branch of its load, its clock, its expiry
and its event, and the two statements read off them. -/

namespace Sys2Proof.Machine

/-! `TimerLoad` (R332). -/

section
variable {s : State}

theorem loadTimer_stops (reload : s.fields.timerReload = 0) :
    loadTimer s = cancelEvent .timer (stopTimer s) := if_pos reload

theorem loadTimer_fast (reload : s.fields.timerReload ≠ 0) (fast : s.fields.tins = true) :
    loadTimer s = scheduleEvent .timer (s.now + reloadCount s * s.cfg.timerFastPeriod)
      (countTimer true (reloadCount s) s) := by
  rw [loadTimer, if_neg reload, if_pos fast]

theorem loadTimer_slow (reload : s.fields.timerReload ≠ 0) (slow : s.fields.tins = false) :
    loadTimer s = cancelEvent .timer (countTimer true (reloadCount s) s) := by
  rw [loadTimer, if_neg reload, if_neg (by simp [slow])]

end

/-- Settles O29: the three branches of the load, none of which faults. -/
theorem timerLoadStartsOrStops : Obligations.TimerLoadStartsOrStops := by
  unfold Obligations.TimerLoadStartsOrStops
  intro s
  refine ⟨fun reload => ?_, fun reload fast => ?_, fun reload slow => ?_, ⟨loadTimer s, rfl⟩⟩
  · exact congrArg Host.Outcome.next (loadTimer_stops reload)
  · exact congrArg Host.Outcome.next (loadTimer_fast reload fast)
  · exact congrArg Host.Outcome.next (loadTimer_slow reload slow)

/-! `TimerExpire` (R334). -/

section
variable {s : State}

/-- The interrupt of an expiry leaves the timer and its reload value alone, so the reload is that of
the state before it. -/
theorem expireTimer_eq (s : State) : expireTimer s = { raiseIrq irqTimer (toggleBlink s) with
    timerRunning := if s.fields.timerReload = 0 then false else s.timerRunning
    timerCounter := if s.fields.timerReload = 0 then 0 else reloadCount s } := rfl

theorem expireTimer_timerRunning_stops (reload : s.fields.timerReload = 0) :
    (expireTimer s).timerRunning = false := if_pos reload

theorem expireTimer_timerRunning_reloads (reload : s.fields.timerReload ≠ 0) :
    (expireTimer s).timerRunning = s.timerRunning := if_neg reload

theorem expireTimer_timerCounter_reloads (reload : s.fields.timerReload ≠ 0) :
    (expireTimer s).timerCounter = reloadCount s := if_neg reload

/-! `TimerClock` (R333). -/

theorem clockTimer_stopped (stopped : s.timerRunning = false) : clockTimer s = s :=
  if_neg (by simp [stopped])

theorem clockTimer_counts (running : s.timerRunning = true) (above : 1 < s.timerCounter) :
    clockTimer s = { s with timerCounter := s.timerCounter - 1 } := by
  have left : s.timerCounter - 1 ≠ 0 := by omega
  rw [clockTimer, if_pos running, expireAtZero, countTimer_timerCounter, if_neg left, countTimer,
    ← running]

theorem clockTimer_expires (running : s.timerRunning = true) (last : s.timerCounter = 1) :
    clockTimer s = expireTimer { s with timerCounter := 0 } := by
  rw [clockTimer, if_pos running, expireAtZero, countTimer_timerCounter, last, if_pos rfl, countTimer,
    ← running]

/-! `EV_TIMER` (R336). -/

theorem onTimer_idle (tick : Nat) (idle : (s.timerRunning && s.fields.tins) = false) :
    onTimer tick s = s := if_neg (by simp [idle])

theorem onTimer_fires (tick : Nat) (running : s.timerRunning = true) (fast : s.fields.tins = true) :
    onTimer tick s = rearmTimer tick (expireTimer s) := if_pos (by simp [running, fast])

theorem rearmTimer_expired_stops (tick : Nat) (reload : s.fields.timerReload = 0) :
    rearmTimer tick (expireTimer s) = expireTimer s :=
  if_neg (by simp [expireTimer_timerRunning_stops reload])

theorem rearmTimer_expired_runs (tick : Nat) (running : s.timerRunning = true)
    (reload : s.fields.timerReload ≠ 0) :
    rearmTimer tick (expireTimer s) =
      scheduleEvent .timer (tick + reloadCount s * s.cfg.timerFastPeriod) (expireTimer s) := by
  have goes : (expireTimer s).timerRunning = true :=
    (expireTimer_timerRunning_reloads reload).trans running
  rw [rearmTimer, if_pos goes, expireTimer_timerCounter_reloads reload, (expireTimer_frame s).cfg]

end

/-- Settles O30: the expiry is the interrupt and then the reload, the clock reaches it from a count
of 1, and the event re-arms by the count which the expiry left. -/
theorem timerClocksAndExpires : Obligations.TimerClocksAndExpires := by
  unfold Obligations.TimerClocksAndExpires
  intro s
  refine ⟨⟨raiseIrq irqTimer (toggleBlink s), rfl, congrArg Host.Outcome.next (expireTimer_eq s)⟩,
    fun stopped => ?_, fun running above => ?_, fun running last => ?_,
    fun tick seq => ⟨fun idle => ?_, fun running fast => ?_⟩⟩
  · exact congrArg Host.Outcome.next (clockTimer_stopped stopped)
  · exact congrArg Host.Outcome.next (clockTimer_counts running above)
  · exact ⟨clockTimer s, rfl, congrArg Host.Outcome.next (clockTimer_expires running last).symm⟩
  · exact congrArg Host.Outcome.next (onTimer_idle tick idle)
  · refine ⟨expireTimer s, rearmTimer tick (expireTimer s), rfl,
      congrArg Host.Outcome.next (onTimer_fires tick running fast),
      rearmTimer_expired_stops tick, fun reload => ?_⟩
    exact congrArg Host.Outcome.next (rearmTimer_expired_runs tick running reload).symm

end Sys2Proof.Machine
end

section
/-! `RenderTo` and `Flush` as a whole (`46_pixel_generation.md` R350, R352, R354, R375): how far
they paint, what they leave, and the borders. -/

namespace Sys2Proof.Machine

theorem flushLine_shown {s : State} (shown : s.frameCtr = 0) :
    flushLine s = renderToPos (beamTarget s) s := if_pos shown

/-- Settles O39: `RenderTo` answers with the line it painted, whose borders lie where the counters
put them, and a flush of a shown field is `RenderTo` of the beam's position. -/
theorem renderToPaintsUpTo : Obligations.RenderToPaintsUpTo := by
  unfold Obligations.RenderToPaintsUpTo
  refine fun p s => ⟨fun port => ⟨?_, ?_⟩, fun _ => renderToPos_fault⟩
  · obtain ⟨l, answer, reach⟩ := renderToPos_connected port p
    exact ⟨l, answer, reach, renderToPos_borders answer⟩
  · obtain ⟨l, answer, flushed⟩ := flushLine_connected port
    refine ⟨l, answer, flushed, fun shown => ?_⟩
    have painted := renderToPos_borders ((flushLine_shown shown).symm.trans answer)
    rwa [Nat.min_eq_left (beamTarget_le s)] at painted

end Sys2Proof.Machine
end

section
/-! `Cell()` (`46_pixel_generation.md` R353 to R355): what one fetch counts and reads, and the two
fetches of a cell. -/

namespace Sys2Proof.Machine

/-! One fetch. -/

/-- `g` comes from the line `l` by `n` fetches, none or one. -/
structure Fetch (s : State) (l : Line) (n : Nat) (g : Fetched) : Prop where
  line : g.line =
    { l with fetchK := l.fetchK + n, vramRem := l.vramRem - n, picks := g.line.picks }
  unfetched : n = 0 → g.byte = 0
  ram : s.cfg.vfetch = .ram → l.writes = [] → g.line.picks = l.picks ∧
    (0 < n → g.byte = memRead s.ram (fetchAddr s l.fetchK))

theorem fetch_nothing (s : State) (l : Line) : Fetch s l 0 ⟨none, 0, l⟩ :=
  ⟨rfl, fun _ => rfl, fun _ _ => ⟨rfl, nofun⟩⟩

/-- From the RAM array, with no byte written on this line, the port gives the byte that RAM holds
(R354; log 10). -/
theorem vFetch_ram {s : State} {l : Line} (z : Nat) (ram : s.cfg.vfetch = .ram)
    (unwritten : l.writes = []) : vFetch s l z = ⟨some z, memRead s.ram z, l⟩ := by
  simp [vFetch, ramFetch, overwritten, ram, unwritten]

theorem vFetch_counted_fetch (s : State) (l : Line) :
    Fetch s l 1 (vFetch s l (fetchAddr s l.fetchK)).counted where
  line := by simp only [Fetched.counted]; rw [vFetch_line]
  unfetched := nofun
  ram port unwritten := by
    rw [vFetch_ram _ port unwritten]
    exact ⟨rfl, fun _ => rfl⟩

theorem fetchNext_exhausted (s : State) {l : Line} (exhausted : l.vramRem = 0) :
    fetchNext s l = some ⟨none, 0, l⟩ := if_pos exhausted

/-- The next byte is fetched as far as the line has bytes left. -/
theorem fetchNext_fetch {s : State} {l : Line} {g : Fetched} (h : fetchNext s l = some g) :
    Fetch s l (min l.vramRem 1) g := by
  rcases Nat.eq_zero_or_pos l.vramRem with exhausted | left
  · rw [fetchNext_exhausted s exhausted] at h
    cases h
    rw [exhausted]
    exact fetch_nothing s l
  · rw [fetchNext, if_neg (by omega)] at h
    split at h <;> cases h
    rw [Nat.min_eq_right left]
    exact vFetch_counted_fetch s l

/-! The fetches of a cell. -/

/-- The second byte is fetched in a mode with attributes, as far as the line has bytes left. -/
theorem fetchAttr_fetch {s : State} {l : Line} {g : Fetched} (h : fetchAttr s l = some g) :
    Fetch s l (if s.mode.attr then min l.vramRem 1 else 0) g := by
  unfold fetchAttr at h
  split_ifs at h ⊢ with attr
  · exact fetchNext_fetch h
  · cases h
    exact fetch_nothing s l

/-- The bytes that `Cell()` takes from a line. -/
def cellFetches (s : State) (l : Line) : Nat := min l.vramRem (if s.mode.attr then 2 else 1)

/-- A cell that is painted is painted from two bytes, each fetched or 0. -/
theorem cellStep_fetches {s : State} {l l' : Line} (h : cellStep s l = some l') :
    ∃ ch att, Fetch s l (min l.vramRem 1) ch ∧
      Fetch s ch.line (cellFetches s l - min l.vramRem 1) att ∧ l' = paintCell s ch att := by
  unfold cellStep at h
  split at h
  · cases h
  next ch charFetched =>
    split at h <;> cases h
    next att attrFetched =>
      have first := fetchNext_fetch charFetched
      have second := fetchAttr_fetch attrFetched
      have rest : ch.line.vramRem = l.vramRem - min l.vramRem 1 := by rw [first.line]
      have count : (if s.mode.attr then min ch.line.vramRem 1 else 0) =
          cellFetches s l - min l.vramRem 1 := by
        unfold cellFetches
        split_ifs <;> omega
      exact ⟨ch, att, first, count ▸ second, rfl⟩

theorem cellStep_exhausted (s : State) {l : Line} (exhausted : l.vramRem = 0) :
    ∃ l', cellStep s l = some l' := by
  have charFetched := fetchNext_exhausted s exhausted
  have attrFetched : fetchAttr s l = some ⟨none, 0, l⟩ := by
    rw [fetchAttr, charFetched, ite_self]
  exact ⟨paintCell s ⟨none, 0, l⟩ ⟨none, 0, l⟩, by simp [cellStep, charFetched, attrFetched]⟩

theorem cellStep_unconnected {s : State} {l : Line} (left : 0 < l.vramRem)
    (port : s.cfg.vfetchConnected = false) : cellStep s l = none := by
  have stops : fetchNext s l = none := by
    rw [fetchNext, if_neg (by omega), port, if_neg Bool.false_ne_true]
  rw [cellStep, stops]

/-- The line after a cell, and, from the RAM array, which bytes it shows (R353 to R355). -/
theorem cellStep_painted {s : State} {l l' : Line} (h : cellStep s l = some l') :
    ∃ ch att : Byte, let m := min (cellWidth s.mode.r) l.aaRem
      (cellFetches s l = 0 → ch = 0) ∧ (cellFetches s l < 2 → att = 0) ∧
      l' = { l with
        buf := splice l.buf l.beamPos ((cellPixels s.cfg (cellCtx s) ch att).take m)
        beamPos := l.beamPos + m, aaRem := l.aaRem - m
        fetchK := l.fetchK + cellFetches s l, vramRem := l.vramRem - cellFetches s l
        cells := l'.cells, picks := l'.picks } ∧
      (s.cfg.vfetch = .ram → l.writes = [] → l'.picks = l.picks ∧
        (0 < cellFetches s l → ch = memRead s.ram (fetchAddr s l.fetchK)) ∧
        (1 < cellFetches s l → att = memRead s.ram (fetchAddr s (l.fetchK + 1)))) := by
  obtain ⟨ch, att, first, second, rfl⟩ := cellStep_fetches h
  have one : cellFetches s l = 0 ↔ min l.vramRem 1 = 0 := by
    unfold cellFetches
    split_ifs <;> omega
  have two : cellFetches s l - min l.vramRem 1 = 0 ↔ cellFetches s l < 2 := by
    unfold cellFetches
    split_ifs <;> omega
  have both : min l.vramRem 1 + (cellFetches s l - min l.vramRem 1) = cellFetches s l := by
    unfold cellFetches
    split_ifs <;> omega
  refine ⟨ch.byte, att.byte, fun h0 => first.unfetched (one.1 h0),
    fun h1 => second.unfetched (two.2 h1), ?_, fun port unwritten => ?_⟩
  · have line := second.line
    rw [first.line] at line
    simp only [paintCell, Nat.add_assoc, Nat.sub_sub, both] at line ⊢
    rw [line]
  · obtain ⟨picks, charByte⟩ := first.ram port unwritten
    obtain ⟨picks', attrByte⟩ := second.ram port (by rw [first.line]; exact unwritten)
    refine ⟨picks'.trans picks, fun h0 => charByte (by omega), fun h1 => ?_⟩
    rw [attrByte (by omega), first.line]
    simp only
    congr 2
    omega

/-- The fetch address in arithmetic (R355). -/
theorem fetchAddr_eq (s : State) (k : Nat) : fetchAddr s k =
    (if s.fields.coco then s.base + k
      else if s.fields.hven then s.base + (2 * s.fields.x.toNat + k) % 256
      else s.base + 2 * s.fields.x.toNat + k) % 2 ^ s.cfg.physW := by
  unfold fetchAddr wrapPhys
  split_ifs <;> rfl

theorem exec_cell (s : State) : exec .cell s = withLine s (cellStep s s.line) := rfl

/-- Settles O41: the cell is painted from the bytes of its fetches; without the port the first fetch
stops it. -/
theorem cellPaintsTheFetchedByte : Obligations.CellPaintsTheFetchedByte := by
  unfold Obligations.CellPaintsTheFetchedByte
  intro s addr
  refine ⟨fun answers => ?_, fun left port => ?_⟩
  · obtain ⟨l, painted⟩ := answers.elim (cellStep_connected · s.line) (cellStep_exhausted s)
    obtain ⟨ch, att, unfetched, unfetched', line, ram⟩ := cellStep_painted painted
    refine ⟨ch, att, _, _, l, rfl, unfetched, unfetched', rfl, ?_, line, fun port unwritten => ?_⟩
    · rw [exec_cell, painted]
      rfl
    · simp only [fetchAddr_eq] at ram
      exact ram port unwritten
  · rw [exec_cell, cellStep_unconnected left port]
    rfl

end Sys2Proof.Machine
end

section
/-! Painting a line in two parts (`46_pixel_generation.md` R352, R378): what the first part leaves
to be painted is what painting at once goes on with. -/

namespace Sys2Proof.Machine

/-! A run of equal positions in two parts. -/

/-- Bytes spliced in right after others are spliced in together with them, wherever that is. -/
theorem splice_splice (buf a b : List Byte) (pos : Nat) :
    splice (splice buf pos a) (pos + a.length) b = splice buf pos (a ++ b) := by
  have front : (splice buf pos a).take (pos + a.length) = buf.take pos ++ a := by
    rcases Nat.le_total pos buf.length with inside | beyond
    · exact splice_take_end inside
    · simp [splice, List.drop_of_length_le (show buf.length ≤ pos + a.length by omega),
        List.take_of_length_le, beyond]
  have back : (splice buf pos a).drop (pos + a.length + b.length) =
      buf.drop (pos + (a ++ b).length) := by
    rcases Nat.le_total pos buf.length with inside | beyond
    · have start : (buf.take pos ++ a).length = pos + a.length := by simp [inside]
      rw [splice, ← List.drop_drop, List.drop_left' start, List.drop_drop, List.length_append,
        Nat.add_assoc]
    · rw [List.drop_of_length_le (by simp [splice]; omega), List.drop_of_length_le (by simp; omega)]
  rw [splice, front, back, splice, List.append_assoc (buf.take pos) a b]

theorem splice_replicate (buf : List Byte) (pos m n : Nat) (v : Byte) :
    splice (splice buf pos (List.replicate m v)) (pos + m) (List.replicate n v) =
      splice buf pos (List.replicate (m + n) v) := by
  have spliced := splice_splice buf (List.replicate m v) (List.replicate n v) pos
  rwa [List.length_replicate, List.replicate_append_replicate] at spliced

theorem paintRun_paintRun (m n : Nat) (v : Byte) (l : Line) :
    paintRun n v (paintRun m v l) = paintRun (m + n) v l := by
  simp only [paintRun, splice_replicate, Nat.add_assoc]

/-! A round in two parts. -/

/-- The line with `n` positions of the left border painted. -/
def leftRun (s : State) (l : Line) (n : Nat) : Line :=
  { paintRun n (borderByte s) l with lbRem := l.lbRem - n }

/-- The line with `n` positions of the right border painted. -/
def rightRun (s : State) (l : Line) (n : Nat) : Line :=
  { paintRun n (borderByte s) l with rbRem := l.rbRem - n }

theorem leftRun_leftRun (s : State) (l : Line) (m n : Nat) :
    leftRun s (leftRun s l m) n = leftRun s l (m + n) := by
  simp only [leftRun, paintRun, splice_replicate, Nat.add_assoc, Nat.sub_sub]

theorem rightRun_rightRun (s : State) (l : Line) (m n : Nat) :
    rightRun s (rightRun s l m) n = rightRun s l (m + n) := by
  simp only [rightRun, paintRun, splice_replicate, Nat.add_assoc, Nat.sub_sub]

/-- A round on the way to `p` is the round on the way to `q`, or it stops at `p`, before `q`, and
the next round completes it. -/
def SplitRound (s : State) (p q : Nat) (l l' : Line) : Prop :=
  paintStep s q l = some l' ∨ (p < q ∧ l'.beamPos = p ∧ paintStep s q l' = paintStep s q l)

section
variable {s : State} {p q : Nat} {l l' : Line}

theorem paintStep_left (lb : 0 < l.lbRem) :
    paintStep s p l = some (leftRun s l (min l.lbRem (p - l.beamPos))) := if_pos lb

theorem paintStep_cell (lb : l.lbRem = 0) (aa : 0 < l.aaRem) :
    paintStep s p l = cellStep s l := by
  rw [paintStep, if_neg (by omega), if_pos aa]

theorem paintStep_right (lb : l.lbRem = 0) (aa : l.aaRem = 0) (rb : 0 < l.rbRem) :
    paintStep s p l = some (rightRun s l (min l.rbRem (p - l.beamPos))) := by
  rw [paintStep, if_neg (by omega), if_neg (by omega), if_pos rb]
  rfl

theorem paintStep_fill (lb : l.lbRem = 0) (aa : l.aaRem = 0) (rb : l.rbRem = 0) :
    paintStep s p l = some (paintRun (p - l.beamPos) 0 l) := by
  rw [paintStep, if_neg (by omega), if_neg (by omega), if_neg (by omega)]

/-- A round splits if it paints as many positions of one value as lie before the position asked for,
at most `rem`, and a round after `n` of them paints as many of those that are left. -/
theorem splitRound_of_run {run : Nat → Line} {rem : Nat} (lt : p < q) (more : l.beamPos < p)
    (beam : ∀ n, (run n).beamPos = l.beamPos + n)
    (round : ∀ r ≤ q, paintStep s r l = some (run (min rem (r - l.beamPos))))
    (next : ∀ n < rem,
      paintStep s q (run n) = some (run (n + min (rem - n) (q - (l.beamPos + n)))))
    (h : paintStep s p l = some l') : SplitRound s p q l l' := by
  rw [round p lt.le] at h
  rcases Nat.lt_or_ge (p - l.beamPos) rem with part | whole
  · rw [Nat.min_eq_right part.le] at h
    cases h
    refine .inr ⟨lt, by rw [beam]; exact Nat.add_sub_of_le more.le, ?_⟩
    rw [next _ part, round q (Nat.le_refl q)]
    congr 2
    omega
  · rw [Nat.min_eq_left whole] at h
    exact .inl (by rw [round q (Nat.le_refl q), ← h, Nat.min_eq_left (by omega)])

/-- Every round splits: a cell does not depend on the position asked for, a border and the fill are
runs of one value. -/
theorem paintStep_split (le : p ≤ q) (more : l.beamPos < p) (h : paintStep s p l = some l') :
    SplitRound s p q l l' := by
  rcases Nat.eq_or_lt_of_le le with rfl | lt
  · exact .inl h
  rcases Nat.eq_zero_or_pos l.lbRem with lb | lb
  · rcases Nat.eq_zero_or_pos l.aaRem with aa | aa
    · rcases Nat.eq_zero_or_pos l.rbRem with rb | rb
      · refine splitRound_of_run (run := (paintRun · 0 l)) (rem := q) lt more (fun _ => rfl)
          (fun r le => ?_) (fun n _ => ?_) h
        · rw [paintStep_fill lb aa rb, Nat.min_eq_right (by omega)]
        · rw [paintStep_fill (l := paintRun n 0 l) lb aa rb, paintRun_paintRun,
            Nat.min_eq_right (by omega)]
          rfl
      · refine splitRound_of_run lt more (fun _ => rfl) (fun _ _ => paintStep_right lb aa rb)
          (fun n left => ?_) h
        rw [paintStep_right (l := rightRun s l n) lb aa (Nat.sub_pos_of_lt left), rightRun_rightRun]
        rfl
    · rw [paintStep_cell lb aa] at h
      exact .inl ((paintStep_cell lb aa).trans h)
  · refine splitRound_of_run lt more (fun _ => rfl) (fun _ _ => paintStep_left lb)
      (fun n left => ?_) h
    rw [paintStep_left (l := leftRun s l n) (Nat.sub_pos_of_lt left), leftRun_leftRun]
    rfl

theorem paintStep_advances (more : l.beamPos < p) (h : paintStep s p l = some l') :
    l.beamPos < l'.beamPos := by
  obtain ⟨n, _, round⟩ := paintStep_round h
  have moved := round.counts.1 more
  have beam := round.beam
  omega

/-! The loop in two parts. -/

/-- `RenderTo`'s loop run to its end. -/
def paintAll (s : State) (p : Nat) (l : Line) : Option Line := paintLoop s p (p - l.beamPos) l

theorem renderToPos_eq (p : Nat) (s : State) :
    renderToPos p s = withLine s (paintAll s (min p s.cfg.nVis) s.line) := rfl

theorem paintAll_done (done : p ≤ l.beamPos) : paintAll s p l = some l := paintLoop_done _ done

theorem paintLoop_succ (k : Nat) (more : l.beamPos < p) :
    paintLoop s p (k + 1) l = (paintStep s p l).bind (paintLoop s p k) := by
  rw [paintLoop, if_pos more]
  cases paintStep s p l <;> rfl

/-- Fuel beyond the positions that are left changes nothing. -/
theorem paintLoop_fuel {k m : Nat} (hk : p ≤ l.beamPos + k) (hm : p ≤ l.beamPos + m) :
    paintLoop s p k l = paintLoop s p m l := by
  induction k generalizing m l with
  | zero => rw [paintLoop_done 0 hk, paintLoop_done m hk]
  | succ k ih =>
    rcases Nat.lt_or_ge l.beamPos p with more | done
    · obtain ⟨m, rfl⟩ : ∃ i, m = i + 1 := ⟨m - 1, by omega⟩
      rw [paintLoop_succ k more, paintLoop_succ m more]
      refine Option.bind_congr fun l₁ round => ?_
      have moved := paintStep_advances more round
      exact ih (by omega) (by omega)
    · rw [paintLoop_done _ done, paintLoop_done _ done]

theorem paintAll_more (more : l.beamPos < p) :
    paintAll s p l = (paintStep s p l).bind (paintAll s p) := by
  have fuel : p ≤ l.beamPos + (p - l.beamPos - 1 + 1) := by omega
  rw [paintAll, paintLoop_fuel (m := p - l.beamPos - 1 + 1) (by omega) fuel, paintLoop_succ _ more]
  refine Option.bind_congr fun l₁ round => ?_
  have moved := paintStep_advances more round
  exact paintLoop_fuel (by omega) (by omega)

/-- What painting to `p` leaves, painted to `q`, is what painting to `q` at once gives: each round
on the way to `p` splits. -/
theorem paintLoop_split {k : Nat} (le : p ≤ q) (h : paintLoop s p k l = some l') :
    paintAll s q l' = paintAll s q l := by
  induction k generalizing l with
  | zero => cases h; rfl
  | succ k ih =>
    rcases Nat.lt_or_ge l.beamPos p with more | done
    · rw [paintLoop_succ k more] at h
      obtain ⟨l₁, round, rest⟩ := Option.bind_eq_some_iff.1 h
      have onwards : paintAll s q l = paintAll s q l₁ := by
        rw [paintAll_more (by omega : l.beamPos < q)]
        rcases paintStep_split le more round with same | ⟨lt, beam, completes⟩
        · rw [same]
          rfl
        · rw [paintAll_more (by omega : l₁.beamPos < q), completes]
      rw [onwards]
      exact ih rest
    · rw [paintLoop_done _ done] at h
      cases h
      rfl

end

/-! The answers of the two parts (log 40). -/

/-- Fetches only add to their count. -/
theorem paintStep_fetchK_le {s : State} {p : Nat} {l l' : Line} (h : paintStep s p l = some l') :
    l.fetchK ≤ l'.fetchK := by
  unfold paintStep at h
  split_ifs at h with lb aa rb
  · cases h; rfl
  · obtain ⟨_, _, _, _, line, _⟩ := cellStep_painted h
    rw [line]
    exact Nat.le_add_right _ _
  · cases h; rfl
  · cases h; rfl

theorem paintAll_fetchK_le {s : State} {p : Nat} {l l' : Line} (h : paintAll s p l = some l') :
    l.fetchK ≤ l'.fetchK :=
  paintLoop_induct (P := fun m => l.fetchK ≤ m.fetchK)
    (fun _ _ _ le round => le.trans (paintStep_fetchK_le round)) h (Nat.le_refl _)

/-- Callbacks run in two goes are run in one. -/
theorem crossings_crossings (m n : Nat) (s : State) :
    crossings n (crossings m s) = crossings (m + n) s := by
  have both : enqueueAll ((s.callbacks.drop m).take n).flatten
      (enqueueAll (s.callbacks.take m).flatten (s.queue, s.seqNext)) =
        enqueueAll (s.callbacks.take (m + n)).flatten (s.queue, s.seqNext) := by
    rw [List.take_add, List.flatten_append]
    simp only [enqueueAll, List.foldl_append]
  simp only [crossings, List.drop_drop, Prod.mk.eta, both]

theorem afterPaint_afterPaint {s : State} {l l' : Line} (first : s.line.fetchK ≤ l.fetchK)
    (second : l.fetchK ≤ l'.fetchK) : afterPaint l' (afterPaint l s) = afterPaint l' s := by
  have whole : l'.fetchK - s.line.fetchK = l.fetchK - s.line.fetchK + (l'.fetchK - l.fetchK) := by
    omega
  rw [afterPaint_eq l' s, whole, ← crossings_crossings]
  rfl

/-- Painting reads nothing of the line of the state but its `nlpr`, and nothing of the queue and the
callbacks. -/
theorem paintStep_afterPaint {s : State} {l : Line} (nlpr : l.nlpr = s.line.nlpr) (p : Nat)
    (m : Line) : paintStep (afterPaint l s) p m = paintStep s p m := by
  have ctx : cellCtx (afterPaint l s) = cellCtx s := by
    simp [cellCtx, underlineNlpr, nlpr]
  have cell : paintCell (afterPaint l s) = paintCell s := by
    funext ch att
    simp only [paintCell, ctx]
    rfl
  unfold paintStep cellStep
  rw [cell]
  rfl

theorem paintAll_afterPaint {s : State} {l : Line} (nlpr : l.nlpr = s.line.nlpr) (p : Nat)
    (m : Line) : paintAll (afterPaint l s) p m = paintAll s p m := by
  have loop : ∀ k m, paintLoop (afterPaint l s) p k m = paintLoop s p k m := by
    intro k
    induction k with
    | zero => exact fun _ => rfl
    | succ k ih => simp only [paintLoop, paintStep_afterPaint nlpr, ih, implies_true]
  exact loop _ m

/-- Settles O40: the second part goes on with what the first part left, and between them they run
the same callbacks. -/
theorem splitPaintingChangesNothing : Obligations.SplitPaintingChangesNothing := by
  unfold Obligations.SplitPaintingChangesNothing
  intro p q s t le first
  obtain ⟨l, rfl, _, _, _, _, nlpr, _⟩ := renderToPos_spec first
  have painted : paintAll s (min p s.cfg.nVis) s.line = some l := withLine_eq_next first
  have onwards : paintAll (afterPaint l s) (min q s.cfg.nVis) l =
      paintAll s (min q s.cfg.nVis) s.line :=
    (paintAll_afterPaint nlpr _ l).trans (paintLoop_split (min_le_min_right _ le) painted)
  change withLine (afterPaint l s) (paintAll (afterPaint l s) (min q s.cfg.nVis) l) =
    withLine s (paintAll s (min q s.cfg.nVis) s.line)
  rw [onwards]
  cases whole : paintAll s (min q s.cfg.nVis) s.line with
  | none => rfl
  | some l' =>
    have second := paintAll_fetchK_le (onwards.trans whole)
    exact congrArg Host.Outcome.next (afterPaint_afterPaint (paintAll_fetchK_le painted) second)

end Sys2Proof.Machine
end

section
/-! The pixels of a cell, in every mode (`46_pixel_generation.md` R345, R358 to R370): a cell's
positions show the eight pixels of its bytes, and each of the eight is one value by bit
arithmetic. -/

namespace Sys2Proof.Machine

/-! The eight pixels of a cell, and where they are shown (R345, R359). -/

/-- Pixel `p` of the eight, left to right. -/
def eighth (q : Quad × Quad) (p : Nat) : Colour :=
  [q.1.c0, q.1.c1, q.1.c2, q.1.c3, q.2.c0, q.2.c1, q.2.c2, q.2.c3].getD p 0

theorem eighth_solid (l h : Colour) {p : Nat} (inside : p < 8) :
    eighth (solidQuad l, solidQuad h) p = if p < 4 then l else h := by
  interval_cases p <;> rfl

/-- The pixel of a cell that position `j` shows (R359). -/
def pixelOf (r : BitVec 2) (j : Nat) : Nat := if r = 3 then 2 * j else j / (4 >>> r.toNat)

theorem pixelOf_lt {r : BitVec 2} {j : Nat} (inside : j < 2 * (16 >>> r.toNat)) :
    pixelOf r j < 8 := by
  revert inside
  unfold pixelOf
  match r with
  | 0 | 1 | 2 | 3 =>
    intro inside
    simp at inside ⊢
    omega

/-- Both halves expanded show, position for position, the pixels of the cell (R359). -/
theorem expand_getElem? (q : Quad × Quad) {r : BitVec 2} {j : Nat}
    (inside : j < 2 * (16 >>> r.toNat)) :
    (expand q.1 r ++ expand q.2 r)[j]? = some (eighth q (pixelOf r j)) := by
  revert inside
  match r with
  | 0 | 1 | 2 | 3 =>
    intro inside
    simp at inside
    interval_cases j <;> rfl

/-- A position of a painted cell (R353). -/
theorem cellPixels_getElem? (c : Params) (x : CellCtx) (ch a : Byte) {j : Nat}
    (inside : j < 2 * (16 >>> x.r.toNat)) :
    (cellPixels c x ch a)[j]? =
      some ((eighth (pixels c x ch a) (pixelOf x.r j)).setWidth 8) := by
  rw [cellPixels, List.getElem?_map, expand_getElem? _ inside]
  rfl

/-! Fields of a byte, and palette entries (R358). -/

/-- A field within a field. -/
theorem bits_bits {w : Nat} (v : BitVec w) (a m : Nat) {b n : Nat} (within : b + n ≤ m) :
    bits (bits v a m) b n = bits v (a + b) n := by
  apply BitVec.eq_of_getLsbD_eq
  intro i inside
  have bound : b + i < m := by omega
  simp [bits, inside, bound, Nat.add_assoc]

/-- The `k`-th digit of a byte in a base that is a power of 2. -/
theorem bits_digit_toNat (v : Byte) {n base : Nat} (k : Nat) (power : 2 ^ n = base) :
    (bits v (n * k) n).toNat = v.toNat / base ^ k % base := by
  rw [bits_toNat, pow_mul, power]

/-- A narrow field as a palette index. -/
theorem setWidth_four_toNat {n : Nat} (narrow : n ≤ 4) (v : BitVec n) :
    (v.setWidth 4).toNat = v.toNat := BitVec.toNat_setWidth_of_le narrow

/-- A palette entry as a render-buffer byte. -/
def shown (x : CellCtx) (n : Nat) : Byte := (x.pal.toList.getD n 0).setWidth 8

theorem palOf_shown (x : CellCtx) (i : BitVec 4) : (palOf x i).setWidth 8 = shown x i.toNat := by
  rw [palOf, at16_eq_getD _ _ 0, shown]

theorem ite_palOf_shown (x : CellCtx) (b : Bool) (m n : BitVec 4) :
    (if b then palOf x m else palOf x n).setWidth 8 =
      shown x (if b then m.toNat else n.toNat) := by
  cases b <;> exact palOf_shown x _

/-- The slot of the two that the colour set selects (R367, R369, R370). -/
def cssSlot (x : CellCtx) (n m : BitVec 4) : Nat := if x.css then m.toNat else n.toNat

theorem cssSlot_eq (x : CellCtx) (n m : BitVec 4) :
    (if x.css then m else n).toNat = cssSlot x n m := apply_ite ..

section
variable {p : Nat} (inside : p < 8)
include inside

/-- One bit of a byte for each pixel (R360). -/
theorem eighth_bitsQuads (g : Byte) (fg bg : Colour) :
    eighth (bitsQuads g fg bg) p = if g.getLsbD (7 - p) then fg else bg := by
  interval_cases p <;> rfl

/-- One bit of a byte for each pixel, as a number. -/
theorem eighth_digit_one (ch : Byte) (f : BitVec 1 → Colour) :
    let quad (n : BitVec 4) : Quad :=
      ⟨f (bits n 3 1), f (bits n 2 1), f (bits n 1 1), f (bits n 0 1)⟩
    eighth (quad (hiNibble ch), quad (loNibble ch)) p = f (bits ch (1 * (7 - p)) 1) := by
  interval_cases p <;> exact congrArg f (bits_bits ch _ _ (by decide))

/-- Two bits of a byte for each two pixels. -/
theorem eighth_digit_two (ch : Byte) (f : BitVec 2 → Colour) :
    let quad (n : BitVec 4) : Quad :=
      ⟨f (bits n 2 2), f (bits n 2 2), f (bits n 0 2), f (bits n 0 2)⟩
    eighth (quad (hiNibble ch), quad (loNibble ch)) p = f (bits ch (2 * (3 - p / 2)) 2) := by
  interval_cases p <;> exact congrArg f (bits_bits ch _ _ (by decide))

/-- Four bits of a byte for each four pixels. -/
theorem eighth_digit_four (ch : Byte) (f : BitVec 4 → Colour) :
    eighth (solidQuad (f (hiNibble ch)), solidQuad (f (loNibble ch))) p =
      f (bits ch (4 * (1 - p / 4)) 4) := by
  interval_cases p <;> rfl

end

/-! Underline and blink (R363, R366). -/

theorem underlineRow_toNat (nlpr : Option Nat) : (underlineRow nlpr).toNat =
    match nlpr with
    | some n => (n + 15) % 16
    | none => 15 := by
  cases nlpr with
  | some n => exact BitVec.toNat_ofNat ..
  | none => rfl

/-- The underline applies before the blink. -/
theorem applyAttr_eq {x : CellCtx} {ul : Nat} (underline : (underlineRow x.nlpr).toNat = ul)
    (a g : Byte) : applyAttr x a g =
    if a.getLsbD 7 = true ∧ x.blink = true then 0
    else if a.getLsbD 6 = true ∧ x.row.toNat = ul then 0xFF else g := by
  simp [applyAttr, bit, ← underline, BitVec.toNat_inj]

/-! Each mode. -/

section
variable (c : Params) (x : CellCtx) (ch a : Byte) {p : Nat} (inside : p < 8)
include inside

/-- Native graphics, one bit for each pixel (R361). -/
theorem nativeGfx_one_shown (mode : x.mode = .nativeGfx) (cres : x.cres = 0) :
    (eighth (pixels c x ch a) p).setWidth 8 = shown x (ch.toNat / 2 ^ (7 - p) % 2) := by
  have pixel := eighth_digit_one inside ch fun v => palOf x (v.setWidth 4)
  simp only [pixels, mode, gfxQuad, if_pos cres]
  rw [pixel, palOf_shown, setWidth_four_toNat (by decide), bits_digit_toNat ch _ (pow_one 2)]

/-- Native graphics, two bits for each pixel (R361). -/
theorem nativeGfx_two_shown (mode : x.mode = .nativeGfx) (cres : x.cres = 1) :
    (eighth (pixels c x ch a) p).setWidth 8 = shown x (ch.toNat / 4 ^ (3 - p / 2) % 4) := by
  have pixel := eighth_digit_two inside ch fun v => palOf x (v.setWidth 4)
  have other : ¬ x.cres = 0 := by rw [cres]; decide
  simp only [pixels, mode, gfxQuad, if_neg other, if_pos cres]
  rw [pixel, palOf_shown, setWidth_four_toNat (by decide),
    bits_digit_toNat ch _ (show 2 ^ 2 = 4 from rfl)]

/-- Native graphics, four bits for each pixel (R361). -/
theorem nativeGfx_four_shown (mode : x.mode = .nativeGfx) (cres : x.cres = 2 ∨ x.cres = 3) :
    (eighth (pixels c x ch a) p).setWidth 8 = shown x (ch.toNat / 16 ^ (1 - p / 4) % 16) := by
  have pixel := eighth_digit_four inside ch (palOf x)
  have other : ¬ x.cres = 0 := by rcases cres with cres | cres <;> rw [cres] <;> decide
  have other' : ¬ x.cres = 1 := by rcases cres with cres | cres <;> rw [cres] <;> decide
  simp only [pixels, mode, gfxQuad, if_neg other, if_neg other']
  rw [pixel, palOf_shown, bits_digit_toNat ch _ (show 2 ^ 4 = 16 from rfl)]

/-- A pixel of one bit shows one of two palette entries (R360). -/
theorem bitsQuads_shown (g : Byte) (fg bg : BitVec 4) :
    (eighth (bitsQuads g (palOf x fg) (palOf x bg)) p).setWidth 8 =
      shown x (if g.getLsbD (7 - p) then fg.toNat else bg.toNat) := by
  rw [eighth_bitsQuads inside, ite_palOf_shown]

/-- Native text without attributes: the two fixed slots (R362). -/
theorem nativeText_plain_shown (mode : x.mode = .nativeText) (attr : x.attr = false) :
    (eighth (pixels c x ch a) p).setWidth 8 =
      shown x (if (fontHi c (bits ch 0 7) x.row).getLsbD (7 - p) then 1 else 0) := by
  simp only [pixels, mode, nativeTextQuads, attr, if_neg Bool.false_ne_true]
  exact bitsQuads_shown x inside _ 1 0

/-- Native text with attributes: colours and effects come from the second byte (R362, R363, R366). -/
theorem nativeText_attr_shown (mode : x.mode = .nativeText) (attr : x.attr = true) {ul : Nat}
    (underline : (underlineRow x.nlpr).toNat = ul) :
    let g1 : Byte :=
      if a.getLsbD 6 = true ∧ x.row.toNat = ul then 0xFF else fontHi c (bits ch 0 7) x.row
    let g2 : Byte := if a.getLsbD 7 = true ∧ x.blink = true then 0 else g1
    (eighth (pixels c x ch a) p).setWidth 8 =
      shown x (if g2.getLsbD (7 - p) then 8 + a.toNat / 8 % 8 else a.toNat % 8) := by
  have fg : (8 + (bits a 3 3).setWidth 4 : BitVec 4).toNat = 8 + a.toNat / 8 % 8 := by
    have eight : (8 : BitVec 4).toNat = 8 := rfl
    rw [BitVec.toNat_add, setWidth_four_toNat (by decide), bits_toNat, eight]
    omega
  have bg : ((bits a 0 3).setWidth 4).toNat = a.toNat % 8 := by
    rw [setWidth_four_toNat (by decide), bits_toNat, pow_zero, Nat.div_one]
    rfl
  simp only [pixels, mode, nativeTextQuads, if_pos attr]
  rw [bitsQuads_shown x inside, fg, bg, applyAttr_eq underline]

/-- Legacy text, alphanumeric: inverse video swaps the two slots (R367). -/
theorem legacyText_alpha_shown (mode : x.mode = .legacyText) (alpha : ch.getLsbD 7 = false) :
    (eighth (pixels c x ch a) p).setWidth 8 =
      shown x (if (fontLegacy c (bits ch 0 6) x.row).getLsbD (7 - p) = ch.getLsbD 6
        then cssSlot x c.legacy.textBg0 c.legacy.textBg1
        else cssSlot x c.legacy.textFg0 c.legacy.textFg1) := by
  have text : ¬ bit ch 7 = true := Bool.eq_false_iff.1 alpha
  simp only [pixels, mode, if_neg text, legacyAlphaQuads]
  rcases Bool.eq_false_or_eq_true (ch.getLsbD 6) with inverse | normal
  · rw [if_pos (show bit ch 6 = true from inverse), bitsQuads_shown x inside, cssSlot_eq,
      cssSlot_eq, inverse]
  · rw [if_neg (show ¬ bit ch 6 = true from Bool.eq_false_iff.1 normal), bitsQuads_shown x inside,
      cssSlot_eq, cssSlot_eq, normal]
    cases (fontLegacy c (bits ch 0 6) x.row).getLsbD (7 - p) <;> rfl

/-- Legacy text, semigraphics: each half of the cell shows one quadrant (R368). -/
theorem legacyText_semigraphics_shown (mode : x.mode = .legacyText) (semi : ch.getLsbD 7 = true) :
    (eighth (pixels c x ch a) p).setWidth 8 =
      shown x (if ch.getLsbD ((if x.row.toNat < c.sgSplit then 3 else 1) - p / 4)
        then (c.legacy.sgFg.toList.getD (ch.toNat / 16 % 8) 0).toNat
        else c.legacy.sgBg.toNat) := by
  have fg : at8 c.legacy.sgFg (bits ch 4 3) = c.legacy.sgFg.toList.getD (ch.toNat / 16 % 8) 0 := by
    rw [at8_eq_getD _ _ 0, bits_toNat]
    rfl
  have graphics : bit ch 7 = true := semi
  simp only [pixels, mode, if_pos graphics, semigraphicsQuads, fg, eighth_solid _ _ inside]
  rcases Nat.lt_or_ge p 4 with left | right
  · rw [if_pos left, ite_palOf_shown, Nat.div_eq_of_lt left]
    by_cases top : x.row.toNat < c.sgSplit <;> simp [top, bit]
  · rw [if_neg (Nat.not_lt.2 right), ite_palOf_shown, (by omega : p / 4 = 1)]
    by_cases top : x.row.toNat < c.sgSplit <;> simp [top, bit]

/-- Legacy colour graphics (R369; log 44). -/
theorem legacyCg_shown (mode : x.mode = .legacyCg) :
    (eighth (pixels c x ch a) p).setWidth 8 =
      shown x ((cssSlot x c.legacy.cgBase0 c.legacy.cgBase1 +
        ch.toNat / 4 ^ (3 - p / 2) % 4) % 16) := by
  have pixel := eighth_digit_two inside ch fun v =>
    palOf x ((if x.css then c.legacy.cgBase1 else c.legacy.cgBase0) + v.setWidth 4)
  simp only [pixels, mode, legacyCgQuad]
  rw [pixel, palOf_shown, BitVec.toNat_add, cssSlot_eq, setWidth_four_toNat (by decide),
    bits_digit_toNat ch _ (show 2 ^ 2 = 4 from rfl)]

/-- Legacy resolution graphics (R370; log 44). -/
theorem legacyRg_shown (mode : x.mode = .legacyRg) :
    (eighth (pixels c x ch a) p).setWidth 8 =
      shown x ((cssSlot x c.legacy.rgBase0 c.legacy.rgBase1 +
        ch.toNat / 2 ^ (7 - p) % 2) % 16) := by
  have digit : ch.toNat / 2 ^ (7 - p) % 2 = (ch.getLsbD (7 - p)).toNat :=
    (Nat.toNat_testBit ..).symm
  have slot := cssSlot_eq x c.legacy.rgBase0 c.legacy.rgBase1
  have narrow := (if x.css then c.legacy.rgBase1 else c.legacy.rgBase0).isLt
  simp only [pixels, mode, legacyRgQuads]
  rw [bitsQuads_shown x inside, digit, ← slot]
  cases ch.getLsbD (7 - p) with
  | false => exact congrArg (shown x) (Nat.mod_eq_of_lt narrow).symm
  | true => exact congrArg (shown x) (BitVec.toNat_add ..)

end

/-- Settles O42: each position shows one of the eight pixels, and each mode says what that one
is. -/
theorem pixelsOfEveryMode : Obligations.PixelsOfEveryMode := by
  unfold Obligations.PixelsOfEveryMode
  intro c x ch a j p position pixel colour px
  have inside : p < 8 := pixel ▸ pixelOf_lt position
  have of_shown {n : Nat} (h : (eighth (pixels c x ch a) p).setWidth 8 = shown x n) :
      px = some (colour n) := by
    rw [pixel] at h
    exact (cellPixels_getElem? c x ch a position).trans (congrArg some h)
  exact ⟨fun mode => ⟨fun cres => of_shown (nativeGfx_one_shown c x ch a inside mode cres),
      fun cres => of_shown (nativeGfx_two_shown c x ch a inside mode cres),
      fun cres => of_shown (nativeGfx_four_shown c x ch a inside mode cres)⟩,
    fun mode => ⟨fun attr => of_shown (nativeText_plain_shown c x ch a inside mode attr),
      fun attr => of_shown
        (nativeText_attr_shown c x ch a inside mode attr (underlineRow_toNat x.nlpr))⟩,
    fun mode => ⟨fun alpha => of_shown (legacyText_alpha_shown c x ch a inside mode alpha),
      fun semi => of_shown (legacyText_semigraphics_shown c x ch a inside mode semi)⟩,
    fun mode => of_shown (legacyCg_shown c x ch a inside mode),
    fun mode => of_shown (legacyRg_shown c x ch a inside mode)⟩

end Sys2Proof.Machine
end

section
/-! `Raise`, `UpdateLevels` and `reset` (`60_exceptions.md` R457, R458, `70_reset_and_hazards.md`
R490, R491). The three end with the same notifications, each on a change only. -/

namespace Sys2Proof.Machine

/-! Interrupts. -/

/-- Driving an output adds at most one notification, in front. -/
theorem levelTrace_append (level l : Bool) (n : Notice) (s : State) :
    levelTrace (level != l) n s = (if l = level then [] else [(s.now, n)]) ++ s.trace := by
  rw [levelTrace_driven]
  by_cases same : l = level
  · rw [if_pos same, if_pos same.symm, List.nil_append]
  · rw [if_neg same, if_neg (Ne.symm same), List.singleton_append]

/-- The notifications of `UpdateLevels()`, newest first (`60_exceptions.md` R458). -/
theorem levelsTrace_append (s : State) : levelsTrace s =
    (if computeLevel s.fields.fen s.pendingFirq = s.firqLevel then []
      else [(s.now, .firq (computeLevel s.fields.fen s.pendingFirq))]) ++
    (if computeLevel s.fields.ien s.pendingIrq = s.irqLevel then []
      else [(s.now, .irq (computeLevel s.fields.ien s.pendingIrq))]) ++ s.trace := by
  rw [levelsTrace, List.append_assoc, ← levelTrace_append s.irqLevel]
  exact levelTrace_append s.firqLevel _ _ (setIrq _ s)

theorem exec_updateLevels (s : State) : exec .updateLevels s = .next (updateLevels s) := rfl

theorem exec_raise (m : IrqMask) (s : State) : exec (.raise m) s = .next (raiseIrq m s) := rfl

/-- Settles O27: `Raise` is `UpdateLevels()` after the sources were latched. -/
theorem raiseLatchesEnabledSources : Obligations.RaiseLatchesEnabledSources := by
  unfold Obligations.RaiseLatchesEnabledSources
  intro m s
  rw [exec_raise, raiseIrq_eq]
  rfl

/-- Settles O28. -/
theorem updateLevelsFollowsTheMasks : Obligations.UpdateLevelsFollowsTheMasks := by
  unfold Obligations.UpdateLevelsFollowsTheMasks
  exact fun s => ⟨_, exec_updateLevels s, updateLevels_eq s, rfl, rfl, levelsTrace_append s⟩

/-! Reset. -/

/-- There are four events, so cancelling each leaves no entry (`40_scheduler.md` R172). -/
theorem queueRemove_every (q : List QEntry) :
    queueRemove .hsFall (queueRemove .timer (queueRemove .hBord (queueRemove .hsRise q))) = [] := by
  refine List.eq_nil_iff_forall_not_mem.2 fun e he => ?_
  simp only [mem_queueRemove] at he
  obtain ⟨⟨⟨⟨_, rise⟩, bord⟩, timer⟩, fall⟩ := he
  cases hev : e.ev
  case hsFall => exact fall hev
  case hsRise => exact rise hev
  case hBord => exact bord hev
  case timer => exact timer hev

theorem resetQueue_eq (s : State) : resetQueue s = { s with
    queue := [⟨s.now + s.cfg.tSl * s.cfg.ticksPerPixel, .hsFall, s.seqNext⟩]
    seqNext := s.seqNext + 1 } := by
  unfold resetQueue scheduleEvent cancelEvent
  simp only [enqueue_fst, enqueue_snd, queueRemove_every, queueInsert]

/-- The notifications of `reset()`: the sync outputs rise, then the interrupt outputs fall. -/
def resetTrace (s : State) : List (Nat × Notice) :=
  (if s.firqLevel then [(s.now, .firq false)] else []) ++
    (if s.irqLevel then [(s.now, .irq false)] else []) ++
    ((if s.fsLevel then [] else [(s.now, .fs true)]) ++
      (if s.hsLevel then [] else [(s.now, .hs true)]) ++ s.trace)

theorem setHs_high (s : State) : setHs true s = { s with
    hsLevel := true, trace := (if s.hsLevel then [] else [(s.now, .hs true)]) ++ s.trace } := by
  rw [setHs, levelTrace_append]
  simp only [eq_comm (a := true)]

theorem setFs_high (s : State) : setFs true s = { s with
    fsLevel := true, trace := (if s.fsLevel then [] else [(s.now, .fs true)]) ++ s.trace } := by
  rw [setFs, levelTrace_append]
  simp only [eq_comm (a := true)]

/-- With both interrupt outputs disabled `UpdateLevels()` drives them low. -/
theorem updateLevels_disabled {s : State} (ien : s.fields.ien = false)
    (fen : s.fields.fen = false) :
    updateLevels s = { s with
      irqLevel := false, firqLevel := false
      trace := (if s.firqLevel then [(s.now, .firq false)] else []) ++
        (if s.irqLevel then [(s.now, .irq false)] else []) ++ s.trace } := by
  rw [updateLevels_eq, levelsTrace_append, ien, fen]
  simp only [computeLevel, Bool.false_and, Bool.false_eq, ite_not, ← Bool.not_eq_true]

theorem recomputeAll_zero {s : State} (reg : s.reg = zeroRegs) (sam : s.sam = 0)
    (snoop : s.snoop0 = 0) :
    recomputeAll s = { s with fields := resetFields, mode := modeOf s.cfg resetFields } := by
  rw [recomputeAll_eq, reg, sam, snoop, resetFields]

/-- The cleared state after the sync outputs were driven. -/
theorem sync_clearState (s : State) : setFs true (setHs true (clearState s)) = { clearState s with
    hsLevel := true, fsLevel := true
    trace := (if s.fsLevel then [] else [(s.now, .fs true)]) ++
      (if s.hsLevel then [] else [(s.now, .hs true)]) ++ s.trace } := by
  rw [setHs_high, setFs_high, List.append_assoc]
  rfl

/-- The state after `reset()` (`70_reset_and_hazards.md` R490). -/
theorem resetBlock_eq (s : State) : resetBlock s = { State.resetWith s.cfg with
    inbox := s.inbox, internal := s.internal, callbacks := s.callbacks
    now := s.now, lineStart := s.now, seqNext := s.seqNext + 1
    queue := [⟨s.now + s.cfg.tSl * s.cfg.ticksPerPixel, .hsFall, s.seqNext⟩]
    bank := drawnBank s.cfg s.draws, pal := drawnPal s.draws, line := s.line.cleared s.cfg
    colour := s.colour, hue := s.hue, burst := s.burst, voLine := s.voLine, target := s.target
    ram := s.ram, trace := resetTrace s, readData := s.readData, rowOut := s.rowOut
    draws := s.draws + 1 } := by
  have ien : resetFields.ien = false := by decide
  have fen : resetFields.fen = false := by decide
  rw [resetBlock, sync_clearState, resetQueue_eq, recomputeAll_zero, updateLevels_disabled]
  · rfl
  · exact ien
  · exact fen
  all_goals rfl

theorem exec_reset (s : State) : exec .reset s = .next (resetBlock s) := rfl

/-- Settles O52. -/
theorem resetClearsTheBlock : Obligations.ResetClearsTheBlock := by
  unfold Obligations.ResetClearsTheBlock
  intro s
  refine ⟨_, exec_reset s, ?_⟩
  have derived := resetBlock_derivedOk s
  have levels : LevelsOk (resetBlock s) := updateLevels_levelsOk _
  rw [resetBlock_eq] at derived levels ⊢
  exact ⟨rfl, fun e => List.mem_singleton, fun v hv => drawnBank_lt hv, rfl, rfl, rfl, rfl, rfl,
    rfl, rfl, show resetTrace s = _ by rw [resetTrace, ← List.append_assoc, ← List.append_assoc],
    derived, levels⟩

/-- `reset()` of the power-on state, in which nothing is pending and no time has passed
(`70_reset_and_hazards.md` R491). -/
theorem resetBlock_powerOn (c : Params) : resetBlock (powerOn c) = State.resetWith c := by
  have tick : (powerOn c).now + c.tSl * c.ticksPerPixel = c.tSl * c.ticksPerPixel := Nat.zero_add _
  rw [resetBlock_eq]
  simp only [show (powerOn c).cfg = c from rfl, tick]
  rfl

/-- Settles O53: the mode record and the burst tables of the defaults are evaluated. -/
theorem resetFollowsPowerOn : Obligations.ResetFollowsPowerOn := by
  unfold Obligations.ResetFollowsPowerOn
  refine ⟨fun c => ?_, by decide +kernel, by decide +kernel⟩
  rw [exec_reset, resetBlock_powerOn]

/-- Settles O54. -/
theorem resetMeetsTheInvariants : Obligations.ResetMeetsTheInvariants := by
  unfold Obligations.ResetMeetsTheInvariants
  have derived : DerivedOk State.reset := ⟨rfl, rfl⟩
  have levels : LevelsOk State.reset := by decide
  have queue : QueueOk State.reset := by decide
  have memory : MemoryOk State.reset := ⟨reset_ram_wf, reset_stores_wf⟩
  have ranges : RangesOk State.reset :=
    ⟨fun v hv => drawnBank_lt hv, by decide, by decide, by decide, by decide, by decide⟩
  have line : LineOk State.reset := by
    refine ⟨?_, by decide, by decide, nofun⟩
    rw [State.reset, State.resetWith, Line.blank, List.length_map, List.length_range]
  have rows : RowsOk State.reset := nofun
  have outputs : OutputsTold State.reset := by decide
  exact ⟨derived, levels, queue, memory, ranges, line, rows, outputs, by decide, by decide,
    by decide +kernel⟩

end Sys2Proof.Machine
end

section
/-! Bus cycles do not fault (`60_exceptions.md` R451): with the fetch port connected every effect of
a cycle answers, and none moves time. -/

namespace Sys2Proof.Machine

theorem platformTransfer_now (rnw : Bool) (d : Byte) (b : BusSelect) (s : State) :
    (platformTransfer rnw d b s).now = s.now := by
  unfold platformTransfer
  split <;> split_ifs <;> rfl

theorem loadTimer_now (s : State) : (loadTimer s).now = s.now := by
  unfold loadTimer
  split_ifs <;> rfl

theorem writeRegNow_now (n : BitVec 4) (d : Byte) (s : State) :
    (writeRegNow n d s).now = s.now := by
  unfold writeRegNow extraEffect extraInit1
  split_ifs
  · rfl
  · rfl
  · exact loadTimer_now _
  · rfl
  · rfl
  · exact loadTimer_now _
  · rfl

theorem readRegBus_now (n : BitVec 4) (s : State) : (readRegBus n s).now = s.now := by
  unfold readRegBus
  split_ifs <;> rfl

/-- With the fetch port connected the effect of a cycle answers, at the time it finds. -/
theorem windowEffect_answers {s : State} (port : s.cfg.vfetchConnected = true) (rnw : Bool)
    (a : Addr) (d : Byte) : ∃ t, windowEffect rnw a d s = .next t ∧ t.now = s.now := by
  cases hw : windowOf s.cfg.win a with
  | ramLo => exact ⟨s, windowEffect_outside hw (.inl rfl), rfl⟩
  | upper => exact ⟨s, windowEffect_outside hw (.inr (.inl rfl)), rfl⟩
  | fexx => exact ⟨s, windowEffect_outside hw (.inr (.inr (.inl rfl))), rfl⟩
  | vec => exact ⟨s, windowEffect_outside hw (.inr (.inr (.inr rfl))), rfl⟩
  | io =>
    cases hs : snoopedWrite s.cfg.win rnw a with
    | false => exact ⟨s, windowEffect_plain hw hs (.inr (.inr (.inr (.inl rfl)))), rfl⟩
    | true =>
      obtain ⟨_, _, _, write⟩ := writeSnoop_connected port (snoopIndexOf s.cfg.win a) d
      exact ⟨_, (windowEffect_snooped hw hs).trans write, rfl⟩
  | mmu =>
    rw [windowEffect_mmu hw]
    cases rnw <;> exact ⟨_, rfl, rfl⟩
  | reg =>
    rw [windowEffect_reg hw]
    cases rnw with
    | true => exact ⟨_, rfl, readRegBus_now _ s⟩
    | false =>
      obtain ⟨_, _, _, write⟩ := writeReg_connected port (indexOf a) d
      exact ⟨_, write, writeRegNow_now _ _ _⟩
  | pal =>
    rw [windowEffect_pal hw]
    cases rnw with
    | true => exact ⟨_, rfl, rfl⟩
    | false =>
      obtain ⟨_, _, _, write⟩ := writePal_connected port (indexOf a) d
      exact ⟨_, write, rfl⟩
  | sam =>
    rw [windowEffect_sam hw]
    cases rnw with
    | true => exact ⟨_, rfl, rfl⟩
    | false =>
      obtain ⟨_, _, _, write⟩ := writeSam_connected port (samBitOf a) (samValueOf a)
      exact ⟨_, write, rfl⟩

/-- Where a cycle answers and its effect does not move time, it takes `CycleTicks()`
(`41_bus_decode.md` R192). -/
theorem busCycle_now {rnw : Bool} {a : Addr} {d : Byte} {f : State → Res} {s t : State}
    (effect : ∀ u : State, u.cfg = s.cfg → ∃ v, f u = .next v ∧ v.now = u.now)
    (h : busCycle rnw a d f s = .next t) : t.now = s.now + cycleTicks s := by
  obtain ⟨u, frame, now, _, ht⟩ := busCycle_spec h
  obtain ⟨v, hv, still⟩ := effect (platformTransfer rnw d (busDecode s a) u)
    ((platformTransfer_cfg _ _ _ _).trans frame.cfg)
  obtain rfl : v = t := Host.Outcome.next.inj (hv.symm.trans ht)
  rw [still, platformTransfer_now, now]

/-- Settles O15: the cycle of `memory_cycle` answers, and the operation that the decoder names is
that cycle (O5). -/
theorem busCyclesNeverFault : Obligations.BusCyclesNeverFault := by
  unfold Obligations.BusCyclesNeverFault
  intro s rnw a d periods port renderer
  have effect : ∀ u : State, u.cfg = s.cfg →
      ∃ t, windowEffect rnw a (if rnw then 0 else d) u = .next t ∧ t.now = u.now :=
    fun u hu => windowEffect_answers (hu ▸ port) rnw a _
  obtain ⟨t, ht⟩ := busCycle_answers (rnw := rnw) (a := a) (d := if rnw then 0 else d) periods port
    renderer fun u hu => (effect u hu).imp fun _ answer => answer.1
  have cycle : exec (.memoryCycle rnw a (if rnw then 0 else d)) s = .next t := ht
  exact ⟨t, (memoryCycleIsItsWindowOperation rnw a d s).symm.trans cycle, cycle,
    busCycle_now effect ht⟩

end Sys2Proof.Machine
end

section
/-! The setters of the composite block and the burst tables (`47_composite.md` R395 to R397, R400,
R431). The tables depend on the offset, the hue and `PHASE0` through their sum `phi` alone, so a
turn of any of the three is a turn of `phi`; a half turn negates a cosine tone by tone. -/

namespace Sys2Proof.Machine

/-! The setters. -/

section
variable {index : Nat} {s : State}

theorem exec_setPaletteEntry_below (y pb pr : Rat) (h : index < 256) :
    exec (.setPaletteEntry index y pb pr) s = .next (storeColour index ⟨y, pb, pr⟩ s) := if_pos h

theorem exec_setPaletteEntry_beyond (y pb pr : Rat) (h : 256 ≤ index) :
    exec (.setPaletteEntry index y pb pr) s = .fault .badIndex := if_neg h.not_gt

theorem exec_setBurst_below (q : Rat) (h : index < s.cfg.nBurst) :
    exec (.setBurst index q) s = .next (storeBurst index q s) := if_pos h

theorem exec_setBurst_beyond (q : Rat) (h : s.cfg.nBurst ≤ index) :
    exec (.setBurst index q) s = .fault .badIndex := if_neg h.not_gt

theorem exec_setHue (q : Rat) (s : State) : exec (.setHue q) s = .next (rebuildHue q s) := rfl

end

/-- Settles O43. -/
theorem compositeSettersStoreAndRebuild : Obligations.CompositeSettersStoreAndRebuild := by
  unfold Obligations.CompositeSettersStoreAndRebuild
  intro index y pb pr q s
  refine ⟨fun below => ?_, exec_setPaletteEntry_beyond y pb pr, fun sized => ⟨?_, fun below => ?_⟩,
    exec_setBurst_beyond q⟩
  · exact ⟨_, exec_setPaletteEntry_below y pb pr below, storeFind_storeSet_self _ _ _,
      fun _ other => storeFind_storeSet_other _ _ other⟩
  · refine ⟨_, exec_setHue q s, by rw [List.length_map, sized], fun k b hb => ?_⟩
    rw [List.getElem?_map, hb, Option.map_some]
  · have inside : index < s.burst.length := sized ▸ below
    exact ⟨_, exec_setBurst_below q below, by rw [List.length_set, sized],
      List.getElem?_set_self inside, fun _ other => List.getElem?_set_ne (Ne.symm other)⟩

/-! Half turns. -/

/-- An angle in `[0, 360)` that differs from `d` by whole turns is `d` reduced. -/
theorem reduceAngle_eq {d e : Rat} {k : ℤ} (turns : d = 360 * k + e) (low : 0 ≤ e)
    (high : e < 360) : reduceAngle d = e := by
  have floor : (d / 360).floor = k := by
    change ⌊d / 360⌋ = k
    rw [Int.floor_eq_iff, turns]
    constructor <;> linarith
  rw [reduceAngle, floor, turns]
  ring

theorem reduceAngle_turns (d : Rat) : ∃ k : ℤ, d = 360 * k + reduceAngle d :=
  ⟨(d / 360).floor, by rw [reduceAngle]; ring⟩

theorem reduceAngle_range (d : Rat) : 0 ≤ reduceAngle d ∧ reduceAngle d < 360 := by
  have below : ((d / 360).floor : Rat) ≤ d / 360 := Int.floor_le (d / 360)
  have above : d / 360 < (d / 360).floor + 1 := Int.lt_floor_add_one (d / 360)
  rw [reduceAngle]
  constructor <;> linarith

/-- Half a turn on, a reduced angle lies half a turn up or down. -/
theorem reduceAngle_half (d : Rat) : reduceAngle (d + 180) =
    if reduceAngle d < 180 then reduceAngle d + 180 else reduceAngle d - 180 := by
  obtain ⟨low, high⟩ := reduceAngle_range d
  obtain ⟨k, turns⟩ := reduceAngle_turns d
  split_ifs with side
  · exact reduceAngle_eq (k := k) (by linarith) (by linarith) (by linarith)
  · exact reduceAngle_eq (k := k + 1) (by push_cast; linarith) (by linarith) (by linarith)

/-- Half a turn negates the cosine that a folded angle stands for. -/
theorem foldAngle_half {e : Rat} (low : 0 ≤ e) (high : e < 360) (c : Rat) :
    foldAngle (if e < 180 then e + 180 else e - 180) c = foldAngle e (-c) := by
  unfold foldAngle
  split_ifs
  any_goals linarith
  all_goals simp only [Tone.mk.injEq, neg_neg, and_true]
  all_goals linarith

theorem toneOf_half (d c : Rat) : toneOf (d + 180) c = toneOf d (-c) := by
  obtain ⟨low, high⟩ := reduceAngle_range d
  rw [toneOf, reduceAngle_half, foldAngle_half low high, toneOf]

theorem foldAngle_neg (e c : Rat) :
    foldAngle e (-c) = ⟨(foldAngle e c).angle, -(foldAngle e c).coef⟩ := by
  unfold foldAngle
  split_ifs <;> rfl

theorem simplify_neg (t : Tone) :
    Tone.simplify ⟨t.angle, -t.coef⟩ = ⟨t.simplify.angle, -t.simplify.coef⟩ := by
  unfold Tone.simplify
  split_ifs <;> simp [neg_div]

theorem toneOf_neg (d c : Rat) : toneOf d (-c) = ⟨(toneOf d c).angle, -(toneOf d c).coef⟩ := by
  rw [toneOf, foldAngle_neg, simplify_neg, toneOf]

theorem cosDeg_half (d : Rat) : cosDeg (d + 180) = (cosDeg d).neg := by
  simp only [cosDeg, toneOf_half, toneOf_neg d 1, mergeTones, List.foldr, insertTone, consTone,
    Amp.neg, Amp.scale]
  by_cases zero : (toneOf d 1).coef = 0 <;> simp [zero]

theorem sinDeg_half (d : Rat) : sinDeg (d + 180) = (sinDeg d).neg := by
  rw [sinDeg, show d + 180 - 90 = d - 90 + 180 by ring, cosDeg_half, sinDeg]

theorem scale_neg_comm {q : Rat} (nonzero : q ≠ 0) (a : Amp) : a.neg.scale q = (a.scale q).neg := by
  simp [Amp.neg, Amp.scale, nonzero]

/-! The burst tables. -/

theorem theta_radians (c : Params) (t : Nat) :
    radians (theta c t) = 2 * Real.pi * c.ncyc * t / c.tmax + c.modPhase * Real.pi := by
  rw [radians, theta]
  push_cast
  ring

section
variable (c : Params) (h o : Rat)

/-- The entries of the four tables (`47_composite.md` R400), 0 beyond `TMAX`. -/
theorem modU_getElem? {t : Nat} (inside : t < c.tmax) :
    (buildBurst c h o).modU[t]? = some (sinDeg (theta c t)) := by
  rw [buildBurst, List.getElem?_map, List.getElem?_range inside, Option.map_some]

theorem modV_getElem? {t : Nat} (inside : t < c.tmax) :
    (buildBurst c h o).modV[t]? = some (cosDeg (theta c t)) := by
  rw [buildBurst, List.getElem?_map, List.getElem?_range inside, Option.map_some]

theorem demU_getElem? {t : Nat} (inside : t < c.tmax) :
    (buildBurst c h o).demU[t]? = some ((sinDeg (theta c t + phi c h o)).scale 2) := by
  rw [buildBurst, List.getElem?_map, List.getElem?_range inside, Option.map_some]

theorem demV_getElem? {t : Nat} (inside : t < c.tmax) :
    (buildBurst c h o).demV[t]? = some ((cosDeg (theta c t + phi c h o)).scale 2) := by
  rw [buildBurst, List.getElem?_map, List.getElem?_range inside, Option.map_some]

/-- The demodulation entries over the reals, 0 beyond `TMAX`. -/
theorem demU_real (t : Nat) : ((buildBurst c h o).demU.getD t .zero).real =
    if t < c.tmax then 2 * Real.sin (radians (theta c t) + radians (phi c h o)) else 0 := by
  split_ifs with inside
  · simp [List.getD_eq_getElem?_getD, demU_getElem? c h o inside, radians_add]
  · simp [List.getD_eq_getElem?_getD, buildBurst, inside]

theorem demV_real (t : Nat) : ((buildBurst c h o).demV.getD t .zero).real =
    if t < c.tmax then 2 * Real.cos (radians (theta c t) + radians (phi c h o)) else 0 := by
  split_ifs with inside
  · simp [List.getD_eq_getElem?_getD, demV_getElem? c h o inside, radians_add]
  · simp [List.getD_eq_getElem?_getD, buildBurst, inside]

end

/-- `b` is `d` turned by `g` (`47_composite.md` R431): the modulation tables are the same, the
demodulation tables are turned back. -/
structure TurnedBack (g : Rat) (d b : BurstDesc) : Prop where
  modU : b.modU = d.modU
  modV : b.modV = d.modV
  demU : ∀ t, (b.demU.getD t .zero).real =
    (d.demU.getD t .zero).real * Real.cos (radians g) +
      (d.demV.getD t .zero).real * Real.sin (radians g)
  demV : ∀ t, (b.demV.getD t .zero).real =
    (d.demV.getD t .zero).real * Real.cos (radians g) -
      (d.demU.getD t .zero).real * Real.sin (radians g)
  half : g = 180 → b.demU = d.demU.map Amp.neg ∧ b.demV = d.demV.map Amp.neg

/-- The hue law: where `phi` turns by `g` and `theta` stays, the descriptor turns by `g`. -/
theorem buildBurst_turnedBack {c c' : Params} {h h' o o' g : Rat} (tmax : c'.tmax = c.tmax)
    (same : theta c' = theta c) (turn : phi c' h' o' = phi c h o + g) :
    TurnedBack g (buildBurst c h o) (buildBurst c' h' o') where
  modU := by rw [buildBurst, buildBurst, tmax, same]
  modV := by rw [buildBurst, buildBurst, tmax, same]
  demU t := by
    rw [demU_real, demU_real, demV_real, tmax, same, turn, radians_add, ← add_assoc, Real.sin_add]
    split_ifs <;> ring
  demV t := by
    rw [demV_real, demV_real, demU_real, tmax, same, turn, radians_add, ← add_assoc, Real.cos_add]
    split_ifs <;> ring
  half := by
    rintro rfl
    have two : (2 : Rat) ≠ 0 := two_ne_zero
    simp only [buildBurst, tmax, same, turn, ← add_assoc, sinDeg_half, cosDeg_half,
      scale_neg_comm two, List.map_map, Function.comp_def, and_self]

/-- Settles O44: offset, hue and `PHASE0` each enter the tables by `phi` alone. -/
theorem burstTablesAndTheHueLaw : Obligations.BurstTablesAndTheHueLaw := by
  unfold Obligations.BurstTablesAndTheHueLaw
  intro c h o g
  refine ⟨fun t inside => ⟨_, _, _, _, modU_getElem? c h o inside, ?_,
    modV_getElem? c h o inside, ?_, demU_getElem? c h o inside, ?_,
    demV_getElem? c h o inside, ?_⟩, fun b hb => ?_⟩
  · rw [sinDeg_real, theta_radians]
  · rw [cosDeg_real, theta_radians]
  · rw [scale_real, sinDeg_real, radians_add, theta_radians, radians, phi, Rat.cast_ofNat]
  · rw [scale_real, cosDeg_real, radians_add, theta_radians, radians, phi, Rat.cast_ofNat]
  · have turned : TurnedBack g (buildBurst c h o) b := by
      simp only [List.mem_cons, List.not_mem_nil, or_false] at hb
      obtain rfl | rfl | rfl := hb
      · exact buildBurst_turnedBack rfl rfl (by rw [phi, phi]; ring)
      · exact buildBurst_turnedBack rfl rfl (by rw [phi, phi]; ring)
      · exact buildBurst_turnedBack rfl rfl (by rw [phi, phi]; ring)
    exact ⟨turned.modU, turned.modV, fun t => ⟨turned.demU t, turned.demV t⟩, turned.half⟩

end Sys2Proof.Machine
end

section
/-! The output stage (`47_composite.md` R391, R423). The bisection of the identity's rises ends at
the level whose rises enclose the value, which is the rounded one; of any curve a greater value
passes every rise that a smaller one does. A comparison of rationals is always decided. -/

namespace Sys2Proof.Machine

/-! Rationals. -/

theorem ofRat_add (p q : Rat) : (Amp.ofRat p).add (.ofRat q) = .ofRat (p + q) := by
  by_cases hp : p = 0 <;> by_cases hq : q = 0 <;>
    simp [Amp.ofRat, Amp.add, consTone, insertTone, hp, hq]

theorem spanOf_ofRat (k : Nat) (q : Rat) : spanOf k (Amp.ofRat q).tones = ⟨q, q⟩ := by
  by_cases hq : q = 0 <;> simp [Amp.ofRat, consTone, spanOf, Tone.span, cosSpan, hq]

/-- The comparison of two rationals never needs the free value of assumption 4. -/
theorem ofRat_decided (q v : Rat) : (Amp.ofRat v).decided q = true := by
  have sign : ∃ b, signAt 16 (Amp.ofRat (v + -q)).tones = some b := by
    rw [signAt, spanOf_ofRat]
    rcases le_or_gt 0 (v + -q) with nonneg | neg
    · exact ⟨true, if_pos nonneg⟩
    · exact ⟨false, by rw [if_neg neg.not_ge, if_pos neg]⟩
  obtain ⟨b, hb⟩ := sign
  rw [Amp.decided, ofRat_add, nonneg?, hb]
  rfl

theorem ofRat_outputDecided (c : Params) (v : Rat) : outputDecided c (.ofRat v) = true := by
  unfold outputDecided
  split <;> simp [ofRat_decided]

/-! Levels of the identity. -/

/-- `n` is the level of the real `v`: of the rises from 1 to 255, `v` has passed those up to `n`. -/
structure LevelOf (v : ℝ) (n : Nat) : Prop where
  range : n ≤ 255
  passed : 0 < n → (identityRise n : ℝ) ≤ v
  ahead : n < 255 → v < (identityRise (n + 1) : ℝ)

theorem identityRise_real (k : Nat) : (identityRise k : ℝ) = (2 * k - 1) / 510 := by
  rw [identityRise]
  push_cast
  rfl

theorem identityRise_mono {m n : Nat} (h : m ≤ n) : (identityRise m : ℝ) ≤ identityRise n := by
  rw [identityRise_real, identityRise_real]
  have : (m : ℝ) ≤ n := by exact_mod_cast h
  linarith

/-- What the bisection of `2 ^ n` levels from `base` on ends with. -/
theorem levelFrom_spec {a : Amp} {n base : Nat}
    (decided : ∀ k, base < k → k < base + 2 ^ n → a.decided (identityRise k) = true) :
    base ≤ levelFrom a n base ∧ levelFrom a n base < base + 2 ^ n ∧
      (base < levelFrom a n base → (identityRise (levelFrom a n base) : ℝ) ≤ a.real) ∧
      (levelFrom a n base + 1 < base + 2 ^ n →
        a.real < (identityRise (levelFrom a n base + 1) : ℝ)) := by
  induction n generalizing base with
  | zero => simp [levelFrom]
  | succ n ih =>
    have double : 2 ^ (n + 1) = 2 ^ n + 2 ^ n := by ring
    have pos : 0 < 2 ^ n := Nat.two_pow_pos n
    have middle := atLeast_sound (decided (base + 2 ^ n) (by omega) (by omega))
    rw [levelFrom]
    split_ifs with reached
    · obtain ⟨low, high, passed, ahead⟩ :=
        ih (base := base + 2 ^ n) fun k hk hk' => decided k (by omega) (by omega)
      refine ⟨by omega, by omega, fun _ => ?_, fun h => ahead (by omega)⟩
      rcases low.eq_or_lt with same | above
      · exact same ▸ middle.1 reached
      · exact passed above
    · obtain ⟨low, high, passed, ahead⟩ :=
        ih (base := base) fun k hk hk' => decided k hk (by omega)
      refine ⟨low, by omega, passed, fun _ => ?_⟩
      rcases (Nat.succ_le_of_lt high).eq_or_lt with same | below
      · exact (congrArg identityRise same) ▸ not_le.1 fun h => reached (middle.2 h)
      · exact ahead below

section
variable {c : Params} {a b : Amp}

theorem identity_decided (gamma : c.gamma = .identity) (decided : outputDecided c a = true)
    {k : Nat} (low : 0 < k) (high : k < 256) : a.decided (identityRise k) = true := by
  rw [outputDecided, gamma] at decided
  obtain ⟨j, rfl⟩ : ∃ j, k = j + 1 := ⟨k - 1, by omega⟩
  exact List.all_eq_true.1 decided j (List.mem_range.2 (by omega))

/-- With the identity as `GAMMA` the output is the level of the value. -/
theorem quantise_levelOf (gamma : c.gamma = .identity) (decided : outputDecided c a = true) :
    LevelOf a.real (quantise c a).toNat := by
  obtain ⟨_, high, passed, ahead⟩ := levelFrom_spec (a := a) (n := 8) (base := 0)
    fun k hk hk' => identity_decided gamma decided hk (by omega)
  have level : (quantise c a).toNat = levelFrom a 8 0 := by
    rw [quantise, gamma]
    exact Nat.mod_eq_of_lt (by omega)
  rw [level]
  exact ⟨by omega, passed, fun h => ahead (by omega)⟩

theorem LevelOf.mono {v w : ℝ} {m n : Nat} (hm : LevelOf v m) (hn : LevelOf w n) (le : v ≤ w) :
    m ≤ n := by
  by_contra above
  have passed := hm.passed (by omega)
  have ahead := hn.ahead (by have := hm.range; omega)
  have rises := identityRise_mono (show n + 1 ≤ m by omega)
  linarith

/-- The level of a value is the value rounded (`47_composite.md` R423). -/
theorem LevelOf.eq_floor {v : ℝ} {n : Nat} (h : LevelOf v n) :
    ⌊255 * max 0 (min v 1) + 1 / 2⌋ = (n : ℤ) := by
  have range : (n : ℝ) ≤ 255 := by exact_mod_cast h.range
  rw [Int.floor_eq_iff, Int.cast_natCast]
  constructor
  · rcases n.eq_zero_or_pos with rfl | pos
    · have := le_max_left 0 (min v 1)
      rw [Nat.cast_zero]
      linarith
    · have passed := h.passed pos
      rw [identityRise_real] at passed
      have clamped : (2 * (n : ℝ) - 1) / 510 ≤ max 0 (min v 1) :=
        le_max_of_le_right (le_min passed (by linarith))
      linarith
  · rcases h.range.eq_or_lt with rfl | below
    · have : max 0 (min v 1) ≤ 1 := max_le zero_le_one (min_le_right v 1)
      push_cast
      linarith
    · have ahead := h.ahead below
      rw [identityRise_real] at ahead
      push_cast at ahead
      have clamped : max 0 (min v 1) < (2 * ((n : ℝ) + 1) - 1) / 510 := by
        refine max_lt ?_ (min_lt_of_left_lt ahead)
        have : (0 : ℝ) ≤ n := Nat.cast_nonneg n
        linarith
      linarith

theorem quantise_eq_roundOutput (gamma : c.gamma = .identity) (decided : outputDecided c a = true) :
    quantise c a = roundOutput a.real := by
  rw [roundOutput, (quantise_levelOf gamma decided).eq_floor, BitVec.ofInt_natCast,
    BitVec.ofNat_toNat, BitVec.setWidth_eq]

/-! Any curve. -/

theorem risePassed_mono {t : Rat} (ha : a.decided t = true) (hb : b.decided t = true)
    (le : a.real ≤ b.real) (h : risePassed a t = true) : risePassed b t = true := by
  simp only [risePassed, Bool.or_eq_true, Bool.and_eq_true] at h ⊢
  exact h.imp_right fun ⟨range, passed⟩ =>
    ⟨range, (atLeast_sound hb).2 (((atLeast_sound ha).1 passed).trans le)⟩

theorem quantise_levels_toNat {rises : List Rat} (gamma : c.gamma = .levels rises) :
    (quantise c a).toNat = min 255 (rises.countP (risePassed a)) := by
  rw [quantise, gamma]
  exact Nat.mod_eq_of_lt (by omega)

/-- A greater value never gives a smaller byte. -/
theorem quantise_mono (ha : outputDecided c a = true) (hb : outputDecided c b = true)
    (le : a.real ≤ b.real) : (quantise c a).toNat ≤ (quantise c b).toNat := by
  cases gamma : c.gamma with
  | identity => exact (quantise_levelOf gamma ha).mono (quantise_levelOf gamma hb) le
  | levels rises =>
    simp only [outputDecided, gamma, List.all_eq_true] at ha hb
    rw [quantise_levels_toNat gamma, quantise_levels_toNat gamma]
    have passed := List.countP_mono_left fun t ht => risePassed_mono (ha t ht) (hb t ht) le
    exact min_le_min_left 255 passed

/-- Values that are the same real give the same byte. -/
theorem quantise_congr (ha : outputDecided c a = true) (hb : outputDecided c b = true)
    (same : a.real = b.real) : quantise c a = quantise c b :=
  BitVec.eq_of_toNat_eq (le_antisymm (quantise_mono ha hb same.le) (quantise_mono hb ha same.ge))

end

/-- Settles O45. -/
theorem outputStageRounds : Obligations.OutputStageRounds := by
  unfold Obligations.OutputStageRounds
  refine fun c => ⟨fun v gamma => ?_, fun a => quantise_eq_roundOutput, fun a b => quantise_mono⟩
  have cast : (255 * max 0 (min (v : ℝ) 1) + 1 / 2 : ℝ) =
      ((255 * max 0 (min v 1) + 1 / 2 : Rat) : ℝ) := by push_cast; rfl
  rw [quantise_eq_roundOutput gamma (ofRat_outputDecided c v), ofRat_real, roundOutput, cast,
    Rat.floor_cast]
  rfl

end Sys2Proof.Machine
end

section
/-! The four `render_line` variants (`47_composite.md` R390, R404 to R413). Each looks up the
triples of its row and makes one pixel of each; they differ in the pixels alone. -/

namespace Sys2Proof.Machine

/-! The colours of a row. -/

section
variable {s : State} {buf : List Byte} {ks : List Ycc}

theorem rowColours_cons (s : State) (b : Byte) (buf : List Byte) : rowColours s (b :: buf) =
    (storeFind s.colour b.toNat).bind fun k => (rowColours s buf).map (k :: ·) := by
  simp only [rowColours, List.mapM_cons, Option.pure_def, Option.bind_eq_bind, Option.map_eq_bind]
  rfl

theorem rowColours_isSome (s : State) (buf : List Byte) :
    (rowColours s buf).isSome = coloursSet s buf := by
  induction buf with
  | nil => rfl
  | cons b buf ih =>
    rw [rowColours_cons, coloursSet, List.all_cons, ← coloursSet, ← ih]
    cases storeFind s.colour b.toNat <;> simp

/-- The triples of a row are those of its positions, one for each. -/
theorem rowColours_map (h : rowColours s buf = some ks) :
    buf.map (fun b => storeFind s.colour b.toNat) = ks.map some := by
  induction buf generalizing ks with
  | nil =>
    cases h
    rfl
  | cons b buf ih =>
    rw [rowColours_cons] at h
    obtain ⟨k, hk, hrest⟩ := Option.bind_eq_some_iff.1 h
    obtain ⟨rest, hks, rfl⟩ := Option.map_eq_some_iff.1 hrest
    rw [List.map_cons, List.map_cons, hk, ih hks]

theorem rowColours_length (h : rowColours s buf = some ks) : ks.length = buf.length := by
  simpa using (congrArg List.length (rowColours_map h)).symm

theorem rowColours_getElem? (h : rowColours s buf = some ks) {x : Nat} {b : Byte}
    (hb : buf[x]? = some b) : ks[x]? = storeFind s.colour b.toNat := by
  have at_x := congrArg (·[x]?) (rowColours_map h)
  simp only [List.getElem?_map, hb, Option.map_some] at at_x
  cases hk : ks[x]? with
  | none => simp [hk] at at_x
  | some k => simpa [hk] using at_x.symm

end

/-! The variants. -/

/-- The `render_line` call of a variant (`47_composite.md` R390). -/
def renderWith (v : Variant) (sel : BurstSel) (n : Nat) (buf : List Byte) : Instr :=
  match v with
  | .palette => .renderPalette sel n buf
  | .art2 => .renderArt2 sel n buf
  | .art5 => .renderArt5 sel n buf
  | .sim => .renderSim sel n buf

/-- The pixels of a row with the triples `ks`. -/
def rowPixels (v : Variant) (s : State) (sel : BurstSel) (buf : List Byte)
    (ks : List Ycc) : List Rgb :=
  match v with
  | .palette => ks.map (plainPixel s sel)
  | .art2 => ks.mapIdx fun x k =>
    artPixel s.cfg.art2 Config.art2Pixel sel (phaseIndex s.cfg x) (art2Key s.cfg buf x)
      (plainPixel s sel k)
  | .art5 => ks.mapIdx fun x k =>
    artPixel s.cfg.art5 Config.art5Pixel sel (phaseIndex s.cfg x) (art5Key s.cfg buf x)
      (plainPixel s sel k)
  | .sim => simPixels s sel ks

theorem exec_renderWith (v : Variant) (sel : BurstSel) (n : Nat) (buf : List Byte) (s : State) :
    exec (renderWith v sel n buf) s =
      withRow s ((rowColours s (buf.take n)).map (rowPixels v s sel (buf.take n))) := by
  cases v <;> rfl

theorem variantRow_eq (s : State) (sel : BurstSel) (buf : List Byte) :
    variantRow s sel buf = (rowColours s buf).map (rowPixels s.cfg.variant s sel buf) := by
  unfold variantRow
  cases s.cfg.variant <;> rfl

theorem simPixels_length (s : State) (sel : BurstSel) (ks : List Ycc) :
    (simPixels s sel ks).length = ks.length := by
  unfold simPixels
  dsimp only
  split_ifs <;> simp [filterRow, modulate]

theorem rowPixels_length (v : Variant) (s : State) (sel : BurstSel) (buf : List Byte)
    (ks : List Ycc) : (rowPixels v s sel buf ks).length = ks.length := by
  cases v with
  | palette => exact List.length_map _
  | art2 | art5 => exact List.length_mapIdx
  | sim => exact simPixels_length s sel ks

section
variable {v : Variant} {sel : BurstSel} {buf : List Byte} {s t : State}

theorem exec_renderWith_next {n : Nat} (h : exec (renderWith v sel n buf) s = .next t) :
    ∃ ks, rowColours s (buf.take n) = some ks ∧
      t = setRowOut (rowPixels v s sel (buf.take n) ks) s := by
  rw [exec_renderWith] at h
  cases hks : rowColours s (buf.take n) with
  | none =>
    rw [hks] at h
    cases h
  | some ks =>
    rw [hks] at h
    cases h
    exact ⟨ks, rfl, rfl⟩

/-- A whole row whose colours are known. -/
theorem exec_renderWith_colours {ks : List Ycc} (v : Variant) (sel : BurstSel)
    (h : rowColours s buf = some ks) :
    exec (renderWith v sel buf.length buf) s = .next (setRowOut (rowPixels v s sel buf ks) s) := by
  rw [exec_renderWith, List.take_length, h]
  rfl

theorem exec_renderWith_set (v : Variant) (sel : BurstSel) (set : coloursSet s buf = true) :
    ∃ row, row.length = buf.length ∧
      exec (renderWith v sel buf.length buf) s = .next { s with rowOut := row } := by
  rw [← rowColours_isSome] at set
  obtain ⟨ks, hks⟩ := Option.isSome_iff_exists.1 set
  exact ⟨_, (rowPixels_length v s sel buf ks).trans (rowColours_length hks),
    exec_renderWith_colours v sel hks⟩

theorem rowColours_unset (unset : coloursSet s buf = false) : rowColours s buf = none := by
  rw [← rowColours_isSome] at unset
  exact Option.not_isSome_iff_eq_none.1 (Bool.eq_false_iff.1 unset)

theorem exec_renderWith_unset (v : Variant) (sel : BurstSel) (unset : coloursSet s buf = false) :
    exec (renderWith v sel buf.length buf) s = .fault .unsetColour := by
  rw [exec_renderWith, List.take_length, rowColours_unset unset]
  rfl

/-- Each of the four calls is the one of its variant. -/
theorem mem_renderCalls {n : Nat} {i : Instr} (h : i ∈ [Instr.renderPalette sel n buf,
    .renderArt2 sel n buf, .renderArt5 sel n buf, .renderSim sel n buf]) :
    ∃ v, i = renderWith v sel n buf := by
  simp only [List.mem_cons, List.not_mem_nil, or_false] at h
  obtain rfl | rfl | rfl | rfl := h
  · exact ⟨.palette, rfl⟩
  · exact ⟨.art2, rfl⟩
  · exact ⟨.art5, rfl⟩
  · exact ⟨.sim, rfl⟩

end

/-- Settles O46. -/
theorem renderLineAnswersSetColours : Obligations.RenderLineAnswersSetColours := by
  unfold Obligations.RenderLineAnswersSetColours
  intro sel buf s i hi
  obtain ⟨v, rfl⟩ := mem_renderCalls hi
  exact ⟨exec_renderWith_set v sel, exec_renderWith_unset v sel⟩

/-! The plain pixel. -/

section
variable {s : State} {sel : BurstSel}

theorem burstOf_eq {d : BurstDesc} (h : s.burst[sel.index]? = some d) : burstOf s sel = d := by
  rw [burstOf, List.getD_eq_getElem?_getD, h, Option.getD_some]

/-- `U cos(f) + V sin(f)` and `-U sin(f) + V cos(f)`, the plain chroma of R406. -/
def plainU (f u v : Rat) : Amp := ((cosDeg f).scale u).add ((sinDeg f).scale v)

/-- The second component of the plain chroma. -/
def plainV (f u v : Rat) : Amp := ((sinDeg f).scale (-u)).add ((cosDeg f).scale v)

theorem plainPixel_grey (s : State) (k : Ycc) :
    plainPixel s .none k = outRgb s.cfg (.ofRat k.y) (.ofRat k.y) (.ofRat k.y) := rfl

theorem plainPixel_coloured {d : BurstDesc} (coloured : sel ≠ .none)
    (h : s.burst[sel.index]? = some d) (k : Ycc) :
    plainPixel s sel k = outYuv s.cfg (.ofRat k.y)
      (plainU (phi s.cfg s.hue d.offset) (chromaU s.cfg k) (chromaV s.cfg k))
      (plainV (phi s.cfg s.hue d.offset) (chromaU s.cfg k) (chromaV s.cfg k)) := by
  rw [plainPixel, if_neg coloured, burstOf_eq h]
  rfl

theorem plainU_real (f u v : Rat) :
    (plainU f u v).real = u * Real.cos (radians f) + v * Real.sin (radians f) := by
  rw [plainU, add_real, scale_real, scale_real, cosDeg_real, sinDeg_real]

theorem plainV_real (f u v : Rat) :
    (plainV f u v).real = -(u * Real.sin (radians f)) + v * Real.cos (radians f) := by
  rw [plainV, add_real, scale_real, scale_real, cosDeg_real, sinDeg_real, Rat.cast_neg, neg_mul]

theorem scale_ofRat (p q : Rat) : (Amp.ofRat p).scale q = .ofRat (q * p) := by
  by_cases hp : p = 0 <;> by_cases hq : q = 0 <;> simp [Amp.ofRat, Amp.scale, consTone, hp, hq]

/-- At the phases 0 and 90 degrees the sine and the cosine are rational. -/
theorem plain_zero (u v : Rat) : plainU 0 u v = .ofRat u ∧ plainV 0 u v = .ofRat v := by
  have cos : cosDeg 0 = .ofRat 1 := by decide +kernel
  have sin : sinDeg 0 = .ofRat 0 := by decide +kernel
  simp [plainU, plainV, cos, sin, scale_ofRat, ofRat_add]

theorem plain_quarter (u v : Rat) : plainU 90 u v = .ofRat v ∧ plainV 90 u v = .ofRat (-u) := by
  have cos : cosDeg 90 = .ofRat 0 := by decide +kernel
  have sin : sinDeg 90 = .ofRat 1 := by decide +kernel
  simp [plainU, plainV, cos, sin, scale_ofRat, ofRat_add]

end

/-- Settles O47. -/
theorem palettePixels : Obligations.PalettePixels := by
  unfold Obligations.PalettePixels
  intro sel buf s t x b k d render hb hk hd c f u v
  obtain ⟨ks, hks, rfl⟩ := exec_renderWith_next (v := .palette) render
  rw [List.take_length] at hks
  have pixel : (ks.map (plainPixel s sel))[x]? = some (plainPixel s sel k) := by
    rw [List.getElem?_map, rowColours_getElem? hks hb, hk, Option.map_some]
  have coloured (h : sel ≠ .none) := pixel.trans (congrArg some (plainPixel_coloured h hd k))
  refine ⟨?_, fun h => ⟨_, _, coloured h, plainU_real _ _ _, plainV_real _ _ _⟩,
    fun h phase => ?_, fun h phase => ?_⟩
  · rintro rfl
    exact pixel
  · obtain ⟨plain_u, plain_v⟩ := plain_zero (chromaU c k) (chromaV c k)
    exact (coloured h).trans (by rw [phi, phase, plain_u, plain_v]; rfl)
  · obtain ⟨plain_u, plain_v⟩ := plain_quarter (chromaU c k) (chromaV c k)
    exact (coloured h).trans (by rw [phi, phase, plain_u, plain_v]; rfl)

end Sys2Proof.Machine
end

section
/-! Grey pixels and the artifact variants (`47_composite.md` R402, R410 to R413, R420). -/

namespace Sys2Proof.Machine

/-! Burst 0. -/

/-- All components are equal. -/
def IsGrey (p : Rgb) : Prop := p.red = p.green ∧ p.green = p.blue

theorem outGrey_isGrey (c : Params) (y : Amp) : IsGrey (outGrey c y) := ⟨rfl, rfl⟩

theorem plainPixel_none_isGrey (s : State) (k : Ycc) : IsGrey (plainPixel s .none k) :=
  outGrey_isGrey _ _

theorem rowPixels_none_isGrey (v : Variant) (s : State) (buf : List Byte) (ks : List Ycc) :
    ∀ p ∈ rowPixels v s .none buf ks, IsGrey p := by
  intro p hp
  cases v with
  | palette =>
    obtain ⟨k, _, rfl⟩ := List.mem_map.1 hp
    exact plainPixel_none_isGrey s k
  | art2 | art5 =>
    obtain ⟨x, hx, rfl⟩ := List.mem_mapIdx.1 hp
    exact plainPixel_none_isGrey s _
  | sim =>
    obtain ⟨y, _, rfl⟩ := List.mem_map.1 hp
    exact outGrey_isGrey _ _

/-! Neighbourhoods (R413). -/

section
variable (c : Params) (buf : List Byte) (b : Byte)

/-- The black or the white index. -/
def IsPure : Prop := b = c.cidxBlack ∨ b = c.cidxWhite

/-- 0 for black, 1 for white. -/
def bwBit : Nat := if b = c.cidxBlack then 0 else 1

/-- The index at a position; outside the row it is black. -/
def shownAt (y : Nat) : Byte := if y < buf.length then buf.getD y 0 else c.cidxBlack

/-- The index to the left of a position. -/
def shownLeft (x : Nat) : Byte := if x = 0 then c.cidxBlack else shownAt c buf (x - 1)

variable {c b}

theorem bwOf_pure (h : IsPure c b) : bwOf c b = some (bwBit c b) := by
  unfold bwOf bwBit
  split_ifs with black white
  · rfl
  · rfl
  · exact (h.elim black white).elim

theorem bwOf_impure (h : ¬ IsPure c b) : bwOf c b = none := by
  rw [bwOf, if_neg fun black => h (.inl black), if_neg fun white => h (.inr white)]

theorem bwOf_black (c : Params) : bwOf c c.cidxBlack = some 0 := if_pos rfl

variable {buf} {x : Nat}

theorem bwOf_centre (inside : x < buf.length) :
    bwOf c (buf.getD x 0) = bwOf c (shownAt c buf x) := by
  rw [shownAt, if_pos inside]

theorem bwLeft_eq (inside : x < buf.length) : bwLeft c buf x = bwOf c (shownLeft c buf x) := by
  unfold bwLeft shownLeft
  split_ifs
  · exact (bwOf_black c).symm
  · exact bwOf_centre (by omega)

theorem bwRight_eq : bwRight c buf x = bwOf c (shownAt c buf (x + 1)) := by
  unfold bwRight shownAt
  split_ifs
  · rfl
  · exact (bwOf_black c).symm

/-- The key of two samples, where both are pure (R411). -/
theorem art2Key_pure (inside : x < buf.length) (left : IsPure c (shownLeft c buf x))
    (centre : IsPure c (shownAt c buf x)) :
    art2Key c buf x = some (2 * bwBit c (shownLeft c buf x) + bwBit c (shownAt c buf x)) := by
  rw [art2Key, bwLeft_eq inside, bwOf_centre inside, bwOf_pure left, bwOf_pure centre]

theorem art2Key_impure (inside : x < buf.length)
    (h : ¬ IsPure c (shownLeft c buf x) ∨ ¬ IsPure c (shownAt c buf x)) :
    art2Key c buf x = none := by
  rw [art2Key, bwLeft_eq inside, bwOf_centre inside]
  rcases h with left | centre
  · rw [bwOf_impure left]
  · rw [bwOf_impure centre]
    cases bwOf c (shownLeft c buf x) <;> rfl

/-- The key of three samples, where all are pure (R412). -/
theorem art5Key_pure (inside : x < buf.length) (left : IsPure c (shownLeft c buf x))
    (centre : IsPure c (shownAt c buf x)) (right : IsPure c (shownAt c buf (x + 1))) :
    art5Key c buf x = some (4 * bwBit c (shownLeft c buf x) + 2 * bwBit c (shownAt c buf x) +
      bwBit c (shownAt c buf (x + 1))) := by
  rw [art5Key, bwLeft_eq inside, bwOf_centre inside, bwRight_eq, bwOf_pure left, bwOf_pure centre,
    bwOf_pure right]

theorem art5Key_impure (inside : x < buf.length) (h : ¬ IsPure c (shownLeft c buf x) ∨
      ¬ IsPure c (shownAt c buf x) ∨ ¬ IsPure c (shownAt c buf (x + 1))) :
    art5Key c buf x = none := by
  rw [art5Key, bwLeft_eq inside, bwOf_centre inside, bwRight_eq]
  rcases h with left | centre | right
  · rw [bwOf_impure left]
  · rw [bwOf_impure centre]
    cases bwOf c (shownLeft c buf x) <;> rfl
  · rw [bwOf_impure right]
    cases bwOf c (shownLeft c buf x) <;> cases bwOf c (shownAt c buf x) <;> rfl

end

/-! Tables. -/

/-- The table lists the pixel `px`, and no other, for a burst, a phase index and a key. -/
def Listed (lut : List ArtEntry) (sel : BurstSel) (phase key : Nat) (px : Rgb) : Prop :=
  (∃ e ∈ lut, e.sel = sel ∧ e.phase = phase ∧ e.key = key) ∧
    ∀ e ∈ lut, e.sel = sel → e.phase = phase → e.key = key → e.pixel = px

section
variable {lut : List ArtEntry} {free : BurstSel → Nat → Nat → Rgb} {sel : BurstSel}
  {phase key : Nat} {px plain : Rgb}

theorem artLookup_listed (h : Listed lut sel phase key px) :
    artLookup lut free sel phase key = px := by
  obtain ⟨⟨e, mem, hsel, hphase, hkey⟩, only⟩ := h
  unfold artLookup
  split
  · next f found =>
    have fits := List.find?_some found
    simp only [Bool.and_eq_true, decide_eq_true_eq, beq_iff_eq] at fits
    obtain ⟨⟨fsel, fphase⟩, fkey⟩ := fits
    exact only f (List.mem_of_find?_eq_some found) fsel fphase fkey
  · next missing =>
    have := List.find?_eq_none.1 missing e mem
    simp [hsel, hphase, hkey] at this

theorem artPixel_listed (coloured : sel ≠ .none) (h : Listed lut sel phase key px) :
    artPixel lut free sel phase (some key) plain = px :=
  (if_neg coloured).trans (artLookup_listed h)

theorem artPixel_noKey : artPixel lut free sel phase none plain = plain := ite_self _

end

/-- Settles O48: with burst 0 every variant makes grey pixels; with another burst an artifact
variant differs from the plain one only where its neighbourhood gives a key. -/
theorem greyAndFallBackPixels : Obligations.GreyAndFallBackPixels := by
  unfold Obligations.GreyAndFallBackPixels
  refine ⟨fun n buf s t i hi render => ?_, ?_⟩
  · obtain ⟨v, rfl⟩ := mem_renderCalls hi
    obtain ⟨ks, _, rfl⟩ := exec_renderWith_next render
    exact rowPixels_none_isGrey v s _ ks
  · intro sel buf s t x inside coloured render c at_ left pure_ bw listed
    obtain ⟨ks, hks, rfl⟩ := exec_renderWith_next (v := .palette) render
    rw [List.take_length] at hks ⊢
    obtain ⟨k, hk⟩ : ∃ k, ks[x]? = some k :=
      ⟨_, List.getElem?_eq_getElem (by rwa [rowColours_length hks])⟩
    have plain : (rowPixels .palette s sel buf ks)[x]? = some (plainPixel s sel k) := by
      rw [rowPixels, List.getElem?_map, hk, Option.map_some]
    have art2 : (rowPixels .art2 s sel buf ks)[x]? = some (artPixel c.art2 Config.art2Pixel sel
        (phaseIndex c x) (art2Key c buf x) (plainPixel s sel k)) := by
      rw [rowPixels, List.getElem?_mapIdx, hk, Option.map_some]
    have art5 : (rowPixels .art5 s sel buf ks)[x]? = some (artPixel c.art5 Config.art5Pixel sel
        (phaseIndex c x) (art5Key c buf x) (plainPixel s sel k)) := by
      rw [rowPixels, List.getElem?_mapIdx, hk, Option.map_some]
    refine ⟨⟨_, exec_renderWith_colours .art2 sel hks, fun impure => ?_, fun px hl hc hp => ?_⟩,
      ⟨_, exec_renderWith_colours .art5 sel hks, fun impure => ?_, fun px hl hc hr hp => ?_⟩⟩
    · rw [setRowOut_rowOut, setRowOut_rowOut, art2, plain, art2Key_impure inside impure,
        artPixel_noKey]
    · rw [setRowOut_rowOut, art2, art2Key_pure inside hl hc]
      exact congrArg some (artPixel_listed coloured hp)
    · rw [setRowOut_rowOut, setRowOut_rowOut, art5, plain, art5Key_impure inside impure,
        artPixel_noKey]
    · rw [setRowOut_rowOut, art5, art5Key_pure inside hl hc hr]
      exact congrArg some (artPixel_listed coloured hp)

end Sys2Proof.Machine
end

section
/-! The simulated variant (`47_composite.md` R420 to R422): over the reals the filters, the
modulation and the demodulation are what the rules say, position by position. -/

namespace Sys2Proof.Machine

/-! Weighted sums over the taps. -/

/-- The sum of `F` over the taps, with their weights. -/
def tapSum (taps : List Rat) (F : Nat → ℝ) : ℝ :=
  (taps.mapIdx fun k (w : Rat) => (w : ℝ) * F k).sum

theorem tapSum_cons (w : Rat) (taps : List Rat) (F : Nat → ℝ) :
    tapSum (w :: taps) F = w * F 0 + tapSum taps fun k => F (k + 1) := by
  rw [tapSum, List.mapIdx_cons, List.sum_cons, tapSum]

theorem tapSum_congr {taps : List Rat} {F G : Nat → ℝ} (same : ∀ k < taps.length, F k = G k) :
    tapSum taps F = tapSum taps G := by
  induction taps generalizing F G with
  | nil => rfl
  | cons w taps ih =>
    rw [tapSum_cons, tapSum_cons, same 0 (Nat.zero_lt_succ _),
      ih fun k hk => same (k + 1) (Nat.succ_lt_succ hk)]

/-- The same sum over the taps made real first, as `firReal` and `filterRejects` form it. -/
theorem tapSum_real (taps : List Rat) (F : Nat → ℝ) :
    ((taps >>= fun w => pure (w : ℝ)).mapIdx fun k w => w * F k).sum = tapSum taps F := by
  rw [bind_pure_comp, List.map_eq_map]
  induction taps generalizing F with
  | nil => rfl
  | cons w taps ih => rw [List.map_cons, List.mapIdx_cons, List.sum_cons, tapSum_cons, ← ih]

theorem firReal_eq (g : RowFilter) (n : Nat) (f : Nat → ℝ) (x : Nat) :
    firReal g n f x = tapSum g.taps fun k =>
      if k ≤ x + g.advance ∧ x + g.advance - k < n then f (x + g.advance - k) else 0 := by
  simp only [firReal, ← tapSum_real, mul_ite, mul_zero]

/-- A filter's output depends on the row's positions alone. -/
theorem firReal_congr {g : RowFilter} {n : Nat} {f f' : Nat → ℝ} (same : ∀ j < n, f j = f' j)
    (x : Nat) : firReal g n f x = firReal g n f' x := by
  rw [firReal_eq, firReal_eq]
  refine tapSum_congr fun k _ => ?_
  split_ifs with inside
  · exact same _ inside.2
  · rfl

/-- `f[i - k]` over the reals. -/
theorem sampleBack_real (f : List Amp) (i k : Nat) : (sampleBack f i k).real =
    if k ≤ i ∧ i - k < f.length then (f.getD (i - k) .zero).real else 0 := by
  unfold sampleBack
  by_cases back : k ≤ i
  · by_cases inside : i - k < f.length
    · rw [if_pos back, if_pos ⟨back, inside⟩]
    · rw [if_pos back, if_neg fun h => inside h.2, List.getD_eq_default _ _ (not_lt.1 inside),
        zero_real]
  · rw [if_neg back, if_neg fun h => back h.1, zero_real]

/-- A filter's output over the reals (R421). -/
theorem filterAt_real (g : RowFilter) (f : List Amp) (x : Nat) :
    (filterAt g f x).real = firReal g f.length (fun j => (f.getD j .zero).real) x := by
  have sum (taps : List Rat) (F : Nat → Amp) :
      (Amp.sum (taps.mapIdx fun k w => (F k).scale w)).real = tapSum taps fun k => (F k).real := by
    induction taps generalizing F with
    | nil => rfl
    | cons w taps ih =>
      rw [tapSum_cons, ← ih, List.mapIdx_cons, sum_real, sum_real, List.map_cons, List.sum_cons,
        scale_real]
  rw [filterAt, sum, firReal_eq]
  exact tapSum_congr fun k _ => sampleBack_real f _ k

theorem filterRow_getElem? (g : RowFilter) {f : List Amp} {x : Nat} (inside : x < f.length) :
    (filterRow g f)[x]? = some (filterAt g f x) := by
  rw [filterRow, List.getElem?_mapIdx, List.getElem?_eq_getElem inside, Option.map_some]

theorem demodulate_length (c : Params) (table f : List Amp) :
    (demodulate c table f).length = f.length := List.length_mapIdx

/-- Demodulation multiplies each sample by the table's entry (R420). -/
theorem demodulate_real (c : Params) (table f : List Amp) (j : Nat) :
    ((demodulate c table f).getD j .zero).real =
      (f.getD j .zero).real * (table.getD (phaseIndex c j) .zero).real := by
  rw [demodulate, List.getD_eq_getElem?_getD, List.getD_eq_getElem?_getD (l := f),
    List.getElem?_mapIdx]
  cases f[j]? with
  | none => exact (zero_mul _).symm
  | some v => exact mul_real v _

section
variable (s : State) (sel : BurstSel) (ks : List Ycc)

theorem modulate_length : (modulate s sel ks).length = ks.length := List.length_mapIdx

variable {ks}

/-- The encoded sample of a position (R404). -/
theorem modulate_real {j : Nat} {k : Ycc} (hk : ks[j]? = some k) :
    ((modulate s sel ks).getD j .zero).real = k.y +
      chromaU s.cfg k * ((burstOf s sel).modU.getD (phaseIndex s.cfg j) .zero).real +
      chromaV s.cfg k * ((burstOf s sel).modV.getD (phaseIndex s.cfg j) .zero).real := by
  rw [modulate, List.getD_eq_getElem?_getD, List.getElem?_mapIdx, hk, Option.map_some,
    Option.getD_some, encSample, add_real, add_real, ofRat_real, scale_real, scale_real, add_assoc]

/-- The pixel of a position is made of the three filtered rows (R420). -/
theorem simPixels_getElem? {x : Nat} (inside : x < ks.length) :
    (simPixels s sel ks)[x]? =
      let f := modulate s sel ks
      let yy := filterAt s.cfg.lpY f x
      some (if sel = .none then outGrey s.cfg yy
        else outYuv s.cfg yy
          (filterAt s.cfg.lpC (demodulate s.cfg (burstOf s sel).demU f) x)
          (filterAt s.cfg.lpC (demodulate s.cfg (burstOf s sel).demV f) x)) := by
  have row : x < (modulate s sel ks).length := by rwa [modulate_length]
  have getD (table : List Amp) :
      (filterRow s.cfg.lpC (demodulate s.cfg table (modulate s sel ks))).getD x .zero =
        filterAt s.cfg.lpC (demodulate s.cfg table (modulate s sel ks)) x := by
    rw [List.getD_eq_getElem?_getD, filterRow_getElem? _ (by rwa [demodulate_length]),
      Option.getD_some]
  rw [simPixels]
  split_ifs
  · rw [List.getElem?_map, filterRow_getElem? _ row, Option.map_some]
  · rw [List.getElem?_mapIdx, filterRow_getElem? _ row, Option.map_some, getD, getD]

end

/-- The encoded sample `y + U mod_u + V mod_v` of a position of a row (R404), over the reals. -/
noncomputable def encodedAt (s : State) (d : BurstDesc) (buf : List Byte) (j : Nat) : ℝ :=
  let k := (storeFind s.colour (buf.getD j 0).toNat).getD ⟨0, 0, 0⟩
  k.y + chromaU s.cfg k * (d.modU.getD (phaseIndex s.cfg j) .zero).real +
    chromaV s.cfg k * (d.modV.getD (phaseIndex s.cfg j) .zero).real

section
variable {sel : BurstSel} {buf : List Byte} {s t : State} {d : BurstDesc}

theorem modulate_encodedAt {ks : List Ycc} (hks : rowColours s buf = some ks)
    (hd : s.burst[sel.index]? = some d) {j : Nat} (inside : j < buf.length) :
    ((modulate s sel ks).getD j .zero).real = encodedAt s d buf j := by
  obtain ⟨k, hk⟩ : ∃ k, ks[j]? = some k :=
    ⟨_, List.getElem?_eq_getElem (by rwa [rowColours_length hks])⟩
  have found := hk.symm.trans (rowColours_getElem? hks (List.getElem?_eq_getElem inside))
  rw [modulate_real s sel hk, burstOf_eq hd, encodedAt, List.getD_eq_getElem _ _ inside, ← found,
    Option.getD_some]

/-- The decoded values that the simulated variant shows at a position (R420). -/
theorem exec_renderSim_values (render : exec (.renderSim sel buf.length buf) s = .next t) {x : Nat}
    (inside : x < buf.length) (hd : s.burst[sel.index]? = some d) : ∃ yy uu vv : Amp,
      yy.real = firReal s.cfg.lpY buf.length (encodedAt s d buf) x ∧
      uu.real = firReal s.cfg.lpC buf.length (fun j =>
        encodedAt s d buf j * (d.demU.getD (phaseIndex s.cfg j) .zero).real) x ∧
      vv.real = firReal s.cfg.lpC buf.length (fun j =>
        encodedAt s d buf j * (d.demV.getD (phaseIndex s.cfg j) .zero).real) x ∧
      t.rowOut[x]? =
        some (if sel = .none then outRgb s.cfg yy yy yy else outYuv s.cfg yy uu vv) := by
  obtain ⟨ks, hks, rfl⟩ := exec_renderWith_next (v := .sim) render
  rw [List.take_length] at hks
  have length : (modulate s sel ks).length = buf.length :=
    (modulate_length s sel ks).trans (rowColours_length hks)
  have sample (j : Nat) (hj : j < buf.length) := modulate_encodedAt hks hd hj
  have demodulated (table : List Amp) :
      (filterAt s.cfg.lpC (demodulate s.cfg table (modulate s sel ks)) x).real =
        firReal s.cfg.lpC buf.length (fun j =>
          encodedAt s d buf j * (table.getD (phaseIndex s.cfg j) .zero).real) x := by
    rw [filterAt_real, demodulate_length, length]
    exact firReal_congr (fun j hj => by rw [demodulate_real, sample j hj]) x
  refine ⟨filterAt s.cfg.lpY (modulate s sel ks) x, _, _, ?_, demodulated d.demU,
    demodulated d.demV, ?_⟩
  · rw [filterAt_real, length]
    exact firReal_congr sample x
  · rw [setRowOut_rowOut, rowPixels,
      simPixels_getElem? s sel (by rwa [rowColours_length hks]), burstOf_eq hd]
    rfl

end

/-- Settles O49. -/
theorem simulatedPixels : Obligations.SimulatedPixels := by
  unfold Obligations.SimulatedPixels
  exact fun sel buf s t x d render inside hd => exec_renderSim_values render inside hd

end Sys2Proof.Machine
end

section
/-! The constant-row law (`47_composite.md` R421, R430). Inside a row of one colour the encoded and
the demodulated samples are trigonometric polynomials in the phase of the position, of the harmonics
0, 1 and 2. A filter of gain 1 keeps the constant term and, rejecting the harmonics, nothing else;
and the constant terms are the plain pixel's values. -/

namespace Sys2Proof.Machine

/-! Filters away from the ends. -/

theorem tapSum_linear (taps : List Rat) (p q : ℝ) (F G : Nat → ℝ) :
    tapSum taps (fun k => p * F k + q * G k) = p * tapSum taps F + q * tapSum taps G := by
  induction taps generalizing F G with
  | nil => simp [tapSum]
  | cons w taps ih =>
    simp only [tapSum_cons, ih]
    ring

theorem tapSum_add (taps : List Rat) (F G : Nat → ℝ) :
    tapSum taps (fun k => F k + G k) = tapSum taps F + tapSum taps G := by
  simpa using tapSum_linear taps 1 1 F G

theorem tapSum_const (taps : List Rat) (a : ℝ) : tapSum taps (fun _ => a) = taps.sum * a := by
  induction taps with
  | nil => simp [tapSum]
  | cons w taps ih =>
    rw [tapSum_cons, ih, List.sum_cons]
    push_cast
    ring

/-- Away from the ends of the row every tap finds its sample. -/
theorem firReal_inside {g : RowFilter} {n x : Nat} (left : g.taps.length ≤ x + g.advance + 1)
    (right : x + g.advance < n) (f : Nat → ℝ) :
    firReal g n f x = tapSum g.taps fun k => f (x + g.advance - k) := by
  rw [firReal_eq]
  exact tapSum_congr fun k hk => if_pos ⟨by omega, by omega⟩

theorem filterRejects_iff (c : Params) (g : RowFilter) (j : Nat) : filterRejects c g j ↔
    tapSum g.taps (fun k => Real.cos (2 * Real.pi * (j * c.ncyc * k / c.tmax))) = 0 ∧
      tapSum g.taps (fun k => Real.sin (2 * Real.pi * (j * c.ncyc * k / c.tmax))) = 0 := by
  rw [filterRejects, tapSum_real, tapSum_real]

/-! The phase of a position. -/

/-- The phase of position `j` (`47_composite.md` R400), in radians. -/
noncomputable def phaseOf (c : Params) (j : Nat) : ℝ := radians (theta c (phaseIndex c j))

/-- Reducing the phase index takes off whole turns. -/
theorem radians_theta_mod (c : Params) (m : Nat) :
    radians (theta c m) =
      radians (theta c (m % c.tmax)) + (c.ncyc * (m / c.tmax) : Nat) * (2 * Real.pi) := by
  rw [theta_radians, theta_radians]
  rcases c.tmax.eq_zero_or_pos with zero | pos
  · simp [zero]
  · have tmax : (c.tmax : ℝ) ≠ 0 := Nat.cast_ne_zero.2 pos.ne'
    have split : (m : ℝ) = c.tmax * (m / c.tmax : Nat) + (m % c.tmax : Nat) := by
      exact_mod_cast (Nat.div_add_mod m c.tmax).symm
    rw [split]
    push_cast
    field_simp
    ring

/-- `k` positions back the phase is `2 pi NCYC k / TMAX` less, but for whole turns. -/
theorem phaseOf_back (c : Params) {m k : Nat} (back : k ≤ m) :
    ∃ turns : ℤ, phaseOf c (m - k) =
      radians (theta c (m + c.t0)) - 2 * Real.pi * (c.ncyc * k / c.tmax) +
        turns * (2 * Real.pi) := by
  refine ⟨-((c.ncyc * ((m - k + c.t0) / c.tmax) : Nat) : ℤ), ?_⟩
  have turn := radians_theta_mod c (m - k + c.t0)
  have index : ((m - k + c.t0 : Nat) : ℝ) = (m + c.t0 : Nat) - k := by
    rw [← Nat.cast_sub (by omega)]
    congr 1
    omega
  rw [phaseOf, phaseIndex, ← sub_eq_iff_eq_add.2 turn, theta_radians, theta_radians, index,
    Int.cast_neg, Int.cast_natCast]
  ring

/-- Harmonics of the phase some positions back, by the angle-difference formulas. -/
theorem harmonic_back (c : Params) (j : Nat) {m k : Nat} (back : k ≤ m) :
    let a := j * radians (theta c (m + c.t0))
    let d := 2 * Real.pi * (j * c.ncyc * k / c.tmax)
    Real.sin (j * phaseOf c (m - k)) = Real.sin a * Real.cos d - Real.cos a * Real.sin d ∧
    Real.cos (j * phaseOf c (m - k)) = Real.cos a * Real.cos d + Real.sin a * Real.sin d := by
  intro a d
  obtain ⟨turns, phase⟩ := phaseOf_back c back
  have angle : j * phaseOf c (m - k) = a - d + (j * turns : ℤ) * (2 * Real.pi) := by
    rw [phase]
    push_cast
    ring
  rw [angle, Real.sin_add_int_mul_two_pi, Real.cos_add_int_mul_two_pi, Real.sin_sub, Real.cos_sub]
  exact ⟨rfl, rfl⟩

/-- A filter that rejects a harmonic makes nothing of it. -/
theorem tapSum_harmonic {c : Params} {g : RowFilter} {j m : Nat} (rejects : filterRejects c g j)
    (left : g.taps.length ≤ m + 1) (p q : ℝ) :
    tapSum g.taps (fun k => p * Real.sin (j * phaseOf c (m - k)) +
      q * Real.cos (j * phaseOf c (m - k))) = 0 := by
  obtain ⟨cosines, sines⟩ := (filterRejects_iff c g j).1 rejects
  have turned : ∀ k < g.taps.length, p * Real.sin (j * phaseOf c (m - k)) +
      q * Real.cos (j * phaseOf c (m - k)) =
      (p * Real.sin (j * radians (theta c (m + c.t0))) +
        q * Real.cos (j * radians (theta c (m + c.t0)))) *
          Real.cos (2 * Real.pi * (j * c.ncyc * k / c.tmax)) +
      (q * Real.sin (j * radians (theta c (m + c.t0))) -
        p * Real.cos (j * radians (theta c (m + c.t0)))) *
          Real.sin (2 * Real.pi * (j * c.ncyc * k / c.tmax)) := by
    intro k hk
    obtain ⟨sin, cos⟩ := harmonic_back c j (m := m) (k := k) (by omega)
    rw [sin, cos]
    ring
  rw [tapSum_congr turned, tapSum_linear, cosines, sines]
  ring

/-- Away from the ends a filter of gain 1 keeps a constant and nothing of rejected harmonics. -/
theorem firReal_constant {c : Params} {g : RowFilter} {n x : Nat} (gain : g.taps.sum = 1)
    (left : g.taps.length ≤ x + g.advance + 1) (right : x + g.advance < n) {f : Nat → ℝ}
    {a p₁ q₁ p₂ q₂ : ℝ} (first : filterRejects c g 1)
    (second : p₂ = 0 ∧ q₂ = 0 ∨ filterRejects c g 2)
    (shape : ∀ j < n, f j = a + (p₁ * Real.sin (phaseOf c j) + q₁ * Real.cos (phaseOf c j)) +
      (p₂ * Real.sin (2 * phaseOf c j) + q₂ * Real.cos (2 * phaseOf c j))) :
    firReal g n f x = a := by
  have harmonic₁ := tapSum_harmonic first left p₁ q₁
  have harmonic₂ : tapSum g.taps (fun k =>
      p₂ * Real.sin ((2 : Nat) * phaseOf c (x + g.advance - k)) +
      q₂ * Real.cos ((2 : Nat) * phaseOf c (x + g.advance - k))) = 0 := by
    rcases second with ⟨rfl, rfl⟩ | rejects
    · simp [tapSum_const]
    · exact tapSum_harmonic rejects left p₂ q₂
  rw [firReal_inside left right]
  calc tapSum g.taps (fun k => f (x + g.advance - k))
      = tapSum g.taps fun k => a + ((p₁ * Real.sin ((1 : Nat) * phaseOf c (x + g.advance - k)) +
            q₁ * Real.cos ((1 : Nat) * phaseOf c (x + g.advance - k))) +
          (p₂ * Real.sin ((2 : Nat) * phaseOf c (x + g.advance - k)) +
            q₂ * Real.cos ((2 : Nat) * phaseOf c (x + g.advance - k)))) := by
        refine tapSum_congr fun k _ => ?_
        rw [shape _ (by omega), add_assoc]
        simp only [Nat.cast_one, one_mul, Nat.cast_ofNat]
    _ = a := by
        rw [tapSum_add, tapSum_add, harmonic₁, harmonic₂, tapSum_const, gain]
        simp

/-! The encoded and the demodulated samples. -/

section
variable (y u v t f : ℝ)

/-- `(y + u sin + v cos) 2 sin(t + f)` by harmonics. -/
theorem demodulated_sin : (y + u * Real.sin t + v * Real.cos t) * (2 * Real.sin (t + f)) =
    (u * Real.cos f + v * Real.sin f) +
      (2 * y * Real.cos f * Real.sin t + 2 * y * Real.sin f * Real.cos t) +
      ((u * Real.sin f + v * Real.cos f) * Real.sin (2 * t) +
        (v * Real.sin f - u * Real.cos f) * Real.cos (2 * t)) := by
  rw [Real.sin_add, Real.sin_two_mul, Real.cos_two_mul]
  linear_combination (2 * u * Real.cos f) * Real.sin_sq_add_cos_sq t

/-- `(y + u sin + v cos) 2 cos(t + f)` by harmonics. -/
theorem demodulated_cos : (y + u * Real.sin t + v * Real.cos t) * (2 * Real.cos (t + f)) =
    (-(u * Real.sin f) + v * Real.cos f) +
      (-(2 * y * Real.sin f) * Real.sin t + 2 * y * Real.cos f * Real.cos t) +
      ((u * Real.cos f - v * Real.sin f) * Real.sin (2 * t) +
        (u * Real.sin f + v * Real.cos f) * Real.cos (2 * t)) := by
  rw [Real.cos_add, Real.sin_two_mul, Real.cos_two_mul]
  linear_combination (-2 * u * Real.sin f) * Real.sin_sq_add_cos_sq t

end

theorem phaseIndex_lt {c : Params} (pos : 0 < c.tmax) (j : Nat) : phaseIndex c j < c.tmax :=
  Nat.mod_lt _ pos

section
variable {c : Params} (pos : 0 < c.tmax) (h o : Rat) (j : Nat)
include pos

theorem modU_phase : ((buildBurst c h o).modU.getD (phaseIndex c j) .zero).real =
    Real.sin (phaseOf c j) := by
  rw [List.getD_eq_getElem?_getD, modU_getElem? c h o (phaseIndex_lt pos j), Option.getD_some,
    sinDeg_real, phaseOf]

theorem modV_phase : ((buildBurst c h o).modV.getD (phaseIndex c j) .zero).real =
    Real.cos (phaseOf c j) := by
  rw [List.getD_eq_getElem?_getD, modV_getElem? c h o (phaseIndex_lt pos j), Option.getD_some,
    cosDeg_real, phaseOf]

theorem demU_phase : ((buildBurst c h o).demU.getD (phaseIndex c j) .zero).real =
    2 * Real.sin (phaseOf c j + radians (phi c h o)) := by
  rw [demU_real, if_pos (phaseIndex_lt pos j), phaseOf]

theorem demV_phase : ((buildBurst c h o).demV.getD (phaseIndex c j) .zero).real =
    2 * Real.cos (phaseOf c j + radians (phi c h o)) := by
  rw [demV_real, if_pos (phaseIndex_lt pos j), phaseOf]

end

/-! The same pixel. -/

theorem applyRow_real (m : DecodeRow) (y u v : Amp) :
    (applyRow m y u v).real = m.y * y.real + (m.u * u.real + m.v * v.real) := by
  rw [applyRow, add_real, add_real, scale_real, scale_real, scale_real]

section
variable {c : Params} {y y' u u' v v' : Amp}

theorem outGrey_congr (decided : outputDecided c y = true) (decided' : outputDecided c y' = true)
    (same : y.real = y'.real) : outRgb c y y y = outRgb c y' y' y' := by
  rw [outRgb, outRgb, quantise_congr decided decided' same]

theorem outYuv_congr (decided : pixelDecided c y u v = true)
    (decided' : pixelDecided c y' u' v' = true)
    (hy : y.real = y'.real) (hu : u.real = u'.real) (hv : v.real = v'.real) :
    outYuv c y u v = outYuv c y' u' v' := by
  simp only [pixelDecided, Bool.and_eq_true] at decided decided'
  obtain ⟨⟨red, green⟩, blue⟩ := decided
  obtain ⟨⟨red', green'⟩, blue'⟩ := decided'
  have row (m : DecodeRow) : (applyRow m y u v).real = (applyRow m y' u' v').real := by
    rw [applyRow_real, applyRow_real, hy, hu, hv]
  rw [outYuv, outYuv, outRgb, outRgb, quantise_congr red red' (row _),
    quantise_congr green green' (row _), quantise_congr blue blue' (row _)]

end

/-- Within a row of one colour the encoded sample has the harmonics 0 and 1 only. -/
theorem encodedAt_constant {s : State} (pos : 0 < s.cfg.tmax) {n j : Nat} {b : Byte} {k : Ycc}
    (hk : storeFind s.colour b.toNat = some k) (h o : Rat) (inside : j < n) :
    encodedAt s (buildBurst s.cfg h o) (List.replicate n b) j = k.y +
      chromaU s.cfg k * Real.sin (phaseOf s.cfg j) +
      chromaV s.cfg k * Real.cos (phaseOf s.cfg j) := by
  have colour : (List.replicate n b).getD j 0 = b := by
    rw [List.getD_eq_getElem _ _ (by rwa [List.length_replicate]), List.getElem_replicate]
  rw [encodedAt, colour, hk, Option.getD_some, modU_phase pos, modV_phase pos]

/-- What the constant-row law asks of the parameters and of the position (R421, R430): filters of
gain 1 that reject the subcarrier, and the chroma filter its second harmonic, with all their taps
inside the row. -/
structure ConstantRow (c : Params) (n x : Nat) : Prop where
  pos : 0 < c.tmax
  gainY : c.lpY.taps.sum = 1
  gainC : c.lpC.taps.sum = 1
  firstY : filterRejects c c.lpY 1
  firstC : filterRejects c c.lpC 1
  secondC : filterRejects c c.lpC 2
  leftY : c.lpY.taps.length ≤ x + c.lpY.advance + 1
  rightY : x + c.lpY.advance < n
  leftC : c.lpC.taps.length ≤ x + c.lpC.advance + 1
  rightC : x + c.lpC.advance < n

section
variable {s : State} {n x : Nat} {b : Byte} {k : Ycc} (row : ConstantRow s.cfg n x)
  (hk : storeFind s.colour b.toNat = some k) (o : Rat)
include row hk

/-- The three filtered values of a row of one colour are its plain values. -/
theorem constantRow_luma :
    firReal s.cfg.lpY n (encodedAt s (buildBurst s.cfg s.hue o) (List.replicate n b)) x = k.y :=
  firReal_constant (p₁ := chromaU s.cfg k) (q₁ := chromaV s.cfg k) (p₂ := 0) (q₂ := 0) row.gainY
    row.leftY row.rightY row.firstY (.inl ⟨rfl, rfl⟩) fun j hj => by
      rw [encodedAt_constant row.pos hk _ _ hj]
      ring

theorem constantRow_chromaU :
    firReal s.cfg.lpC n (fun j => encodedAt s (buildBurst s.cfg s.hue o) (List.replicate n b) j *
        ((buildBurst s.cfg s.hue o).demU.getD (phaseIndex s.cfg j) .zero).real) x =
      chromaU s.cfg k * Real.cos (radians (phi s.cfg s.hue o)) +
        chromaV s.cfg k * Real.sin (radians (phi s.cfg s.hue o)) :=
  firReal_constant row.gainC row.leftC row.rightC row.firstC (.inr row.secondC) fun j hj => by
    rw [encodedAt_constant row.pos hk _ _ hj, demU_phase row.pos, demodulated_sin]

theorem constantRow_chromaV :
    firReal s.cfg.lpC n (fun j => encodedAt s (buildBurst s.cfg s.hue o) (List.replicate n b) j *
        ((buildBurst s.cfg s.hue o).demV.getD (phaseIndex s.cfg j) .zero).real) x =
      -(chromaU s.cfg k * Real.sin (radians (phi s.cfg s.hue o))) +
        chromaV s.cfg k * Real.cos (radians (phi s.cfg s.hue o)) :=
  firReal_constant row.gainC row.leftC row.rightC row.firstC (.inr row.secondC) fun j hj => by
    rw [encodedAt_constant row.pos hk _ _ hj, demV_phase row.pos, demodulated_cos]

end

/-- Settles O50: the simulated values are the filtered polynomials, the plain ones those of O47. -/
theorem constantRowDecodesToThePlainPixel : Obligations.ConstantRowDecodesToThePlainPixel := by
  unfold Obligations.ConstantRowDecodesToThePlainPixel
  intro sel n x b s t p k o pos gainY gainC firstY firstC secondC leftY rightY leftC rightC hk hd
    sim palette inside c f u v
  have row : ConstantRow s.cfg n x :=
    ⟨pos, gainY, gainC, firstY, firstC, secondC, leftY, rightY, leftC, rightC⟩
  have length : (List.replicate n b).length = n := List.length_replicate
  obtain ⟨yy, uu, vv, hy, hu, hv, pixel⟩ := exec_renderSim_values (buf := List.replicate n b)
    (by rwa [length]) (by rwa [length]) hd
  rw [length, constantRow_luma row hk] at hy
  rw [length, constantRow_chromaU row hk] at hu
  rw [length, constantRow_chromaV row hk] at hv
  obtain ⟨grey, coloured, _, _⟩ := palettePixels sel (List.replicate n b) s p x b k _
    (by rwa [length]) (by rw [List.getElem?_replicate, if_pos inside]) hk hd
  refine ⟨fun none => ⟨yy, hy, by rw [pixel, if_pos none], fun decided => ?_⟩, fun some => ?_⟩
  · rw [pixel, if_pos none, grey none, outGrey_congr decided (ofRat_outputDecided _ _)
      (hy.trans (ofRat_real _).symm)]
  · obtain ⟨up, vp, plain, hup, hvp⟩ := coloured some
    refine ⟨yy, uu, vv, up, vp, hy, hu, hv, hup.trans hu.symm, hvp.trans hv.symm,
      by rw [pixel, if_neg some], plain, fun decided decided' => ?_⟩
    rw [pixel, if_neg some, plain, outYuv_congr decided decided' (hy.trans (ofRat_real _).symm)
      (hu.trans hup.symm) (hv.trans hvp.symm)]

end Sys2Proof.Machine
end

section
/-! The pixel renderer (`48_vo_render.md` R441, R442): what storing consecutive pixels leaves, and
the rows outside and inside the viewport. -/

namespace Sys2Proof.Machine

/-- The keys outside the stretch that is stored hold what they held. -/
theorem storeFind_storePixels_outside (pf : PixelFormat) (out : List Rgb) {m : Store Nat}
    {i k : Nat} (outside : k < i ∨ i + out.length ≤ k) :
    storeFind (storePixels pf m i out) k = storeFind m k := by
  induction out generalizing m i with
  | nil => rfl
  | cons p out ih =>
    rw [List.length_cons] at outside
    rw [storePixels, ih (by omega), storeFind_storeSet_other _ _ (by omega)]

/-- The `j`-th pixel is stored at the `j`-th key of the stretch. -/
theorem storeFind_storePixels_inside (pf : PixelFormat) {out : List Rgb} {m : Store Nat} {i j : Nat}
    {p : Rgb} (hp : out[j]? = some p) :
    storeFind (storePixels pf m i out) (i + j) = some (packPixel pf p) := by
  induction out generalizing m i j with
  | nil => cases hp
  | cons q out ih =>
    rw [storePixels]
    cases j with
    | zero =>
      obtain rfl : q = p := Option.some.inj hp
      rw [storeFind_storePixels_outside pf out (.inl (by omega)), Nat.add_zero,
        storeFind_storeSet_self]
    | succ j =>
      rw [show i + (j + 1) = i + 1 + j by omega]
      exact ih hp

theorem viewColumns_getElem? (c : Params) (out : List Rgb) {x : Nat} (left : c.vpX ≤ x)
    (right : x < c.vpX + c.vpW) : (viewColumns c out)[x - c.vpX]? = out[x]? := by
  rw [viewColumns, List.getElem?_take_of_lt (by omega), List.getElem?_drop]
  congr 1
  omega

theorem viewColumns_length_le (c : Params) (out : List Rgb) : (viewColumns c out).length ≤ c.vpW :=
  List.length_take_le _ _

section
variable {buf : List Byte} {s : State}

theorem rowInView_iff (s : State) :
    rowInView s = true ↔ s.cfg.vpY ≤ s.voLine ∧ s.voLine < s.cfg.vpY + s.cfg.vpH := by
  rw [rowInView, Bool.and_eq_true, decide_eq_true_eq, decide_eq_true_eq]

/-- A row outside the viewport is only counted. -/
theorem exec_voRenderRow_outside (sel : BurstSel) (n : Nat) (buf : List Byte)
    (outside : ¬ rowInView s = true) :
    exec (.voRenderRow sel n buf) s = .next (skipRow s) := if_neg outside

/-- A row inside is rendered by the variant and stored (R442). -/
theorem exec_voRenderRow_set {ks : List Ycc} (sel : BurstSel) (inside : rowInView s = true)
    (hks : rowColours s buf = some ks) :
    exec (.voRenderRow sel buf.length buf) s =
      .next (storeRow (rowPixels s.cfg.variant s sel buf ks) s) := by
  simp only [exec, execVoRenderRow, voRow, if_pos inside, List.take_length, variantRow_eq, hks,
    Option.map_some]

theorem exec_voRenderRow_unset (sel : BurstSel) (inside : rowInView s = true)
    (unset : coloursSet s buf = false) :
    exec (.voRenderRow sel buf.length buf) s = .fault .unsetColour := by
  simp only [exec, execVoRenderRow, voRow, if_pos inside, List.take_length, variantRow_eq,
    rowColours_unset unset, Option.map_none]

end

/-- Settles O51. -/
theorem voRenderStoresTheViewport : Obligations.VoRenderStoresTheViewport := by
  unfold Obligations.VoRenderStoresTheViewport
  intro sel buf s
  refine ⟨fun outside => exec_voRenderRow_outside sel _ buf ?_, fun below above set => ?_,
    fun below above unset => ?_⟩
  · rw [rowInView_iff]
    omega
  · have inside := (rowInView_iff s).2 ⟨below, above⟩
    rw [← rowColours_isSome] at set
    obtain ⟨ks, hks⟩ := Option.isSome_iff_exists.1 set
    have rendered := exec_renderWith_colours s.cfg.variant sel hks
    have width := viewColumns_length_le s.cfg (rowPixels s.cfg.variant s sel buf ks)
    refine ⟨_, _, (rowPixels_length s.cfg.variant s sel buf ks).trans (rowColours_length hks), ?_,
      exec_voRenderRow_set sel inside hks, fun x p left right hp => ?_, fun k outside => ?_⟩
    · exact rendered
    · exact storeFind_storePixels_inside _ ((viewColumns_getElem? _ _ left right).trans hp)
    · exact storeFind_storePixels_outside _ _ (by omega)
  · exact exec_voRenderRow_unset sel ((rowInView_iff s).2 ⟨below, above⟩) unset

end Sys2Proof.Machine
end
